-- ==== Sys2Proof/Word.lean ====
section
/-! DEFINITION. The word types of FLG-CORE. Every value of the block is unsigned (spec/00_scope.md R11, R12). -/

namespace Sys2Proof

/-- An 8-bit value: a character code, a port cell, a byte of a command. -/
abbrev Byte := BitVec 8

/-- A 16-bit value: the Sequence, the free-running counter, a number of ticks. -/
abbrev Word16 := BitVec 16

/-- A 32-bit value: the operand of SHOW_NUMBER (NUM_WIDTH = 32, 00_scope.md R10). -/
abbrev Word32 := BitVec 32

/-- A string: a finite sequence of character codes (00_scope.md R17). -/
abbrev Text := List Byte

end Sys2Proof
end

