-- ==== Sys2Proof/Config.lean ====
section
/-! DEFINITION. What a launch of FLG-CORE fixes, and the values the spec leaves free.
The numbers are those of spec/00_scope.md R9 and R10. A constant declared `opaque` has no body: nothing can be proved
of its value, so that a claim holds for every value. -/

namespace Sys2Proof.Config

/-! ### Fixed parameters (R9, R10) -/

/-- `DISP_SLOTS`: addressable display positions, numbered 0 to 6. -/
abbrev dispSlots : Nat := 7
/-- `DISP_WIDTH`: visible positions, numbered 1 to 6. -/
abbrev dispWidth : Nat := 6
/-- `ROUNDS`: rounds per game. -/
abbrev rounds : Nat := 16
/-- `MAX_STR`: longest string operand of the command port. -/
abbrev maxStr : Nat := 255
/-- `BLANK`: the blank character code (R18). -/
abbrev blank : Byte := 0x20
/-- `BTN_A_BIT` and `BTN_B_BIT` of IN_REG. -/
abbrev btnABit : Nat := 0
abbrev btnBBit : Nat := 1
/-- `IND_A_BIT` and `IND_B_BIT` of OUT_REG. -/
abbrev indABit : Nat := 0
abbrev indBBit : Nat := 1

/-! ### The PORT space map (20_memory.md R81) -/

abbrev dispBase : Nat := 0x00
abbrev inRegAddr : Byte := 0x10
abbrev outRegAddr : Byte := 0x11
abbrev freeCntAddr : Byte := 0x20
abbrev timerStatusAddr : Byte := 0x22
abbrev tickCmpAddr : Byte := 0x24

/-- One of the two push-buttons, and the indicator of the same name. -/
inductive Button where
  | a
  | b
deriving DecidableEq, Repr, Inhabited

/-- `MODE`, fixed per launch (R10, 92_eei_decisions.md D29). -/
inductive Mode where
  | game
  | direct
deriving DecidableEq, Repr, Inhabited

/-- The parameters R10 says a model should take as arguments. -/
structure Params where
  /-- `W_PHRASE`: ticks a phrase word is shown. -/
  wPhrase : Word16
  /-- `W_SCROLL`: ticks a scroll window is shown. -/
  wScroll : Word16
  /-- `W_PLAY`: ticks before and during an indicator activation. -/
  wPlay : Word16
  /-- `W_DEBOUNCE`: ticks between two polls of a held button. -/
  wDebounce : Word16
  /-- `W_ROUND`: ticks of the controller's pauses. -/
  wRound : Word16
  /-- `TICK_COMPARE`: the periodic counter's compare value. -/
  tickCompare : Word16
  /-- `PROMPT_TEXT`: the prompt AWAIT_START scrolls. -/
  promptText : Text
  /-- `START_BUTTON`: the button that gates GENERATE. -/
  startButton : Button
deriving DecidableEq, Repr, Inhabited

/-- A launch: the mode, the command list as bytes (DIRECT mode), the parameters (10_state.md R49). -/
structure Launch where
  mode : Mode
  commands : List Byte
  params : Params
deriving DecidableEq, Repr, Inhabited

/-! ### Values the spec leaves OPEN (R10) -/

/-- The OPEN parameter TICK_COMPARE: the spec gives no value and no rule reads it. -/
opaque tickCompare : Word16

/-- Stands for the OPEN parameter PROMPT_TEXT before it is cut to a legal string. -/
opaque rawPrompt : List Byte

/-- The OPEN parameter PROMPT_TEXT: some string of at most MAX_STR characters without 0x00
(93_implementation_defined.md item 5). -/
def promptText : Text := (rawPrompt.takeWhile (· ≠ 0)).take maxStr

/-- The values of R10's table. -/
def specParams : Params where
  wPhrase := 40
  wScroll := 20
  wPlay := 25
  wDebounce := 3
  wRound := 50
  tickCompare := tickCompare
  promptText := promptText
  startButton := .a

/-! ### Draws (70_reset_and_hazards.md R322, 20_memory.md R103) -/

/-- What moves next in the interleaving of the agents of R19. A turn of MAIN is one atomic action. -/
inductive Turn where
  /-- MAIN performs its next atomic action. -/
  | main
  /-- PTIMER counts its hidden counter. -/
  | ptimerCount
  /-- PTIMER ends a period: TICK_FLAG is set (40_timing_service.md R146). -/
  | ptimerTick
  /-- FTIMER advances FREE_CNT (R147). -/
  | ftimer
  /-- ISR may run if FREE_OVF is set (60_exceptions.md R283). -/
  | isr
  /-- PLAYER (and the undriven bits) make the input levels these. -/
  | player (levels : Byte)
deriving DecidableEq, Repr, Inhabited

/-- Any turn at all, where no duty falls due. -/
opaque anyTurn : Nat → Turn

/-- How many turns pass before the next duty falls due. -/
opaque dutyGap : Nat → Nat

/-- The duties of an interleaving, a tick of PTIMER (true) and a turn of MAIN (false) by turns: at each turn the duty that
falls due next, and how many turns stand before it. -/
def duty : Nat → Bool × Nat
  | 0 => (true, dutyGap 0)
  | n + 1 =>
    match duty n with
    | (tick, 0) => (!tick, dutyGap (n + 1))
    | (tick, gap + 1) => (tick, gap)

/-- The turn taken when State prescribes none. Any fair interleaving is admitted and no other: PTIMER sets TICK_FLAG
infinitely often, so that with MAIN polling infinitely often every WAIT ends (00_scope.md R20, R103; log entry 14). -/
def freeTurn (n : Nat) : Turn :=
  match duty n with
  | (true, 0) => .ptimerTick
  | (false, 0) => .main
  | (_, _ + 1) => anyTurn n

/-- TICK_FLAG, FREE_OVF, FREE_CNT and IN_REG at reset are draws (R322). -/
opaque resetTickFlag : Bool
opaque resetFreeOvf : Bool
opaque resetFreeCnt : Word16
opaque resetInReg : Byte

/-- The indicators and the display slots at reset are any value, ⊥ for observation until first written
(93_implementation_defined.md items 14 and 15; log entry 23). -/
opaque resetIndA : Bool
opaque resetIndB : Bool
opaque resetDisp : Nat → Byte

/-- The hidden count of the periodic counter at reset is unspecified (10_state.md R46). -/
opaque resetPtimerCnt : Nat

end Sys2Proof.Config
end

