-- ==== Sys2Proof/Syntax.lean ====
section
/-! DEFINITION. The fourteen commands of FLG-CORE (spec/30_encoding.md R114), with the operand fields of their formats
(R111), and the pseudo-instructions of R121. -/

namespace Sys2Proof

/-- One command of the command port, one constructor per row of the opcode map (R114). -/
inductive Instr where
  /-- `WRITE_CHAR slot, ch` (46_port_commands.md R360), format FC. -/
  | writeChar (slot ch : Byte)
  /-- `SET_IND a, b` (R361), format FI. -/
  | setInd (a b : Bool)
  /-- `READ_BTN` (R362), format F0. -/
  | readBtn
  /-- `TICK` (40_timing_service.md R140), format F0. -/
  | tick
  /-- `WAIT units` (R142), format FW. -/
  | wait (units : Word16)
  /-- `SAMPLE_ENTROPY` (R144), format F0. -/
  | sampleEntropy
  /-- `CLEAR` (41_display_renderer.md R161), format F0. -/
  | clear
  /-- `SHOW_WORD text` (R162), format FS. -/
  | showWord (text : Text)
  /-- `SHOW_PHRASE text` (R165), format FS. -/
  | showPhrase (text : Text)
  /-- `SCROLL text` (R167), format FS. -/
  | scroll (text : Text)
  /-- `SHOW_NUMBER n` (R168), format FN. -/
  | showNumber (n : Word32)
  /-- `GENERATE` (42_sequence_generator.md R200), format F0. -/
  | generate
  /-- `PLAY_ROUND seq, round` (43_playback_engine.md R210), format FR. -/
  | playRound (seq : Word16) (round : Byte)
  /-- `CAPTURE seq, round` (44_input_capture.md R220), format FR. -/
  | capture (seq : Word16) (round : Byte)
deriving DecidableEq, Repr, Inhabited

/-- An operand field a legality rule of R116 speaks of. -/
inductive Field where
  | slot
  | ch
  /-- Bits 7:2 of an FI operand byte. -/
  | reserved
  | round
  /-- A string operand (R113). -/
  | text
deriving DecidableEq, Repr, Inhabited

/-- The pseudo-instructions of R121. -/
inductive Pseudo where
  | indOff
  | indA
  | indB
  | indBoth
  | showError
  | delayPhrase
  | delayScroll
  | delayPlay
  | delayDebounce
  | delayRound
deriving DecidableEq, Repr, Inhabited

end Sys2Proof
end

