-- ==== Sys2Proof/WellFormed.lean ====
section
/-! DEFINITION. Field legality of a command (spec/30_encoding.md R113, R116). -/

namespace Sys2Proof

/-- A string operand: at most MAX_STR characters, no 0x00 inside (R113, 00_scope.md R17). -/
def Text.legal (t : Text) : Bool := t.length ≤ Config.maxStr && t.all (· ≠ 0)

/-- The first field of a command that breaks a rule of R113 or R116, in the format's field order. -/
def Instr.badField : Instr → Option Field
  | .writeChar slot ch => if 6 < slot.toNat then some .slot else if ch = 0 then some .ch else none
  | .setInd _ _ => none
  | .readBtn => none
  | .tick => none
  | .wait _ => none
  | .sampleEntropy => none
  | .clear => none
  | .showWord t => if Text.legal t then none else some .text
  | .showPhrase t => if Text.legal t then none else some .text
  | .scroll t => if Text.legal t then none else some .text
  | .showNumber _ => none
  | .generate => none
  | .playRound _ round => if 15 < round.toNat then some .round else none
  | .capture _ round => if 15 < round.toNat then some .round else none

/-- A command that breaks no field rule. -/
def Instr.wf (i : Instr) : Bool := i.badField.isNone

/-- PROMPT_TEXT is a string of length 0 to MAX_STR without 0x00 (93_implementation_defined.md item 5). -/
def Config.Launch.wf (l : Config.Launch) : Bool := Text.legal l.params.promptText

end Sys2Proof
end

