-- ==== Sys2Proof/Decode.lean ====
section
/-! DEFINITION. The command port's decoder, total on any byte string (spec/30_encoding.md R110 to R118), and the encoder
written from the same tables. -/

namespace Sys2Proof

/-- The decoder's verdicts (R118). `offset` is the offset of the command's first byte. -/
inductive Verdict where
  | illegalOpcode (offset : Nat)
  | truncated (offset : Nat)
  | stringTooLong (offset : Nat)
  | badField (offset : Nat) (field : Field)
deriving DecidableEq, Repr, Inhabited

/-- The formats of R111. -/
inductive Format where
  | f0 | fw | fn | fr | fc | fi | fs
deriving DecidableEq, Repr, Inhabited

/-- The opcode map (R114): byte 0 gives the format; every other value is illegal (R117). -/
def formatOf (op : Byte) : Option Format :=
  match op.toNat with
  | 0x01 => some .fc
  | 0x02 => some .fi
  | 0x03 => some .f0
  | 0x10 => some .f0
  | 0x11 => some .fw
  | 0x12 => some .f0
  | 0x20 => some .f0
  | 0x21 => some .fs
  | 0x22 => some .fs
  | 0x23 => some .fs
  | 0x24 => some .fn
  | 0x30 => some .f0
  | 0x40 => some .fr
  | 0x50 => some .fr
  | _ => none

/-- A 16-bit field from its bytes, least significant first (R112). -/
def le16 (b0 b1 : Byte) : Word16 := b0.setWidth 16 ||| (b1.setWidth 16 <<< 8)

/-- A 32-bit field from its bytes, least significant first (R112). -/
def le32 (b0 b1 b2 b3 : Byte) : Word32 :=
  b0.setWidth 32 ||| (b1.setWidth 32 <<< 8) ||| (b2.setWidth 32 <<< 16) ||| (b3.setWidth 32 <<< 24)

/-- A string operand: the bytes up to the first 0x00, and what follows it; none where no 0x00 appears (R113). -/
def splitText : List Byte → Option (Text × List Byte)
  | [] => none
  | b :: bs => if b = 0 then some ([], bs) else (splitText bs).map fun p => (b :: p.1, p.2)

/-- A decoded command and the bytes after it, or the verdict. -/
abbrev Decoded := Except Verdict (Instr × List Byte)

/-- The field rules of R116 on an assembled command. -/
def checked (off : Nat) (i : Instr) (rest : List Byte) : Decoded :=
  match i.badField with
  | none => .ok (i, rest)
  | some f => .error (.badField off f)

/-- Format FW: `units`. -/
def decodeFW (off : Nat) (mk : Word16 → Instr) : List Byte → Decoded
  | b1 :: b2 :: rest => checked off (mk (le16 b1 b2)) rest
  | _ => .error (.truncated off)

/-- Format FN: `n`. -/
def decodeFN (off : Nat) (mk : Word32 → Instr) : List Byte → Decoded
  | b1 :: b2 :: b3 :: b4 :: rest => checked off (mk (le32 b1 b2 b3 b4)) rest
  | _ => .error (.truncated off)

/-- Format FR: `seq`, `round`. -/
def decodeFR (off : Nat) (mk : Word16 → Byte → Instr) : List Byte → Decoded
  | b1 :: b2 :: b3 :: rest => checked off (mk (le16 b1 b2) b3) rest
  | _ => .error (.truncated off)

/-- Format FC: `slot`, `ch`. -/
def decodeFC (off : Nat) (mk : Byte → Byte → Instr) : List Byte → Decoded
  | b1 :: b2 :: rest => checked off (mk b1 b2) rest
  | _ => .error (.truncated off)

/-- Format FI: `a` is bit 0, `b` is bit 1, bits 7:2 must be 0 (R111, R116). -/
def decodeFI (off : Nat) (mk : Bool → Bool → Instr) : List Byte → Decoded
  | b1 :: rest =>
    if b1 >>> 2 = 0 then checked off (mk (b1.getLsbD 0) (b1.getLsbD 1)) rest else .error (.badField off .reserved)
  | _ => .error (.truncated off)

/-- Format FS. Truncated where the bytes end before a terminator, StringTooLong where more than MAX_STR characters
stand before it; R118's order puts Truncated first (log entry 11). -/
def decodeFS (off : Nat) (mk : Text → Instr) (bs : List Byte) : Decoded :=
  match splitText bs with
  | none => .error (.truncated off)
  | some (text, rest) => if Config.maxStr < text.length then .error (.stringTooLong off) else checked off (mk text) rest

/-- One command at offset `off`, opcode and all (R114, R115). -/
def decodeOne (off : Nat) : List Byte → Decoded
  | [] => .error (.truncated off)
  | op :: bs =>
    match op.toNat with
    | 0x01 => decodeFC off .writeChar bs
    | 0x02 => decodeFI off .setInd bs
    | 0x03 => checked off .readBtn bs
    | 0x10 => checked off .tick bs
    | 0x11 => decodeFW off .wait bs
    | 0x12 => checked off .sampleEntropy bs
    | 0x20 => checked off .clear bs
    | 0x21 => decodeFS off .showWord bs
    | 0x22 => decodeFS off .showPhrase bs
    | 0x23 => decodeFS off .scroll bs
    | 0x24 => decodeFN off .showNumber bs
    | 0x30 => checked off .generate bs
    | 0x40 => decodeFR off .playRound bs
    | 0x50 => decodeFR off .capture bs
    | _ => .error (.illegalOpcode off)

/-- Decode with `fuel` commands at most; a command takes at least one byte, so the number of bytes is fuel enough. -/
def decodeFrom : Nat → Nat → List Byte → Except Verdict (List Instr)
  | _, _, [] => .ok []
  | 0, off, _ :: _ => .error (.truncated off)
  | fuel + 1, off, b :: bs =>
    match decodeOne off (b :: bs) with
    | .error v => .error v
    | .ok (i, rest) =>
      match decodeFrom fuel (off + ((b :: bs).length - rest.length)) rest with
      | .error v => .error v
      | .ok is => .ok (i :: is)

/-- The whole command list, or the first verdict (R118, R126). -/
def decodeProgram (bs : List Byte) : Except Verdict (List Instr) := decodeFrom bs.length 0 bs

/-! ### The encoder -/

/-- The opcode of each command (R114). -/
def opcodeOf : Instr → Byte
  | .writeChar _ _ => 0x01
  | .setInd _ _ => 0x02
  | .readBtn => 0x03
  | .tick => 0x10
  | .wait _ => 0x11
  | .sampleEntropy => 0x12
  | .clear => 0x20
  | .showWord _ => 0x21
  | .showPhrase _ => 0x22
  | .scroll _ => 0x23
  | .showNumber _ => 0x24
  | .generate => 0x30
  | .playRound _ _ => 0x40
  | .capture _ _ => 0x50

/-- A 16-bit field as bytes, least significant first (R112). -/
def bytes16 (v : Word16) : List Byte := [v.setWidth 8, (v >>> 8).setWidth 8]

/-- A 32-bit field as bytes, least significant first (R112). -/
def bytes32 (v : Word32) : List Byte :=
  [v.setWidth 8, (v >>> 8).setWidth 8, (v >>> 16).setWidth 8, (v >>> 24).setWidth 8]

/-- The FI operand byte: bit 0 = a, bit 1 = b, bits 7:2 = 0 (R111); also the value SetInd writes (20_memory.md R86). -/
def indByte (a b : Bool) : Byte := (BitVec.ofBool a).setWidth 8 ||| ((BitVec.ofBool b).setWidth 8 <<< 1)

/-- The operand bytes of a command in its format (R111). -/
def operandBytes : Instr → List Byte
  | .writeChar slot ch => [slot, ch]
  | .setInd a b => [indByte a b]
  | .readBtn => []
  | .tick => []
  | .wait units => bytes16 units
  | .sampleEntropy => []
  | .clear => []
  | .showWord t => t ++ [0]
  | .showPhrase t => t ++ [0]
  | .scroll t => t ++ [0]
  | .showNumber n => bytes32 n
  | .generate => []
  | .playRound seq round => bytes16 seq ++ [round]
  | .capture seq round => bytes16 seq ++ [round]

/-- The bytes of a command. -/
def encode (i : Instr) : List Byte := opcodeOf i :: operandBytes i

/-- The bytes of a command list. -/
def encodeProgram (is : List Instr) : List Byte := is.flatMap encode

/-! ### The opcode table's words -/

/-- The longest command: opcode, MAX_STR characters, terminator (R115). -/
def longestCommand : Nat := Config.maxStr + 2

/-- The bytes of a word numbered as the opcode table numbers its bits: byte k is bits 8k+7..8k; the bits from
`nbits` up are zero, out to the longest command. -/
def tableBytes (nbits w : Nat) : List Byte :=
  (List.range longestCommand).map fun k => BitVec.ofNat 8 ((w % 2 ^ nbits) >>> (8 * k))

/-- The command the decoder reads from such a word. -/
def decodeTableWord (nbits w : Nat) : Option Instr :=
  match decodeOne 0 (tableBytes nbits w) with
  | .ok (i, _) => some i
  | .error _ => none

/-- The bytes of such a word that its command takes; all of them where the decoder refuses it. -/
def commandBytes (nbits w : Nat) : List Byte :=
  match decodeOne 0 (tableBytes nbits w) with
  | .ok (_, rest) => (tableBytes nbits w).take (longestCommand - rest.length)
  | .error _ => tableBytes nbits w

end Sys2Proof
end

