-- ==== Sys2Proof/Machine/State.lean ====
section
/-! DEFINITION. The state of FLG-CORE as plain data (spec/10_state.md), its faults and refusals, and the state after reset.
`none` is the spec's own ⊥, "holds no value" (00_scope.md R13; log entry 1). -/

namespace Sys2Proof.Machine

/-- CSTATE, the controller state (R37); the order is the spec's numbering 0 to 3. -/
inductive CState where
  | awaitStart
  | sequenceGenerated
  | roundLoop
  | gameOver
deriving DecidableEq, Repr, Inhabited

/-- CPC's labels (R38, 45_game_controller.md R240). -/
inductive Label where
  | a0 | a1 | a2 | s0
  | rl0 | rl1 | rl2 | rl3 | rl4 | rl5 | rl6 | rl7 | rl8 | rl9 | rl10
  | g0 | g1 | g2 | g3
deriving DecidableEq, Repr, Inhabited

/-- An event of the observation trace (20_memory.md R103). -/
inductive Event where
  /-- `W(slot, ch)` (R85). -/
  | write (slot : Nat) (ch : Byte)
  /-- `I(a, b)` (R86). -/
  | ind (a b : Bool)
  /-- `E(k)` (60_exceptions.md R281). -/
  | error (k : Nat)
  /-- `RESP(v)` (30_encoding.md R119). -/
  | resp (v : Word16)
deriving DecidableEq, Repr, Inhabited

/-- The registers that can hold ⊥ and that a rule reads. -/
inductive Reg where
  | seq | dcnt | pcntPress | capOver | k | i | off | rem | digk | started
deriving DecidableEq, Repr, Inhabited

/-- A line of an operation's pseudocode that MAIN has still to run. `State.todo` lists them, the next one first: it is
"the position inside the operation" of R38. What each does is in Machine/TimingLines.lean, DisplayLines.lean and GameLines.lean. -/
inductive Stmt where
  /-- CLEAR's loop at slot `s` (41_display_renderer.md R161). -/
  | clear (s : Nat)
  /-- One WriteChar (20_memory.md R85). -/
  | write (slot : Nat) (ch : Byte)
  /-- `put_word(w)` (41_display_renderer.md R160). -/
  | putWord (w : Text)
  /-- put_word's character loop at index I. -/
  | putChars (w : Text)
  /-- The ERROR rendering with event code `k`. -/
  | showError (k : Nat)
  /-- Its character loop at index I. -/
  | errorChars
  /-- `event E(k)`. -/
  | event (k : Nat)
  /-- `WAIT(u)` on entry (40_timing_service.md R142). -/
  | wait (u : Word16)
  /-- WAIT's poll loop. -/
  | poll
  /-- SHOW_PHRASE's loop over the remaining words (R165). -/
  | phrase (ws : List Text)
  /-- SCROLL's loop on entry (R167). -/
  | scrollStart (t : Text)
  /-- SCROLL's loop body at OFF. -/
  | scrollStep (t : Text)
  /-- The window's loop at slot `s`. -/
  | window (t : Text) (s : Nat)
  /-- The end of SCROLL's loop body. -/
  | scrollNext (t : Text)
  /-- SHOW_NUMBER after its CLEAR (R168). -/
  | number (n : Word32)
  /-- SHOW_NUMBER's loop body at DIGK. -/
  | digit
  /-- The write of a digit's character at DIGK. -/
  | putDigit (ch : Byte)
  /-- One SetInd (20_memory.md R86). -/
  | ind (a b : Bool)
  /-- READ_BTN's ReadBtn (46_port_commands.md R362). -/
  | readBtn
  /-- TICK's TickTC (40_timing_service.md R140). -/
  | tick
  /-- SAMPLE_ENTROPY's ReadFree (R144). -/
  | sample
  /-- GENERATE's ReadBtn (42_sequence_generator.md R200). -/
  | genBtn
  /-- GENERATE's ReadFree and test, `pressed` read before. -/
  | genSample (pressed : Bool)
  /-- PLAY_ROUND's loop on entry (43_playback_engine.md R210). -/
  | playStart (seq : Word16) (round : Byte)
  /-- PLAY_ROUND's loop test. -/
  | playTest (seq : Word16) (round : Byte)
  /-- PLAY_ROUND's activation of the indicator of bit K. -/
  | light (seq : Word16)
  /-- The end of PLAY_ROUND's loop body. -/
  | playNext (seq : Word16) (round : Byte)
  /-- CAPTURE after its SHOW_WORD (44_input_capture.md R220). -/
  | capStart (seq : Word16) (round : Byte)
  /-- CAPTURE's loop test. -/
  | capTest (seq : Word16) (round : Byte)
  /-- CAPTURE's poll of the buttons. -/
  | capPoll (seq : Word16) (round : Byte)
  /-- The debounce re-poll of the held button (R221). -/
  | hold (x : Config.Button)
  /-- The match detector after the release (R222). -/
  | compare (seq : Word16) (x : Config.Button)
  /-- The poll of label G2 (45_game_controller.md R258). -/
  | restartPoll
deriving DecidableEq, Repr, Inhabited

/-- The state of the machine. INVENTORY.md lists every field with its rule. -/
structure State where
  /-- MODE, the command list and the parameters: fixed for the launch, written by no step (R49). -/
  launch : Config.Launch
  /-- SEQ (R30). -/
  seq : Option Word16
  /-- ROUND (R31). -/
  round : BitVec 5
  /-- SCORE (R32). -/
  score : BitVec 5
  /-- OVER (R33). -/
  overFlag : Bool
  /-- DCNT (R34). -/
  dcnt : Option Word16
  /-- PCNT_PRESS (R35). -/
  pcntPress : Option (BitVec 5)
  /-- CAPTURE's local flag `over` (44_input_capture.md R220). -/
  capOver : Option Bool
  /-- K (R36). -/
  k : Option (BitVec 5)
  /-- I (R36). -/
  i : Option (BitVec 3)
  /-- OFF (R36). -/
  off : Option (BitVec 9)
  /-- REM (R36). -/
  rem : Option Word32
  /-- DIGK (R36). -/
  digk : Option (BitVec 3)
  /-- STARTED (R36). -/
  started : Option Bool
  /-- CSTATE (R37). -/
  cstate : CState
  /-- CPC (R38), the program counter in GAME mode. -/
  cpc : Label
  /-- CIDX (R38), the program counter in DIRECT mode. -/
  cidx : Nat
  /-- The position inside the operation in progress (R38); empty between operations. -/
  todo : List Stmt
  /-- The value the last operation returned. -/
  ret : Word16
  /-- TICK_FLAG (R39), TIMER_STATUS bit 0. -/
  tickFlag : Bool
  /-- FREE_OVF (R40), TIMER_STATUS bit 1. -/
  freeOvf : Bool
  /-- FREE_CNT (R44). -/
  freeCnt : Word16
  /-- TICK_CMP (R45). -/
  tickCmp : Word16
  /-- PTIMER_CNT (R46); the spec gives no width. -/
  ptimerCnt : Nat
  /-- IN_REG (R42). -/
  inReg : Byte
  /-- OUT_REG (R43). -/
  outReg : Byte
  /-- DISP[0..6] (R48). -/
  disp : Vector Byte 7
  /-- The observation trace (20_memory.md R103), oldest event first. -/
  trace : List Event
  /-- MODEL's own: the turns prescribed next (log entry 2). -/
  turns : List Config.Turn
  /-- MODEL's own: how many free turns have been drawn (log entry 2). -/
  draws : Nat
deriving DecidableEq, Repr

/-- The model faults of 60_exceptions.md R287: outcomes of the model, not behaviour of the block. Both are safe: they
stop where the spec says no run arrives. -/
inductive Fault where
  /-- A rule read SEQ or an operation-internal register holding ⊥: "reading one is a fault" (70_reset_and_hazards.md R322;
  R287). Raised by `readReg`. Safe. -/
  | readUnset (reg : Reg)
  /-- A port access outside the map, at a wrong width or against its direction (20_memory.md R83); also WriteChar's
  requirement (R85). Raised by `memRead`, `memWrite` and `writeChar`. Safe. -/
  | portRefused (addr : Byte)
deriving DecidableEq, Repr, Inhabited

/-- The refusals of 60_exceptions.md R288, and two of the model's own. All are safe: a refused input has no run. -/
inductive Refusal where
  /-- An instruction this model gives no meaning; raised by an arm of exec, of which none is left. Safe. -/
  | notModelled (mnemonic : String)
  /-- The launch is refused: an opcode outside the map (30_encoding.md R117, R118). Raised by `step`. Safe. -/
  | illegalOpcode (offset : Nat)
  /-- The launch is refused: the list ends inside a command (R118). Raised by `step`. Safe. -/
  | truncated (offset : Nat)
  /-- The launch is refused: a string without terminator in MAX_STR + 1 bytes (R113). Raised by `step`. Safe. -/
  | stringTooLong (offset : Nat)
  /-- The launch is refused: a field breaks a rule of R116. Raised by `step`. Safe. -/
  | badField (offset : Nat) (field : Field)
  /-- A meaning was handed an operand the decoder never admits (R116); no run does so. Raised by `requireRound` and
  `requireText`. Safe. -/
  | inadmissible (field : Field)
deriving DecidableEq, Repr, Inhabited

/-- What a step, an operation or a line of pseudocode answers. -/
abbrev Result := Host.Outcome State Fault Refusal

/-- The GAME launch with the parameter values of 00_scope.md R10 (log entry 7). -/
def gameLaunch : Config.Launch where
  mode := .game
  commands := []
  params := Config.specParams

/-- A DIRECT launch of a command list, with the parameter values of R10. -/
def directLaunch (commands : List Byte) : Config.Launch where
  mode := .direct
  commands := commands
  params := Config.specParams

/-- The state after reset of a launch (10_state.md R50, 70_reset_and_hazards.md R321, R322). R50 gives CPC for GAME mode and
CIDX for DIRECT mode; that the other one of the two stands at A0 and at 0 too is the model's choice (log entry 22). OUT_REG
and DISP hold draws, bits 7:2 of OUT_REG being 0 always (R43; log entry 23). -/
def State.resetOf (l : Config.Launch) : State where
  launch := l
  seq := none
  round := 0
  score := 0
  overFlag := false
  dcnt := none
  pcntPress := none
  capOver := none
  k := none
  i := none
  off := none
  rem := none
  digk := none
  started := none
  cstate := .awaitStart
  cpc := .a0
  cidx := 0
  todo := []
  ret := 0
  tickFlag := Config.resetTickFlag
  freeOvf := Config.resetFreeOvf
  freeCnt := Config.resetFreeCnt
  tickCmp := l.params.tickCompare
  ptimerCnt := Config.resetPtimerCnt
  inReg := Config.resetInReg
  outReg := indByte Config.resetIndA Config.resetIndB
  disp := Vector.ofFn fun slot : Fin 7 => Config.resetDisp slot
  trace := []
  turns := []
  draws := 0

/-- The machine right after reset: the GAME launch (log entry 7). -/
def State.reset : State := State.resetOf gameLaunch

end Sys2Proof.Machine
end

