-- ==== Sys2Proof/Machine/Flags.lean ====
section
/-! DEFINITION. The two status flags and their port view TIMER_STATUS (spec/10_state.md R39 to R41, R47; 20_memory.md R82).
The block has no condition codes (R41). -/

namespace Sys2Proof.Machine

/-- TIMER_STATUS: bit 0 = TICK_FLAG, bit 1 = FREE_OVF, bits 7:2 read 0 (20_memory.md R82). -/
def timerStatus (s : State) : Byte :=
  (BitVec.ofBool s.tickFlag).setWidth 8 ||| ((BitVec.ofBool s.freeOvf).setWidth 8 <<< 1)

/-- `TIMER_STATUS[0] <- v`: bit 1 stays. -/
def setTickFlag (v : Bool) (s : State) : State := { s with tickFlag := v }

/-- `TIMER_STATUS[1] <- v`: bit 0 stays. -/
def setFreeOvf (v : Bool) (s : State) : State := { s with freeOvf := v }

end Sys2Proof.Machine
end

