-- ==== Sys2Proof/Machine/Ops.lean ====
section
/-! DEFINITION. The named operations every rule is written with: sequencing, register reads, the PORT space, what an
observer may rely on, the five port primitives (spec/20_memory.md R84 to R89), events, and the one interrupt
(60_exceptions.md R282 to R286). -/

namespace Sys2Proof.Machine

/-! ### Sequencing and registers -/

/-- Run `f` on the next state; a fault or a refusal ends it. -/
def andThen (r : Result) (f : State → Result) : Result :=
  match r with
  | .next s => f s
  | .fault e => .fault e
  | .refused e => .refused e

/-- `x[NAME]`: a register holding ⊥ is ReadUnset (00_scope.md R13, 60_exceptions.md R287). -/
def readReg {α : Type} (v : Option α) (reg : Reg) (f : α → Result) : Result :=
  match v with
  | some a => f a
  | none => .fault (.readUnset reg)

/-- Put lines before the lines still to run. -/
def push (ls : List Stmt) (s : State) : State := { s with todo := ls ++ s.todo }

/-- Append an event to the trace (20_memory.md R103). -/
def emit (e : Event) (s : State) : State := { s with trace := s.trace ++ [e] }

/-! ### The PORT space (R80 to R83) -/

/-- `MemRead(addr, n)` of MAIN: only IN_REG at width 1 and FREE_CNT at width 2 are readable (R81); anything else is
PortRefused (R83). The value is zero-extended to 16 bits. -/
def memRead (addr : Byte) (n : Nat) (s : State) (f : Word16 → Result) : Result :=
  if addr = Config.inRegAddr ∧ n = 1 then f (s.inReg.setWidth 16)
  else if addr = Config.freeCntAddr ∧ n = 2 then f s.freeCnt
  else .fault (.portRefused addr)

/-- `MemWrite(addr, n, v)` of MAIN: only DISP[0..6] and OUT_REG, at width 1, are writable (R81); anything else is
PortRefused (R83). -/
def memWrite (addr : Byte) (n : Nat) (v : Byte) (s : State) : Result :=
  if n ≠ 1 then .fault (.portRefused addr)
  else if addr.toNat < Config.dispBase + Config.dispSlots then
    .next { s with disp := s.disp.setIfInBounds (addr.toNat - Config.dispBase) v }
  else if addr = Config.outRegAddr then .next { s with outReg := v }
  else .fault (.portRefused addr)

/-- What the PORT space holds at an address, as R81 lays it out; none at an unmapped address. The two-byte ports show their
low byte first (R91). No access of MAIN. -/
def portView (s : State) (addr : Byte) : Option Byte :=
  if addr.toNat < Config.dispBase + Config.dispSlots then s.disp[addr.toNat - Config.dispBase]?
  else if addr = Config.inRegAddr then some s.inReg
  else if addr = Config.outRegAddr then some s.outReg
  else if addr = Config.freeCntAddr then some (s.freeCnt.setWidth 8)
  else if addr = Config.freeCntAddr + 1 then some ((s.freeCnt >>> 8).setWidth 8)
  else if addr = Config.timerStatusAddr then some (timerStatus s)
  else if addr = Config.tickCmpAddr then some (s.tickCmp.setWidth 8)
  else if addr = Config.tickCmpAddr + 1 then some ((s.tickCmp >>> 8).setWidth 8)
  else none

/-! ### What an observer may rely on (10_state.md R43, R48, R50; 70_reset_and_hazards.md R322)

Every write of an output is an event of the trace, so the trace says what has been written since reset. -/

/-- The event wrote this slot. -/
def writesSlot (slot : Nat) : Event → Bool
  | .write j _ => j = slot
  | .ind _ _ => false
  | .error _ => false
  | .resp _ => false

/-- The event wrote OUT_REG. -/
def writesOut : Event → Bool
  | .write _ _ => false
  | .ind _ _ => true
  | .error _ => false
  | .resp _ => false

/-- DISP[slot] as observed: ⊥ (none) until its first write. -/
def slotShown (s : State) (slot : Nat) : Option Byte := if s.trace.any (writesSlot slot) then s.disp[slot]? else none

/-- OUT_REG as observed: ⊥ (none) until the first SetInd. -/
def outShown (s : State) : Option Byte := if s.trace.any writesOut then some s.outReg else none

/-! ### The port primitives (R85 to R89), each one atomic action -/

/-- `WriteChar(slot, ch)` (R85). -/
def writeChar (slot : Nat) (ch : Byte) (s : State) : Result :=
  if slot < Config.dispSlots ∧ ch ≠ 0 then
    andThen (memWrite (BitVec.ofNat 8 (Config.dispBase + slot)) 1 ch s) fun s => .next (emit (.write slot ch) s)
  else .fault (.portRefused (BitVec.ofNat 8 slot))

/-- `SetInd(a, b)` (R86): both bits in one access, bits 7:2 written 0. -/
def setIndicators (a b : Bool) (s : State) : Result :=
  andThen (memWrite Config.outRegAddr 1 (indByte a b) s) fun s => .next (emit (.ind a b) s)

/-- `TickTC()` (R87): test and clear of TIMER_STATUS bit 0, TICK_FLAG, in one action; bit 1 is left as it is. -/
def tickTC (s : State) (f : Bool → State → Result) : Result :=
  f s.tickFlag (setTickFlag false s)

/-- `ReadBtn()` (R88): both buttons in one action, active-low, no side effect. -/
def readButtons (s : State) (f : Bool → Bool → Result) : Result :=
  memRead Config.inRegAddr 1 s fun v => f (v.getLsbD Config.btnABit == false) (v.getLsbD Config.btnBBit == false)

/-- `ReadFree()` (R89): one 16-bit read, no side effect. -/
def readFree (s : State) (f : Word16 → Result) : Result := memRead Config.freeCntAddr 2 s f

/-! ### The interrupt (60_exceptions.md R282 to R286) -/

/-- The overflow interrupt is pending: FREE_OVF = 1; it is always enabled (R282). -/
def interruptPending (s : State) : Bool := s.freeOvf

/-- Trap entry saves nothing and changes no mode, mask, stack or register of the block; MAIN's position is preserved
(R283). -/
def interruptEntry (s : State) : State := s

/-- The handler's one atomic action: `FREE_OVF <- 0` (R284). -/
def interruptHandler (s : State) : State := setFreeOvf false s

/-- Trap return: MAIN resumes where it was, and no state needs restoring (R285). -/
def interruptReturn (s : State) : State := s

/-- Taking the interrupt, if it is pending: entry, the handler's action, return, with nothing between (R283 to R286). -/
def takeInterrupt (s : State) : State :=
  if interruptPending s then interruptReturn (interruptHandler (interruptEntry s)) else s

end Sys2Proof.Machine
end

