-- ==== Sys2Proof/Machine/Operands.lean ====
section
/-! DEFINITION. Operands: the literals (spec/20_memory.md R102), the legality of operands (30_encoding.md R116), words of a
phrase, scroll windows, decimal digits, sequence bits, buttons. -/

namespace Sys2Proof.Machine

/-! ### The LITERAL store (R102), in the codes of 00_scope.md R18 -/

/-- The codes of ASCII characters (R18). -/
def codes (cs : List Char) : Text := cs.map fun c => BitVec.ofNat 8 c.toNat

def litWatch : Text := codes ['W', 'A', 'T', 'C', 'H']
def litGo : Text := codes ['G', 'O']
def litRound : Text := codes ['R', 'O', 'U', 'N', 'D']
def litYouWin : Text := codes ['Y', 'O', 'U', ' ', 'W', 'I', 'N']
def litGameOver : Text :=
  codes ['G', 'A', 'M', 'E', ' ', 'O', 'V', 'E', 'R', ' ', 'F', 'I', 'N', 'A', 'L', ' ', 'S', 'C', 'O', 'R', 'E']
def litError : Text := codes ['E', 'R', 'R', 'O', 'R']

/-! ### Legality (R116) -/

/-- A round operand is in 0..15; any other never reaches an operation (43_playback_engine.md R210). -/
def requireRound (round : Byte) (r : Result) : Result :=
  if round.toNat ≤ 15 then r else .refused (.inadmissible .round)

/-- A string operand is at most MAX_STR characters and holds no 0x00 (R113). -/
def requireText (t : Text) (r : Result) : Result :=
  if Text.legal t then r else .refused (.inadmissible .text)

/-! ### Words of a phrase (41_display_renderer.md R164) -/

/-- The maximal runs of non-BLANK characters, `run` being the run in progress, last character first. -/
def wordsFrom (run : Text) : Text → List Text
  | [] => if run = [] then [] else [run.reverse]
  | c :: cs =>
    if c = Config.blank then (if run = [] then wordsFrom [] cs else run.reverse :: wordsFrom [] cs)
    else wordsFrom (c :: run) cs

/-- `words(t)` (R164). -/
def words (t : Text) : List Text := wordsFrom [] t

/-! ### Scroll window (R166) -/

/-- The character window `off` shows in slot `s`: `t[j]` with j = off + s − 7 where 0 ≤ j < len(t), else BLANK. -/
def windowChar (t : Text) (off s : Nat) : Byte :=
  if 7 ≤ off + s then t.getD (off + s - 7) Config.blank else Config.blank

/-! ### Digits (R168) -/

/-- `div` of SHOW_NUMBER's loop at DIGK: 10^(6 − DIGK). -/
def digitDivisor (digk : BitVec 3) : Nat := 10 ^ (6 - digk.toNat)

/-- The code of a decimal digit: `'0' + d`. -/
def digitChar (d : Nat) : Byte := BitVec.ofNat 8 (0x30 + d)

/-! ### Sequence bits and buttons (43_playback_engine.md R211) -/

/-- `seq[k]` (00_scope.md R11). -/
def seqBit (seq : Word16) (k : Nat) : Bool := seq.getLsbD k

/-- The bit a press of a button stands for: A is 0, B is 1 (R211, 44_input_capture.md R222). -/
def bitOf : Config.Button → Bool
  | .a => false
  | .b => true

/-- Which of the two readings of ReadBtn is this button's. -/
def pressedOf (x : Config.Button) (pa pb : Bool) : Bool :=
  match x with
  | .a => pa
  | .b => pb

end Sys2Proof.Machine
end

