-- ==== Sys2Proof/Machine/Assembler.lean ====
section
/-! DEFINITION. The assembler of the command port: pseudo-instructions (spec/30_encoding.md R121) and the form of one
line (R120), over lists of characters. -/

namespace Sys2Proof.Machine

/-- The expansion of a pseudo-instruction (R121). -/
def expand (p : Config.Params) : Pseudo → Instr
  | .indOff => .setInd false false
  | .indA => .setInd true false
  | .indB => .setInd false true
  | .indBoth => .setInd true true
  | .showError => .showWord litError
  | .delayPhrase => .wait p.wPhrase
  | .delayScroll => .wait p.wScroll
  | .delayPlay => .wait p.wPlay
  | .delayDebounce => .wait p.wDebounce
  | .delayRound => .wait p.wRound

/-! ### Tokens of a line -/

/-- A token: a word (a mnemonic or a number), a character operand's code, a string, a comma. -/
inductive Token where
  | word (cs : List Char)
  | char (code : Nat)
  | str (t : Text)
  | comma
deriving DecidableEq, Repr

/-- Where the lexer stands; the characters read so far are held last first. -/
inductive LexMode where
  | between
  | inWord (cs : List Char)
  | inStr (t : Text)
  | inEscape (t : Text)
  | charOpen
  | charClose (code : Nat)
  | comment
deriving DecidableEq, Repr

def isWordChar (c : Char) : Bool := c.isAlphanum || c = '_'

/-- One character between tokens. -/
def lexBetween (c : Char) : Option (List Token × LexMode) :=
  if c = ' ' ∨ c = '\t' then some ([], .between)
  else if c = ',' then some ([.comma], .between)
  else if c = ';' then some ([], .comment)
  else if c = '"' then some ([], .inStr [])
  else if c = '\'' then some ([], .charOpen)
  else if isWordChar c then some ([], .inWord [c])
  else none

/-- One character of a line; a string is ASCII without 0x00, with the two escapes of R120. A quoted character may have any
8-bit code: that its codes go beyond ASCII is the model's choice (log entry 18). -/
def lexStep (m : LexMode) (c : Char) : Option (List Token × LexMode) :=
  match m with
  | .between => lexBetween c
  | .inWord cs =>
    if isWordChar c then some ([], .inWord (c :: cs))
    else (lexBetween c).map fun p => (.word cs.reverse :: p.1, p.2)
  | .inStr t =>
    if c = '"' then some ([.str t.reverse], .between)
    else if c = '\\' then some ([], .inEscape t)
    else if 0 < c.toNat ∧ c.toNat < 128 then some ([], .inStr (BitVec.ofNat 8 c.toNat :: t))
    else none
  | .inEscape t =>
    if c = '"' ∨ c = '\\' then some ([], .inStr (BitVec.ofNat 8 c.toNat :: t)) else none
  | .charOpen => if c.toNat < 256 then some ([], .charClose c.toNat) else none
  | .charClose code => if c = '\'' then some ([.char code], .between) else none
  | .comment => some ([], .comment)

/-- The tokens of a line from a mode on; none where the line ends inside a string or a character. -/
def lexFrom (m : LexMode) : List Char → Option (List Token)
  | [] =>
    match m with
    | .between => some []
    | .comment => some []
    | .inWord cs => some [.word cs.reverse]
    | .inStr _ => none
    | .inEscape _ => none
    | .charOpen => none
    | .charClose _ => none
  | c :: cs =>
    match lexStep m c with
    | none => none
    | some (ts, m) => (lexFrom m cs).map fun rest => ts ++ rest

/-! ### Numbers and operands -/

/-- The value of a digit in a base up to 16. -/
def digitValue (base : Nat) (c : Char) : Option Nat :=
  let v := if '0' ≤ c ∧ c ≤ '9' then c.toNat - 48
    else if 'a' ≤ c ∧ c ≤ 'f' then c.toNat - 87
    else if 'A' ≤ c ∧ c ≤ 'F' then c.toNat - 55 else base
  if v < base then some v else none

def numberFrom (base acc : Nat) : List Char → Option Nat
  | [] => some acc
  | c :: cs =>
    match digitValue base c with
    | none => none
    | some v => numberFrom base (acc * base + v) cs

/-- A decimal or 0x-prefixed hexadecimal number (R120). -/
def number (cs : List Char) : Option Nat :=
  match cs with
  | [] => none
  | '0' :: 'x' :: h :: hs => numberFrom 16 0 (h :: hs)
  | c :: cs => numberFrom 10 0 (c :: cs)

/-- An operand: a number, a quoted character's code, or a string. -/
inductive Operand where
  | num (n : Nat)
  | chr (code : Nat)
  | str (t : Text)
deriving DecidableEq, Repr

def operandOf : Token → Option Operand
  | .word cs => (number cs).map .num
  | .char code => some (.chr code)
  | .str t => some (.str t)
  | .comma => none

/-- Operands separated by commas. -/
def operandsOf : List Token → Option (List Operand)
  | [] => some []
  | [t] => (operandOf t).map fun o => [o]
  | t :: .comma :: t' :: ts =>
    match operandOf t, operandsOf (t' :: ts) with
    | some o, some os => some (o :: os)
    | _, _ => none
  | _ => none

/-- An operand of `w` bits; a number that does not fit is refused. -/
def fits (w n : Nat) : Option (BitVec w) := if n < 2 ^ w then some (BitVec.ofNat w n) else none

/-! ### Commands -/

/-- Upper case: mnemonics are case-insensitive (R120). -/
def upper (cs : List Char) : List Char := cs.map Char.toUpper

/-- The command of a mnemonic and its operands, in the format's field order (R120); none where they do not match. A quoted
character is an operand of WRITE_CHAR's code alone. -/
def commandOf (p : Config.Params) (m : List Char) (os : List Operand) : Option Instr :=
  if m = ['W','R','I','T','E','_','C','H','A','R'] then
    match os with
    | [.num s, .num c] => (fits 8 s).bind fun s => (fits 8 c).map fun c => .writeChar s c
    | [.num s, .chr c] => (fits 8 s).bind fun s => (fits 8 c).map fun c => .writeChar s c
    | _ => none
  else if m = ['S','E','T','_','I','N','D'] then
    match os with
    | [.num a, .num b] => if a < 2 ∧ b < 2 then some (.setInd (a = 1) (b = 1)) else none
    | _ => none
  else if m = ['W','A','I','T'] then
    match os with
    | [.num u] => (fits 16 u).map .wait
    | _ => none
  else if m = ['S','H','O','W','_','N','U','M','B','E','R'] then
    match os with
    | [.num n] => (fits 32 n).map .showNumber
    | _ => none
  else if m = ['S','H','O','W','_','W','O','R','D'] then
    match os with
    | [.str t] => some (.showWord t)
    | _ => none
  else if m = ['S','H','O','W','_','P','H','R','A','S','E'] then
    match os with
    | [.str t] => some (.showPhrase t)
    | _ => none
  else if m = ['S','C','R','O','L','L'] then
    match os with
    | [.str t] => some (.scroll t)
    | _ => none
  else if m = ['P','L','A','Y','_','R','O','U','N','D'] then
    match os with
    | [.num q, .num r] => (fits 16 q).bind fun q => (fits 8 r).map fun r => .playRound q r
    | _ => none
  else if m = ['C','A','P','T','U','R','E'] then
    match os with
    | [.num q, .num r] => (fits 16 q).bind fun q => (fits 8 r).map fun r => .capture q r
    | _ => none
  else if os ≠ [] then none
  else if m = ['R','E','A','D','_','B','T','N'] then some .readBtn
  else if m = ['T','I','C','K'] then some .tick
  else if m = ['S','A','M','P','L','E','_','E','N','T','R','O','P','Y'] then some .sampleEntropy
  else if m = ['C','L','E','A','R'] then some .clear
  else if m = ['G','E','N','E','R','A','T','E'] then some .generate
  else if m = ['I','N','D','_','O','F','F'] then some (expand p .indOff)
  else if m = ['I','N','D','_','A'] then some (expand p .indA)
  else if m = ['I','N','D','_','B'] then some (expand p .indB)
  else if m = ['I','N','D','_','B','O','T','H'] then some (expand p .indBoth)
  else if m = ['S','H','O','W','_','E','R','R','O','R'] then some (expand p .showError)
  else if m = ['D','E','L','A','Y','_','P','H','R','A','S','E'] then some (expand p .delayPhrase)
  else if m = ['D','E','L','A','Y','_','S','C','R','O','L','L'] then some (expand p .delayScroll)
  else if m = ['D','E','L','A','Y','_','P','L','A','Y'] then some (expand p .delayPlay)
  else if m = ['D','E','L','A','Y','_','D','E','B','O','U','N','C','E'] then some (expand p .delayDebounce)
  else if m = ['D','E','L','A','Y','_','R','O','U','N','D'] then some (expand p .delayRound)
  else none

/-- One line of assembler: `MNEMONIC [operand {, operand}]` and an optional comment (R120). -/
def assembleLine (p : Config.Params) (line : List Char) : Option Instr :=
  match lexFrom .between line with
  | some (.word m :: ts) => (operandsOf ts).bind (commandOf p (upper m))
  | _ => none

end Sys2Proof.Machine
end

