-- ==== Sys2Proof/Machine/DisplayLines.lean ====
section
/-! DEFINITION. The lines of DisplayRenderer's pseudocode (spec/41_display_renderer.md R160 to R168). -/

namespace Sys2Proof.Machine

/-! ### Bodies of the operations -/

/-- CLEAR (R161). -/
def bodyClear : List Stmt := [.clear 0]

/-- SHOW_WORD (R162): CLEAR, then put_word. -/
def bodyShowWord (t : Text) : List Stmt := bodyClear ++ [.putWord t]

/-- SHOW_PHRASE (R165): CLEAR, then the loop over the words. -/
def bodyShowPhrase (t : Text) : List Stmt := bodyClear ++ [.phrase (words t)]

/-- SCROLL (R167): CLEAR, then the sweep. -/
def bodyScroll (t : Text) : List Stmt := bodyClear ++ [.scrollStart t]

/-- SHOW_NUMBER (R168): CLEAR, then the digits. -/
def bodyShowNumber (n : Word32) : List Stmt := bodyClear ++ [.number n]

/-! ### Lines -/

/-- `for s in 0..6: WriteChar(s, BLANK)` at slot `slot` (R161). -/
def lineClear (slot : Nat) (s : State) : Result :=
  andThen (writeChar slot Config.blank s) fun s => .next (push (if slot < 6 then [.clear (slot + 1)] else []) s)

/-- `put_word(w)`: the length is checked before any character is written (R160). Of an empty text the loop runs zero times,
and I keeps what it held: the model's choice (log entry 12). -/
def linePutWord (w : Text) (s : State) : Result :=
  if Config.dispWidth < w.length then .next (push [.showError 1] s)
  else if w = [] then .next s
  else .next (push [.putChars w] { s with i := some 0 })

/-- `WriteChar(i + 1, w[i])` and the next index (R160). -/
def linePutChars (w : Text) (s : State) : Result :=
  readReg s.i .i fun i =>
    match w[i.toNat]? with
    | none => .next s
    | some c =>
      andThen (writeChar (i.toNat + 1) c s) fun s =>
        .next (push (if i.toNat + 1 < w.length then [.putChars w] else []) { s with i := some (i + 1) })

/-- ERROR to slots 1 to 5, then `event E(k)` (R160, R168). -/
def lineShowError (k : Nat) (s : State) : Result :=
  .next (push [.errorChars, .event k] { s with i := some 0 })

/-- `for i in 0..4: WriteChar(i + 1, "ERROR"[i])` at index I. -/
def lineErrorChars (s : State) : Result :=
  readReg s.i .i fun i =>
    match litError[i.toNat]? with
    | none => .next s
    | some c =>
      andThen (writeChar (i.toNat + 1) c s) fun s =>
        .next (push (if i.toNat + 1 < litError.length then [.errorChars] else []) { s with i := some (i + 1) })

/-- `event E(k)`: it changes the trace alone (R171, 60_exceptions.md R281). -/
def lineEvent (k : Nat) (s : State) : Result := .next (emit (.error k) s)

/-- `for w in words(text): put_word(w); WAIT(W_PHRASE); CLEAR()` (R165). -/
def linePhrase (ws : List Text) (s : State) : Result :=
  match ws with
  | [] => .next s
  | w :: ws => .next (push ([.putWord w, .wait s.launch.params.wPhrase] ++ bodyClear ++ [.phrase ws]) s)

/-- `for OFF in 0..L+6` on entry (R167). -/
def lineScrollStart (t : Text) (s : State) : Result := .next (push [.scrollStep t] { s with off := some 0 })

/-- The body of SCROLL's loop: the window, then WAIT W_SCROLL (R167). -/
def lineScrollStep (t : Text) (s : State) : Result :=
  .next (push [.window t 1, .wait s.launch.params.wScroll, .scrollNext t] s)

/-- `for s in 1..6: WriteChar(s, window character)` at slot `slot` (R166, R167). -/
def lineWindow (t : Text) (slot : Nat) (s : State) : Result :=
  readReg s.off .off fun off =>
    andThen (writeChar slot (windowChar t off.toNat slot) s) fun s =>
      .next (push (if slot < 6 then [.window t (slot + 1)] else []) s)

/-- The next OFF, up to L + 6 inclusive; after the last window, CLEAR (R167). -/
def lineScrollNext (t : Text) (s : State) : Result :=
  readReg s.off .off fun off =>
    if off.toNat < t.length + 6 then .next (push [.scrollStep t] { s with off := some (off + 1) })
    else .next (push bodyClear s)

/-- SHOW_NUMBER after its CLEAR (R168). -/
def lineNumber (n : Word32) (s : State) : Result :=
  if n = 0 then .next (push [.write 6 (digitChar 0)] s)
  else .next (push [.digit] { s with rem := some n, started := some false, digk := some 1 })

/-- The next DIGK, up to 6 inclusive (R168). -/
def nextDigit (digk : BitVec 3) (s : State) : State :=
  if digk.toNat < 6 then push [.digit] { s with digk := some (digk + 1) } else s

/-- The body of SHOW_NUMBER's loop up to its WriteChar (R168): the digit, the range check, the suppression of leading
zeros. -/
def lineDigit (s : State) : Result :=
  readReg s.rem .rem fun rem => readReg s.digk .digk fun digk => readReg s.started .started fun started =>
    if 9 < rem.toNat / digitDivisor digk then .next (push [.showError 2] s)
    else if rem.toNat / digitDivisor digk ≠ 0 ∨ started = true then
      .next (push [.putDigit (digitChar (rem.toNat / digitDivisor digk))]
        { s with rem := some (BitVec.ofNat 32 (rem.toNat % digitDivisor digk)), started := some true })
    else .next (nextDigit digk { s with rem := some (BitVec.ofNat 32 (rem.toNat % digitDivisor digk)) })

/-- `WriteChar(DIGK, '0' + d)` and the next DIGK (R168). -/
def linePutDigit (ch : Byte) (s : State) : Result :=
  readReg s.digk .digk fun digk =>
    andThen (writeChar digk.toNat ch s) fun s => .next (nextDigit digk s)

end Sys2Proof.Machine
end

