-- ==== Sys2Proof/Machine/GameLines.lean ====
section
/-! DEFINITION. The lines of SequenceGenerator's, PlaybackEngine's and InputCapture's pseudocode
(spec/42_sequence_generator.md R200, 43_playback_engine.md R210, 44_input_capture.md R220 to R222) and of label G2
(45_game_controller.md R258). -/

namespace Sys2Proof.Machine

/-! ### GENERATE (R200) -/

/-- `(pa, pb) <- ReadBtn(); pressed <- the start button's`. -/
def lineGenBtn (s : State) : Result :=
  readButtons s fun pa pb => .next (push [.genSample (pressedOf s.launch.params.startButton pa pb)] s)

/-- `s <- ReadFree(); if pressed and s != 0: return s`, else the next iteration. -/
def lineGenSample (pressed : Bool) (s : State) : Result :=
  readFree s fun v => if pressed = true ∧ v ≠ 0 then .next { s with ret := v } else .next (push [.genBtn] s)

/-! ### PLAY_ROUND (R210) -/

/-- PLAY_ROUND: the loop over K. -/
def bodyPlayRound (seq : Word16) (round : Byte) : List Stmt := [.playStart seq round]

/-- `for K in 0..round` on entry. -/
def linePlayStart (seq : Word16) (round : Byte) (s : State) : Result :=
  .next (push [.playTest seq round] { s with k := some 0 })

/-- One step of PLAY_ROUND: WATCH, W_PLAY, the indicator, W_PLAY, both off. -/
def playStep (seq : Word16) (round : Byte) (s : State) : List Stmt :=
  bodyShowWord litWatch ++ [.wait s.launch.params.wPlay, .light seq, .wait s.launch.params.wPlay, .ind false false,
    .playNext seq round]

/-- The loop's test on K. -/
def linePlayTest (seq : Word16) (round : Byte) (s : State) : Result :=
  readReg s.k .k fun k => .next (push (if k.toNat ≤ round.toNat then playStep seq round s else []) s)

/-- `if seq[K] == 0: SetInd(1, 0) else: SetInd(0, 1)` (R210, R211). -/
def lineLight (seq : Word16) (s : State) : Result :=
  readReg s.k .k fun k => setIndicators (!seqBit seq k.toNat) (seqBit seq k.toNat) s

/-- The next K. -/
def linePlayNext (seq : Word16) (round : Byte) (s : State) : Result :=
  readReg s.k .k fun k => .next (push [.playTest seq round] { s with k := some (k + 1) })

/-! ### CAPTURE (44_input_capture.md R220 to R222) -/

/-- CAPTURE: SHOW_WORD "GO", then the capture loop (R220). -/
def bodyCapture (seq : Word16) (round : Byte) : List Stmt := bodyShowWord litGo ++ [.capStart seq round]

/-- `PCNT_PRESS <- 0 ; over <- 0`. -/
def lineCapStart (seq : Word16) (round : Byte) (s : State) : Result :=
  .next (push [.capTest seq round] { s with pcntPress := some 0, capOver := some false })

/-- `while PCNT_PRESS <= round and over == 0`, and `return over` after the loop. -/
def lineCapTest (seq : Word16) (round : Byte) (s : State) : Result :=
  readReg s.pcntPress .pcntPress fun p => readReg s.capOver .capOver fun o =>
    if p.toNat ≤ round.toNat ∧ o = false then .next (push [.capPoll seq round] s)
    else .next { s with ret := if o then 1 else 0 }

/-- `press(X, expected)`: light X's indicator alone, hold until the release, both off, compare (R221, R222). -/
def pressLines (seq : Word16) (x : Config.Button) (s : State) : List Stmt :=
  [.ind (x = .a) (x = .b), .wait s.launch.params.wDebounce, .hold x, .ind false false, .compare seq x]

/-- One poll: A before B, else nothing (R220, R224). -/
def lineCapPoll (seq : Word16) (round : Byte) (s : State) : Result :=
  readButtons s fun pa pb =>
    .next (push ((if pa then pressLines seq .a s else if pb then pressLines seq .b s else []) ++ [.capTest seq round]) s)

/-- `repeat WAIT(W_DEBOUNCE); ReadBtn until X is released`: the reading, and the next wait while X is held (R221). -/
def lineHold (x : Config.Button) (s : State) : Result :=
  readButtons s fun pa pb =>
    .next (push (if pressedOf x pa pb then [.wait s.launch.params.wDebounce, .hold x] else []) s)

/-- The match detector: a mismatch sets `over` and does not count, a match counts (R222). -/
def lineCompare (seq : Word16) (x : Config.Button) (s : State) : Result :=
  readReg s.pcntPress .pcntPress fun p =>
    if seqBit seq p.toNat = bitOf x then .next { s with pcntPress := some (p + 1) }
    else .next { s with capOver := some true }

/-! ### Label G2 (45_game_controller.md R258) -/

/-- `repeat (pa, pb) <- ReadBtn() until pa and pb`. -/
def lineRestartPoll (s : State) : Result :=
  readButtons s fun pa pb => .next (push (if pa && pb then [] else [.restartPoll]) s)

end Sys2Proof.Machine
end

