-- ==== Sys2Proof/Machine/TimingLines.lean ====
section
/-! DEFINITION. The lines of TimingService's pseudocode (spec/40_timing_service.md R140, R142, R144) and of READ_BTN
(46_port_commands.md R362). Each is given the state whose `todo` no longer holds the line itself. -/

namespace Sys2Proof.Machine

/-- `return TickTC()` (R140). -/
def lineTick (s : State) : Result := tickTC s fun t s => .next { s with ret := if t then 1 else 0 }

/-- `DCNT <- units`; the poll loop follows unless DCNT = 0 (R142). TICK_FLAG is not cleared on entry. -/
def lineWait (units : Word16) (s : State) : Result :=
  .next (push (if units = 0 then [] else [.poll]) { s with dcnt := some units })

/-- `while DCNT > 0: if TickTC(): DCNT <- DCNT - 1`, one atomic action per poll (R142). -/
def linePoll (s : State) : Result :=
  readReg s.dcnt .dcnt fun d =>
    if d = 0 then .next s
    else
      tickTC s fun t s =>
        if t then .next (push (if d - 1 = 0 then [] else [.poll]) { s with dcnt := some (d - 1) })
        else .next (push [.poll] s)

/-- `return ReadFree()` (R144). -/
def lineSample (s : State) : Result := readFree s fun v => .next { s with ret := v }

/-- `return zext_8({pb, pa})` (46_port_commands.md R362). -/
def lineReadBtn (s : State) : Result :=
  readButtons s fun pa pb => .next { s with ret := (indByte pa pb).setWidth 16 }

end Sys2Proof.Machine
end

