-- ==== Sys2Proof/Machine/Engine.lean ====
section
/-! DEFINITION. How the agents of spec/00_scope.md R19 move: one line of MAIN's pseudocode, one atomic action of MAIN with
the silent code after it (R16), one step of each other agent, and one operation of MAIN run through the interleaving that
State prescribes (20_memory.md R84, R96, R103). -/

namespace Sys2Proof.Machine

/-- What each line of pseudocode does; one direct call a line. -/
def runStmt (st : Stmt) (s : State) : Result :=
  match st with
  | .clear slot => lineClear slot s
  | .write slot ch => writeChar slot ch s
  | .putWord w => linePutWord w s
  | .putChars w => linePutChars w s
  | .showError k => lineShowError k s
  | .errorChars => lineErrorChars s
  | .event k => lineEvent k s
  | .wait u => lineWait u s
  | .poll => linePoll s
  | .phrase ws => linePhrase ws s
  | .scrollStart t => lineScrollStart t s
  | .scrollStep t => lineScrollStep t s
  | .window t slot => lineWindow t slot s
  | .scrollNext t => lineScrollNext t s
  | .number n => lineNumber n s
  | .digit => lineDigit s
  | .putDigit ch => linePutDigit ch s
  | .ind a b => setIndicators a b s
  | .readBtn => lineReadBtn s
  | .tick => lineTick s
  | .sample => lineSample s
  | .genBtn => lineGenBtn s
  | .genSample p => lineGenSample p s
  | .playStart seq round => linePlayStart seq round s
  | .playTest seq round => linePlayTest seq round s
  | .light seq => lineLight seq s
  | .playNext seq round => linePlayNext seq round s
  | .capStart seq round => lineCapStart seq round s
  | .capTest seq round => lineCapTest seq round s
  | .capPoll seq round => lineCapPoll seq round s
  | .hold x => lineHold x s
  | .compare seq x => lineCompare seq x s
  | .restartPoll => lineRestartPoll s

/-- A line without a port primitive: "code between two primitive calls", which is no step of its own (R16). -/
def Stmt.silent : Stmt → Bool
  | .clear _ => false
  | .write _ _ => false
  | .putWord _ => true
  | .putChars _ => false
  | .showError _ => true
  | .errorChars => false
  | .event _ => true
  | .wait _ => true
  | .poll => false
  | .phrase _ => true
  | .scrollStart _ => true
  | .scrollStep _ => true
  | .window _ _ => false
  | .scrollNext _ => true
  | .number _ => true
  | .digit => true
  | .putDigit _ => false
  | .ind _ _ => false
  | .readBtn => false
  | .tick => false
  | .sample => false
  | .genBtn => false
  | .genSample _ => false
  | .playStart _ _ => true
  | .playTest _ _ => true
  | .light _ => false
  | .playNext _ _ => true
  | .capStart _ _ => true
  | .capTest _ _ => true
  | .capPoll _ _ => false
  | .hold _ => false
  | .compare _ _ => true
  | .restartPoll => false

/-- Run the silent lines at the front, `fuel` of them at most. -/
def settle : Nat → State → Result
  | 0, s => .next s
  | fuel + 1, s =>
    match s.todo with
    | [] => .next s
    | st :: rest => if st.silent then andThen (runStmt st { s with todo := rest }) (settle fuel) else .next s

/-- Silent lines one action can be followed by: no operation has more (log entry 8). -/
def settleFuel : Nat := 16

/-- MAIN's turn: the primitive at the front, then the silent code up to the next primitive (R14, R16). -/
def mainAct (s : State) : Result :=
  match s.todo with
  | [] => .next s
  | st :: rest => andThen (runStmt st { s with todo := rest }) (settle settleFuel)

/-- A turn of an agent other than MAIN: PTIMER (40_timing_service.md R146), FTIMER (R147), ISR (60_exceptions.md R284,
only where FREE_OVF is set), PLAYER (10_state.md R42). None touches MAIN's registers or position. -/
def agentAct (t : Config.Turn) (s : State) : State :=
  match t with
  | .main => s
  | .ptimerCount => { s with ptimerCnt := if s.ptimerCnt < s.tickCmp.toNat then s.ptimerCnt + 1 else s.ptimerCnt }
  | .ptimerTick => setTickFlag true { s with ptimerCnt := 0 }
  | .ftimer => (if s.freeCnt = 0xFFFF then setFreeOvf true else id) { s with freeCnt := s.freeCnt + 1 }
  | .isr => takeInterrupt s
  | .player levels => { s with inReg := levels }

/-- Run the operation in progress through the turns given, until it ends (then `finish`, the turns not taken staying
prescribed) or the turns do (then it stays in progress). -/
def drive (finish : State → State) : List Config.Turn → State → Result
  | [], s => .next s
  | t :: ts, s =>
    if t = .main then
      andThen (mainAct s) fun s => if s.todo = [] then .next (finish { s with turns := ts }) else drive finish ts s
    else drive finish ts (agentAct t s)

/-- Run the operation in progress through the turns State prescribes, or through one free turn where it prescribes none
(R103; log entry 2). -/
def interleave (finish : State → State) (s : State) : Result :=
  if s.turns = [] then drive finish [Config.freeTurn s.draws] { s with draws := s.draws + 1 }
  else drive finish s.turns { s with turns := [] }

/-- Begin an operation: its first lines, and the silent code before its first primitive. -/
def beginOperation (start : State → Result) (s : State) : Result := andThen (start s) (settle settleFuel)

/-- One operation of MAIN: begin it, unless one is in progress, which then goes on; run it through the interleaving; at
its end `finish`. -/
def runOperation (start : State → Result) (finish : State → State) (s : State) : Result :=
  andThen (if s.todo = [] then beginOperation start s else .next s) fun s =>
    if s.todo = [] then .next (finish s) else interleave finish s

/-! ### Commands of the command port (30_encoding.md R119, R127) -/

/-- The end of a command that returns no value: CIDX advances (R127). -/
def endCommand (s : State) : State := { s with cidx := s.cidx + 1 }

/-- The end of a command that returns a value: RESP(v), then CIDX advances (R119, R127). -/
def endWithResponse (s : State) : State := endCommand (emit (.resp s.ret) s)

/-- A command: its lines, run to completion. -/
def runCommand (body : List Stmt) (finish : State → State) (s : State) : Result :=
  runOperation (fun s => .next (push body s)) finish s

/-- After the last command MAIN has no action (R127); the other agents go on (log entry 13). -/
def idle (s : State) : Result :=
  match s.turns with
  | [] => .next (agentAct (Config.freeTurn s.draws) { s with draws := s.draws + 1 })
  | t :: ts => .next (agentAct t { s with turns := ts })

end Sys2Proof.Machine
end

