-- ==== Sys2Proof/Machine/Controller.lean ====
section
/-! DEFINITION. The fixed control program of GAME mode (spec/45_game_controller.md R240 to R259), one label a step. -/

namespace Sys2Proof.Machine

/-- What a label does on entry: its register writes, and the lines of the operations it invokes. -/
def labelBegin (l : Label) (s : State) : Result :=
  match l with
  | .a0 =>                                                                                        -- R241
    .next (push [.ind true true]
      { s with cstate := .awaitStart, seq := none, round := 0, score := 0, overFlag := false })
  | .a1 => requireText s.launch.params.promptText (.next (push (bodyScroll s.launch.params.promptText) s))  -- R242
  | .a2 => .next (push [.genBtn] s)                                                               -- R243
  | .s0 =>                                                                                        -- R244
    .next { s with cstate := .sequenceGenerated, seq := some s.ret, round := 0, score := 0, overFlag := false }
  | .rl0 => .next { s with cstate := .roundLoop }                                                 -- R245
  | .rl1 => .next s                                                                               -- R246
  | .rl2 => .next (push [.ind false false, .wait s.launch.params.wRound] s)                       -- R247
  | .rl3 => .next s                                                                               -- R248
  | .rl4 => .next (push (bodyShowWord litRound ++ [.wait s.launch.params.wRound]) s)              -- R249
  | .rl5 =>                                                                                       -- R250
    .next (push (bodyShowNumber (BitVec.ofNat 32 (s.round.toNat + 1)) ++ [.wait s.launch.params.wRound]) s)
  | .rl6 =>                                                                                       -- R251
    readReg s.seq .seq fun seq =>
      requireRound (s.round.setWidth 8) (.next (push (bodyPlayRound seq (s.round.setWidth 8)) s))
  | .rl7 =>                                                                                       -- R252
    readReg s.seq .seq fun seq =>
      requireRound (s.round.setWidth 8) (.next (push (bodyCapture seq (s.round.setWidth 8)) s))
  | .rl8 => .next s                                                                               -- R253
  | .rl9 => .next { s with score := s.score + 1, round := s.round + 1 }                           -- R254
  | .rl10 => .next { s with overFlag := true }                                                    -- R255
  | .g0 => .next { s with cstate := .gameOver }                                                   -- R256
  | .g1 =>                                                                                        -- R257
    .next (push (if s.score = 16 then bodyScroll litYouWin
      else bodyScroll litGameOver ++ bodyShowNumber (s.score.setWidth 32)) s)
  | .g2 => .next (push [.restartPoll] s)                                                          -- R258
  | .g3 => .next s                                                                                -- R259

/-- Where CPC goes when a label has done its actions; RL7 also stores CAPTURE's result in OVER (R252). -/
def labelEnd (l : Label) (s : State) : State :=
  match l with
  | .a0 => { s with cpc := .a1 }
  | .a1 => { s with cpc := .a2 }
  | .a2 => { s with cpc := .s0 }
  | .s0 => { s with cpc := .rl0 }
  | .rl0 => { s with cpc := .rl1 }
  | .rl1 => { s with cpc := if s.round = 16 then .rl10 else .rl2 }
  | .rl2 => { s with cpc := .rl3 }
  | .rl3 => { s with cpc := if s.overFlag then .g0 else .rl4 }
  | .rl4 => { s with cpc := .rl5 }
  | .rl5 => { s with cpc := .rl6 }
  | .rl6 => { s with cpc := .rl7 }
  | .rl7 => { s with overFlag := s.ret.getLsbD 0, cpc := .rl8 }
  | .rl8 => { s with cpc := if s.overFlag then .g0 else .rl9 }
  | .rl9 => { s with cpc := .rl1 }
  | .rl10 => { s with cpc := .g0 }
  | .g0 => { s with cpc := .g1 }
  | .g1 => { s with cpc := .g2 }
  | .g2 => { s with cpc := .g3 }
  | .g3 => { s with cpc := .a0 }

/-- One label of the control program, run to its end or as far as the turns go. -/
def execLabel (l : Label) (s : State) : Result := runOperation (labelBegin l) (labelEnd l) s

end Sys2Proof.Machine
end

