-- ==== Sys2Proof/Machine/Display.lean ====
section
/-! DEFINITION. DisplayRenderer's commands (spec/41_display_renderer.md). -/

namespace Sys2Proof.Machine

/-- `CLEAR` (R161). -/
def execClear (s : State) : Result := runCommand bodyClear endCommand s

/-- `SHOW_WORD text` (R162). -/
def execShowWord (text : Text) (s : State) : Result :=
  requireText text (runCommand (bodyShowWord text) endCommand s)

/-- `SHOW_PHRASE text` (R165). -/
def execShowPhrase (text : Text) (s : State) : Result :=
  requireText text (runCommand (bodyShowPhrase text) endCommand s)

/-- `SCROLL text` (R167). -/
def execScroll (text : Text) (s : State) : Result :=
  requireText text (runCommand (bodyScroll text) endCommand s)

/-- `SHOW_NUMBER n` (R168). -/
def execShowNumber (n : Word32) (s : State) : Result := runCommand (bodyShowNumber n) endCommand s

end Sys2Proof.Machine
end

