-- ==== Sys2Proof/Machine/Game.lean ====
section
/-! DEFINITION. The commands of SequenceGenerator, PlaybackEngine and InputCapture (spec/42_sequence_generator.md,
43_playback_engine.md, 44_input_capture.md). In DIRECT mode GENERATE does not write SEQ and CAPTURE does not write OVER
(30_encoding.md R119). -/

namespace Sys2Proof.Machine

/-- `GENERATE` (R200), response the sequence. -/
def execGenerate (s : State) : Result := runCommand [.genBtn] endWithResponse s

/-- `PLAY_ROUND seq, round` (R210). -/
def execPlayRound (seq : Word16) (round : Byte) (s : State) : Result :=
  requireRound round (runCommand (bodyPlayRound seq round) endCommand s)

/-- `CAPTURE seq, round` (R220), response `over`. -/
def execCapture (seq : Word16) (round : Byte) (s : State) : Result :=
  requireRound round (runCommand (bodyCapture seq round) endWithResponse s)

end Sys2Proof.Machine
end

