-- ==== Sys2Proof/Machine/Port.lean ====
section
/-! DEFINITION. The port commands (spec/46_port_commands.md). -/

namespace Sys2Proof.Machine

/-- `WRITE_CHAR slot, ch` (R360): one WriteChar; a slot or code the decoder refuses is WriteChar's PortRefused
(20_memory.md R85). -/
def execWriteChar (slot ch : Byte) (s : State) : Result := runCommand [.write slot.toNat ch] endCommand s

/-- `SET_IND a, b` (R361): one SetInd. -/
def execSetInd (a b : Bool) (s : State) : Result := runCommand [.ind a b] endCommand s

/-- `READ_BTN` (R362): one ReadBtn, response {pb, pa}. -/
def execReadBtn (s : State) : Result := runCommand [.readBtn] endWithResponse s

end Sys2Proof.Machine
end

