-- ==== Sys2Proof/Machine/Timing.lean ====
section
/-! DEFINITION. TimingService's commands (spec/40_timing_service.md). -/

namespace Sys2Proof.Machine

/-- `TICK` (R140): one TickTC, response 1 or 0. -/
def execTick (s : State) : Result := runCommand [.tick] endWithResponse s

/-- `WAIT units` (R142). -/
def execWait (units : Word16) (s : State) : Result := runCommand [.wait units] endCommand s

/-- `SAMPLE_ENTROPY` (R144): one ReadFree, response the sample. -/
def execSampleEntropy (s : State) : Result := runCommand [.sample] endWithResponse s

end Sys2Proof.Machine
end

