-- ==== Sys2Proof/Machine/Dispatch.lean ====
section
/-! DEFINITION. Which meaning each command has: one arm per constructor of Instr. -/

namespace Sys2Proof.Machine

def exec (i : Instr) (s : State) : Host.Outcome State Fault Refusal :=
  match i with
  | .writeChar slot ch => Sys2Proof.Machine.execWriteChar slot ch s
  | .setInd a b => Sys2Proof.Machine.execSetInd a b s
  | .readBtn => Sys2Proof.Machine.execReadBtn s
  | .tick => Sys2Proof.Machine.execTick s
  | .wait units => Sys2Proof.Machine.execWait units s
  | .sampleEntropy => Sys2Proof.Machine.execSampleEntropy s
  | .clear => Sys2Proof.Machine.execClear s
  | .showWord text => Sys2Proof.Machine.execShowWord text s
  | .showPhrase text => Sys2Proof.Machine.execShowPhrase text s
  | .scroll text => Sys2Proof.Machine.execScroll text s
  | .showNumber n => Sys2Proof.Machine.execShowNumber n s
  | .generate => Sys2Proof.Machine.execGenerate s
  | .playRound seq round => Sys2Proof.Machine.execPlayRound seq round s
  | .capture seq round => Sys2Proof.Machine.execCapture seq round s

end Sys2Proof.Machine
end

