-- ==== Sys2Proof/Machine/Fetch.lean ====
section
/-! DEFINITION. Admission of a launch (spec/30_encoding.md R126) and the command MAIN runs next (R127). -/

namespace Sys2Proof.Machine

/-- A verdict refuses the launch under its own name (60_exceptions.md R288). -/
def refusalOf : Verdict → Refusal
  | .illegalOpcode off => .illegalOpcode off
  | .truncated off => .truncated off
  | .stringTooLong off => .stringTooLong off
  | .badField off field => .badField off field

/-- The whole list is decoded; if any command is invalid MAIN has no step (R126); else `f` is given command CIDX, or none
where CIDX is past the last (R127). -/
def fetch (s : State) (f : Option Instr → Result) : Result :=
  match decodeProgram s.launch.commands with
  | .error v => .refused (refusalOf v)
  | .ok is => f is[s.cidx]?

/-- A schedule under which every operation without input ends: a tick before every action of MAIN. -/
def pacedTurns : Nat → List Config.Turn
  | 0 => []
  | n + 1 => .ptimerTick :: .main :: pacedTurns n

/-- A DIRECT launch of this one command, MAIN at its start, the buttons released, and turns that let MAIN run. -/
def launchCommand (bytes : List Byte) (s : State) : State :=
  { s with
    launch := { s.launch with mode := .direct, commands := bytes }
    cidx := 0
    todo := []
    turns := .player 0xFF :: pacedTurns 200 }

end Sys2Proof.Machine
end

