-- ==== Sys2Proof/Machine/Step.lean ====
section
/-! DEFINITION. One step of the machine: in GAME mode one label of the control program (spec/45_game_controller.md R240), in
DIRECT mode one command of the list (30_encoding.md R127), each through the interleaving State prescribes. -/

namespace Sys2Proof.Machine

/-- One step. -/
def step (s : State) : Host.Outcome State Fault Refusal :=
  match s.launch.mode with
  | .game => execLabel s.cpc s
  | .direct => fetch s fun i? =>
      match i? with
      | some i => exec i s
      | none => idle s

/-- `s` with the opcode table's word placed as a one-command DIRECT launch, so that the next step runs it. -/
def State.withFetchWord (s : State) (nbits w : Nat) : State := launchCommand (commandBytes nbits w) s

end Sys2Proof.Machine
end

