-- ==== Sys2Proof/Safety.lean ====
section
/-! DEFINITION. The terms in which claims about runs are made: frames, interleavings, environment scripts, the traces the
spec gives the operations, the invariant of a safe run, and which states a run reaches. -/

namespace Sys2Proof.Safety

open Sys2Proof.Machine

/-! ### Frames -/

/-- What no action of MAIN inside an operation changes: the game registers and the controller's position
(45_game_controller.md R264), the counters, FREE_OVF, the inputs (10_state.md R40, R42, R44, R45), the launch (R49) and
the interleaving; TICK_FLAG can only be cleared (R41) and the trace only grows. -/
structure MainKeeps (s t : State) : Prop where
  launch : t.launch = s.launch
  seq : t.seq = s.seq
  round : t.round = s.round
  score : t.score = s.score
  overFlag : t.overFlag = s.overFlag
  cstate : t.cstate = s.cstate
  cpc : t.cpc = s.cpc
  cidx : t.cidx = s.cidx
  tickFlag : t.tickFlag = true → s.tickFlag = true
  freeOvf : t.freeOvf = s.freeOvf
  freeCnt : t.freeCnt = s.freeCnt
  tickCmp : t.tickCmp = s.tickCmp
  ptimerCnt : t.ptimerCnt = s.ptimerCnt
  inReg : t.inReg = s.inReg
  trace : ∃ es, t.trace = s.trace ++ es
  turns : t.turns = s.turns
  draws : t.draws = s.draws

/-- What no agent but MAIN changes: everything of MAIN's, the outputs and the trace (00_scope.md R19). -/
structure AgentKeeps (s t : State) : Prop where
  launch : t.launch = s.launch
  seq : t.seq = s.seq
  round : t.round = s.round
  score : t.score = s.score
  overFlag : t.overFlag = s.overFlag
  dcnt : t.dcnt = s.dcnt
  pcntPress : t.pcntPress = s.pcntPress
  capOver : t.capOver = s.capOver
  k : t.k = s.k
  i : t.i = s.i
  off : t.off = s.off
  rem : t.rem = s.rem
  digk : t.digk = s.digk
  started : t.started = s.started
  cstate : t.cstate = s.cstate
  cpc : t.cpc = s.cpc
  cidx : t.cidx = s.cidx
  todo : t.todo = s.todo
  ret : t.ret = s.ret
  tickCmp : t.tickCmp = s.tickCmp
  outReg : t.outReg = s.outReg
  disp : t.disp = s.disp
  trace : t.trace = s.trace
  turns : t.turns = s.turns
  draws : t.draws = s.draws

/-! ### Interleavings and scripts -/

/-- The state after these turns of agents other than MAIN. -/
def agents (ts : List Config.Turn) (s : State) : State := ts.foldl (fun s t => agentAct t s) s

/-- How many polls of TICK_FLAG return true when MAIN does nothing but poll (40_timing_service.md R143). -/
def truePolls : Bool → List Config.Turn → Nat
  | _, [] => 0
  | flag, t :: ts =>
    match t with
    | .main => (if flag then 1 else 0) + truePolls false ts
    | .ptimerTick => truePolls true ts
    | .ptimerCount => truePolls flag ts
    | .ftimer => truePolls flag ts
    | .isr => truePolls flag ts
    | .player _ => truePolls flag ts

/-- PTIMER ticks infinitely often and MAIN moves infinitely often (00_scope.md R20, 92_eei_decisions.md D37; log entry 14). -/
structure Fair (f : Nat → Config.Turn) : Prop where
  tick : ∀ n, ∃ m, n ≤ m ∧ f m = .ptimerTick
  main : ∀ n, ∃ m, n ≤ m ∧ f m = .main

/-- The first `n` turns of an infinite interleaving. -/
def firstTurns (f : Nat → Config.Turn) (n : Nat) : List Config.Turn := (List.range n).map f

/-- The machine after `n` steps, each answering a next state. -/
def steps : Nat → State → Result
  | 0, s => .next s
  | n + 1, s => andThen (step s) (steps n)

/-- The input levels show this button pressed (active-low, 10_state.md R42). -/
def levelsPress (x : Config.Button) (levels : Byte) : Bool :=
  match x with
  | .a => !levels.getLsbD 0
  | .b => !levels.getLsbD 1

/-- One press as the player makes it, by the input levels each reading of CAPTURE finds. -/
structure Press where
  button : Config.Button
  /-- Polls before the press, which find no button pressed. -/
  idle : List Byte
  /-- The poll that finds the button pressed. -/
  down : Byte
  /-- Re-polls that find it still held, whatever the other button does (44_input_capture.md R221). -/
  held : List Byte
  /-- The re-poll that finds it released. -/
  up : Byte
deriving DecidableEq, Repr, Inhabited

/-- The levels are those of such a press; a poll that finds both buttons pressed takes A (R224). -/
def Press.ok (x : Press) : Bool :=
  x.idle.all (fun l => !levelsPress .a l && !levelsPress .b l) &&
    levelsPress x.button x.down && (x.button = .a || !levelsPress .a x.down) &&
    x.held.all (levelsPress x.button) && !levelsPress x.button x.up

/-- The turns of a press: the polls that find nothing, the poll that finds it, its indicator, a debounce wait before each
re-poll, with a tick before every poll of the wait, and both indicators off after the release (R221). -/
def pressTurns (debounce : Nat) (x : Press) : List Config.Turn :=
  x.idle.flatMap (fun l => [.player l, .main]) ++ [.player x.down, .main, .main] ++ pacedTurns debounce ++
    x.held.flatMap (fun l => [.player l, .main] ++ pacedTurns debounce) ++ [.player x.up, .main, .main]

/-- CAPTURE's turns for these presses: the nine writes of SHOW_WORD "GO", then the presses. -/
def captureTurns (debounce : Nat) (xs : List Press) : List Config.Turn :=
  pacedTurns 9 ++ xs.flatMap (pressTurns debounce)

/-! ### The traces the spec gives (95_test_vectors.md, Notation) -/

/-- `CLR`: the seven events of CLEAR (41_display_renderer.md R161). -/
def clrTrace : List Event := (List.range 7).map fun s => .write s Config.blank

/-- Characters written to ascending slots from `slot` on. -/
def writesFrom (slot : Nat) : Text → List Event
  | [] => []
  | c :: cs => .write slot c :: writesFrom (slot + 1) cs

/-- put_word's events (R160). -/
def putWordTrace (w : Text) : List Event :=
  if 6 < w.length then writesFrom 1 litError ++ [.error 1] else writesFrom 1 w

/-- `SW(t)`: SHOW_WORD's events (R162). -/
def showWordTrace (t : Text) : List Event := clrTrace ++ putWordTrace t

/-- `ws` are the maximal runs of characters other than 0x20 of `t`, in text order (R164): `t` is blanks, then each run with
the blanks after it, of which there is at least one between two runs. -/
def MaximalRuns (t : Text) (ws : List Text) : Prop :=
  (∀ w ∈ ws, w ≠ [] ∧ 0x20 ∉ w) ∧
  ∃ (lead : Text) (gaps : List Text), gaps.length = ws.length ∧ (∀ c ∈ lead, c = 0x20) ∧
    (∀ g ∈ gaps, ∀ c ∈ g, c = 0x20) ∧ (∀ g ∈ gaps.dropLast, g ≠ []) ∧
    t = lead ++ (ws.zip gaps).flatMap fun p => p.1 ++ p.2

/-- SHOW_PHRASE's events (R165). -/
def showPhraseTrace (t : Text) : List Event := clrTrace ++ (words t).flatMap fun w => putWordTrace w ++ clrTrace

/-- The six writes of window `off` (R166). -/
def windowTrace (t : Text) (off : Nat) : List Event := (List.range 6).map fun j => .write (j + 1) (windowChar t off (j + 1))

/-- SCROLL's events (R167). -/
def scrollTrace (t : Text) : List Event :=
  clrTrace ++ (List.range (t.length + 7)).flatMap (windowTrace t) ++ clrTrace

/-- SHOW_NUMBER's character in visible slot `j` (1 to 6), for a number below 10^6 (R169): none where the slot is left
blank. -/
def numberChar (n j : Nat) : Option Byte :=
  if n / 10 ^ (6 - j) = 0 ∧ ¬(n = 0 ∧ j = 6) then none else some (digitChar (n / 10 ^ (6 - j) % 10))

/-- SHOW_NUMBER's events (R168, R169). -/
def showNumberTrace (n : Nat) : List Event :=
  clrTrace ++
    if 10 ^ 6 ≤ n then writesFrom 1 litError ++ [.error 2]
    else [1, 2, 3, 4, 5, 6].flatMap fun j =>
      match numberChar n j with
      | some c => [.write j c]
      | none => []

/-- The indicator of a bit lit alone, then both off (43_playback_engine.md R210, R211). -/
def lightTrace (seq : Word16) (k : Nat) : List Event := [.ind (!seqBit seq k) (seqBit seq k), .ind false false]

/-- The events of PLAY_ROUND's first `n` steps (R210). -/
def playStepsTrace (seq : Word16) (n : Nat) : List Event :=
  (List.range n).flatMap fun k => showWordTrace litWatch ++ lightTrace seq k

/-- PLAY_ROUND's events (R210). -/
def playRoundTrace (seq : Word16) (round : Nat) : List Event := playStepsTrace seq (round + 1)

/-- The indicator events of a trace. -/
def indicatorEvents (es : List Event) : List Event :=
  es.filter fun e => match e with | .ind _ _ => true | .write _ _ => false | .error _ => false | .resp _ => false

/-! ### CAPTURE's verdict (44_input_capture.md R220 to R223) -/

/-- What CAPTURE makes of the player's presses, `p` of them accepted before: `over`, the number accepted in all, and the
presses it does not take; none where the presses run out first. It stops at the first mismatch, which does not count, or
after `round + 1` accepted presses. -/
def captureVerdict (seq : Word16) (round p : Nat) : List Config.Button → Option (Bool × Nat × List Config.Button)
  | [] => none
  | x :: xs =>
    if seqBit seq p ≠ bitOf x then some (true, p, xs)
    else if p = round then some (false, p + 1, xs)
    else captureVerdict seq round (p + 1) xs

/-- The indicator events of presses: X's indicator alone, then both off (R221). -/
def pressTrace (xs : List Config.Button) : List Event :=
  xs.flatMap fun x => [.ind (x = .a) (x = .b), .ind false false]

/-! ### How many actions of MAIN an operation takes when a tick comes before each of them -/

/-- put_word's writes (41_display_renderer.md R160). -/
def putWordActions (w : Text) : Nat := if 6 < w.length then 5 else w.length

/-- SHOW_PHRASE's actions, a poll of the waits included (R165). -/
def showPhraseActions (wPhrase : Nat) (t : Text) : Nat :=
  7 + ((words t).map fun w => putWordActions w + wPhrase + 7).sum

/-- SCROLL's actions (R167). -/
def scrollActions (wScroll : Nat) (t : Text) : Nat := 7 + (t.length + 7) * (6 + wScroll) + 7

/-- PLAY_ROUND's actions (43_playback_engine.md R210): SHOW_WORD "WATCH" is twelve writes. -/
def playRoundActions (wPlay round : Nat) : Nat := (round + 1) * (12 + wPlay + 1 + wPlay + 1)

/-- SHOW_NUMBER's actions for a number below 10^6 (41_display_renderer.md R168). -/
def showNumberActions (n : Nat) : Nat := (showNumberTrace n).length

/-! ### Inside a WAIT

Where a run with a tick before every action of MAIN is cut off: after `p` polls of one WAIT. -/

/-- From `s` the operation has come into a WAIT of `units`, `p` of its polls are done, and the events so far are `es`. -/
structure InWait (s t : State) (units : Word16) (p : Nat) (es : List Event) : Prop where
  todo : t.todo ≠ []
  turns : t.turns = []
  cidx : t.cidx = s.cidx
  cpc : t.cpc = s.cpc
  dcnt : t.dcnt = some (units - BitVec.ofNat 16 p)
  trace : t.trace = s.trace ++ es

/-- SHOW_PHRASE's actions up to the WAIT after word `w`, the words `ws` before it done (R165). -/
def phraseWaitActions (wPhrase : Nat) (ws : List Text) (w : Text) : Nat :=
  7 + (ws.map fun v => putWordActions v + wPhrase + 7).sum + putWordActions w

/-- SHOW_PHRASE's events up to there. -/
def phraseWaitTrace (ws : List Text) (w : Text) : List Event :=
  clrTrace ++ (ws.flatMap fun v => putWordTrace v ++ clrTrace) ++ putWordTrace w

/-- SCROLL's actions up to the WAIT after window `off` (R167). -/
def scrollWaitActions (wScroll off : Nat) : Nat := 7 + off * (6 + wScroll) + 6

/-- SCROLL's events up to there. -/
def scrollWaitTrace (t : Text) (off : Nat) : List Event := clrTrace ++ (List.range (off + 1)).flatMap (windowTrace t)

/-- The character on the display there: slot 0 blank, the window in slots 1 to 6 (R166). -/
def scrollSlot (t : Text) (off slot : Nat) : Byte := if slot = 0 then Config.blank else windowChar t off slot

/-- The character SHOW_WORD leaves in a slot (R163). -/
def wordSlot (t : Text) (slot : Nat) : Byte :=
  if slot = 0 then Config.blank else (if 6 < t.length then litError else t).getD (slot - 1) Config.blank

/-- The character SHOW_NUMBER leaves in a slot (R169): ERROR for a number of more than six digits. -/
def numberSlot (n slot : Nat) : Byte :=
  if slot = 0 then Config.blank
  else if 10 ^ 6 ≤ n then litError.getD (slot - 1) Config.blank
  else (numberChar n slot).getD Config.blank

/-! ### The invariant of a safe run -/

/-- No 0x00 in a text (00_scope.md R17). -/
def noNul (t : Text) : Prop := ∀ c ∈ t, c ≠ 0

/-- A line can run: the registers it reads hold a value (60_exceptions.md R287) and what it writes is a legal slot and
code (20_memory.md R85). -/
def Ready (s : State) : Stmt → Prop
  | .clear slot => slot ≤ 6
  | .write slot ch => slot ≤ 6 ∧ ch ≠ 0
  | .putWord w => noNul w
  | .putChars w => s.i.isSome ∧ noNul w ∧ w.length ≤ 6
  | .showError _ => True
  | .errorChars => s.i.isSome
  | .event _ => True
  | .wait _ => True
  | .poll => s.dcnt.isSome
  | .phrase ws => ∀ w ∈ ws, noNul w
  | .scrollStart t => noNul t
  | .scrollStep t => s.off.isSome ∧ noNul t
  | .window t slot => s.off.isSome ∧ noNul t ∧ 1 ≤ slot ∧ slot ≤ 6
  | .scrollNext t => s.off.isSome ∧ noNul t
  | .number _ => True
  | .digit => s.rem.isSome ∧ s.digk.isSome ∧ s.started.isSome
  | .putDigit ch => s.rem.isSome ∧ s.digk.isSome ∧ s.started.isSome ∧ ch ≠ 0
  | .ind _ _ => True
  | .readBtn => True
  | .tick => True
  | .sample => True
  | .genBtn => True
  | .genSample _ => True
  | .playStart _ _ => True
  | .playTest _ _ => s.k.isSome
  | .light _ => s.k.isSome
  | .playNext _ _ => s.k.isSome
  | .capStart _ _ => True
  | .capTest _ _ => s.pcntPress.isSome ∧ s.capOver.isSome
  | .capPoll _ _ => s.pcntPress.isSome ∧ s.capOver.isSome
  | .hold _ => True
  | .compare _ _ => s.pcntPress.isSome ∧ s.capOver.isSome
  | .restartPoll => True

/-- The operation in progress can go on, DIGK being a slot (10_state.md R36). -/
structure OperationOk (s : State) : Prop where
  ready : ∀ st ∈ s.todo, Ready s st
  digk : ∀ d, s.digk = some d → d.toNat ≤ 6

/-- The outputs as the spec gives them: OUT_REG bits 7:2 are 0 (10_state.md R43), no slot written holds 0x00
(20_memory.md R85). -/
structure OutputsOk (s : State) : Prop where
  reserved : s.outReg >>> 2 = 0
  slots : ∀ (j : Nat) (c : Byte), slotShown s j = some c → c ≠ 0

/-- Labels of one game after S0 (45_game_controller.md R240). -/
def inGame : Label → Bool
  | .a0 => false
  | .a1 => false
  | .a2 => false
  | .s0 => false
  | .rl0 => true
  | .rl1 => true
  | .rl2 => true
  | .rl3 => true
  | .rl4 => true
  | .rl5 => true
  | .rl6 => true
  | .rl7 => true
  | .rl8 => true
  | .rl9 => true
  | .rl10 => true
  | .g0 => true
  | .g1 => true
  | .g2 => true
  | .g3 => true

/-- Labels at which a round is being played: ROUND is in 0..15 there (45_game_controller.md R262). -/
def inRound : Label → Bool
  | .a0 => false
  | .a1 => false
  | .a2 => false
  | .s0 => false
  | .rl0 => true
  | .rl1 => false
  | .rl2 => true
  | .rl3 => true
  | .rl4 => true
  | .rl5 => true
  | .rl6 => true
  | .rl7 => true
  | .rl8 => true
  | .rl9 => true
  | .rl10 => false
  | .g0 => false
  | .g1 => false
  | .g2 => false
  | .g3 => false

/-- Labels that invoke no operation (45_game_controller.md R244 to R246, R248, R253 to R256, R259): none is in progress
there. -/
def operationFree : Label → Bool
  | .a0 => false
  | .a1 => false
  | .a2 => false
  | .s0 => true
  | .rl0 => true
  | .rl1 => true
  | .rl2 => false
  | .rl3 => true
  | .rl4 => false
  | .rl5 => false
  | .rl6 => false
  | .rl7 => false
  | .rl8 => true
  | .rl9 => true
  | .rl10 => true
  | .g0 => true
  | .g1 => false
  | .g2 => false
  | .g3 => true

/-- OVER where the control program fixes it: 0 up to CAPTURE (45_game_controller.md R248), 1 from G0 on (R256). -/
def overAt (l : Label) (ov : Bool) : Prop :=
  match l with
  | .rl0 | .rl1 | .rl2 | .rl3 | .rl4 | .rl5 | .rl6 | .rl7 | .rl9 | .rl10 => ov = false
  | .g0 | .g1 | .g2 | .g3 => ov = true
  | .a0 | .a1 | .a2 | .s0 | .rl8 => True

/-- CSTATE where the control program fixes it (45_game_controller.md R241, R244, R245, R256). -/
def cstateAt (l : Label) : Option CState :=
  match l with
  | .a0 => none
  | .a1 | .a2 | .s0 => some .awaitStart
  | .rl0 => some .sequenceGenerated
  | .rl1 | .rl2 | .rl3 | .rl4 | .rl5 | .rl6 | .rl7 | .rl8 | .rl9 | .rl10 | .g0 => some .roundLoop
  | .g1 | .g2 | .g3 => some .gameOver

/-- A line that writes no indicator, and no line it stands for does. -/
def quiet : Stmt → Bool
  | .clear _ => true
  | .write _ _ => true
  | .putWord _ => true
  | .putChars _ => true
  | .showError _ => true
  | .errorChars => true
  | .event _ => true
  | .wait _ => true
  | .poll => true
  | .phrase _ => true
  | .scrollStart _ => true
  | .scrollStep _ => true
  | .window _ _ => true
  | .scrollNext _ => true
  | .number _ => true
  | .digit => true
  | .putDigit _ => true
  | .ind _ _ => false
  | .readBtn => true
  | .tick => true
  | .sample => true
  | .genBtn => true
  | .genSample _ => true
  | .playStart _ _ => false
  | .playTest _ _ => false
  | .light _ => false
  | .playNext _ _ => false
  | .capStart _ _ => false
  | .capTest _ _ => false
  | .capPoll _ _ => false
  | .hold _ => true
  | .compare _ _ => true
  | .restartPoll => true

/-- Both indicators are off after these lines, `dark` saying whether they are before: PLAY_ROUND and CAPTURE turn off what
they light (43_playback_engine.md R210, 44_input_capture.md R224). -/
def darkAfter (dark : Bool) : List Stmt → Bool
  | [] => dark
  | .ind a b :: ls => darkAfter (!a && !b) ls
  | .light _ :: ls => darkAfter false ls
  | _ :: ls => darkAfter dark ls

/-- Labels at which both indicators are on, from A0's SetInd(1, 1) on (45_game_controller.md R241 to R245). -/
def litAt : Label → Bool
  | .a0 => false
  | .a1 => true
  | .a2 => true
  | .s0 => true
  | .rl0 => true
  | .rl1 => false
  | .rl2 => false
  | .rl3 => false
  | .rl4 => false
  | .rl5 => false
  | .rl6 => false
  | .rl7 => false
  | .rl8 => false
  | .rl9 => false
  | .rl10 => false
  | .g0 => false
  | .g1 => false
  | .g2 => false
  | .g3 => false

/-- Labels at whose end both indicators are off, from RL2's SetInd(0, 0) on (45_game_controller.md R247, R258). -/
def darkAt : Label → Bool
  | .a0 => false
  | .a1 => false
  | .a2 => false
  | .s0 => false
  | .rl0 => false
  | .rl1 => false
  | .rl2 => false
  | .rl3 => true
  | .rl4 => true
  | .rl5 => true
  | .rl6 => true
  | .rl7 => true
  | .rl8 => true
  | .rl9 => true
  | .rl10 => true
  | .g0 => true
  | .g1 => true
  | .g2 => true
  | .g3 => true

/-- Labels that light no indicator and turn none off, whatever the point inside them is (45_game_controller.md R242, R243,
R249, R250, R257, R258). -/
def quietAt : Label → Bool
  | .a0 => false
  | .a1 => true
  | .a2 => true
  | .s0 => true
  | .rl0 => true
  | .rl1 => true
  | .rl2 => false
  | .rl3 => true
  | .rl4 => true
  | .rl5 => true
  | .rl6 => false
  | .rl7 => false
  | .rl8 => true
  | .rl9 => true
  | .rl10 => true
  | .g0 => true
  | .g1 => true
  | .g2 => true
  | .g3 => true

/-- The indicators at the controller's labels: both on at A1, A2, S0 and RL0, and in the first round up to RL2's SetInd(0, 0);
both off after it, but while RL6 and RL7 light one (45_game_controller.md R241 to R258). -/
structure IndicatorsOk (s : State) : Prop where
  lighting : s.cpc = .a0 → s.todo ≠ [] → s.todo = [.ind true true]
  lit : litAt s.cpc = true → s.outReg = 3
  quiet : quietAt s.cpc = true → ∀ st ∈ s.todo, quiet st = true
  round : s.cpc = .rl1 ∨ s.cpc = .rl2 ∧ s.todo = [] → s.outReg = if s.round = 0 then 3 else 0
  clearing : s.cpc = .rl2 → s.todo ≠ [] → darkAfter (s.outReg = 0) s.todo = true
  dark : darkAt s.cpc = true → darkAfter (s.outReg = 0) s.todo = true

/-- The controller's invariant (45_game_controller.md R260, R262; 10_state.md R30): while a game runs SEQ holds a non-zero
value and SCORE = ROUND ≤ 16, ROUND = 0 at RL0, ROUND ≤ 15 where a round is played, ROUND = 16 at RL10; GENERATE's result is
not 0 at S0; the indicators are as the labels leave them. -/
structure ControllerOk (s : State) : Prop where
  between : operationFree s.cpc = true → s.todo = []
  await : s.cpc = .a0 → s.todo ≠ [] → s.cstate = .awaitStart
  gate : s.cpc = .a2 → s.todo = [] ∨ s.todo = [.genBtn] ∨ ∃ p, s.todo = [.genSample p]
  sample : s.cpc = .s0 → s.ret ≠ 0
  seq : inGame s.cpc = true → ∃ v, s.seq = some v ∧ v ≠ 0
  score : inGame s.cpc = true → s.score = s.round
  bound : inGame s.cpc = true → s.round.toNat ≤ 16
  playing : inRound s.cpc = true → s.round.toNat ≤ 15
  full : s.cpc = .rl10 → s.round = 16
  overFlag : overAt s.cpc s.overFlag
  cstate : ∀ c, cstateAt s.cpc = some c → s.cstate = c
  first : s.cpc = .rl0 → s.round = 0
  indicators : IndicatorsOk s

/-- The invariant of a run: every step keeps it, and no step from it faults. -/
structure RunOk (s : State) : Prop where
  launch : s.launch.wf = true
  operation : OperationOk s
  outputs : OutputsOk s
  controller : s.launch.mode = .game → ControllerOk s

/-! ### Runs -/

/-- A state right after reset of launch `l`: as `State.resetOf`, whatever the draws of 70_reset_and_hazards.md R322, the
indicators, the display, the hidden count and the interleaving are. -/
def JustReset (l : Config.Launch) (s : State) : Prop :=
  ∃ tf fo fc pc ir ia ib d ts n,
    s = { State.resetOf l with
      tickFlag := tf, freeOvf := fo, freeCnt := fc, ptimerCnt := pc, inReg := ir, outReg := indByte ia ib,
      disp := d, turns := ts, draws := n }

/-- The states the runs of a launch reach, under every draw and every interleaving (20_memory.md R103). -/
inductive Reachable (l : Config.Launch) : State → Prop where
  | reset (s : State) : JustReset l s → Reachable l s
  | step (s t : State) : Reachable l s → Machine.step s = .next t → Reachable l t

end Sys2Proof.Safety
end

