-- ==== Sys2Proof/Certificates/Slice0/Obligations.lean ====
section
/-! DEFINITION. The statements for the provers. Each docstring names the rule of spec/ a statement formalises, or says that
it is the model's own. -/

open Sys2Proof Sys2Proof.Machine Sys2Proof.Safety

/-! ### Encoding -/

/-- The decoder reads back every well-formed command from its encoding, whatever follows it (30_encoding.md R111, R112). -/
def Obligations.DecodeInvertsEncode : Prop :=
  ∀ (i : Instr) (off : Nat) (rest : List Byte), i.wf = true → decodeOne off (encode i ++ rest) = .ok (i, rest)

/-- A whole list of well-formed commands is admitted and read back (R118, R126). -/
def Obligations.ProgramDecodeInvertsEncode : Prop :=
  ∀ is : List Instr, (∀ i ∈ is, i.wf = true) → decodeProgram (encodeProgram is) = .ok is

/-- What the decoder admits is a well-formed command, and the bytes it took are that command's encoding: every command has
one encoding. -/
def Obligations.DecodedBytesAreTheEncoding : Prop :=
  ∀ (off : Nat) (bs : List Byte) (i : Instr) (rest : List Byte),
    decodeOne off bs = .ok (i, rest) → i.wf = true ∧ bs = encode i ++ rest

/-- The worked encodings of R122, both ways. -/
def Obligations.WorkedEncodings : Prop :=
  ∀ p ∈ ([(.clear, [0x20]),
      (.wait 3, [0x11, 0x03, 0x00]),
      (.wait 300, [0x11, 0x2C, 0x01]),
      (.showWord [0x48, 0x45, 0x4C, 0x4C, 0x4F], [0x21, 0x48, 0x45, 0x4C, 0x4C, 0x4F, 0x00]),
      (.showWord [], [0x21, 0x00]),
      (.showNumber 42, [0x24, 0x2A, 0x00, 0x00, 0x00]),
      (.showNumber 1000000, [0x24, 0x40, 0x42, 0x0F, 0x00]),
      (.playRound 0x0005 2, [0x40, 0x05, 0x00, 0x02]),
      (.capture 0x0005 2, [0x50, 0x05, 0x00, 0x02]),
      (.writeChar 6 0x30, [0x01, 0x06, 0x30]),
      (.setInd true false, [0x02, 0x01]),
      (.scroll [0x48, 0x49], [0x23, 0x48, 0x49, 0x00])] : List (Instr × List Byte)),
    encode p.1 = p.2 ∧ decodeOne 0 p.2 = .ok (p.1, [])

/-- Every opcode value outside the map is illegal (R117). -/
def Obligations.IllegalOpcodesAreRefused : Prop :=
  ∀ (off : Nat) (op : Byte) (bs : List Byte),
    op ∉ ([0x01, 0x02, 0x03, 0x10, 0x11, 0x12, 0x20, 0x21, 0x22, 0x23, 0x24, 0x30, 0x40, 0x50] : List Byte) →
    decodeOne off (op :: bs) = .error (.illegalOpcode off)

/-- The field rules of R116: round, slot and code, the reserved bits; every units, n and seq is legal. Where both fields of an
FC command are illegal, naming the slot is the model's choice (log entry 10). A command whose bytes end before its last
field is Truncated, whatever its fields hold (R115, R118). -/
def Obligations.FieldRulesOfTheDecoder : Prop :=
  ∀ (off : Nat) (b1 b2 b3 b4 : Byte) (rest : List Byte),
    (decodeOne off (0x40 :: b1 :: b2 :: b3 :: rest) =
      if 15 < b3.toNat then .error (.badField off .round) else .ok (.playRound (b2 ++ b1) b3, rest)) ∧
    (decodeOne off (0x50 :: b1 :: b2 :: b3 :: rest) =
      if 15 < b3.toNat then .error (.badField off .round) else .ok (.capture (b2 ++ b1) b3, rest)) ∧
    (decodeOne off (0x01 :: b1 :: b2 :: rest) =
      if 6 < b1.toNat then .error (.badField off .slot)
      else if b2 = 0 then .error (.badField off .ch) else .ok (.writeChar b1 b2, rest)) ∧
    (decodeOne off (0x02 :: b1 :: rest) =
      if 4 ≤ b1.toNat then .error (.badField off .reserved)
      else .ok (.setInd (b1.getLsbD 0) (b1.getLsbD 1), rest)) ∧
    decodeOne off (0x11 :: b1 :: b2 :: rest) = .ok (.wait (b2 ++ b1), rest) ∧
    decodeOne off (0x24 :: b1 :: b2 :: b3 :: b4 :: rest) = .ok (.showNumber (b4 ++ b3 ++ b2 ++ b1), rest) ∧
    (∀ (op : Byte) (n : Nat) (bs : List Byte),
      (op, n) ∈ ([(0x11, 2), (0x24, 4), (0x40, 3), (0x50, 3), (0x01, 2), (0x02, 1)] : List (Byte × Nat)) →
      bs.length < n → decodeOne off (op :: bs) = .error (.truncated off))

/-- String operands (R113, R118): up to 255 characters are admitted, more are StringTooLong, and no terminator at all is
Truncated. That the last case is Truncated even past 255 characters is the model's reading of R118's order (log entry 11). -/
def Obligations.StringOperandVerdicts : Prop :=
  ∀ (off : Nat) (t : Text) (rest : List Byte), noNul t →
    (t.length ≤ 255 →
      decodeOne off (0x21 :: (t ++ 0 :: rest)) = .ok (.showWord t, rest) ∧
      decodeOne off (0x22 :: (t ++ 0 :: rest)) = .ok (.showPhrase t, rest) ∧
      decodeOne off (0x23 :: (t ++ 0 :: rest)) = .ok (.scroll t, rest)) ∧
    (∀ op ∈ ([0x21, 0x22, 0x23] : List Byte),
      (255 < t.length → decodeOne off (op :: (t ++ 0 :: rest)) = .error (.stringTooLong off)) ∧
      decodeOne off (op :: t) = .error (.truncated off))

/-- The pseudo-instructions of R121: what each stands for, at the spec's values of the parameters and at every other. -/
def Obligations.PseudoInstructionsExpand : Prop :=
  (Config.specParams.wPhrase = 40 ∧ Config.specParams.wScroll = 20 ∧ Config.specParams.wPlay = 25 ∧
    Config.specParams.wDebounce = 3 ∧ Config.specParams.wRound = 50) ∧
  ∀ p : Config.Params,
    expand p .indOff = .setInd false false ∧ expand p .indA = .setInd true false ∧
    expand p .indB = .setInd false true ∧ expand p .indBoth = .setInd true true ∧
    expand p .showError = .showWord [0x45, 0x52, 0x52, 0x4F, 0x52] ∧
    expand p .delayPhrase = .wait p.wPhrase ∧ expand p .delayScroll = .wait p.wScroll ∧
    expand p .delayPlay = .wait p.wPlay ∧ expand p .delayDebounce = .wait p.wDebounce ∧
    expand p .delayRound = .wait p.wRound ∧ ∀ x : Pseudo, (expand p x).wf = true

/-! ### The step -/

/-- A step runs the command at CIDX of an admitted list (30_encoding.md R127), or in GAME mode the label at CPC (10_state.md
R38). That one step is one command or one label, and not one atomic action, is the model's choice (log entry 15). -/
def Obligations.StepRunsTheProgramCounter : Prop :=
  ∀ s : State,
    (∀ (is : List Instr) (i : Instr), s.launch.mode = .direct → decodeProgram s.launch.commands = .ok is →
      is[s.cidx]? = some i → step s = exec i s) ∧
    (s.launch.mode = .game → step s = execLabel s.cpc s)

/-- The verdict on a list is that of its first invalid command, at the offset of that command (30_encoding.md R118): the
commands before it are well-formed and it is the first bytes that decode to none. With an invalid command the launch is
refused with that verdict, at every state: MAIN has no step (R126). -/
def Obligations.InvalidLaunchIsRefused : Prop :=
  (∀ (bytes : List Byte) (v : Verdict),
    decodeProgram bytes = .error v ↔
      ∃ (is : List Instr) (bs : List Byte), (∀ i ∈ is, i.wf = true) ∧ bs ≠ [] ∧ bytes = encodeProgram is ++ bs ∧
        decodeOne (encodeProgram is).length bs = .error v) ∧
  ∀ (s : State) (v : Verdict), s.launch.mode = .direct → decodeProgram s.launch.commands = .error v →
    step s = .refused (refusalOf v)

/-- Past the last command (30_encoding.md R127) only the other agents move: the prescribed turn, or a free one. That a step
still answers there is the model's choice (log entry 13). -/
def Obligations.EndedRunLeavesMainIdle : Prop :=
  ∀ (s : State) (is : List Instr), s.launch.mode = .direct → decodeProgram s.launch.commands = .ok is →
    is.length ≤ s.cidx →
    (∀ (t : Config.Turn) (ts : List Config.Turn), s.turns = t :: ts → step s = .next (agentAct t { s with turns := ts })) ∧
    (s.turns = [] → step s = .next (agentAct (Config.freeTurn s.draws) { s with draws := s.draws + 1 }))

/-- An operation that the interleaving leaves in progress goes on exactly where it stood: running a command through the
turns `ts ++ us` is running it through `ts` and, where it is still in progress, through `us` (20_memory.md R84). -/
def Obligations.PausedOperationGoesOnWhereItStood : Prop :=
  ∀ (i : Instr) (s t : State) (ts us : List Config.Turn), ts ≠ [] → us ≠ [] →
    exec i { s with turns := ts } = .next t → t.todo ≠ [] →
    exec i { s with turns := ts ++ us } = exec i { t with turns := us }

/-- A meaning handed an operand the decoder never admits is refused by name (43_playback_engine.md R210 "refused at
decode"; the refusal of the meaning itself is the model's, log entry 9). -/
def Obligations.InadmissibleOperandsAreRefused : Prop :=
  ∀ s : State,
    (∀ (seq : Word16) (r : Byte), 15 < r.toNat →
      exec (.playRound seq r) s = .refused (.inadmissible .round) ∧
      exec (.capture seq r) s = .refused (.inadmissible .round)) ∧
    (∀ t : Text, 255 < t.length ∨ ¬noNul t →
      exec (.showWord t) s = .refused (.inadmissible .text) ∧
      exec (.showPhrase t) s = .refused (.inadmissible .text) ∧
      exec (.scroll t) s = .refused (.inadmissible .text))

/-! ### What no operation changes -/

/-- No command writes a game register, the controller's position, the compare register or the launch, and a command only
adds to the trace (45_game_controller.md R264, 30_encoding.md R119). -/
def Obligations.CommandsKeepTheGameRegisters : Prop :=
  ∀ (i : Instr) (s t : State), exec i s = .next t →
    t.seq = s.seq ∧ t.round = s.round ∧ t.score = s.score ∧ t.overFlag = s.overFlag ∧ t.cstate = s.cstate ∧
    t.cpc = s.cpc ∧ t.tickCmp = s.tickCmp ∧ t.launch = s.launch ∧ ∃ es, t.trace = s.trace ++ es

/-- No step changes the launch (20_memory.md R101, 30_encoding.md R128) or TICK_CMP (10_state.md R45), and the trace only
grows. -/
def Obligations.StepsKeepTheLaunch : Prop :=
  ∀ s t : State, step s = .next t →
    t.launch = s.launch ∧ t.tickCmp = s.tickCmp ∧ ∃ es, t.trace = s.trace ++ es

/-- In GAME mode each game register changes at its own labels only (10_state.md R30 to R33, 45_game_controller.md R264). -/
def Obligations.GameRegistersChangeAtTheirLabelsOnly : Prop :=
  ∀ s t : State, s.launch.mode = .game → step s = .next t →
    (s.cpc ∉ ([.a0, .s0] : List Label) → t.seq = s.seq) ∧
    (s.cpc ∉ ([.a0, .s0, .rl9] : List Label) → t.round = s.round ∧ t.score = s.score) ∧
    (s.cpc ∉ ([.a0, .s0, .rl7, .rl10] : List Label) → t.overFlag = s.overFlag) ∧
    (s.cpc ∉ ([.a0, .s0, .rl0, .g0] : List Label) → t.cstate = s.cstate) ∧
    t.cidx = s.cidx

/-- The display commands leave OUT_REG and the registers of the other operations as they were, and add no indicator event
and no response (41_display_renderer.md R161 to R168). CLEAR, SHOW_WORD and SHOW_NUMBER write no flag (R161, R162, R168;
10_state.md R41): TICK_FLAG is as it was, where PTIMER sets it not. -/
def Obligations.DisplayCommandsKeepTheIndicators : Prop :=
  ∀ (i : Instr) (s t : State), s.todo = [] →
    (i = .clear ∨ (∃ x, i = .showWord x) ∨ (∃ x, i = .showPhrase x) ∨ (∃ x, i = .scroll x) ∨ ∃ n, i = .showNumber n) →
    exec i s = .next t →
    t.outReg = s.outReg ∧ t.pcntPress = s.pcntPress ∧ t.capOver = s.capOver ∧ t.k = s.k ∧ t.ret = s.ret ∧
    (i = .clear ∨ (∃ x, i = .scroll x) → t.i = s.i) ∧
    ((∀ x, i ≠ .scroll x) → t.off = s.off) ∧
    ((∀ n, i ≠ .showNumber n) → t.rem = s.rem ∧ t.digk = s.digk ∧ t.started = s.started) ∧
    (i = .clear ∨ (∃ x, i = .showWord x) ∨ (∃ n, i = .showNumber n) →
      t.dcnt = s.dcnt ∧ (s.tickFlag = true → t.tickFlag = true) ∧
      (s.turns ≠ [] → .ptimerTick ∉ s.turns → t.tickFlag = s.tickFlag)) ∧
    ∃ es, t.trace = s.trace ++ es ∧ ∀ e ∈ es, (∃ slot ch, e = .write slot ch) ∨ ∃ k, e = .error k

/-- READ_BTN, TICK, WAIT, SAMPLE_ENTROPY and GENERATE leave the display, the indicators and the registers of the other
operations as they were, and add nothing to the trace but a response (42_sequence_generator.md R203). -/
def Obligations.TimingCommandsKeepTheOutputs : Prop :=
  ∀ (i : Instr) (s t : State), s.todo = [] →
    (i = .readBtn ∨ i = .tick ∨ (∃ u, i = .wait u) ∨ i = .sampleEntropy ∨ i = .generate) → exec i s = .next t →
    t.disp = s.disp ∧ t.outReg = s.outReg ∧ t.pcntPress = s.pcntPress ∧ t.capOver = s.capOver ∧ t.k = s.k ∧ t.i = s.i ∧
    t.off = s.off ∧ t.rem = s.rem ∧ t.digk = s.digk ∧ t.started = s.started ∧
    ((∀ u, i ≠ .wait u) → t.dcnt = s.dcnt) ∧
    (t.trace = s.trace ∨ ((∀ u, i ≠ .wait u) ∧ t.todo = [] ∧ t.trace = s.trace ++ [.resp t.ret]))

/-- PLAY_ROUND leaves the result, CAPTURE's counter and flag, and OFF, REM, DIGK and STARTED as they were; CAPTURE leaves K
and the same four. PLAY_ROUND gives no response, CAPTURE one at its end (43_playback_engine.md R210, 44_input_capture.md
R220). -/
def Obligations.RoundCommandsKeepTheOtherRegisters : Prop :=
  ∀ (s t : State) (seq : Word16) (r : Byte), s.todo = [] →
    (exec (.playRound seq r) s = .next t →
      t.ret = s.ret ∧ t.pcntPress = s.pcntPress ∧ t.capOver = s.capOver ∧ t.off = s.off ∧ t.rem = s.rem ∧
      t.digk = s.digk ∧ t.started = s.started ∧ ∃ es, t.trace = s.trace ++ es ∧ ∀ e ∈ es, ∀ v, e ≠ .resp v) ∧
    (exec (.capture seq r) s = .next t →
      t.k = s.k ∧ t.off = s.off ∧ t.rem = s.rem ∧ t.digk = s.digk ∧ t.started = s.started ∧
      ∃ es, (∀ e ∈ es, ∀ v, e ≠ .resp v) ∧
        t.trace = s.trace ++ es ++ if t.todo = [] then [.resp t.ret] else [])

/-- Where MAIN alone moves, a command changes no port but the display, OUT_REG and TICK_FLAG: every other address of the
PORT space reads as before (20_memory.md R80, R81), and of TIMER_STATUS bit 0 can only be cleared (R82, R87). -/
def Obligations.CommandsWriteTheOutputPortsAlone : Prop :=
  ∀ (i : Instr) (s t : State), s.turns ≠ [] → (∀ u ∈ s.turns, u = .main) → exec i s = .next t →
    (∀ addr : Byte, 6 < addr.toNat → addr ≠ 0x11 → addr ≠ 0x22 → portView t addr = portView s addr) ∧
    (timerStatus t).getLsbD 1 = (timerStatus s).getLsbD 1 ∧
    ((timerStatus t).getLsbD 0 = true → (timerStatus s).getLsbD 0 = true)

/-! ### The other agents and the interrupt -/

/-- FTIMER's step advances FREE_CNT modulo 2^16 and sets FREE_OVF at the wrap, PTIMER's sets TICK_FLAG, and the two are
independent (40_timing_service.md R146 to R148). What becomes of the hidden counter is left open here. PLAYER's step makes
the input levels what they are and changes nothing else (10_state.md R42); that it sets all eight bits of IN_REG is read
from that rule (log entry 16). -/
def Obligations.TimersAndPlayerStepIndependently : Prop :=
  ∀ s : State,
    agentAct .ftimer s =
      { s with freeCnt := s.freeCnt + 1, freeOvf := s.freeOvf || decide (s.freeCnt = 0xFFFF) } ∧
    (∃ n, agentAct .ptimerTick s = { s with tickFlag := true, ptimerCnt := n }) ∧
    (∃ n, agentAct .ptimerCount s = { s with ptimerCnt := n }) ∧
    (∀ t ∈ ([.ptimerCount, .ptimerTick] : List Config.Turn),
      (agentAct t s).freeCnt = s.freeCnt ∧ (agentAct t s).freeOvf = s.freeOvf ∧
      agentAct .ftimer (agentAct t s) = agentAct t (agentAct .ftimer s)) ∧
    (agentAct .ftimer s).tickFlag = s.tickFlag ∧ (agentAct .ftimer s).ptimerCnt = s.ptimerCnt ∧
    ∀ levels : Byte, agentAct (.player levels) s = { s with inReg := levels }

/-- Taking the interrupt (60_exceptions.md R283 to R285): entry and return change nothing, the handler clears FREE_OVF
alone, and where FREE_OVF is 0 nothing is taken. -/
def Obligations.InterruptClearsFreeOvfAlone : Prop :=
  ∀ s : State, interruptEntry s = s ∧ interruptHandler s = { s with freeOvf := false } ∧ interruptReturn s = s ∧
    agentAct .isr s = { s with freeOvf := false } ∧ (s.freeOvf = false → agentAct .isr s = s)

/-- Where the handler runs is invisible to MAIN (20_memory.md R97): leaving the ISR turns out of the interleaving of a
command, or of a label of the control program, changes nothing but FREE_OVF. -/
def Obligations.InterruptIsInvisibleToMain : Prop :=
  ∀ (s t : State) (ts : List Config.Turn), ts.filter (· ≠ .isr) ≠ [] →
    (∀ i : Instr, exec i { s with turns := ts } = .next t →
      ∃ f, exec i { s with turns := ts.filter (· ≠ .isr) } =
        .next { t with freeOvf := f, turns := t.turns.filter (· ≠ .isr) }) ∧
    (∀ l : Label, execLabel l { s with turns := ts } = .next t →
      ∃ f, execLabel l { s with turns := ts.filter (· ≠ .isr) } =
        .next { t with freeOvf := f, turns := t.turns.filter (· ≠ .isr) })

/-! ### Port commands and the ports -/

/-- WRITE_CHAR is one WriteChar at MAIN's next turn (46_port_commands.md R360): a legal slot is written with its event, and
nothing else of MAIN's changes; a slot above 6 or the code 0x00 is PortRefused (20_memory.md R85). -/
def Obligations.WriteCharWritesOneSlot : Prop :=
  ∀ (s : State) (slot ch : Byte) (e rest : List Config.Turn), s.todo = [] → .main ∉ e → s.turns = e ++ .main :: rest →
    (slot.toNat ≤ 6 → ch ≠ 0 →
      exec (.writeChar slot ch) s = .next { agents e s with
        disp := s.disp.setIfInBounds slot.toNat ch
        trace := s.trace ++ [.write slot.toNat ch]
        cidx := s.cidx + 1
        turns := rest }) ∧
    (6 < slot.toNat ∨ ch = 0 → exec (.writeChar slot ch) s = .fault (.portRefused slot))

/-- SET_IND (46_port_commands.md R361): both indicator bits in one access, bits 7:2 zero (20_memory.md R86). -/
def Obligations.SetIndWritesBothIndicators : Prop :=
  ∀ (s : State) (a b : Bool) (e rest : List Config.Turn), s.todo = [] → .main ∉ e → s.turns = e ++ .main :: rest →
    exec (.setInd a b) s = .next { agents e s with
      outReg := BitVec.ofNat 8 ((if a then 1 else 0) + (if b then 2 else 0))
      trace := s.trace ++ [.ind a b]
      cidx := s.cidx + 1
      turns := rest }

/-- READ_BTN (46_port_commands.md R362): RESP({pb, pa}), active-high, bits 7:2 of IN_REG ignored. -/
def Obligations.ReadBtnRespondsWithThePressedButtons : Prop :=
  ∀ (s : State) (e rest : List Config.Turn), s.todo = [] → .main ∉ e → s.turns = e ++ .main :: rest →
    exec .readBtn s = .next { agents e s with
      ret := BitVec.ofNat 16
        ((if (agents e s).inReg.getLsbD 0 then 0 else 1) + (if (agents e s).inReg.getLsbD 1 then 0 else 2))
      trace := s.trace ++ [.resp (BitVec.ofNat 16
        ((if (agents e s).inReg.getLsbD 0 then 0 else 1) + (if (agents e s).inReg.getLsbD 1 then 0 else 2)))]
      cidx := s.cidx + 1
      turns := rest }

/-- Any port access of MAIN outside the map, at another width or against its direction, is PortRefused (20_memory.md R83). -/
def Obligations.OtherPortAccessesAreRefused : Prop :=
  ∀ (s : State) (addr : Byte) (n : Nat),
    (¬(addr = 0x10 ∧ n = 1) → ¬(addr = 0x20 ∧ n = 2) → ∀ f, memRead addr n s f = .fault (.portRefused addr)) ∧
    (¬(addr.toNat ≤ 6 ∧ n = 1) → ¬(addr = 0x11 ∧ n = 1) → ∀ v, memWrite addr n v s = .fault (.portRefused addr))

/-- The frame of the one-action commands over the PORT space: each leaves every port cell as it was but its own
(20_memory.md R81, R85 to R89); TICK leaves bit 1 of TIMER_STATUS (R82). -/
def Obligations.OneActionCommandsKeepOtherPorts : Prop :=
  ∀ (s t : State) (rest : List Config.Turn) (addr : Byte), s.todo = [] → s.turns = .main :: rest →
    (∀ slot ch : Byte, exec (.writeChar slot ch) s = .next t → addr ≠ slot → portView t addr = portView s addr) ∧
    (∀ a b : Bool, exec (.setInd a b) s = .next t → addr ≠ 0x11 → portView t addr = portView s addr) ∧
    (exec .readBtn s = .next t → portView t addr = portView s addr) ∧
    (exec .sampleEntropy s = .next t → portView t addr = portView s addr) ∧
    (exec .tick s = .next t → (addr ≠ 0x22 → portView t addr = portView s addr) ∧
      (timerStatus t).getLsbD 0 = false ∧ (timerStatus t).getLsbD 1 = (timerStatus s).getLsbD 1)

/-! ### Timing -/

/-- TICK (40_timing_service.md R140): an atomic test-and-clear of TICK_FLAG with its response. -/
def Obligations.TickTestsAndClears : Prop :=
  ∀ (s : State) (e rest : List Config.Turn), s.todo = [] → .main ∉ e → s.turns = e ++ .main :: rest →
    exec .tick s = .next { agents e s with
      tickFlag := false
      ret := if (agents e s).tickFlag then 1 else 0
      trace := s.trace ++ [.resp (if (agents e s).tickFlag then 1 else 0)]
      cidx := s.cidx + 1
      turns := rest }

/-- SAMPLE_ENTROPY (R144): one read of FREE_CNT, zero included, with its response. -/
def Obligations.SampleEntropyReadsFreeCnt : Prop :=
  ∀ (s : State) (e rest : List Config.Turn), s.todo = [] → .main ∉ e → s.turns = e ++ .main :: rest →
    exec .sampleEntropy s = .next { agents e s with
      ret := (agents e s).freeCnt
      trace := s.trace ++ [.resp (agents e s).freeCnt]
      cidx := s.cidx + 1
      turns := rest }

/-- WAIT (R142, R143): WAIT 0 returns at once with no poll, so TICK_FLAG stays and no turn is taken. Through any interleaving
a longer one ends exactly if `units` of its polls return true, a tick pending from before counting as the first; until
then DCNT is what is left. -/
def Obligations.WaitEndsAfterItsTicks : Prop :=
  (∀ s : State, s.todo = [] → exec (.wait 0) s = .next { s with dcnt := some 0, cidx := s.cidx + 1 }) ∧
  ∀ (s : State) (units : Word16), units ≠ 0 → s.todo = [] → s.turns ≠ [] →
    (truePolls s.tickFlag s.turns < units.toNat →
      ∃ t, exec (.wait units) s = .next t ∧ t.todo = [.poll] ∧ t.cidx = s.cidx ∧ t.turns = [] ∧
        t.dcnt = some (units - BitVec.ofNat 16 (truePolls s.tickFlag s.turns))) ∧
    (units.toNat ≤ truePolls s.tickFlag s.turns →
      ∃ t, exec (.wait units) s = .next t ∧ t.todo = [] ∧ t.cidx = s.cidx + 1 ∧ t.dcnt = some 0 ∧ t.tickFlag = false ∧
        t.trace = s.trace ∧ ∃ taken, s.turns = taken ++ .main :: t.turns ∧
          truePolls s.tickFlag (taken ++ [.main]) = units.toNat ∧ truePolls s.tickFlag taken < units.toNat)

/-- Under every fair interleaving (00_scope.md R20, R143), the free turns among them, every WAIT ends. So every admitted
command but GENERATE and CAPTURE, and every label but A2, RL7 and G2, which wait for the player, ends after finitely many
turns of any fair interleaving, and, where the turns are free, after finitely many steps. A WAIT in progress, in any command
or label, comes to the poll that ends it, whatever lines follow it, and no event stands before; where a line with a primitive
follows, or none, MAIN comes there. That MAIN moves infinitely often too is read from R143 (log entry 14). -/
def Obligations.FairInterleavingsEndEveryWait : Prop :=
  Fair Config.freeTurn ∧
  (∀ (f : Nat → Config.Turn) (i : Instr) (s : State), Fair f → i.wf = true → i ≠ .generate →
    (∀ seq round, i ≠ .capture seq round) → s.todo = [] →
    ∃ n t, exec i { s with turns := firstTurns f n } = .next t ∧ t.todo = [] ∧ t.cidx = s.cidx + 1) ∧
  (∀ (f : Nat → Config.Turn) (s : State) (d : Word16) (ls : List Stmt), Fair f → s.todo = .poll :: ls →
    s.dcnt = some d → d ≠ 0 →
    (∃ n u, drive id (firstTurns f n) s = .next u ∧ f n = .main ∧ u.todo = .poll :: ls ∧ u.trace = s.trace ∧
      runStmt .poll { u with todo := ls } = .next { u with todo := ls, dcnt := some 0, tickFlag := false }) ∧
    ((∀ st ∈ ls.head?, st.silent = false) →
      ∃ n t, drive id (firstTurns f n) s = .next t ∧ t.todo = ls ∧ t.dcnt = some 0 ∧ t.trace = s.trace)) ∧
  (∀ (s : State) (is : List Instr) (i : Instr), s.launch.mode = .direct → decodeProgram s.launch.commands = .ok is →
    is[s.cidx]? = some i → i ≠ .generate → (∀ seq round, i ≠ .capture seq round) → s.todo = [] → s.turns = [] →
    ∃ n t, steps n s = .next t ∧ t.todo = [] ∧ t.cidx = s.cidx + 1) ∧
  ∀ s : State, s.launch.mode = .game → s.launch.wf = true → s.cpc ∉ ([.a2, .rl7, .g2] : List Label) →
    (s.cpc = .rl6 → s.seq ≠ none ∧ s.round.toNat ≤ 15) → s.todo = [] →
    (∀ f : Nat → Config.Turn, Fair f →
      ∃ n t, step { s with turns := firstTurns f n } = .next t ∧ t.todo = [] ∧ t.cpc ≠ s.cpc) ∧
    (s.turns = [] → ∃ n t, steps n s = .next t ∧ t.todo = [] ∧ t.cpc ≠ s.cpc)

/-! ### Display -/

/-- CLEAR (41_display_renderer.md R161): through any interleaving with seven turns of MAIN it leaves seven BLANKs, whatever
was there, by seven writes in ascending order. -/
def Obligations.ClearLeavesSevenBlanks : Prop :=
  ∀ s : State, s.todo = [] → 7 ≤ s.turns.count .main →
    ∃ t, exec .clear s = .next t ∧ t.disp = Vector.replicate 7 0x20 ∧ t.trace = s.trace ++ clrTrace ∧
      t.cidx = s.cidx + 1 ∧ t.todo = [] ∧ t.i = s.i ∧ t.dcnt = s.dcnt

/-- SHOW_WORD's end state (R162, R163), through any interleaving with enough turns of MAIN: the word in slots 1 to len, or
ERROR in slots 1 to 5 with E(1), and BLANK elsewhere. -/
def Obligations.ShowWordEndState : Prop :=
  ∀ (s : State) (w : Text), Text.legal w = true → s.todo = [] → 7 + putWordActions w ≤ s.turns.count .main →
    ∃ t, exec (.showWord w) s = .next t ∧ t.todo = [] ∧ t.cidx = s.cidx + 1 ∧ t.trace = s.trace ++ showWordTrace w ∧
      t.dcnt = s.dcnt ∧ ∀ slot < 7, t.disp[slot]? = some (wordSlot w slot)

/-- SHOW_NUMBER's end state (R168, R169), through any interleaving with enough turns of MAIN: the decimal digits without
leading zeros, '0' for 0, ERROR with E(2) from 10^6 on. -/
def Obligations.ShowNumberEndState : Prop :=
  ∀ (s : State) (n : Word32), s.todo = [] → 13 ≤ s.turns.count .main →
    ∃ t, exec (.showNumber n) s = .next t ∧ t.todo = [] ∧ t.cidx = s.cidx + 1 ∧
      t.trace = s.trace ++ showNumberTrace n.toNat ∧ t.dcnt = s.dcnt ∧
      ∀ slot < 7, t.disp[slot]? = some (numberSlot n.toNat slot)

/-- SHOW_PHRASE (R164, R165) through any interleaving in which it ends: word by word, the words being the maximal runs of
characters other than 0x20, and a blank display at the end. With a tick before every action of MAIN it ends, and takes exactly
the actions of its writes and waits, and cut off inside the WAIT after a word it shows that word. -/
def Obligations.ShowPhrasePagesTheWords : Prop :=
  (∀ x : Text, MaximalRuns x (words x)) ∧
  (∀ (s : State) (x w : Text) (before after : List Text) (p : Nat), Text.legal x = true → s.todo = [] →
    words x = before ++ w :: after → p ≤ s.launch.params.wPhrase.toNat →
    s.turns = pacedTurns (phraseWaitActions s.launch.params.wPhrase.toNat before w + p) →
    ∃ t, exec (.showPhrase x) s = .next t ∧ InWait s t s.launch.params.wPhrase p (phraseWaitTrace before w) ∧
      ∀ slot < 7, t.disp[slot]? = some (wordSlot w slot)) ∧
  ∀ (s : State) (x : Text), Text.legal x = true → s.todo = [] →
    (∀ t, exec (.showPhrase x) s = .next t → t.todo = [] →
      t.cidx = s.cidx + 1 ∧ t.trace = s.trace ++ showPhraseTrace x ∧ t.disp = Vector.replicate 7 0x20) ∧
    ∀ rest : List Config.Turn, s.turns = pacedTurns (showPhraseActions s.launch.params.wPhrase.toNat x) ++ rest →
      ∃ t, exec (.showPhrase x) s = .next t ∧ t.todo = [] ∧ t.cidx = s.cidx + 1 ∧ t.turns = rest ∧
        t.trace = s.trace ++ showPhraseTrace x ∧ t.disp = Vector.replicate 7 0x20

/-- SCROLL (R166, R167) through any interleaving in which it ends: the L + 7 windows in order, slot j of window `off` showing
character off + j - 1 of the text between six BLANKs and six BLANKs, then CLEAR. With a tick before every action of MAIN it
ends, and takes exactly the actions of its writes and waits, and cut off inside the WAIT after a window it shows that
window. -/
def Obligations.ScrollShowsEveryWindow : Prop :=
  (∀ (x : Text) (off j : Nat), off ≤ x.length + 6 → 1 ≤ j → j ≤ 6 →
    (List.replicate 6 0x20 ++ x ++ List.replicate 6 0x20)[off + j - 1]? = some (windowChar x off j)) ∧
  (∀ (s : State) (x : Text) (off p : Nat), Text.legal x = true → s.todo = [] → off ≤ x.length + 6 →
    p ≤ s.launch.params.wScroll.toNat →
    s.turns = pacedTurns (scrollWaitActions s.launch.params.wScroll.toNat off + p) →
    ∃ t, exec (.scroll x) s = .next t ∧ InWait s t s.launch.params.wScroll p (scrollWaitTrace x off) ∧
      ∀ slot < 7, t.disp[slot]? = some (scrollSlot x off slot)) ∧
  ∀ (s : State) (x : Text), Text.legal x = true → s.todo = [] →
    (∀ t, exec (.scroll x) s = .next t → t.todo = [] →
      t.cidx = s.cidx + 1 ∧ t.trace = s.trace ++ scrollTrace x ∧ t.disp = Vector.replicate 7 0x20) ∧
    ∀ rest : List Config.Turn, s.turns = pacedTurns (scrollActions s.launch.params.wScroll.toNat x) ++ rest →
      ∃ t, exec (.scroll x) s = .next t ∧ t.todo = [] ∧ t.cidx = s.cidx + 1 ∧ t.turns = rest ∧
        t.trace = s.trace ++ scrollTrace x ∧ t.disp = Vector.replicate 7 0x20

/-! ### Sequence -/

/-- GENERATE returns the sample of an iteration that read the start button pressed and a non-zero counter
(42_sequence_generator.md R200). -/
def Obligations.GenerateReturnsTheGatedSample : Prop :=
  ∀ (s u v : State) (e₁ e₂ rest : List Config.Turn), s.todo = [] → .main ∉ e₁ → .main ∉ e₂ →
    s.turns = e₁ ++ .main :: e₂ ++ .main :: rest → u = agents e₁ s → v = agents e₂ u →
    pressedOf s.launch.params.startButton (!u.inReg.getLsbD 0) (!u.inReg.getLsbD 1) = true → v.freeCnt ≠ 0 →
    exec .generate s = .next { v with
      ret := v.freeCnt
      trace := s.trace ++ [.resp v.freeCnt]
      cidx := s.cidx + 1
      turns := rest }

/-- An iteration that read the start button released, or zero, returns nothing: GENERATE samples both again (R200). -/
def Obligations.GenerateSamplesAgain : Prop :=
  ∀ (s u v : State) (e₁ e₂ rest : List Config.Turn), s.todo = [] → .main ∉ e₁ → .main ∉ e₂ → rest ≠ [] →
    s.turns = e₁ ++ .main :: e₂ ++ .main :: rest → u = agents e₁ s → v = agents e₂ u →
    (pressedOf s.launch.params.startButton (!u.inReg.getLsbD 0) (!u.inReg.getLsbD 1) = false ∨ v.freeCnt = 0) →
    exec .generate s = exec .generate { v with turns := rest }

/-- GENERATE never returns 0, through any interleaving (R201). -/
def Obligations.GenerateNeverReturnsZero : Prop :=
  ∀ s t : State, s.todo = [] → exec .generate s = .next t → t.todo = [] → t.ret ≠ 0

/-- Every non-zero value is a possible result of GENERATE (R202), from every state. -/
def Obligations.EveryNonzeroSequenceIsPossible : Prop :=
  ∀ (s : State) (v : Word16), s.todo = [] → v ≠ 0 →
    ∃ ts t, exec .generate { s with turns := ts } = .next t ∧ t.todo = [] ∧ t.ret = v

/-! ### Playback and capture -/

/-- PLAY_ROUND (43_playback_engine.md R210, R211) through any interleaving in which it ends: for each step WATCH, the
indicator of the bit alone, both off. With a tick before every action of MAIN it ends, and takes exactly the actions of
its writes and waits; cut off inside the first WAIT of a step it has the indicators as the step before left them, and inside
the second the bit's indicator alone. -/
def Obligations.PlayRoundReplaysThePrefix : Prop :=
  (∀ (s : State) (seq : Word16) (r : Byte) (k p : Nat), r.toNat ≤ 15 → s.todo = [] → k ≤ r.toNat →
    p ≤ s.launch.params.wPlay.toNat →
    (s.turns = pacedTurns (k * playRoundActions s.launch.params.wPlay.toNat 0 + 12 + p) →
      ∃ t, exec (.playRound seq r) s = .next t ∧ t.k = some (BitVec.ofNat 5 k) ∧
        InWait s t s.launch.params.wPlay p (playStepsTrace seq k ++ showWordTrace litWatch) ∧
        t.outReg = (if k = 0 then s.outReg else 0) ∧ ∀ slot < 7, t.disp[slot]? = some (wordSlot litWatch slot)) ∧
    (s.turns = pacedTurns (k * playRoundActions s.launch.params.wPlay.toNat 0 + 12 + s.launch.params.wPlay.toNat + 1 + p) →
      ∃ t, exec (.playRound seq r) s = .next t ∧ t.k = some (BitVec.ofNat 5 k) ∧
        InWait s t s.launch.params.wPlay p
          (playStepsTrace seq k ++ showWordTrace litWatch ++ [.ind (!seqBit seq k) (seqBit seq k)]) ∧
        t.outReg = (if seqBit seq k then 2 else 1) ∧ ∀ slot < 7, t.disp[slot]? = some (wordSlot litWatch slot))) ∧
  ∀ (s : State) (seq : Word16) (r : Byte), s.todo = [] →
    (∀ t, exec (.playRound seq r) s = .next t → t.todo = [] →
      t.cidx = s.cidx + 1 ∧ t.trace = s.trace ++ playRoundTrace seq r.toNat ∧ t.outReg = 0 ∧
      ∀ slot < 7, t.disp[slot]? = some (wordSlot litWatch slot)) ∧
    ∀ rest : List Config.Turn, r.toNat ≤ 15 →
      s.turns = pacedTurns (playRoundActions s.launch.params.wPlay.toNat r.toNat) ++ rest →
      ∃ t, exec (.playRound seq r) s = .next t ∧ t.todo = [] ∧ t.cidx = s.cidx + 1 ∧ t.turns = rest ∧
        t.trace = s.trace ++ playRoundTrace seq r.toNat ∧ t.outReg = 0 ∧
        ∀ slot < 7, t.disp[slot]? = some (wordSlot litWatch slot)

/-- PLAY_ROUND never has both indicators on, through any interleaving, finished or not (R213): before its first SetInd
OUT_REG is as it found it, and from then on bits 0 and 1 are not both 1 and bits 7:2 are 0. -/
def Obligations.PlayRoundNeverLightsBoth : Prop :=
  ∀ (s t : State) (seq : Word16) (r : Byte), s.todo = [] → exec (.playRound seq r) s = .next t →
    ∃ es, t.trace = s.trace ++ es ∧ (∀ e ∈ es, e ≠ .ind true true) ∧
      ((∀ a b, .ind a b ∉ es) → t.outReg = s.outReg) ∧
      ((∃ a b, .ind a b ∈ es) →
        ¬(t.outReg.getLsbD 0 = true ∧ t.outReg.getLsbD 1 = true) ∧ t.outReg >>> 2 = 0)

/-- The indicator events of PLAY_ROUND(seq, r) are, for K = 0..r, the indicator of bit K and both off; they are the first
ones of PLAY_ROUND(seq, r+1) (R212). This holds of every run that ends, whatever the interleaving of each is. -/
def Obligations.LongerRoundsReplayShorterOnes : Prop :=
  (∀ (s t : State) (seq : Word16) (r : Byte) (es : List Event), s.todo = [] →
    exec (.playRound seq r) s = .next t → t.todo = [] → t.trace = s.trace ++ es →
    indicatorEvents es = (List.range (r.toNat + 1)).flatMap (lightTrace seq)) ∧
  ∀ (s s' t t' : State) (seq : Word16) (r r' : Byte) (es es' : List Event), s.todo = [] → s'.todo = [] →
    r'.toNat = r.toNat + 1 →
    exec (.playRound seq r) s = .next t → t.todo = [] → t.trace = s.trace ++ es →
    exec (.playRound seq r') s' = .next t' → t'.todo = [] → t'.trace = s'.trace ++ es' →
    indicatorEvents es' = indicatorEvents es ++ lightTrace seq r'.toNat

/-- CAPTURE (44_input_capture.md R220 to R223) on any list of presses, with any polls that find no button pressed before each
and each held through any number of re-polls, whatever the other button does then: it returns 0 after round + 1 presses
that match, 1 after the first that does not, lights each press's indicator alone, leaves both off, and takes no further
press. Through any interleaving in which it ends, its result is the verdict on the presses it lit. -/
def Obligations.CaptureJudgesThePresses : Prop :=
  ∀ (s : State) (seq : Word16) (r : Byte), s.todo = [] →
    (∀ (xs left : List Press) (over_ : Bool) (n : Nat) (rest : List Config.Turn), r.toNat ≤ 15 →
      (∀ x ∈ xs, x.ok = true) →
      captureVerdict seq r.toNat 0 (xs.map (·.button)) = some (over_, n, left.map (·.button)) → left <:+ xs →
      s.turns = captureTurns s.launch.params.wDebounce.toNat xs ++ rest →
      ∃ t taken, exec (.capture seq r) s = .next t ∧ xs = taken ++ left ∧ t.todo = [] ∧ t.cidx = s.cidx + 1 ∧
        t.ret = (if over_ then 1 else 0) ∧ t.pcntPress = some (BitVec.ofNat 5 n) ∧ t.outReg = 0 ∧
        t.trace =
          s.trace ++ showWordTrace litGo ++ pressTrace (taken.map (·.button)) ++ [.resp (if over_ then 1 else 0)] ∧
        t.turns = left.flatMap (pressTurns s.launch.params.wDebounce.toNat) ++ rest ∧
        ∀ slot < 7, t.disp[slot]? = some (wordSlot litGo slot)) ∧
    ∀ t, exec (.capture seq r) s = .next t → t.todo = [] →
      ∃ (xs : List Config.Button) (over_ : Bool) (n : Nat), captureVerdict seq r.toNat 0 xs = some (over_, n, []) ∧
        t.cidx = s.cidx + 1 ∧ t.ret = (if over_ then 1 else 0) ∧ t.pcntPress = some (BitVec.ofNat 5 n) ∧
        t.outReg = 0 ∧
        t.trace = s.trace ++ showWordTrace litGo ++ pressTrace xs ++ [.resp (if over_ then 1 else 0)] ∧
        ∀ slot < 7, t.disp[slot]? = some (wordSlot litGo slot)

/-- With both buttons pressed at one poll, A is handled (R224). -/
def Obligations.CaptureTakesAFirst : Prop :=
  ∀ (s : State) (seq : Word16) (r : Byte) (rest : List Stmt), s.todo = .capPoll seq r :: rest →
    s.inReg.getLsbD 0 = false →
    mainAct s = .next { s with todo := pressLines seq .a s ++ .capTest seq r :: rest }

/-- For every bit, PLAY_ROUND lights X exactly where CAPTURE accepts X (R225). -/
def Obligations.PlaybackAndCaptureAgree : Prop :=
  ∀ (s : State) (seq : Word16) (k : BitVec 5) (x : Config.Button), s.k = some k → s.pcntPress = some k →
    ((∃ t, runStmt (.light seq) s = .next t ∧ t.trace = s.trace ++ [.ind (x = .a) (x = .b)]) ↔
      runStmt (.compare seq x) s = .next { s with pcntPress := some (k + 1) })

/-! ### The control program -/

/-- A0 (45_game_controller.md R241): the game registers are discarded and both indicators lit. -/
def Obligations.A0StartsANewGame : Prop :=
  ∀ (s : State) (e rest : List Config.Turn), s.launch.mode = .game → s.cpc = .a0 → s.todo = [] → .main ∉ e →
    s.turns = e ++ .main :: rest →
    step s = .next { agents e s with
      cstate := .awaitStart
      seq := none
      round := 0
      score := 0
      overFlag := false
      outReg := 3
      trace := s.trace ++ [.ind true true]
      cpc := .a1
      turns := rest }

/-- The labels without an operation (R244 to R246, R248, R253 to R256, R259): the registers each writes and where CPC goes.
That each is one step that takes no turn is the model's choice (log entry 15). -/
def Obligations.LabelsWithoutOperations : Prop :=
  ∀ s : State, s.launch.mode = .game → s.todo = [] →
    (s.cpc = .s0 → step s = .next { s with
      cstate := .sequenceGenerated, seq := some s.ret, round := 0, score := 0, overFlag := false, cpc := .rl0 }) ∧
    (s.cpc = .rl0 → step s = .next { s with cstate := .roundLoop, cpc := .rl1 }) ∧
    (s.cpc = .rl1 → step s = .next { s with cpc := if s.round = 16 then .rl10 else .rl2 }) ∧
    (s.cpc = .rl3 → step s = .next { s with cpc := if s.overFlag then .g0 else .rl4 }) ∧
    (s.cpc = .rl8 → step s = .next { s with cpc := if s.overFlag then .g0 else .rl9 }) ∧
    (s.cpc = .rl9 → step s = .next { s with score := s.score + 1, round := s.round + 1, cpc := .rl1 }) ∧
    (s.cpc = .rl10 → step s = .next { s with overFlag := true, cpc := .g0 }) ∧
    (s.cpc = .g0 → step s = .next { s with cstate := .gameOver, cpc := .g1 }) ∧
    (s.cpc = .g3 → step s = .next { s with cpc := .a0 })

/-- The pauses and messages of a round (R247, R249, R250) through any interleaving in which they end; with a tick before
every action of MAIN they do, and take exactly the actions of their writes and waits, and cut off inside the WAIT they show
what stands before it. RL2 writes no slot, RL4 and RL5 no indicator. -/
def Obligations.RoundMessages : Prop :=
  ∀ (s : State), s.launch.mode = .game → s.todo = [] → s.round.toNat ≤ 15 →
    (∀ t, step s = .next t →
      (s.cpc = .rl2 → t.disp = s.disp) ∧ (s.cpc = .rl4 ∨ s.cpc = .rl5 → t.outReg = s.outReg)) ∧
    (∀ p, p < s.launch.params.wRound.toNat →
      (s.cpc = .rl2 → s.turns = pacedTurns (1 + p) →
        ∃ t, step s = .next t ∧ InWait s t s.launch.params.wRound p [.ind false false] ∧ t.outReg = 0) ∧
      (s.cpc = .rl4 → s.turns = pacedTurns (12 + p) →
        ∃ t, step s = .next t ∧ InWait s t s.launch.params.wRound p (showWordTrace litRound) ∧
          ∀ slot < 7, t.disp[slot]? = some (wordSlot litRound slot)) ∧
      (s.cpc = .rl5 → s.turns = pacedTurns (showNumberActions (s.round.toNat + 1) + p) →
        ∃ t, step s = .next t ∧ InWait s t s.launch.params.wRound p (showNumberTrace (s.round.toNat + 1)) ∧
          ∀ slot < 7, t.disp[slot]? = some (numberSlot (s.round.toNat + 1) slot))) ∧
    (∀ t, step s = .next t → t.todo = [] →
      (s.cpc = .rl2 → t.cpc = .rl3 ∧ t.outReg = 0 ∧ t.trace = s.trace ++ [.ind false false]) ∧
      (s.cpc = .rl4 → t.cpc = .rl5 ∧ t.trace = s.trace ++ showWordTrace litRound ∧
        ∀ slot < 7, t.disp[slot]? = some (wordSlot litRound slot)) ∧
      (s.cpc = .rl5 → t.cpc = .rl6 ∧ t.trace = s.trace ++ showNumberTrace (s.round.toNat + 1) ∧
        ∀ slot < 7, t.disp[slot]? = some (numberSlot (s.round.toNat + 1) slot))) ∧
    ∀ rest : List Config.Turn,
      (s.cpc = .rl2 → s.turns = pacedTurns (1 + s.launch.params.wRound.toNat) ++ rest →
        ∃ t, step s = .next t ∧ t.cpc = .rl3 ∧ t.todo = [] ∧ t.turns = rest ∧ t.outReg = 0 ∧
          t.trace = s.trace ++ [.ind false false]) ∧
      (s.cpc = .rl4 → s.turns = pacedTurns (12 + s.launch.params.wRound.toNat) ++ rest →
        ∃ t, step s = .next t ∧ t.cpc = .rl5 ∧ t.todo = [] ∧ t.turns = rest ∧
          t.trace = s.trace ++ showWordTrace litRound) ∧
      (s.cpc = .rl5 →
        s.turns = pacedTurns (showNumberActions (s.round.toNat + 1) + s.launch.params.wRound.toNat) ++ rest →
        ∃ t, step s = .next t ∧ t.cpc = .rl6 ∧ t.todo = [] ∧ t.turns = rest ∧
          t.trace = s.trace ++ showNumberTrace (s.round.toNat + 1))

/-- A1, A2, RL6 and RL7 run the operations of the commands SCROLL, GENERATE, PLAY_ROUND and CAPTURE: where the command
ends so does the label, without its response and with CPC in the place of CIDX, RL7 storing the result in OVER; where the
command stays in progress so does the label (R242, R243, R251, R252). -/
def Obligations.LabelsRunTheCommandsOperations : Prop :=
  ∀ s t : State, s.launch.mode = .game → s.todo = [] →
    (s.cpc = .a1 → exec (.scroll s.launch.params.promptText) s = .next t →
      step s = .next (if t.todo = [] then { t with cidx := s.cidx, cpc := .a2 } else t)) ∧
    (∀ q, s.cpc = .rl6 → s.seq = some q → exec (.playRound q (s.round.setWidth 8)) s = .next t →
      step s = .next (if t.todo = [] then { t with cidx := s.cidx, cpc := .rl7 } else t)) ∧
    (s.cpc = .a2 → exec .generate s = .next t →
      step s = .next
        (if t.todo = [] then { t with cidx := s.cidx, cpc := .s0, trace := t.trace.dropLast } else t)) ∧
    (∀ q, s.cpc = .rl7 → s.seq = some q → exec (.capture q (s.round.setWidth 8)) s = .next t →
      step s = .next
        (if t.todo = [] then
          { t with cidx := s.cidx, cpc := .rl8, trace := t.trace.dropLast, overFlag := t.ret.getLsbD 0 } else t))

/-- G1 (R257) through any interleaving in which it ends: YOU WIN for SCORE = 16 and a blank display, else GAME OVER FINAL
SCORE and the score. With a tick before every action of MAIN it ends, and takes exactly the actions of its writes and
waits, and cut off inside the WAIT after a window it shows that window. It writes no indicator. -/
def Obligations.GameOverShowsTheResult : Prop :=
  ∀ s : State, s.launch.mode = .game → s.cpc = .g1 → s.todo = [] → s.score.toNat ≤ 16 →
    (∀ t, step s = .next t → t.outReg = s.outReg) ∧
    (∀ (x : Text) (off p : Nat), x = (if s.score = 16 then litYouWin else litGameOver) → off ≤ x.length + 6 →
      p ≤ s.launch.params.wScroll.toNat →
      s.turns = pacedTurns (scrollWaitActions s.launch.params.wScroll.toNat off + p) →
      ∃ t, step s = .next t ∧ InWait s t s.launch.params.wScroll p (scrollWaitTrace x off) ∧
        ∀ slot < 7, t.disp[slot]? = some (scrollSlot x off slot)) ∧
    (∀ t, step s = .next t → t.todo = [] → t.cpc = .g2 ∧
      (s.score = 16 → t.trace = s.trace ++ scrollTrace litYouWin ∧ t.disp = Vector.replicate 7 0x20) ∧
      (s.score ≠ 16 → t.trace = s.trace ++ scrollTrace litGameOver ++ showNumberTrace s.score.toNat ∧
        ∀ slot < 7, t.disp[slot]? = some (numberSlot s.score.toNat slot))) ∧
    ∀ rest : List Config.Turn,
      s.turns = pacedTurns (if s.score = 16 then scrollActions s.launch.params.wScroll.toNat litYouWin
        else scrollActions s.launch.params.wScroll.toNat litGameOver + showNumberActions s.score.toNat) ++ rest →
      ∃ t, step s = .next t ∧ t.cpc = .g2 ∧ t.todo = [] ∧ t.turns = rest

/-- G2 (R258): it goes on to G3 at the first reading with both buttons pressed, and polls again otherwise. -/
def Obligations.RestartNeedsBothButtons : Prop :=
  ∀ (s : State) (e rest : List Config.Turn), s.launch.mode = .game → s.cpc = .g2 → s.todo = [] → .main ∉ e → rest ≠ [] →
    s.turns = e ++ .main :: rest →
    ((agents e s).inReg.getLsbD 0 = false ∧ (agents e s).inReg.getLsbD 1 = false →
      step s = .next { agents e s with cpc := .g3, turns := rest }) ∧
    (¬((agents e s).inReg.getLsbD 0 = false ∧ (agents e s).inReg.getLsbD 1 = false) →
      step s = step { agents e s with turns := rest })

/-! ### Reset and invariants -/

/-- The state after reset, register by register (10_state.md R50); the draws are constants without a body (R322). CPC is
given for GAME mode and CIDX for DIRECT mode, as R50 gives them; OUT_REG and DISP are ⊥ for observation. -/
def Obligations.ResetValues : Prop :=
  ∀ l : Config.Launch, ∃ s, s = State.resetOf l ∧
    s.seq = none ∧ s.round = 0 ∧ s.score = 0 ∧ s.overFlag = false ∧
    s.dcnt = none ∧ s.pcntPress = none ∧ s.k = none ∧ s.i = none ∧ s.off = none ∧ s.rem = none ∧ s.digk = none ∧
    s.started = none ∧ s.cstate = .awaitStart ∧ (l.mode = .game → s.cpc = .a0) ∧ (l.mode = .direct → s.cidx = 0) ∧
    s.tickFlag = Config.resetTickFlag ∧
    s.freeOvf = Config.resetFreeOvf ∧ s.freeCnt = Config.resetFreeCnt ∧ s.tickCmp = l.params.tickCompare ∧
    s.inReg = Config.resetInReg ∧ outShown s = none ∧ ∀ slot < 7, slotShown s slot = none

/-- Right after reset the invariant of a run holds, whatever the draws and the interleaving are. The invariant says among
others that bits 7:2 of OUT_REG are 0: right after reset that is the model's reading of 10_state.md R43 ("reserved; always 0"),
where 93_implementation_defined.md item 15 says "any value" of OUT_REG (log entry 23). -/
def Obligations.ResetEstablishesTheRunInvariant : Prop :=
  ∀ (l : Config.Launch) (s : State), l.wf = true → JustReset l s → RunOk s

/-- Every step keeps the invariant of a run: OUT_REG's reserved bits, the slots, the operation in progress, the
controller's registers and the indicators at its labels, both on at A1 and A2 and both off at G2 (10_state.md R30 to R33,
R43; 45_game_controller.md R242, R243, R258, R260, R262). -/
def Obligations.EveryStepKeepsTheRunInvariant : Prop :=
  ∀ s t : State, RunOk s → step s = .next t → RunOk t

/-- From the invariant no step faults: GAME mode always goes on, a DIRECT launch with an admitted list too, and an invalid
list is refused with its verdict, MAIN having no step (60_exceptions.md R280, R288; 30_encoding.md R126). Past the last
command the run has ended (R127), and that a step still answers there is the model's choice (log entry 13). -/
def Obligations.StepsAnswerUnlessTheLaunchIsInvalid : Prop :=
  ∀ s : State, RunOk s →
    (s.launch.mode = .game → ∃ t, step s = .next t) ∧
    (∀ is, s.launch.mode = .direct → decodeProgram s.launch.commands = .ok is → ∃ t, step s = .next t) ∧
    (∀ v, s.launch.mode = .direct → decodeProgram s.launch.commands = .error v → step s = .refused (refusalOf v))

/-- No run reads a register holding ⊥ or reaches a refused port access (60_exceptions.md R287). -/
def Obligations.NoRunReachesAModelFault : Prop :=
  ∀ (l : Config.Launch) (s : State), l.wf = true → Reachable l s → ∀ f, step s ≠ .fault f

/-- At every visit to RL1 SCORE = ROUND in 0..16, and where RL6, RL7 or RL9 runs ROUND is in 0..15 (45_game_controller.md
R260, R262). -/
def Obligations.ScoreCountsTheRoundsCompleted : Prop :=
  ∀ (l : Config.Launch) (s : State), l.wf = true → l.mode = .game → Reachable l s →
    (s.cpc = .rl1 → s.score = s.round ∧ s.round.toNat ≤ 16) ∧
    (s.cpc ∈ ([.rl6, .rl7, .rl9] : List Label) → s.score = s.round ∧ s.round.toNat ≤ 15) ∧
    (s.cpc = .rl3 → s.overFlag = false) ∧ (s.cpc = .g0 → s.overFlag = true)

/-- A game comes to G0 with SCORE = 16 exactly through RL10; on the other path SCORE ≤ 15 (R261). -/
def Obligations.WinExactlyThroughRL10 : Prop :=
  ∀ (l : Config.Launch) (s t : State), l.wf = true → l.mode = .game → Reachable l s → step s = .next t → s.cpc ≠ .g0 →
    t.cpc = .g0 → (t.score = 16 ↔ s.cpc = .rl10) ∧ (s.cpc ≠ .rl10 → t.score.toNat ≤ 15)
end

