-- ==== Sys2Proof/Laws/State.lean ====
section
/-! SUPPORT. One lemma per field per named update of State, each true by `rfl`. -/

namespace Sys2Proof.Machine

/-! ### push -/

@[simp] theorem push_launch (ls : List Stmt) (s : State) : (push ls s).launch = s.launch := rfl
@[simp] theorem push_seq (ls : List Stmt) (s : State) : (push ls s).seq = s.seq := rfl
@[simp] theorem push_round (ls : List Stmt) (s : State) : (push ls s).round = s.round := rfl
@[simp] theorem push_score (ls : List Stmt) (s : State) : (push ls s).score = s.score := rfl
@[simp] theorem push_overFlag (ls : List Stmt) (s : State) : (push ls s).overFlag = s.overFlag := rfl
@[simp] theorem push_dcnt (ls : List Stmt) (s : State) : (push ls s).dcnt = s.dcnt := rfl
@[simp] theorem push_pcntPress (ls : List Stmt) (s : State) : (push ls s).pcntPress = s.pcntPress := rfl
@[simp] theorem push_capOver (ls : List Stmt) (s : State) : (push ls s).capOver = s.capOver := rfl
@[simp] theorem push_k (ls : List Stmt) (s : State) : (push ls s).k = s.k := rfl
@[simp] theorem push_i (ls : List Stmt) (s : State) : (push ls s).i = s.i := rfl
@[simp] theorem push_off (ls : List Stmt) (s : State) : (push ls s).off = s.off := rfl
@[simp] theorem push_rem (ls : List Stmt) (s : State) : (push ls s).rem = s.rem := rfl
@[simp] theorem push_digk (ls : List Stmt) (s : State) : (push ls s).digk = s.digk := rfl
@[simp] theorem push_started (ls : List Stmt) (s : State) : (push ls s).started = s.started := rfl
@[simp] theorem push_cstate (ls : List Stmt) (s : State) : (push ls s).cstate = s.cstate := rfl
@[simp] theorem push_cpc (ls : List Stmt) (s : State) : (push ls s).cpc = s.cpc := rfl
@[simp] theorem push_cidx (ls : List Stmt) (s : State) : (push ls s).cidx = s.cidx := rfl
@[simp] theorem push_todo (ls : List Stmt) (s : State) : (push ls s).todo = ls ++ s.todo := rfl
@[simp] theorem push_ret (ls : List Stmt) (s : State) : (push ls s).ret = s.ret := rfl
@[simp] theorem push_tickFlag (ls : List Stmt) (s : State) : (push ls s).tickFlag = s.tickFlag := rfl
@[simp] theorem push_freeOvf (ls : List Stmt) (s : State) : (push ls s).freeOvf = s.freeOvf := rfl
@[simp] theorem push_freeCnt (ls : List Stmt) (s : State) : (push ls s).freeCnt = s.freeCnt := rfl
@[simp] theorem push_tickCmp (ls : List Stmt) (s : State) : (push ls s).tickCmp = s.tickCmp := rfl
@[simp] theorem push_ptimerCnt (ls : List Stmt) (s : State) : (push ls s).ptimerCnt = s.ptimerCnt := rfl
@[simp] theorem push_inReg (ls : List Stmt) (s : State) : (push ls s).inReg = s.inReg := rfl
@[simp] theorem push_outReg (ls : List Stmt) (s : State) : (push ls s).outReg = s.outReg := rfl
@[simp] theorem push_disp (ls : List Stmt) (s : State) : (push ls s).disp = s.disp := rfl
@[simp] theorem push_trace (ls : List Stmt) (s : State) : (push ls s).trace = s.trace := rfl
@[simp] theorem push_turns (ls : List Stmt) (s : State) : (push ls s).turns = s.turns := rfl
@[simp] theorem push_draws (ls : List Stmt) (s : State) : (push ls s).draws = s.draws := rfl

/-! ### emit -/

@[simp] theorem emit_launch (e : Event) (s : State) : (emit e s).launch = s.launch := rfl
@[simp] theorem emit_seq (e : Event) (s : State) : (emit e s).seq = s.seq := rfl
@[simp] theorem emit_round (e : Event) (s : State) : (emit e s).round = s.round := rfl
@[simp] theorem emit_score (e : Event) (s : State) : (emit e s).score = s.score := rfl
@[simp] theorem emit_overFlag (e : Event) (s : State) : (emit e s).overFlag = s.overFlag := rfl
@[simp] theorem emit_dcnt (e : Event) (s : State) : (emit e s).dcnt = s.dcnt := rfl
@[simp] theorem emit_pcntPress (e : Event) (s : State) : (emit e s).pcntPress = s.pcntPress := rfl
@[simp] theorem emit_capOver (e : Event) (s : State) : (emit e s).capOver = s.capOver := rfl
@[simp] theorem emit_k (e : Event) (s : State) : (emit e s).k = s.k := rfl
@[simp] theorem emit_i (e : Event) (s : State) : (emit e s).i = s.i := rfl
@[simp] theorem emit_off (e : Event) (s : State) : (emit e s).off = s.off := rfl
@[simp] theorem emit_rem (e : Event) (s : State) : (emit e s).rem = s.rem := rfl
@[simp] theorem emit_digk (e : Event) (s : State) : (emit e s).digk = s.digk := rfl
@[simp] theorem emit_started (e : Event) (s : State) : (emit e s).started = s.started := rfl
@[simp] theorem emit_cstate (e : Event) (s : State) : (emit e s).cstate = s.cstate := rfl
@[simp] theorem emit_cpc (e : Event) (s : State) : (emit e s).cpc = s.cpc := rfl
@[simp] theorem emit_cidx (e : Event) (s : State) : (emit e s).cidx = s.cidx := rfl
@[simp] theorem emit_todo (e : Event) (s : State) : (emit e s).todo = s.todo := rfl
@[simp] theorem emit_ret (e : Event) (s : State) : (emit e s).ret = s.ret := rfl
@[simp] theorem emit_tickFlag (e : Event) (s : State) : (emit e s).tickFlag = s.tickFlag := rfl
@[simp] theorem emit_freeOvf (e : Event) (s : State) : (emit e s).freeOvf = s.freeOvf := rfl
@[simp] theorem emit_freeCnt (e : Event) (s : State) : (emit e s).freeCnt = s.freeCnt := rfl
@[simp] theorem emit_tickCmp (e : Event) (s : State) : (emit e s).tickCmp = s.tickCmp := rfl
@[simp] theorem emit_ptimerCnt (e : Event) (s : State) : (emit e s).ptimerCnt = s.ptimerCnt := rfl
@[simp] theorem emit_inReg (e : Event) (s : State) : (emit e s).inReg = s.inReg := rfl
@[simp] theorem emit_outReg (e : Event) (s : State) : (emit e s).outReg = s.outReg := rfl
@[simp] theorem emit_disp (e : Event) (s : State) : (emit e s).disp = s.disp := rfl
@[simp] theorem emit_trace (e : Event) (s : State) : (emit e s).trace = s.trace ++ [e] := rfl
@[simp] theorem emit_turns (e : Event) (s : State) : (emit e s).turns = s.turns := rfl
@[simp] theorem emit_draws (e : Event) (s : State) : (emit e s).draws = s.draws := rfl

/-! ### setTickFlag -/

@[simp] theorem setTickFlag_launch (v : Bool) (s : State) : (setTickFlag v s).launch = s.launch := rfl
@[simp] theorem setTickFlag_seq (v : Bool) (s : State) : (setTickFlag v s).seq = s.seq := rfl
@[simp] theorem setTickFlag_round (v : Bool) (s : State) : (setTickFlag v s).round = s.round := rfl
@[simp] theorem setTickFlag_score (v : Bool) (s : State) : (setTickFlag v s).score = s.score := rfl
@[simp] theorem setTickFlag_overFlag (v : Bool) (s : State) : (setTickFlag v s).overFlag = s.overFlag := rfl
@[simp] theorem setTickFlag_dcnt (v : Bool) (s : State) : (setTickFlag v s).dcnt = s.dcnt := rfl
@[simp] theorem setTickFlag_pcntPress (v : Bool) (s : State) : (setTickFlag v s).pcntPress = s.pcntPress := rfl
@[simp] theorem setTickFlag_capOver (v : Bool) (s : State) : (setTickFlag v s).capOver = s.capOver := rfl
@[simp] theorem setTickFlag_k (v : Bool) (s : State) : (setTickFlag v s).k = s.k := rfl
@[simp] theorem setTickFlag_i (v : Bool) (s : State) : (setTickFlag v s).i = s.i := rfl
@[simp] theorem setTickFlag_off (v : Bool) (s : State) : (setTickFlag v s).off = s.off := rfl
@[simp] theorem setTickFlag_rem (v : Bool) (s : State) : (setTickFlag v s).rem = s.rem := rfl
@[simp] theorem setTickFlag_digk (v : Bool) (s : State) : (setTickFlag v s).digk = s.digk := rfl
@[simp] theorem setTickFlag_started (v : Bool) (s : State) : (setTickFlag v s).started = s.started := rfl
@[simp] theorem setTickFlag_cstate (v : Bool) (s : State) : (setTickFlag v s).cstate = s.cstate := rfl
@[simp] theorem setTickFlag_cpc (v : Bool) (s : State) : (setTickFlag v s).cpc = s.cpc := rfl
@[simp] theorem setTickFlag_cidx (v : Bool) (s : State) : (setTickFlag v s).cidx = s.cidx := rfl
@[simp] theorem setTickFlag_todo (v : Bool) (s : State) : (setTickFlag v s).todo = s.todo := rfl
@[simp] theorem setTickFlag_ret (v : Bool) (s : State) : (setTickFlag v s).ret = s.ret := rfl
@[simp] theorem setTickFlag_tickFlag (v : Bool) (s : State) : (setTickFlag v s).tickFlag = v := rfl
@[simp] theorem setTickFlag_freeOvf (v : Bool) (s : State) : (setTickFlag v s).freeOvf = s.freeOvf := rfl
@[simp] theorem setTickFlag_freeCnt (v : Bool) (s : State) : (setTickFlag v s).freeCnt = s.freeCnt := rfl
@[simp] theorem setTickFlag_tickCmp (v : Bool) (s : State) : (setTickFlag v s).tickCmp = s.tickCmp := rfl
@[simp] theorem setTickFlag_ptimerCnt (v : Bool) (s : State) : (setTickFlag v s).ptimerCnt = s.ptimerCnt := rfl
@[simp] theorem setTickFlag_inReg (v : Bool) (s : State) : (setTickFlag v s).inReg = s.inReg := rfl
@[simp] theorem setTickFlag_outReg (v : Bool) (s : State) : (setTickFlag v s).outReg = s.outReg := rfl
@[simp] theorem setTickFlag_disp (v : Bool) (s : State) : (setTickFlag v s).disp = s.disp := rfl
@[simp] theorem setTickFlag_trace (v : Bool) (s : State) : (setTickFlag v s).trace = s.trace := rfl
@[simp] theorem setTickFlag_turns (v : Bool) (s : State) : (setTickFlag v s).turns = s.turns := rfl
@[simp] theorem setTickFlag_draws (v : Bool) (s : State) : (setTickFlag v s).draws = s.draws := rfl

/-! ### setFreeOvf -/

@[simp] theorem setFreeOvf_launch (v : Bool) (s : State) : (setFreeOvf v s).launch = s.launch := rfl
@[simp] theorem setFreeOvf_seq (v : Bool) (s : State) : (setFreeOvf v s).seq = s.seq := rfl
@[simp] theorem setFreeOvf_round (v : Bool) (s : State) : (setFreeOvf v s).round = s.round := rfl
@[simp] theorem setFreeOvf_score (v : Bool) (s : State) : (setFreeOvf v s).score = s.score := rfl
@[simp] theorem setFreeOvf_overFlag (v : Bool) (s : State) : (setFreeOvf v s).overFlag = s.overFlag := rfl
@[simp] theorem setFreeOvf_dcnt (v : Bool) (s : State) : (setFreeOvf v s).dcnt = s.dcnt := rfl
@[simp] theorem setFreeOvf_pcntPress (v : Bool) (s : State) : (setFreeOvf v s).pcntPress = s.pcntPress := rfl
@[simp] theorem setFreeOvf_capOver (v : Bool) (s : State) : (setFreeOvf v s).capOver = s.capOver := rfl
@[simp] theorem setFreeOvf_k (v : Bool) (s : State) : (setFreeOvf v s).k = s.k := rfl
@[simp] theorem setFreeOvf_i (v : Bool) (s : State) : (setFreeOvf v s).i = s.i := rfl
@[simp] theorem setFreeOvf_off (v : Bool) (s : State) : (setFreeOvf v s).off = s.off := rfl
@[simp] theorem setFreeOvf_rem (v : Bool) (s : State) : (setFreeOvf v s).rem = s.rem := rfl
@[simp] theorem setFreeOvf_digk (v : Bool) (s : State) : (setFreeOvf v s).digk = s.digk := rfl
@[simp] theorem setFreeOvf_started (v : Bool) (s : State) : (setFreeOvf v s).started = s.started := rfl
@[simp] theorem setFreeOvf_cstate (v : Bool) (s : State) : (setFreeOvf v s).cstate = s.cstate := rfl
@[simp] theorem setFreeOvf_cpc (v : Bool) (s : State) : (setFreeOvf v s).cpc = s.cpc := rfl
@[simp] theorem setFreeOvf_cidx (v : Bool) (s : State) : (setFreeOvf v s).cidx = s.cidx := rfl
@[simp] theorem setFreeOvf_todo (v : Bool) (s : State) : (setFreeOvf v s).todo = s.todo := rfl
@[simp] theorem setFreeOvf_ret (v : Bool) (s : State) : (setFreeOvf v s).ret = s.ret := rfl
@[simp] theorem setFreeOvf_tickFlag (v : Bool) (s : State) : (setFreeOvf v s).tickFlag = s.tickFlag := rfl
@[simp] theorem setFreeOvf_freeOvf (v : Bool) (s : State) : (setFreeOvf v s).freeOvf = v := rfl
@[simp] theorem setFreeOvf_freeCnt (v : Bool) (s : State) : (setFreeOvf v s).freeCnt = s.freeCnt := rfl
@[simp] theorem setFreeOvf_tickCmp (v : Bool) (s : State) : (setFreeOvf v s).tickCmp = s.tickCmp := rfl
@[simp] theorem setFreeOvf_ptimerCnt (v : Bool) (s : State) : (setFreeOvf v s).ptimerCnt = s.ptimerCnt := rfl
@[simp] theorem setFreeOvf_inReg (v : Bool) (s : State) : (setFreeOvf v s).inReg = s.inReg := rfl
@[simp] theorem setFreeOvf_outReg (v : Bool) (s : State) : (setFreeOvf v s).outReg = s.outReg := rfl
@[simp] theorem setFreeOvf_disp (v : Bool) (s : State) : (setFreeOvf v s).disp = s.disp := rfl
@[simp] theorem setFreeOvf_trace (v : Bool) (s : State) : (setFreeOvf v s).trace = s.trace := rfl
@[simp] theorem setFreeOvf_turns (v : Bool) (s : State) : (setFreeOvf v s).turns = s.turns := rfl
@[simp] theorem setFreeOvf_draws (v : Bool) (s : State) : (setFreeOvf v s).draws = s.draws := rfl

/-! ### endCommand -/

@[simp] theorem endCommand_launch (s : State) : (endCommand s).launch = s.launch := rfl
@[simp] theorem endCommand_seq (s : State) : (endCommand s).seq = s.seq := rfl
@[simp] theorem endCommand_round (s : State) : (endCommand s).round = s.round := rfl
@[simp] theorem endCommand_score (s : State) : (endCommand s).score = s.score := rfl
@[simp] theorem endCommand_overFlag (s : State) : (endCommand s).overFlag = s.overFlag := rfl
@[simp] theorem endCommand_dcnt (s : State) : (endCommand s).dcnt = s.dcnt := rfl
@[simp] theorem endCommand_pcntPress (s : State) : (endCommand s).pcntPress = s.pcntPress := rfl
@[simp] theorem endCommand_capOver (s : State) : (endCommand s).capOver = s.capOver := rfl
@[simp] theorem endCommand_k (s : State) : (endCommand s).k = s.k := rfl
@[simp] theorem endCommand_i (s : State) : (endCommand s).i = s.i := rfl
@[simp] theorem endCommand_off (s : State) : (endCommand s).off = s.off := rfl
@[simp] theorem endCommand_rem (s : State) : (endCommand s).rem = s.rem := rfl
@[simp] theorem endCommand_digk (s : State) : (endCommand s).digk = s.digk := rfl
@[simp] theorem endCommand_started (s : State) : (endCommand s).started = s.started := rfl
@[simp] theorem endCommand_cstate (s : State) : (endCommand s).cstate = s.cstate := rfl
@[simp] theorem endCommand_cpc (s : State) : (endCommand s).cpc = s.cpc := rfl
@[simp] theorem endCommand_cidx (s : State) : (endCommand s).cidx = s.cidx + 1 := rfl
@[simp] theorem endCommand_todo (s : State) : (endCommand s).todo = s.todo := rfl
@[simp] theorem endCommand_ret (s : State) : (endCommand s).ret = s.ret := rfl
@[simp] theorem endCommand_tickFlag (s : State) : (endCommand s).tickFlag = s.tickFlag := rfl
@[simp] theorem endCommand_freeOvf (s : State) : (endCommand s).freeOvf = s.freeOvf := rfl
@[simp] theorem endCommand_freeCnt (s : State) : (endCommand s).freeCnt = s.freeCnt := rfl
@[simp] theorem endCommand_tickCmp (s : State) : (endCommand s).tickCmp = s.tickCmp := rfl
@[simp] theorem endCommand_ptimerCnt (s : State) : (endCommand s).ptimerCnt = s.ptimerCnt := rfl
@[simp] theorem endCommand_inReg (s : State) : (endCommand s).inReg = s.inReg := rfl
@[simp] theorem endCommand_outReg (s : State) : (endCommand s).outReg = s.outReg := rfl
@[simp] theorem endCommand_disp (s : State) : (endCommand s).disp = s.disp := rfl
@[simp] theorem endCommand_trace (s : State) : (endCommand s).trace = s.trace := rfl
@[simp] theorem endCommand_turns (s : State) : (endCommand s).turns = s.turns := rfl
@[simp] theorem endCommand_draws (s : State) : (endCommand s).draws = s.draws := rfl

/-! ### endWithResponse -/

@[simp] theorem endWithResponse_launch (s : State) : (endWithResponse s).launch = s.launch := rfl
@[simp] theorem endWithResponse_seq (s : State) : (endWithResponse s).seq = s.seq := rfl
@[simp] theorem endWithResponse_round (s : State) : (endWithResponse s).round = s.round := rfl
@[simp] theorem endWithResponse_score (s : State) : (endWithResponse s).score = s.score := rfl
@[simp] theorem endWithResponse_overFlag (s : State) : (endWithResponse s).overFlag = s.overFlag := rfl
@[simp] theorem endWithResponse_dcnt (s : State) : (endWithResponse s).dcnt = s.dcnt := rfl
@[simp] theorem endWithResponse_pcntPress (s : State) : (endWithResponse s).pcntPress = s.pcntPress := rfl
@[simp] theorem endWithResponse_capOver (s : State) : (endWithResponse s).capOver = s.capOver := rfl
@[simp] theorem endWithResponse_k (s : State) : (endWithResponse s).k = s.k := rfl
@[simp] theorem endWithResponse_i (s : State) : (endWithResponse s).i = s.i := rfl
@[simp] theorem endWithResponse_off (s : State) : (endWithResponse s).off = s.off := rfl
@[simp] theorem endWithResponse_rem (s : State) : (endWithResponse s).rem = s.rem := rfl
@[simp] theorem endWithResponse_digk (s : State) : (endWithResponse s).digk = s.digk := rfl
@[simp] theorem endWithResponse_started (s : State) : (endWithResponse s).started = s.started := rfl
@[simp] theorem endWithResponse_cstate (s : State) : (endWithResponse s).cstate = s.cstate := rfl
@[simp] theorem endWithResponse_cpc (s : State) : (endWithResponse s).cpc = s.cpc := rfl
@[simp] theorem endWithResponse_cidx (s : State) : (endWithResponse s).cidx = s.cidx + 1 := rfl
@[simp] theorem endWithResponse_todo (s : State) : (endWithResponse s).todo = s.todo := rfl
@[simp] theorem endWithResponse_ret (s : State) : (endWithResponse s).ret = s.ret := rfl
@[simp] theorem endWithResponse_tickFlag (s : State) : (endWithResponse s).tickFlag = s.tickFlag := rfl
@[simp] theorem endWithResponse_freeOvf (s : State) : (endWithResponse s).freeOvf = s.freeOvf := rfl
@[simp] theorem endWithResponse_freeCnt (s : State) : (endWithResponse s).freeCnt = s.freeCnt := rfl
@[simp] theorem endWithResponse_tickCmp (s : State) : (endWithResponse s).tickCmp = s.tickCmp := rfl
@[simp] theorem endWithResponse_ptimerCnt (s : State) : (endWithResponse s).ptimerCnt = s.ptimerCnt := rfl
@[simp] theorem endWithResponse_inReg (s : State) : (endWithResponse s).inReg = s.inReg := rfl
@[simp] theorem endWithResponse_outReg (s : State) : (endWithResponse s).outReg = s.outReg := rfl
@[simp] theorem endWithResponse_disp (s : State) : (endWithResponse s).disp = s.disp := rfl
@[simp] theorem endWithResponse_trace (s : State) : (endWithResponse s).trace = s.trace ++ [.resp s.ret] := rfl
@[simp] theorem endWithResponse_turns (s : State) : (endWithResponse s).turns = s.turns := rfl
@[simp] theorem endWithResponse_draws (s : State) : (endWithResponse s).draws = s.draws := rfl

end Sys2Proof.Machine
end

