-- ==== Sys2Proof/Laws/Ops.lean ====
section
/-! SUPPORT. What each named operation can answer. `onNext r P` says that P holds of the next state if r answers one;
`answers r P` says that r answers a next state and P holds of it. -/

namespace Sys2Proof.Laws

open Sys2Proof.Machine

/-- If `r` answers a next state, `P` holds of it. -/
def onNext (r : Result) (P : State → Prop) : Prop := ∀ t, r = .next t → P t

/-- `r` answers a next state, and `P` holds of it. -/
def answers (r : Result) (P : State → Prop) : Prop := ∃ t, r = .next t ∧ P t

/-! ### Sequencing

The rules of `andThen` are rewriting rules, not definitional ones: the kernel must not be made to unfold `settle`. -/

@[simp] theorem onNext_next (t : State) (P : State → Prop) : onNext (.next t) P ↔ P t := by
  simp [onNext]

@[simp] theorem onNext_fault (e : Fault) (P : State → Prop) : onNext (.fault e) P ↔ True := by
  simp [onNext]

@[simp] theorem onNext_refused (e : Refusal) (P : State → Prop) : onNext (.refused e) P ↔ True := by
  simp [onNext]

@[simp] theorem answers_next (t : State) (P : State → Prop) : answers (.next t) P ↔ P t := by
  simp [answers]

@[simp] theorem answers_fault (e : Fault) (P : State → Prop) : answers (.fault e) P ↔ False := by
  simp [answers]

@[simp] theorem answers_refused (e : Refusal) (P : State → Prop) : answers (.refused e) P ↔ False := by
  simp [answers]

theorem onNext_mono {r : Result} {P Q : State → Prop} (h : onNext r P) (hpq : ∀ t, P t → Q t) : onNext r Q :=
  fun t ht => hpq t (h t ht)

theorem answers_mono {r : Result} {P Q : State → Prop} (h : answers r P) (hpq : ∀ t, P t → Q t) : answers r Q :=
  let ⟨t, ht, hp⟩ := h
  ⟨t, ht, hpq t hp⟩

theorem answers_onNext {r : Result} {P Q : State → Prop} (h : answers r P) (hq : onNext r Q) :
    answers r fun t => P t ∧ Q t :=
  let ⟨t, ht, hp⟩ := h
  ⟨t, ht, hp, hq t ht⟩

@[simp] theorem andThen_next (s : State) (f : State → Result) : andThen (.next s) f = f s := by rw [andThen]
@[simp] theorem andThen_fault (e : Fault) (f : State → Result) : andThen (.fault e) f = .fault e := by rw [andThen]
@[simp] theorem andThen_refused (e : Refusal) (f : State → Result) : andThen (.refused e) f = .refused e := by rw [andThen]

theorem andThen_eq_next {r : Result} {f : State → Result} {t : State} :
    andThen r f = .next t ↔ ∃ u, r = .next u ∧ f u = .next t := by
  cases r <;> simp [andThen]

@[simp] theorem onNext_andThen (r : Result) (f : State → Result) (P : State → Prop) :
    onNext (andThen r f) P ↔ onNext r fun u => onNext (f u) P := by
  cases r <;> simp [andThen]

@[simp] theorem answers_andThen (r : Result) (f : State → Result) (P : State → Prop) :
    answers (andThen r f) P ↔ answers r fun u => answers (f u) P := by
  cases r <;> simp [andThen]

/-! ### Registers -/

@[simp] theorem readReg_some {α : Type} (a : α) (reg : Reg) (f : α → Result) : readReg (some a) reg f = f a := by rw [readReg]
@[simp] theorem readReg_none {α : Type} (reg : Reg) (f : α → Result) :
    readReg none reg f = .fault (.readUnset reg) := rfl

theorem readReg_eq_next {α : Type} {v : Option α} {reg : Reg} {f : α → Result} {t : State} :
    readReg v reg f = .next t ↔ ∃ a, v = some a ∧ f a = .next t := by
  cases v <;> simp

@[simp] theorem onNext_readReg {α : Type} (v : Option α) (reg : Reg) (f : α → Result) (P : State → Prop) :
    onNext (readReg v reg f) P ↔ ∀ a, v = some a → onNext (f a) P := by
  cases v <;> simp

@[simp] theorem answers_readReg {α : Type} (v : Option α) (reg : Reg) (f : α → Result) (P : State → Prop) :
    answers (readReg v reg f) P ↔ ∃ a, v = some a ∧ answers (f a) P := by
  cases v <;> simp

/-! ### Ports -/

/-- ReadBtn reads the two levels, active-low, and changes nothing (20_memory.md R88). -/
@[simp] theorem readButtons_eq (s : State) (f : Bool → Bool → Result) :
    readButtons s f = f (!s.inReg.getLsbD 0) (!s.inReg.getLsbD 1) := by
  simp [readButtons, memRead, Config.inRegAddr]

/-- ReadFree reads FREE_CNT and changes nothing (R89). -/
@[simp] theorem readFree_eq (s : State) (f : Word16 → Result) : readFree s f = f s.freeCnt := by
  simp [readFree, memRead, Config.inRegAddr, Config.freeCntAddr]

/-- TickTC gives TICK_FLAG and clears it (R87). -/
@[simp] theorem tickTC_eq (s : State) (f : Bool → State → Result) :
    tickTC s f = f s.tickFlag (setTickFlag false s) := rfl

/-- SetInd writes OUT_REG and adds its event (R86). -/
@[simp] theorem setIndicators_eq (a b : Bool) (s : State) :
    setIndicators a b s = .next (emit (.ind a b) { s with outReg := indByte a b }) := by
  simp [setIndicators, memWrite, Config.outRegAddr, Config.dispBase, Config.dispSlots]

/-- WriteChar of a legal slot and code writes that slot and adds its event (R85). -/
theorem writeChar_ok {slot : Nat} {ch : Byte} (hs : slot ≤ 6) (hc : ch ≠ 0) (s : State) :
    writeChar slot ch s =
      .next (emit (.write slot ch) { s with disp := s.disp.setIfInBounds slot ch }) := by
  have h : slot < 7 := by omega
  have h2 : slot % 256 < 7 := by omega
  have h3 : slot % 256 = slot := by omega
  have hc : ¬ch = 0#8 := hc
  simp [writeChar, memWrite, Config.dispBase, Config.dispSlots, h, h3, hc, andThen]

/-- If WriteChar answers, its slot and code are legal and that is what it did. -/
theorem writeChar_next {slot : Nat} {ch : Byte} {s t : State} (h : writeChar slot ch s = .next t) :
    slot ≤ 6 ∧ ch ≠ 0 ∧ t = emit (.write slot ch) { s with disp := s.disp.setIfInBounds slot ch } := by
  by_cases hs : slot < 7
  · by_cases hc : ch = 0#8
    · simp [writeChar, hc] at h
    · rw [writeChar_ok (by omega) hc] at h
      exact ⟨by omega, hc, by simpa using h.symm⟩
  · simp [writeChar, Config.dispSlots, hs] at h

@[simp] theorem onNext_writeChar (slot : Nat) (ch : Byte) (s : State) (P : State → Prop) :
    onNext (writeChar slot ch s) P ↔
      (slot ≤ 6 → ch ≠ 0 → P (emit (.write slot ch) { s with disp := s.disp.setIfInBounds slot ch })) := by
  constructor
  · intro h hs hc
    exact h _ (writeChar_ok hs hc s)
  · intro h t ht
    obtain ⟨hs, hc, rfl⟩ := writeChar_next ht
    exact h hs hc

@[simp] theorem answers_writeChar (slot : Nat) (ch : Byte) (s : State) (P : State → Prop) :
    answers (writeChar slot ch s) P ↔
      slot ≤ 6 ∧ ch ≠ 0 ∧ P (emit (.write slot ch) { s with disp := s.disp.setIfInBounds slot ch }) := by
  constructor
  · intro ⟨t, ht, hp⟩
    obtain ⟨hs, hc, rfl⟩ := writeChar_next ht
    exact ⟨hs, hc, hp⟩
  · intro ⟨hs, hc, hp⟩
    exact ⟨_, writeChar_ok hs hc s, hp⟩

/-! ### What an observer may rely on -/

theorem slotShown_emit (e : Event) (s : State) (slot : Nat) :
    slotShown (emit e s) slot = if writesSlot slot e then s.disp[slot]? else slotShown s slot := by
  cases h : writesSlot slot e <;> simp [slotShown, emit, h]

theorem slotShown_congr {s t : State} (hd : t.disp = s.disp) (ht : t.trace = s.trace) (slot : Nat) :
    slotShown t slot = slotShown s slot := by
  rw [slotShown, slotShown, hd, ht]

/-! ### The interrupt -/

/-- Taking the interrupt leaves FREE_OVF 0 and everything else as it was, pending or not (60_exceptions.md R284). -/
theorem takeInterrupt_eq (s : State) : takeInterrupt s = { s with freeOvf := false } := by
  cases h : s.freeOvf <;>
    simp [takeInterrupt, interruptPending, interruptReturn, interruptHandler, interruptEntry, setFreeOvf, h]
  rw [← h]

/-! ### TIMER_STATUS -/

theorem timerStatus_tick (s : State) : (timerStatus s).getLsbD 0 = s.tickFlag := by
  cases h : s.tickFlag <;> cases h2 : s.freeOvf <;> simp [timerStatus, h, h2]

theorem timerStatus_ovf (s : State) : (timerStatus s).getLsbD 1 = s.freeOvf := by
  cases h : s.tickFlag <;> cases h2 : s.freeOvf <;> simp [timerStatus, h, h2]

end Sys2Proof.Laws
end

