-- ==== Sys2Proof/Laws/Lines.lean ====
section
/-! SUPPORT. What one line of pseudocode can do: its frame (`runStmt_keeps`), that it answers where it is ready, leaving an
operation that can go on (`runStmt_stepOk`), and the outputs (`runStmt_outputs`). -/

namespace Sys2Proof.Laws

open Sys2Proof.Machine
open Sys2Proof.Safety

/-! ### Frame -/

theorem mainKeeps_refl (s : State) : MainKeeps s s := by
  constructor <;> simp

theorem runStmt_keeps (st : Stmt) (s : State) : onNext (runStmt st s) (MainKeeps s) := by
  cases st
  all_goals
    simp only [runStmt, lineClear, linePutWord, linePutChars, lineShowError, lineErrorChars, lineEvent, linePhrase,
      lineScrollStart, lineScrollStep, lineWindow, lineScrollNext, lineNumber, lineDigit, linePutDigit, lineWait, linePoll,
      lineTick, lineSample, lineReadBtn, lineGenBtn, lineGenSample, linePlayStart, linePlayTest, lineLight, linePlayNext,
      lineCapStart, lineCapTest, lineCapPoll, lineHold, lineCompare, lineRestartPoll, nextDigit,
      readButtons_eq, readFree_eq, tickTC_eq, setIndicators_eq]
  all_goals
    try simp only [onNext_andThen, onNext_next, onNext_readReg, onNext_writeChar]
    intros
    repeat' split
    all_goals try simp only [onNext_andThen, onNext_next, onNext_writeChar]
    all_goals intros
    all_goals constructor <;> simp

theorem mainKeeps_trans {s t u : State} (h : MainKeeps s t) (g : MainKeeps t u) : MainKeeps s u where
  launch := g.launch.trans h.launch
  seq := g.seq.trans h.seq
  round := g.round.trans h.round
  score := g.score.trans h.score
  overFlag := g.overFlag.trans h.overFlag
  cstate := g.cstate.trans h.cstate
  cpc := g.cpc.trans h.cpc
  cidx := g.cidx.trans h.cidx
  tickFlag := fun x => h.tickFlag (g.tickFlag x)
  freeOvf := g.freeOvf.trans h.freeOvf
  freeCnt := g.freeCnt.trans h.freeCnt
  tickCmp := g.tickCmp.trans h.tickCmp
  ptimerCnt := g.ptimerCnt.trans h.ptimerCnt
  inReg := g.inReg.trans h.inReg
  trace := by
    obtain ⟨e1, h1⟩ := h.trace
    obtain ⟨e2, h2⟩ := g.trace
    exact ⟨e1 ++ e2, by rw [h2, h1, List.append_assoc]⟩
  turns := g.turns.trans h.turns
  draws := g.draws.trans h.draws

/-! ### A ready line answers -/

/-- No register a line reads goes back to ⊥. -/
structure RegsGrow (s t : State) : Prop where
  dcnt : s.dcnt.isSome → t.dcnt.isSome
  pcntPress : s.pcntPress.isSome → t.pcntPress.isSome
  capOver : s.capOver.isSome → t.capOver.isSome
  k : s.k.isSome → t.k.isSome
  i : s.i.isSome → t.i.isSome
  off : s.off.isSome → t.off.isSome
  rem : s.rem.isSome → t.rem.isSome
  digk : s.digk.isSome → t.digk.isSome
  started : s.started.isSome → t.started.isSome

theorem ready_mono {s t : State} (hg : RegsGrow s t) {st : Stmt} (h : Ready s st) : Ready t st := by
  obtain ⟨h1, h2, h3, h4, h5, h6, h7, h8, h9⟩ := hg
  cases st <;> simp only [Ready] at h ⊢ <;> grind

/-- what a line must show to keep the operation able to go on -/
structure StepOk (s t : State) (ls : List Stmt) : Prop where
  grow : RegsGrow s t
  todo : t.todo = ls ++ s.todo
  ready : ∀ x ∈ ls, Ready t x
  digk : (∀ d, s.digk = some d → d.toNat ≤ 6) → ∀ d, t.digk = some d → d.toNat ≤ 6

theorem StepOk.operationOk {s t : State} {ls : List Stmt} (h : StepOk s t ls) (hs : OperationOk s) : OperationOk t := by
  refine ⟨fun x hx => ?_, h.digk hs.digk⟩
  rw [h.todo] at hx
  rcases List.mem_append.1 hx with hx | hx
  · exact h.ready x hx
  · exact ready_mono h.grow (hs.ready x hx)

theorem noNul_litError {j : Nat} {c : Byte} (h : litError[j]? = some c) : j ≤ 4 ∧ c ≠ 0 := by
  have : j < 5 := (List.getElem?_eq_some_iff.1 h).1
  interval_cases j <;> simp [litError, codes] at h <;> subst h <;> decide

theorem windowChar_ne_zero {t : Text} (ht : noNul t) (off slot : Nat) : windowChar t off slot ≠ 0 := by
  unfold windowChar
  split
  · rw [List.getD_eq_getElem?_getD]
    cases h : t[off + slot - 7]? with
    | none => simp [Config.blank]
    | some c => simpa using ht c (List.mem_of_getElem? h)
  · simp [Config.blank]

theorem digitChar_ne_zero {d : Nat} (h : d ≤ 9) : digitChar d ≠ 0 := by
  interval_cases d <;> decide

theorem runStmt_stepOk (st : Stmt) (s : State) (hr : Ready s st) (hd : ∀ d, s.digk = some d → d.toNat ≤ 6) :
    answers (runStmt st s) fun t => ∃ ls, StepOk s t ls := by
  cases st
  case clear slot =>
    simp only [Ready] at hr
    simp only [runStmt, lineClear, answers_andThen, answers_writeChar, answers_next]
    refine ⟨hr, by decide, _, ⟨by constructor <;> simp, push_todo _ _, ?_, by simp⟩⟩
    intro x hx
    split at hx <;> simp at hx
    subst hx
    simp [Ready]; omega
  case write slot ch =>
    simp only [Ready] at hr
    simp only [runStmt, answers_writeChar]
    exact ⟨hr.1, hr.2, [], ⟨by constructor <;> simp, by simp, by simp, by simp⟩⟩
  case putWord w =>
    simp only [Ready] at hr
    simp only [runStmt, linePutWord]
    split
    · exact (answers_next _ _).2 ⟨_, ⟨by constructor <;> simp, push_todo _ _, by simp [Ready], by simp⟩⟩
    · split
      · exact (answers_next _ _).2 ⟨[], ⟨by constructor <;> simp, by simp, by simp, by simp⟩⟩
      · rename_i h _
        refine (answers_next _ _).2 ⟨_, ⟨by constructor <;> simp, push_todo _ _, ?_, by simp⟩⟩
        simp only [List.mem_singleton, forall_eq, Ready]
        exact ⟨by simp, hr, by simpa [Config.dispWidth] using h⟩
  case putChars w =>
    simp only [Ready] at hr
    obtain ⟨⟨i, hi⟩, hw, hl⟩ := And.imp_left Option.isSome_iff_exists.1 hr
    simp only [runStmt, linePutChars, hi, readReg_some]
    split
    · exact (answers_next _ _).2 ⟨[], ⟨by constructor <;> simp, by simp, by simp, by simp⟩⟩
    · rename_i c hc
      have := (List.getElem?_eq_some_iff.1 hc).1
      simp only [answers_andThen, answers_writeChar, answers_next]
      refine ⟨by omega, hw c (List.mem_of_getElem? hc), _, ⟨by constructor <;> simp, push_todo _ _, ?_, by simp⟩⟩
      intro x hx
      split at hx <;> simp at hx
      subst hx
      simp [Ready, hw, hl]
  case showError k =>
    exact (answers_next _ _).2 ⟨_, ⟨by constructor <;> simp, push_todo _ _, by simp [Ready], by simp⟩⟩
  case errorChars =>
    simp only [Ready] at hr
    obtain ⟨i, hi⟩ := Option.isSome_iff_exists.1 hr
    simp only [runStmt, lineErrorChars, hi, readReg_some]
    split
    · exact (answers_next _ _).2 ⟨[], ⟨by constructor <;> simp, by simp, by simp, by simp⟩⟩
    · rename_i c hc
      have := noNul_litError hc
      simp only [answers_andThen, answers_writeChar, answers_next]
      refine ⟨by omega, this.2, _, ⟨by constructor <;> simp, push_todo _ _, ?_, by simp⟩⟩
      intro x hx
      split at hx <;> simp at hx
      subst hx
      simp [Ready]
  case event k =>
    exact (answers_next _ _).2 ⟨[], ⟨by constructor <;> simp, by simp, by simp, by simp⟩⟩
  case wait u =>
    refine (answers_next _ _).2 ⟨_, ⟨by constructor <;> simp, push_todo _ _, ?_, by simp⟩⟩
    intro x hx
    split at hx <;> simp at hx
    subst hx
    simp [Ready]
  case poll =>
    simp only [Ready] at hr
    obtain ⟨d, hd'⟩ := Option.isSome_iff_exists.1 hr
    simp only [runStmt, linePoll, hd', readReg_some, tickTC_eq]
    split
    · exact (answers_next _ _).2 ⟨[], ⟨by constructor <;> simp, by simp, by simp, by simp⟩⟩
    · split
      · refine (answers_next _ _).2 ⟨_, ⟨by constructor <;> simp, push_todo _ _, ?_, by simp⟩⟩
        intro x hx
        split at hx <;> simp at hx
        subst hx
        simp [Ready]
      · exact (answers_next _ _).2 ⟨_, ⟨by constructor <;> simp, push_todo _ _, by simp [Ready, hd'], by simp⟩⟩
  case phrase ws =>
    simp only [Ready] at hr
    cases ws with
    | nil => exact (answers_next _ _).2 ⟨[], ⟨by constructor <;> simp, by simp, by simp, by simp⟩⟩
    | cons w ws =>
      refine (answers_next _ _).2 ⟨_, ⟨by constructor <;> simp, push_todo _ _, ?_, by simp⟩⟩
      simp only [List.mem_cons, forall_eq_or_imp] at hr
      simpa [Ready, bodyClear] using hr
  case scrollStart t =>
    simp only [Ready] at hr
    exact (answers_next _ _).2 ⟨_, ⟨by constructor <;> simp, push_todo _ _, by simpa [Ready] using hr, by simp⟩⟩
  case scrollStep t =>
    simp only [Ready] at hr
    exact (answers_next _ _).2 ⟨_, ⟨by constructor <;> simp, push_todo _ _, by simpa [Ready] using hr, by simp⟩⟩
  case window t slot =>
    simp only [Ready] at hr
    obtain ⟨⟨off, ho⟩, ht, h1, h6⟩ := And.imp_left Option.isSome_iff_exists.1 hr
    simp only [runStmt, lineWindow, ho, readReg_some, answers_andThen, answers_writeChar, answers_next]
    refine ⟨h6, windowChar_ne_zero ht _ _, _, ⟨by constructor <;> simp, push_todo _ _, ?_, by simp⟩⟩
    intro x hx
    split at hx <;> simp at hx
    subst hx
    simp [Ready, ht]; omega
  case scrollNext t =>
    simp only [Ready] at hr
    obtain ⟨⟨off, ho⟩, ht⟩ := And.imp_left Option.isSome_iff_exists.1 hr
    simp only [runStmt, lineScrollNext, ho, readReg_some]
    split
    · exact (answers_next _ _).2 ⟨_, ⟨by constructor <;> simp, push_todo _ _, by simpa [Ready] using ht, by simp⟩⟩
    · exact (answers_next _ _).2 ⟨_, ⟨by constructor <;> simp, push_todo _ _, by simp [Ready, bodyClear], by simp⟩⟩
  case number n =>
    simp only [runStmt, lineNumber]
    split
    · exact (answers_next _ _).2 ⟨_, ⟨by constructor <;> simp, push_todo _ _,
        by simpa [Ready] using digitChar_ne_zero (by omega), by simp⟩⟩
    · exact (answers_next _ _).2 ⟨_, ⟨by constructor <;> simp, push_todo _ _, by simp [Ready], by simp⟩⟩
  case digit =>
    simp only [Ready] at hr
    obtain ⟨⟨rem, h1⟩, ⟨digk, h2⟩, ⟨started, h3⟩⟩ :=
      And.imp Option.isSome_iff_exists.1 (And.imp Option.isSome_iff_exists.1 Option.isSome_iff_exists.1) hr
    simp only [runStmt, lineDigit, h1, h2, h3, readReg_some]
    split
    · exact (answers_next _ _).2 ⟨_, ⟨by constructor <;> simp, push_todo _ _, by simp [Ready], by simp⟩⟩
    · split
      · rename_i h _
        refine (answers_next _ _).2 ⟨_, ⟨by constructor <;> simp, push_todo _ _, ?_, fun h _ hx => h _ (h2.trans hx)⟩⟩
        simpa [Ready, h2] using digitChar_ne_zero (by omega)
      · simp only [answers_next, nextDigit]
        split
        · refine ⟨_, ⟨by constructor <;> simp, push_todo _ _, by simp [Ready], ?_⟩⟩
          simp [BitVec.toNat_add]; omega
        · exact ⟨[], ⟨by constructor <;> simp, by simp, by simp, fun h _ hx => h _ (h2.trans hx)⟩⟩
  case putDigit ch =>
    simp only [Ready] at hr
    obtain ⟨⟨rem, h1⟩, ⟨digk, h2⟩, ⟨started, h3⟩, hc⟩ :=
      And.imp Option.isSome_iff_exists.1 (And.imp Option.isSome_iff_exists.1 (And.imp_left Option.isSome_iff_exists.1)) hr
    simp only [runStmt, linePutDigit, h2, readReg_some, answers_andThen, answers_writeChar, answers_next, nextDigit]
    refine ⟨hd _ h2, hc, ?_⟩
    split
    · refine ⟨_, ⟨by constructor <;> simp, push_todo _ _, by simp [Ready, h1, h3], ?_⟩⟩
      simp [BitVec.toNat_add]; omega
    · exact ⟨[], ⟨by constructor <;> simp, by simp, by simp, fun h _ hx => h _ (h2.trans hx)⟩⟩
  case ind a b =>
    simp only [runStmt, setIndicators_eq, answers_next]
    exact ⟨[], ⟨by constructor <;> simp, by simp, by simp, by simp⟩⟩
  case readBtn =>
    simp only [runStmt, lineReadBtn, readButtons_eq, answers_next]
    exact ⟨[], ⟨by constructor <;> simp, by simp, by simp, by simp⟩⟩
  case tick =>
    simp only [runStmt, lineTick, tickTC_eq, answers_next]
    exact ⟨[], ⟨by constructor <;> simp, by simp, by simp, by simp⟩⟩
  case sample =>
    simp only [runStmt, lineSample, readFree_eq, answers_next]
    exact ⟨[], ⟨by constructor <;> simp, by simp, by simp, by simp⟩⟩
  case genBtn =>
    simp only [runStmt, lineGenBtn, readButtons_eq, answers_next]
    exact ⟨_, ⟨by constructor <;> simp, push_todo _ _, by simp [Ready], by simp⟩⟩
  case genSample p =>
    simp only [runStmt, lineGenSample, readFree_eq]
    split
    · exact (answers_next _ _).2 ⟨[], ⟨by constructor <;> simp, by simp, by simp, by simp⟩⟩
    · exact (answers_next _ _).2 ⟨_, ⟨by constructor <;> simp, push_todo _ _, by simp [Ready], by simp⟩⟩
  case playStart seq round =>
    exact (answers_next _ _).2 ⟨_, ⟨by constructor <;> simp, push_todo _ _, by simp [Ready], by simp⟩⟩
  case playTest seq round =>
    simp only [Ready] at hr
    obtain ⟨k, hk⟩ := Option.isSome_iff_exists.1 hr
    simp only [runStmt, linePlayTest, hk, readReg_some, answers_next]
    refine ⟨_, ⟨by constructor <;> simp, push_todo _ _, ?_, by simp⟩⟩
    intro x hx
    split at hx
    · simp [playStep, bodyShowWord, bodyClear] at hx
      rcases hx with rfl | rfl | rfl | rfl | rfl | rfl | rfl <;> simp [Ready, hk, noNul, litWatch, codes]
    · simp at hx
  case light seq =>
    simp only [Ready] at hr
    obtain ⟨k, hk⟩ := Option.isSome_iff_exists.1 hr
    simp only [runStmt, lineLight, hk, readReg_some, setIndicators_eq, answers_next]
    exact ⟨[], ⟨by constructor <;> simp, by simp, by simp, by simp⟩⟩
  case playNext seq round =>
    simp only [Ready] at hr
    obtain ⟨k, hk⟩ := Option.isSome_iff_exists.1 hr
    simp only [runStmt, linePlayNext, hk, readReg_some, answers_next]
    exact ⟨_, ⟨by constructor <;> simp, push_todo _ _, by simp [Ready], by simp⟩⟩
  case capStart seq round =>
    exact (answers_next _ _).2 ⟨_, ⟨by constructor <;> simp, push_todo _ _, by simp [Ready], by simp⟩⟩
  case capTest seq round =>
    simp only [Ready] at hr
    obtain ⟨⟨p, hp⟩, ⟨o, ho⟩⟩ := And.imp Option.isSome_iff_exists.1 Option.isSome_iff_exists.1 hr
    simp only [runStmt, lineCapTest, hp, ho, readReg_some]
    split
    · exact (answers_next _ _).2 ⟨_, ⟨by constructor <;> simp, push_todo _ _, by simp [Ready, hp, ho], by simp⟩⟩
    · exact (answers_next _ _).2 ⟨[], ⟨by constructor <;> simp, by simp, by simp, by simp⟩⟩
  case capPoll seq round =>
    simp only [Ready] at hr
    simp only [runStmt, lineCapPoll, readButtons_eq, answers_next]
    refine ⟨_, ⟨by constructor <;> simp, push_todo _ _, ?_, by simp⟩⟩
    intro x hx
    simp only [List.mem_append, List.mem_singleton, pressLines] at hx
    rcases hx with hx | rfl
    · split at hx
      · simp at hx
        rcases hx with rfl | rfl | rfl | rfl | rfl <;> simp [Ready, hr]
      · split at hx <;> simp at hx
        rcases hx with rfl | rfl | rfl | rfl | rfl <;> simp [Ready, hr]
    · simp [Ready, hr]
  case hold x =>
    simp only [runStmt, lineHold, readButtons_eq, answers_next]
    refine ⟨_, ⟨by constructor <;> simp, push_todo _ _, ?_, by simp⟩⟩
    intro x hx
    split at hx <;> simp at hx
    rcases hx with rfl | rfl <;> simp [Ready]
  case compare seq x =>
    simp only [Ready] at hr
    obtain ⟨⟨p, hp⟩, ⟨o, ho⟩⟩ := And.imp Option.isSome_iff_exists.1 Option.isSome_iff_exists.1 hr
    simp only [runStmt, lineCompare, hp, readReg_some]
    split
    · exact (answers_next _ _).2 ⟨[], ⟨by constructor <;> simp, by simp, by simp, by simp⟩⟩
    · exact (answers_next _ _).2 ⟨[], ⟨by constructor <;> simp, by simp, by simp, by simp⟩⟩
  case restartPoll =>
    simp only [runStmt, lineRestartPoll, readButtons_eq, answers_next]
    refine ⟨_, ⟨by constructor <;> simp, push_todo _ _, ?_, by simp⟩⟩
    intro x hx
    split at hx <;> simp at hx
    subst hx
    simp [Ready]

/-! ### The outputs -/

theorem indByte_reserved (a b : Bool) : indByte a b >>> 2 = 0 := by
  cases a <;> cases b <;> decide

theorem outputsOk_of_eq {s t : State} (h : OutputsOk s) (ho : t.outReg = s.outReg) (hd : t.disp = s.disp)
    (ht : t.trace = s.trace) : OutputsOk t :=
  ⟨by rw [ho]; exact h.reserved, fun j c hj => h.slots j c (by rwa [slotShown_congr hd ht] at hj)⟩

/-- An event that writes no output shows nothing. -/
theorem outputsOk_emit {s : State} (h : OutputsOk s) {e : Event} (he : ∀ j, writesSlot j e = false) :
    OutputsOk (emit e s) :=
  ⟨h.reserved, fun j c hj => h.slots j c (by simpa [slotShown_emit, he] using hj)⟩

theorem outputsOk_write {s : State} (h : OutputsOk s) {slot : Nat} {ch : Byte} (hc : ch ≠ 0) :
    OutputsOk (emit (.write slot ch) { s with disp := s.disp.setIfInBounds slot ch }) := by
  refine ⟨h.reserved, fun j c hj => ?_⟩
  rw [slotShown_emit] at hj
  split at hj
  · rename_i he
    have he : slot = j := by simpa [writesSlot] using he
    subst he
    simp only [Vector.getElem?_setIfInBounds, ↓reduceIte] at hj
    split at hj <;> simp at hj
    exact hj ▸ hc
  · rename_i he
    have he : ¬slot = j := by simpa [writesSlot] using he
    refine h.slots j c ?_
    simpa [slotShown, Vector.getElem?_setIfInBounds, he] using hj

theorem outputsOk_ind {s : State} (h : OutputsOk s) (a b : Bool) :
    OutputsOk (emit (.ind a b) { s with outReg := indByte a b }) :=
  outputsOk_emit (s := { s with outReg := indByte a b })
    ⟨indByte_reserved a b, fun j c hj => h.slots j c hj⟩ fun _ => rfl

theorem runStmt_outputs (st : Stmt) {s : State} (h : OutputsOk s) : onNext (runStmt st s) OutputsOk := by
  cases st
  all_goals
    simp only [runStmt, lineClear, linePutWord, linePutChars, lineShowError, lineErrorChars, lineEvent, linePhrase,
      lineScrollStart, lineScrollStep, lineWindow, lineScrollNext, lineNumber, lineDigit, linePutDigit, lineWait, linePoll,
      lineTick, lineSample, lineReadBtn, lineGenBtn, lineGenSample, linePlayStart, linePlayTest, lineLight, linePlayNext,
      lineCapStart, lineCapTest, lineCapPoll, lineHold, lineCompare, lineRestartPoll, nextDigit,
      readButtons_eq, readFree_eq, tickTC_eq, setIndicators_eq]
  all_goals
    try simp only [onNext_andThen, onNext_next, onNext_readReg, onNext_writeChar]
    intros
    repeat' split
    all_goals try simp only [onNext_andThen, onNext_next, onNext_writeChar]
    all_goals intros
    all_goals
      first
      | exact outputsOk_of_eq h rfl rfl rfl
      | exact outputsOk_of_eq (outputsOk_write h (by assumption)) rfl rfl rfl
      | exact outputsOk_of_eq (outputsOk_ind h _ _) rfl rfl rfl
      | exact outputsOk_of_eq (outputsOk_emit h fun _ => rfl) rfl rfl rfl

/-! ### The indicators -/

theorem darkAfter_true {dark : Bool} : ∀ {ls : List Stmt}, darkAfter dark ls = true → darkAfter true ls = true
  | [], _ => rfl
  | st :: ls, h => by
    have ih := darkAfter_true (dark := dark) (ls := ls)
    cases st <;> simp_all [darkAfter]

theorem darkAfter_append (dark : Bool) : ∀ a b : List Stmt, darkAfter dark (a ++ b) = darkAfter (darkAfter dark a) b
  | [], _ => rfl
  | st :: a, b => by
    cases st <;> simp only [List.cons_append, darkAfter] <;> exact darkAfter_append _ a b

theorem darkAfter_quiet {dark : Bool} : ∀ {ls : List Stmt}, (∀ st ∈ ls, quiet st = true) → darkAfter dark ls = dark
  | [], _ => rfl
  | st :: ls, h => by
    have ih := darkAfter_quiet (dark := dark) fun x hx => h x (List.mem_cons_of_mem _ hx)
    have hq := h st List.mem_cons_self
    cases st <;> simp_all [darkAfter, quiet]

/-- OUT_REG stays and the lines that come before those of `s` are quiet. -/
structure QuietStep (s t : State) : Prop where
  outReg : t.outReg = s.outReg
  todo : ∃ ls, (∀ x ∈ ls, quiet x = true) ∧ t.todo = ls ++ s.todo

theorem quietStep_push {s u : State} {ls : List Stmt} (hl : ∀ x ∈ ls, quiet x = true) (ho : u.outReg = s.outReg)
    (ht : u.todo = s.todo) : QuietStep s (push ls u) :=
  ⟨ho, ls, hl, by rw [push_todo, ht]⟩

theorem quietStep_keep {s u : State} (ho : u.outReg = s.outReg) (ht : u.todo = s.todo) : QuietStep s u :=
  ⟨ho, [], by simp, ht⟩

theorem quiet_ite {c : Prop} [Decidable c] {a b : List Stmt} (ha : ∀ x ∈ a, quiet x = true)
    (hb : ∀ x ∈ b, quiet x = true) : ∀ x ∈ if c then a else b, quiet x = true := by
  split
  · exact ha
  · exact hb

/-- What a quiet line does. -/
theorem runStmt_quiet (st : Stmt) (s : State) (hq : quiet st = true) : onNext (runStmt st s) (QuietStep s) := by
  have hn : ∀ (d : BitVec 3) (u : State), u.outReg = s.outReg → u.todo = s.todo → QuietStep s (nextDigit d u) := by
    intro d u ho ht
    unfold nextDigit
    split
    · exact quietStep_push (by simp [quiet]) ho ht
    · exact quietStep_keep ho ht
  cases st <;> simp only [quiet, Bool.false_eq_true] at hq
  all_goals
    simp only [runStmt, lineClear, linePutWord, linePutChars, lineShowError, lineErrorChars, lineEvent, linePhrase,
      lineScrollStart, lineScrollStep, lineWindow, lineScrollNext, lineNumber, lineDigit, linePutDigit, lineWait, linePoll,
      lineTick, lineSample, lineReadBtn, lineGenBtn, lineGenSample, lineHold, lineCompare, lineRestartPoll,
      readButtons_eq, readFree_eq, tickTC_eq]
  all_goals
    try simp only [onNext_andThen, onNext_next, onNext_readReg, onNext_writeChar]
    intros
    repeat' split
    all_goals try simp only [onNext_andThen, onNext_next, onNext_writeChar]
    all_goals intros
    all_goals
      first
      | exact hn _ _ rfl rfl
      | exact quietStep_push (quiet_ite (by simp [quiet]) (by simp [quiet])) rfl rfl
      | exact quietStep_push (by simp [quiet, bodyClear]) rfl rfl
      | exact quietStep_keep rfl rfl

/-- The indicators are off after the lines still to run. -/
def EndsDark (s : State) : Prop := darkAfter (s.outReg = 0) s.todo = true

theorem endsDark_push {s u : State} {ls : List Stmt} (hs : darkAfter (s.outReg = 0) s.todo = true)
    (hl : darkAfter (s.outReg = 0) ls = decide (s.outReg = 0) ∨ darkAfter (s.outReg = 0) ls = true)
    (ho : u.outReg = s.outReg) (ht : u.todo = s.todo) : EndsDark (push ls u) := by
  rw [EndsDark, push_todo, darkAfter_append, show (push ls u).outReg = s.outReg from ho, ht]
  rcases hl with hl | hl <;> rw [hl]
  · exact hs
  · exact darkAfter_true hs

theorem endsDark_keep {s u : State} (hs : darkAfter (s.outReg = 0) s.todo = true) (ho : u.outReg = s.outReg)
    (ht : u.todo = s.todo) : EndsDark u := by
  rw [EndsDark, ho, ht]
  exact hs

theorem indByte_dark (a b : Bool) : decide (indByte a b = 0) = (!a && !b) := by
  cases a <;> cases b <;> decide

/-- PLAY_ROUND and CAPTURE leave both indicators off, and every line keeps an operation that does. -/
theorem runStmt_endsDark (st : Stmt) (s : State) (h : darkAfter (s.outReg = 0) (st :: s.todo) = true) :
    onNext (runStmt st s) EndsDark := by
  by_cases hq : quiet st = true
  · refine onNext_mono (runStmt_quiet st s hq) fun t ⟨ho, ls, hl, ht⟩ => ?_
    have h : darkAfter (s.outReg = 0) s.todo = true := by
      cases st <;> simp only [quiet, Bool.false_eq_true] at hq <;> exact h
    rw [EndsDark, ho, ht, darkAfter_append, darkAfter_quiet hl]
    exact h
  · cases st <;> simp only [quiet, not_true_eq_false] at hq
    case ind a b =>
      simp only [runStmt, setIndicators_eq, onNext_next, EndsDark]
      rw [emit_outReg, emit_todo, indByte_dark]
      exact h
    case light seq =>
      simp only [runStmt, lineLight, setIndicators_eq, onNext_readReg, onNext_next, EndsDark]
      intro k _
      simp only [darkAfter] at h
      cases hd : decide ((emit (Event.ind (!seqBit seq k.toNat) (seqBit seq k.toNat))
        { s with outReg := indByte (!seqBit seq k.toNat) (seqBit seq k.toNat) }).outReg = 0)
      · exact h
      · exact darkAfter_true h
    all_goals
      simp only [darkAfter] at h
      simp only [runStmt, linePlayStart, linePlayTest, linePlayNext, lineCapStart, lineCapTest, lineCapPoll,
        readButtons_eq, onNext_readReg, onNext_next]
      intros
      repeat' split
      all_goals try simp only [onNext_next]
      all_goals
        first
        | exact endsDark_push h (.inl rfl) rfl rfl
        | exact endsDark_push h (.inr rfl) rfl rfl
        | exact endsDark_keep h rfl rfl

end Sys2Proof.Laws
end

