-- ==== Sys2Proof/Laws/Engine.lean ====
section
/-! SUPPORT. What MAIN's turn, another agent's turn and a run through an interleaving can do. A property of an operation is
proved by `runOperation_onNext` (or `runOperation_answers`) from an invariant of MAIN's actions and of the agents'. -/

namespace Sys2Proof.Laws

open Sys2Proof.Machine
open Sys2Proof.Safety

/-! ### Silent code and MAIN's turn -/

/-- An invariant of every line is one of the silent code. -/
theorem settle_onNext {I : State → Prop}
    (hline : ∀ st rest s, s.todo = st :: rest → I s → onNext (runStmt st { s with todo := rest }) I) :
    ∀ n s, I s → onNext (settle n s) I
  | 0, s, h => (onNext_next _ _).2 h
  | n + 1, s, h => by
    unfold settle
    split
    · exact (onNext_next _ _).2 h
    · rename_i st rest hs
      split
      · rw [onNext_andThen]
        exact onNext_mono (hline st rest s hs h) fun t ht => settle_onNext hline n t ht
      · exact (onNext_next _ _).2 h

/-- An invariant of every line is one of MAIN's turn. -/
theorem mainAct_onNext {I : State → Prop}
    (hline : ∀ st rest s, s.todo = st :: rest → I s → onNext (runStmt st { s with todo := rest }) I)
    (s : State) (h : I s) : onNext (mainAct s) I := by
  unfold mainAct
  split
  · exact (onNext_next _ _).2 h
  · rename_i st rest hs
    rw [onNext_andThen]
    exact onNext_mono (hline st rest s hs h) fun t ht => settle_onNext hline _ t ht

theorem runStmt_quietLines (v : Byte) (st : Stmt) (rest : List Stmt) (s : State) (hs : s.todo = st :: rest)
    (h : s.outReg = v ∧ ∀ x ∈ s.todo, quiet x = true) :
    onNext (runStmt st { s with todo := rest }) fun t => t.outReg = v ∧ ∀ x ∈ t.todo, quiet x = true := by
  rw [hs] at h
  refine onNext_mono (runStmt_quiet st { s with todo := rest } (h.2 st List.mem_cons_self)) fun t ⟨ho, ls, hl, ht⟩ => ?_
  refine ⟨ho.trans h.1, fun x hx => ?_⟩
  rw [ht] at hx
  exact (List.mem_append.1 hx).elim (hl x) fun hx => h.2 x (List.mem_cons_of_mem _ hx)

theorem runStmt_endsDark_front (st : Stmt) (rest : List Stmt) (s : State) (hs : s.todo = st :: rest) (h : EndsDark s) :
    onNext (runStmt st { s with todo := rest }) EndsDark :=
  runStmt_endsDark st { s with todo := rest } (by rw [EndsDark, hs] at h; exact h)

/-- The frame of the silent code. -/
theorem settle_keeps (n : Nat) (s : State) : onNext (settle n s) (MainKeeps s) :=
  settle_onNext (I := MainKeeps s)
    (fun st rest u _ hu => onNext_mono (runStmt_keeps st { u with todo := rest }) fun _ ht =>
      mainKeeps_trans hu ⟨ht.1, ht.2, ht.3, ht.4, ht.5, ht.6, ht.7, ht.8, ht.9, ht.10, ht.11, ht.12, ht.13, ht.14, ht.15,
        ht.16, ht.17⟩) n s (mainKeeps_refl s)

/-- The frame of MAIN's turn. -/
theorem mainAct_keeps (s : State) : onNext (mainAct s) (MainKeeps s) :=
  mainAct_onNext (I := MainKeeps s)
    (fun st rest u _ hu => onNext_mono (runStmt_keeps st { u with todo := rest }) fun _ ht =>
      mainKeeps_trans hu ⟨ht.1, ht.2, ht.3, ht.4, ht.5, ht.6, ht.7, ht.8, ht.9, ht.10, ht.11, ht.12, ht.13, ht.14, ht.15,
        ht.16, ht.17⟩) s (mainKeeps_refl s)

/-- An operation of quiet lines leaves OUT_REG as it is, at every point. -/
theorem mainAct_quiet (v : Byte) (s : State) (h : s.outReg = v ∧ ∀ st ∈ s.todo, quiet st = true) :
    onNext (mainAct s) fun t => t.outReg = v ∧ ∀ st ∈ t.todo, quiet st = true :=
  mainAct_onNext (runStmt_quietLines v) s h

theorem settle_quiet (v : Byte) (n : Nat) (s : State) (h : s.outReg = v ∧ ∀ st ∈ s.todo, quiet st = true) :
    onNext (settle n s) fun t => t.outReg = v ∧ ∀ st ∈ t.todo, quiet st = true :=
  settle_onNext (runStmt_quietLines v) n s h

/-- An operation that leaves both indicators off does so from every point of it. -/
theorem mainAct_endsDark (s : State) (h : EndsDark s) : onNext (mainAct s) EndsDark :=
  mainAct_onNext runStmt_endsDark_front s h

theorem settle_endsDark (n : Nat) (s : State) (h : EndsDark s) : onNext (settle n s) EndsDark :=
  settle_onNext runStmt_endsDark_front n s h

/-- A line at the front of an operation that can go on answers, and the operation can still go on. -/
theorem runStmt_operationOk {st : Stmt} {rest : List Stmt} {s : State} (hs : s.todo = st :: rest) (h : OperationOk s) :
    answers (runStmt st { s with todo := rest }) OperationOk := by
  have hr : Ready { s with todo := rest } st :=
    ready_mono (by constructor <;> exact id) (h.ready st (by rw [hs]; exact List.mem_cons_self))
  refine answers_mono (runStmt_stepOk st _ hr h.digk) fun t ⟨ls, ht⟩ => ht.operationOk ⟨fun x hx => ?_, h.digk⟩
  exact ready_mono (by constructor <;> exact id) (h.ready x (by rw [hs]; exact List.mem_cons_of_mem _ hx))

theorem settle_operationOk : ∀ (n : Nat) (s : State), OperationOk s → answers (settle n s) OperationOk
  | 0, s, h => (answers_next _ _).2 h
  | n + 1, s, h => by
    unfold settle
    split
    · exact (answers_next _ _).2 h
    · rename_i st rest hs
      split
      · rw [answers_andThen]
        exact answers_mono (runStmt_operationOk hs h) fun t ht => settle_operationOk n t ht
      · exact (answers_next _ _).2 h

/-- MAIN's turn answers where the operation can go on, and it still can. -/
theorem mainAct_operationOk (s : State) (h : OperationOk s) : answers (mainAct s) OperationOk := by
  unfold mainAct
  split
  · exact (answers_next _ _).2 h
  · rename_i st rest hs
    rw [answers_andThen]
    exact answers_mono (runStmt_operationOk hs h) fun t ht => settle_operationOk _ t ht

/-- The outputs stay as the spec gives them. -/
theorem settle_outputs (n : Nat) (s : State) (h : OutputsOk s) : onNext (settle n s) OutputsOk :=
  settle_onNext (fun st _ _ _ hu => runStmt_outputs st ⟨hu.reserved, hu.slots⟩) n s h

theorem mainAct_outputs (s : State) (h : OutputsOk s) : onNext (mainAct s) OutputsOk :=
  mainAct_onNext (fun st _ _ _ hu => runStmt_outputs st ⟨hu.reserved, hu.slots⟩) s h

/-! ### The other agents -/

theorem agentAct_keeps (t : Config.Turn) (s : State) : AgentKeeps s (agentAct t s) := by
  cases t <;> simp only [agentAct, takeInterrupt_eq]
  case ftimer => split <;> constructor <;> rfl
  all_goals constructor <;> rfl

@[simp] theorem agentAct_todo (t : Config.Turn) (s : State) : (agentAct t s).todo = s.todo := (agentAct_keeps t s).todo
@[simp] theorem agentAct_turns (t : Config.Turn) (s : State) : (agentAct t s).turns = s.turns := (agentAct_keeps t s).turns
@[simp] theorem agentAct_main (s : State) : agentAct .main s = s := rfl

theorem agentKeeps_refl (s : State) : AgentKeeps s s := by constructor <;> rfl

theorem agentKeeps_trans {s t u : State} (h : AgentKeeps s t) (g : AgentKeeps t u) : AgentKeeps s u where
  launch := g.launch.trans h.launch
  seq := g.seq.trans h.seq
  round := g.round.trans h.round
  score := g.score.trans h.score
  overFlag := g.overFlag.trans h.overFlag
  dcnt := g.dcnt.trans h.dcnt
  pcntPress := g.pcntPress.trans h.pcntPress
  capOver := g.capOver.trans h.capOver
  k := g.k.trans h.k
  i := g.i.trans h.i
  off := g.off.trans h.off
  rem := g.rem.trans h.rem
  digk := g.digk.trans h.digk
  started := g.started.trans h.started
  cstate := g.cstate.trans h.cstate
  cpc := g.cpc.trans h.cpc
  cidx := g.cidx.trans h.cidx
  todo := g.todo.trans h.todo
  ret := g.ret.trans h.ret
  tickCmp := g.tickCmp.trans h.tickCmp
  outReg := g.outReg.trans h.outReg
  disp := g.disp.trans h.disp
  trace := g.trace.trans h.trace
  turns := g.turns.trans h.turns
  draws := g.draws.trans h.draws

@[simp] theorem agents_nil (s : State) : agents [] s = s := rfl
@[simp] theorem agents_cons (t : Config.Turn) (ts : List Config.Turn) (s : State) :
    agents (t :: ts) s = agents ts (agentAct t s) := rfl

theorem agents_keeps : ∀ (ts : List Config.Turn) (s : State), AgentKeeps s (agents ts s)
  | [], s => agentKeeps_refl s
  | t :: ts, s => agentKeeps_trans (agentAct_keeps t s) (agents_keeps ts (agentAct t s))

theorem operationOk_of_agentKeeps {s t : State} (h : AgentKeeps s t) (hs : OperationOk s) : OperationOk t := by
  refine ⟨fun x hx => ready_mono ?_ (hs.ready x (h.todo ▸ hx)), by rw [h.digk]; exact hs.digk⟩
  constructor
  · rw [h.dcnt]; exact id
  · rw [h.pcntPress]; exact id
  · rw [h.capOver]; exact id
  · rw [h.k]; exact id
  · rw [h.i]; exact id
  · rw [h.off]; exact id
  · rw [h.rem]; exact id
  · rw [h.digk]; exact id
  · rw [h.started]; exact id

/-! ### Running through an interleaving -/

@[simp] theorem drive_nil (finish : State → State) (s : State) : drive finish [] s = .next s := rfl

@[simp] theorem drive_main (finish : State → State) (ts : List Config.Turn) (s : State) :
    drive finish (.main :: ts) s =
      andThen (mainAct s) fun s => if s.todo = [] then .next (finish { s with turns := ts }) else drive finish ts s := by
  simp [drive]

theorem drive_agent (finish : State → State) {t : Config.Turn} (h : t ≠ .main) (ts : List Config.Turn) (s : State) :
    drive finish (t :: ts) s = drive finish ts (agentAct t s) := by
  simp [drive, h]

/-- Turns of the other agents before a turn of MAIN. -/
theorem drive_agents (finish : State → State) : ∀ (e : List Config.Turn), .main ∉ e →
    ∀ (ts : List Config.Turn) (s : State), drive finish (e ++ ts) s = drive finish ts (agents e s)
  | [], _, _, _ => rfl
  | t :: e, h, ts, s => by
    have ht : t ≠ .main := fun x => h (x ▸ List.mem_cons_self)
    have he : .main ∉ e := fun x => h (List.mem_cons_of_mem _ x)
    rw [List.cons_append, drive_agent finish ht, drive_agents finish e he, agents_cons]

/-- A property of where a run through an interleaving ends or pauses, from an invariant of the agents' turns. -/
theorem drive_onNext {I Q : State → Prop} {finish : State → State} (hmain : ∀ s, I s → onNext (mainAct s) I)
    (hagent : ∀ t s, I s → I (agentAct t s)) (hpause : ∀ s, I s → s.todo ≠ [] → Q s)
    (hend : ∀ s ts, I s → s.todo = [] → Q (finish { s with turns := ts })) :
    ∀ ts s, I s → s.todo ≠ [] → onNext (drive finish ts s) Q
  | [], s, h, hs => (onNext_next _ _).2 (hpause s h hs)
  | t :: ts, s, h, hs => by
    by_cases ht : t = .main
    · subst ht
      rw [drive_main, onNext_andThen]
      refine onNext_mono (hmain s h) fun u hu => ?_
      split
      · rename_i hx
        exact (onNext_next _ _).2 (hend u ts hu hx)
      · rename_i hx
        exact drive_onNext hmain hagent hpause hend ts u hu hx
    · rw [drive_agent finish ht]
      exact drive_onNext hmain hagent hpause hend ts _ (hagent t s h) (by simpa using hs)

/-- As `drive_onNext`, for a run that also always answers. -/
theorem drive_answers {I Q : State → Prop} {finish : State → State} (hmain : ∀ s, I s → answers (mainAct s) I)
    (hagent : ∀ t s, I s → I (agentAct t s)) (hpause : ∀ s, I s → s.todo ≠ [] → Q s)
    (hend : ∀ s ts, I s → s.todo = [] → Q (finish { s with turns := ts })) :
    ∀ ts s, I s → s.todo ≠ [] → answers (drive finish ts s) Q
  | [], s, h, hs => (answers_next _ _).2 (hpause s h hs)
  | t :: ts, s, h, hs => by
    by_cases ht : t = .main
    · subst ht
      rw [drive_main, answers_andThen]
      refine answers_mono (hmain s h) fun u hu => ?_
      split
      · rename_i hx
        exact (answers_next _ _).2 (hend u ts hu hx)
      · rename_i hx
        exact drive_answers hmain hagent hpause hend ts u hu hx
    · rw [drive_agent finish ht]
      exact drive_answers hmain hagent hpause hend ts _ (hagent t s h) (by simpa using hs)

theorem interleave_onNext {I Q : State → Prop} {finish : State → State} (hmain : ∀ s, I s → onNext (mainAct s) I)
    (hagent : ∀ t s, I s → I (agentAct t s)) (hturns : ∀ s ts n, I s → I { s with turns := ts, draws := n })
    (hpause : ∀ s, I s → s.todo ≠ [] → Q s) (hend : ∀ s ts, I s → s.todo = [] → Q (finish { s with turns := ts }))
    (s : State) (h : I s) (hs : s.todo ≠ []) : onNext (interleave finish s) Q := by
  unfold interleave
  split
  · exact drive_onNext hmain hagent hpause hend _ _ (hturns s s.turns (s.draws + 1) h) hs
  · exact drive_onNext hmain hagent hpause hend _ _ (hturns s [] s.draws h) hs

theorem interleave_answers {I Q : State → Prop} {finish : State → State} (hmain : ∀ s, I s → answers (mainAct s) I)
    (hagent : ∀ t s, I s → I (agentAct t s)) (hturns : ∀ s ts n, I s → I { s with turns := ts, draws := n })
    (hpause : ∀ s, I s → s.todo ≠ [] → Q s) (hend : ∀ s ts, I s → s.todo = [] → Q (finish { s with turns := ts }))
    (s : State) (h : I s) (hs : s.todo ≠ []) : answers (interleave finish s) Q := by
  unfold interleave
  split
  · exact drive_answers hmain hagent hpause hend _ _ (hturns s s.turns (s.draws + 1) h) hs
  · exact drive_answers hmain hagent hpause hend _ _ (hturns s [] s.draws h) hs

/-- A property of one operation of MAIN, from an invariant: it holds after the operation's start (or of the state an
operation in progress stands in), MAIN's and the other agents' turns keep it, and it gives the property where the
operation pauses and where it ends. -/
theorem runOperation_onNext {I Q : State → Prop} {start : State → Result} {finish : State → State} {s : State}
    (hstart : s.todo = [] → onNext (beginOperation start s) I) (hgo : s.todo ≠ [] → I s)
    (hmain : ∀ s, I s → onNext (mainAct s) I) (hagent : ∀ t s, I s → I (agentAct t s))
    (hturns : ∀ s ts n, I s → I { s with turns := ts, draws := n }) (hpause : ∀ s, I s → s.todo ≠ [] → Q s)
    (hdone : ∀ s, I s → s.todo = [] → Q (finish s)) : onNext (runOperation start finish s) Q := by
  have hrest : ∀ u, I u → onNext (if u.todo = [] then .next (finish u) else interleave finish u) Q := by
    intro u hu
    split
    · rename_i hx
      exact (onNext_next _ _).2 (hdone u hu hx)
    · rename_i hx
      exact interleave_onNext hmain hagent hturns hpause
        (fun v ts hv hx => hdone _ (hturns v ts v.draws hv) hx) u hu hx
  unfold runOperation
  split
  · rename_i hs
    rw [onNext_andThen]
    exact onNext_mono (hstart hs) hrest
  · rename_i hs
    exact hrest s (hgo hs)

/-- As `runOperation_onNext`, for an operation that also always answers. -/
theorem runOperation_answers {I Q : State → Prop} {start : State → Result} {finish : State → State} {s : State}
    (hstart : s.todo = [] → answers (beginOperation start s) I) (hgo : s.todo ≠ [] → I s)
    (hmain : ∀ s, I s → answers (mainAct s) I) (hagent : ∀ t s, I s → I (agentAct t s))
    (hturns : ∀ s ts n, I s → I { s with turns := ts, draws := n }) (hpause : ∀ s, I s → s.todo ≠ [] → Q s)
    (hdone : ∀ s, I s → s.todo = [] → Q (finish s)) : answers (runOperation start finish s) Q := by
  have hrest : ∀ u, I u → answers (if u.todo = [] then .next (finish u) else interleave finish u) Q := by
    intro u hu
    split
    · rename_i hx
      exact (answers_next _ _).2 (hdone u hu hx)
    · rename_i hx
      exact interleave_answers hmain hagent hturns hpause
        (fun v ts hv hx => hdone _ (hturns v ts v.draws hv) hx) u hu hx
  unfold runOperation
  split
  · rename_i hs
    rw [answers_andThen]
    exact answers_mono (hstart hs) hrest
  · rename_i hs
    exact hrest s (hgo hs)

end Sys2Proof.Laws
end

