-- ==== Sys2Proof/Laws/Commands.lean ====
section
/-! SUPPORT. How a command runs: the other agents do not see MAIN's registers, a run through more turns goes on from where a
run through fewer stopped, and a command of one action ends at MAIN's next turn. -/

namespace Sys2Proof.Laws

open Sys2Proof.Machine
open Sys2Proof.Safety

/-! ### The other agents neither read nor write what is MAIN's -/

/-- `s` with MAIN's registers, position, outputs, trace and interleaving taken from `m`. -/
def withMain (s m : State) : State :=
  { m with
    tickFlag := s.tickFlag, freeOvf := s.freeOvf, freeCnt := s.freeCnt, tickCmp := s.tickCmp, ptimerCnt := s.ptimerCnt
    inReg := s.inReg }

/-- FTIMER's step (40_timing_service.md R147). -/
theorem agentAct_ftimer (s : State) : agentAct .ftimer s =
    { s with freeCnt := s.freeCnt + 1, freeOvf := s.freeOvf || decide (s.freeCnt = 0xFFFF) } := by
  simp only [agentAct]
  split
  · rename_i h; simp [setFreeOvf, h]
  · rename_i h; simp only [id, h, decide_false, Bool.or_false]

theorem withMain_self (s : State) : withMain s s = s := rfl

theorem agentAct_withMain (t : Config.Turn) (s m : State) :
    agentAct t (withMain s m) = withMain (agentAct t s) m := by
  cases t
  case ftimer => rw [agentAct_ftimer, agentAct_ftimer]; rfl
  case isr => simp only [agentAct, takeInterrupt_eq, withMain]
  all_goals rfl

theorem agents_withMain : ∀ (ts : List Config.Turn) (s m : State),
    agents ts (withMain s m) = withMain (agents ts s) m
  | [], _, _ => rfl
  | t :: ts, s, m => by rw [agents_cons, agents_cons, agentAct_withMain, agents_withMain ts]

theorem agents_append (a b : List Config.Turn) (s : State) : agents (a ++ b) s = agents b (agents a s) := by
  simp [agents]

/-- The other agents leave the lines to run and the turns as they find them, whatever these are. -/
theorem agents_todo_turns (ts : List Config.Turn) (s : State) (l : List Stmt) (us : List Config.Turn) :
    agents ts { s with todo := l, turns := us } = { agents ts s with todo := l, turns := us } := by
  have h := agents_withMain ts s { s with todo := l, turns := us }
  have h2 := agents_keeps ts s
  refine Eq.trans h ?_
  cases hx : agents ts s
  rw [hx] at h2
  obtain ⟨h1, h2, h3, h4, h5, h6, h7, h8, h9, h10, h11, h12, h13, h14, h15, h16, h17, h18, h19, h20, h21, h22, h23, h24,
    h25⟩ := h2
  simp only at *
  subst_vars
  rfl

/-! ### The silent code -/

theorem settle_nil (n : Nat) {s : State} (h : s.todo = []) : settle n s = .next s := by
  cases n <;> simp [settle, h]

theorem settle_active (n : Nat) {s : State} {st : Stmt} {ls : List Stmt} (h : s.todo = st :: ls) (hs : st.silent = false) :
    settle n s = .next s := by
  cases n <;> simp [settle, h, hs]

theorem settle_silent (n : Nat) {s : State} {st : Stmt} {ls : List Stmt} (h : s.todo = st :: ls) (hs : st.silent = true) :
    settle (n + 1) s = andThen (runStmt st { s with todo := ls }) (settle n) := by
  simp [settle, h, hs]

/-! ### What MAIN never sees -/

/-- `s` with the parts MAIN never sees made these: FREE_OVF and the interleaving. -/
def withHidden (fo : Bool) (ts : List Config.Turn) (n : Nat) (s : State) : State :=
  { s with freeOvf := fo, turns := ts, draws := n }

theorem writeChar_withHidden (fo ts n) (slot ch) (s : State) :
    writeChar slot ch (withHidden fo ts n s) = andThen (writeChar slot ch s) fun t => .next (withHidden fo ts n t) := by
  by_cases h : slot < Config.dispSlots ∧ ch ≠ 0
  · have h1 : slot ≤ 6 := by have := h.1; simp only [Config.dispSlots] at this; omega
    rw [writeChar_ok h1 h.2, writeChar_ok h1 h.2, andThen_next]; rfl
  · simp only [writeChar, if_neg h, andThen_fault]

theorem readReg_withHidden {α : Type} (v : Option α) (reg : Reg) (f g : α → Result) (h : State → State)
    (hfg : ∀ a, f a = andThen (g a) fun t => .next (h t)) :
    readReg v reg f = andThen (readReg v reg g) fun t => .next (h t) := by
  cases v with
  | none => simp
  | some a => simp [hfg]

theorem andThen_assoc (r : Result) (f g : State → Result) :
    andThen (andThen r f) g = andThen r fun s => andThen (f s) g := by
  cases r <;> simp

/-- No line of MAIN's reads or writes FREE_OVF or the interleaving (60_exceptions.md R283). -/
theorem runStmt_withHidden (fo : Bool) (ts : List Config.Turn) (n : Nat) (st : Stmt) (s : State) :
    runStmt st (withHidden fo ts n s) = andThen (runStmt st s) fun t => .next (withHidden fo ts n t) := by
  cases st
  all_goals
    simp only [runStmt, lineClear, linePutWord, linePutChars, lineShowError, lineErrorChars, lineEvent, linePhrase,
      lineScrollStart, lineScrollStep, lineWindow, lineScrollNext, lineNumber, lineDigit, linePutDigit, lineWait, linePoll,
      lineTick, lineSample, lineReadBtn, lineGenBtn, lineGenSample, linePlayStart, linePlayTest, lineLight, linePlayNext,
      lineCapStart, lineCapTest, lineCapPoll, lineHold, lineCompare, lineRestartPoll,
      readButtons_eq, readFree_eq, tickTC_eq, setIndicators_eq, andThen_next, writeChar_withHidden, andThen_assoc]
  all_goals try rfl
  all_goals try (refine readReg_withHidden _ _ _ _ _ fun a => ?_)
  all_goals try (refine readReg_withHidden _ _ _ _ _ fun b => ?_)
  all_goals try (refine readReg_withHidden _ _ _ _ _ fun c => ?_)
  all_goals try simp only [andThen_assoc, andThen_next]
  all_goals try rfl
  all_goals repeat' split
  all_goals try simp only [andThen_assoc, andThen_next]
  all_goals try rfl
  all_goals try simp_all [withHidden]
  all_goals unfold nextDigit; split <;> rfl

theorem settle_withHidden (fo : Bool) (ts : List Config.Turn) (n : Nat) : ∀ (fuel : Nat) (s : State),
    settle fuel (withHidden fo ts n s) = andThen (settle fuel s) fun t => .next (withHidden fo ts n t)
  | 0, s => by simp [settle]
  | fuel + 1, s => by
    cases h : s.todo with
    | nil => rw [settle_nil _ (s := withHidden fo ts n s) h, settle_nil _ h, andThen_next]
    | cons st ls =>
      cases hs : st.silent with
      | false => rw [settle_active _ (s := withHidden fo ts n s) h hs, settle_active _ h hs, andThen_next]
      | true =>
        rw [settle_silent _ (s := withHidden fo ts n s) h hs, settle_silent _ h hs,
          show ({ withHidden fo ts n s with todo := ls } : State) = withHidden fo ts n { s with todo := ls } from rfl,
          runStmt_withHidden, andThen_assoc, andThen_assoc]
        congr 1
        funext t
        rw [andThen_next, settle_withHidden]

/-- Neither does MAIN's turn. -/
theorem mainAct_withHidden (fo : Bool) (ts : List Config.Turn) (n : Nat) (s : State) :
    mainAct (withHidden fo ts n s) = andThen (mainAct s) fun t => .next (withHidden fo ts n t) := by
  cases h : s.todo with
  | nil => simp [mainAct, withHidden, h]
  | cons st ls =>
    have h2 : (withHidden fo ts n s).todo = st :: ls := h
    simp only [mainAct, h, h2]
    rw [show ({ withHidden fo ts n s with todo := ls } : State) = withHidden fo ts n { s with todo := ls } from rfl,
      runStmt_withHidden, andThen_assoc, andThen_assoc]
    congr 1
    funext t
    rw [andThen_next, settle_withHidden]

/-! ### Runs through turns in pieces -/

/-- What `finish` does at the end of a run is done after the run. -/
theorem drive_finish (finish : State → State) : ∀ (ts : List Config.Turn) (s : State), s.todo ≠ [] →
    drive finish ts s = andThen (drive id ts s) fun t => if t.todo = [] then .next (finish t) else .next t
  | [], s, h => by simp [h]
  | t :: ts, s, h => by
    by_cases ht : t = .main
    · subst ht
      rw [drive_main, drive_main]
      cases hm : mainAct s with
      | next u =>
        simp only [andThen_next]
        split
        · rename_i hu
          simp [hu]
        · rename_i hu
          exact drive_finish finish ts u hu
      | fault e => rfl
      | refused e => rfl
    · rw [drive_agent finish ht, drive_agent id ht]
      exact drive_finish finish ts _ (by simpa using h)

/-- A run that ends leaves the turns after it; one that pauses, none. -/
theorem drive_append (us : List Config.Turn) : ∀ (ts : List Config.Turn) (s : State), s.todo ≠ [] → s.turns = [] →
    drive id (ts ++ us) s = andThen (drive id ts s) fun t =>
      if t.todo = [] then .next { t with turns := t.turns ++ us } else drive id us t
  | [], s, h, _ => by simp [h]
  | t :: ts, s, h, hs => by
    by_cases ht : t = .main
    · subst ht
      rw [List.cons_append, drive_main, drive_main]
      cases hm : mainAct s with
      | next u =>
        have hk : u.turns = [] := by rw [(mainAct_keeps s u hm).turns, hs]
        simp only [andThen_next, id]
        split
        · rename_i hu
          simp [hu]
        · rename_i hu
          exact drive_append us ts u hu hk
      | fault e => rfl
      | refused e => rfl
    · rw [List.cons_append, drive_agent id ht, drive_agent id ht]
      exact drive_append us ts _ (by simpa using h) (by simpa using hs)

/-- Where MAIN's lines stand and no turn is prescribed any more, a pause says so. -/
theorem drive_pause_turns : ∀ (ts : List Config.Turn) (s : State), s.turns = [] →
    onNext (drive id ts s) fun t => t.todo ≠ [] → t.turns = []
  | [], s, hs => (onNext_next _ _).2 fun _ => hs
  | t :: ts, s, hs => by
    by_cases ht : t = .main
    · subst ht
      rw [drive_main, onNext_andThen]
      refine onNext_mono (mainAct_keeps s) fun u hu => ?_
      split
      · rename_i hx
        exact (onNext_next _ _).2 fun h => absurd hx h
      · exact drive_pause_turns ts u (hu.turns.trans hs)
    · rw [drive_agent id ht]
      exact drive_pause_turns ts _ (by simpa using hs)

/-! ### Beginning a command -/

/-- A command whose body begins with a line that is not silent stands there. -/
theorem begin_active {st : Stmt} (h : st.silent = false) (ls : List Stmt) (s : State) :
    beginOperation (fun s => .next (push (st :: ls) s)) s = .next (push (st :: ls) s) := by
  simp [beginOperation, settle, settleFuel, push, h]

/-- A command begun, where turns are prescribed. -/
theorem runCommand_start {st : Stmt} (h : st.silent = false) (ls : List Stmt) (finish : State → State) (s : State)
    (hs : s.todo = []) (ht : s.turns ≠ []) :
    runCommand (st :: ls) finish s = drive finish s.turns { s with todo := st :: ls, turns := [] } := by
  simp only [runCommand, runOperation, hs, if_true, begin_active h, andThen_next]
  simp [interleave, push, hs, ht]

/-- A command in progress goes on, where turns are prescribed. -/
theorem runCommand_go (body : List Stmt) (finish : State → State) (s : State) (hs : s.todo ≠ []) (ht : s.turns ≠ []) :
    runCommand body finish s = drive finish s.turns { s with turns := [] } := by
  simp [runCommand, runOperation, interleave, hs, ht]

/-- A command of one action: the other agents' turns up to MAIN's next one, then the action. -/
theorem runCommand_one {st : Stmt} (h : st.silent = false) (finish : State → State) (s : State)
    (e rest : List Config.Turn) (hs : s.todo = []) (he : .main ∉ e) (ht : s.turns = e ++ .main :: rest) :
    runCommand [st] finish s =
      andThen (andThen (runStmt st { agents e s with turns := [] }) (settle settleFuel)) fun s =>
        if s.todo = [] then .next (finish { s with turns := rest }) else drive finish rest s := by
  have h2 : ({ agents e s with turns := [] } : State).todo = [] := by simp [(agents_keeps e s).todo, hs]
  rw [runCommand_start h [] finish s hs (by simp [ht]), ht, drive_agents finish e he, drive_main, agents_todo_turns]
  simp only [mainAct]
  congr 3
  cases hx : agents e s
  simp_all

end Sys2Proof.Laws
end

