-- ==== Sys2Proof/Laws/Decode.lean ====
section
/-! SUPPORT. What the pieces of the decoder and the encoder give: string operands, byte order, the indicator byte, field
legality. -/

namespace Sys2Proof.Laws

/-- A terminated string is read back (30_encoding.md R113). -/
theorem splitText_append : ∀ {t : Text}, (∀ c ∈ t, c ≠ 0) → ∀ rest : List Byte, splitText (t ++ 0 :: rest) = some (t, rest)
  | [], _, rest => by simp [splitText]
  | c :: t, h, rest => by
    simp only [List.mem_cons, forall_eq_or_imp] at h
    simp only [List.cons_append, splitText, splitText_append h.2 rest, if_neg h.1, Option.map_some]

/-- A string operand is the bytes up to the first 0x00. -/
theorem splitText_some : ∀ {bs : List Byte} {t : Text} {rest : List Byte}, splitText bs = some (t, rest) →
    bs = t ++ 0 :: rest ∧ ∀ c ∈ t, c ≠ 0
  | [], _, _, h => by simp [splitText] at h
  | b :: bs, t, rest, h => by
    simp only [splitText] at h
    split at h
    · rename_i hb
      simp at h
      obtain ⟨rfl, rfl⟩ := h
      subst hb; simp
    · rename_i hb
      simp only [Option.map_eq_some_iff] at h
      obtain ⟨⟨t', r'⟩, h1, h2⟩ := h
      simp at h2
      obtain ⟨rfl, rfl⟩ := h2
      obtain ⟨h3, h4⟩ := splitText_some h1
      refine ⟨by rw [h3]; rfl, ?_⟩
      simp only [List.mem_cons, forall_eq_or_imp]
      exact ⟨hb, h4⟩

/-- Without a 0x00 there is no string operand. -/
theorem splitText_none : ∀ {t : Text}, (∀ c ∈ t, c ≠ 0) → splitText t = none
  | [], _ => rfl
  | c :: t, h => by
    simp only [List.mem_cons, forall_eq_or_imp] at h
    simp only [splitText, splitText_none h.2, if_neg h.1, Option.map_none]

theorem legal_iff {t : Text} : Text.legal t = true ↔ t.length ≤ 255 ∧ ∀ c ∈ t, c ≠ 0 := by
  simp [Text.legal, Config.maxStr]

theorem le16_eq (b0 b1 : Byte) : le16 b0 b1 = b1 ++ b0 := by
  refine BitVec.eq_of_getLsbD_eq fun i hi => ?_
  refine Eq.trans ?_ (BitVec.getLsbD_append (x := b1) (y := b0) (i := i)).symm
  simp only [le16]
  interval_cases i <;> simp

theorem le32_eq (b0 b1 b2 b3 : Byte) : le32 b0 b1 b2 b3 = b3 ++ b2 ++ b1 ++ b0 := by
  refine BitVec.eq_of_getLsbD_eq fun i hi => ?_
  refine Eq.trans ?_ (BitVec.getLsbD_append (x := b3 ++ b2 ++ b1) (y := b0) (i := i)).symm
  simp only [le32, BitVec.getLsbD_append]
  interval_cases i <;> simp

theorem le16_bytes (v : Word16) : le16 (v.setWidth 8) ((v >>> 8).setWidth 8) = v := by
  ext i hi
  simp only [le16]
  interval_cases i <;> simp

theorem le32_bytes (v : Word32) :
    le32 (v.setWidth 8) ((v >>> 8).setWidth 8) ((v >>> 16).setWidth 8) ((v >>> 24).setWidth 8) = v := by
  ext i hi
  simp only [le32]
  interval_cases i <;> simp

theorem bytes16_le16 (b0 b1 : Byte) : bytes16 (le16 b0 b1) = [b0, b1] := by
  simp only [bytes16, le16, List.cons.injEq, and_true]
  constructor <;> (ext i hi; interval_cases i <;> simp)

theorem bytes32_le32 (b0 b1 b2 b3 : Byte) : bytes32 (le32 b0 b1 b2 b3) = [b0, b1, b2, b3] := by
  simp only [bytes32, le32, List.cons.injEq, and_true]
  refine ⟨?_, ?_, ?_, ?_⟩ <;> (ext i hi; interval_cases i <;> simp)

/-- An FI operand byte with bits 7:2 zero is the byte of its two bits (30_encoding.md R111). -/
theorem indByte_bits {b : Byte} (h : b >>> 2 = 0) : indByte (b.getLsbD 0) (b.getLsbD 1) = b := by
  have h2 : ∀ j, 2 ≤ j → b.getLsbD j = false := fun j hj => by
    have := congrArg (fun x : Byte => x.getLsbD (j - 2)) h
    simpa [show 2 + (j - 2) = j by omega] using this
  simp only [indByte]
  ext i hi
  interval_cases i <;> simp_all [← BitVec.getLsbD_eq_getElem]

end Sys2Proof.Laws
end

