-- ==== Sys2Proof/Laws/Interleavings.lean ====
section
/-! SUPPORT. What an interleaving can do to an operation that samples no input: a turn of MAIN is either a poll of TICK_FLAG
that finds no tick and changes nothing, or the one action (`beat`) that MAIN's own registers and position determine. So two
runs that end agree (`drive_beats`, `beats_unique`), a run with a tick before every action makes only such actions
(`drive_paced`), and every fair interleaving makes as many as the operation needs (`drive_fair`). -/

namespace Sys2Proof.Laws

open Sys2Proof.Machine
open Sys2Proof.Safety

/-! ### The free interleaving -/

/-- A duty with turns before it falls due. -/
theorem duty_due : ∀ (gap n : Nat) (b : Bool), Config.duty n = (b, gap) → Config.duty (n + gap) = (b, 0)
  | 0, _, _, h => h
  | gap + 1, n, b, h => by
    have h2 : Config.duty (n + 1) = (b, gap) := by simp [Config.duty, h]
    rw [show n + (gap + 1) = n + 1 + gap by omega]
    exact duty_due gap (n + 1) b h2

/-- Each of the two duties falls due after every turn. -/
theorem duty_recurs (n : Nat) (b : Bool) : ∃ m, n ≤ m ∧ Config.duty m = (b, 0) := by
  obtain ⟨b', gap, hd⟩ : ∃ b' gap, Config.duty n = (b', gap) := ⟨_, _, rfl⟩
  have h0 := duty_due gap n b' hd
  by_cases hb : b' = b
  · exact ⟨n + gap, by omega, hb ▸ h0⟩
  · have h1 : Config.duty (n + gap + 1) = (!b', Config.dutyGap (n + gap + 1)) := by simp [Config.duty, h0]
    have hb2 : (!b') = b := by revert hb; cases b' <;> cases b <;> simp
    exact ⟨_, by omega, duty_due _ _ b (hb2 ▸ h1)⟩

/-! ### Lines that sample no input -/

/-- A line that samples an input of the block other than TICK_FLAG, returns that flag, or leads to such a line: what follows
it depends on more than how many ticks came. -/
def samplesInput : Stmt → Bool
  | .readBtn | .tick | .sample | .genBtn | .genSample _ | .capStart _ _ | .capTest _ _ | .capPoll _ _ | .hold _
  | .restartPoll => true
  | .clear _ | .write _ _ | .putWord _ | .putChars _ | .showError _ | .errorChars | .event _ | .wait _ | .poll
  | .phrase _ | .scrollStart _ | .scrollStep _ | .window _ _ | .scrollNext _ | .number _ | .digit | .putDigit _
  | .ind _ _ | .playStart _ _ | .playTest _ _ | .light _ | .playNext _ _ | .compare _ _ => false

/-- None of these lines samples an input. -/
def inputFree (ls : List Stmt) : Prop := ∀ st ∈ ls, samplesInput st = false

@[simp] theorem inputFree_nil : inputFree [] := fun _ h => absurd h List.not_mem_nil
@[simp] theorem inputFree_cons (st : Stmt) (ls : List Stmt) :
    inputFree (st :: ls) ↔ samplesInput st = false ∧ inputFree ls := by simp [inputFree]
@[simp] theorem inputFree_append (a b : List Stmt) : inputFree (a ++ b) ↔ inputFree a ∧ inputFree b := by
  simp [inputFree, or_imp, forall_and]

/-- A line that samples no input adds only such lines. -/
theorem runStmt_inputFree (st : Stmt) (s : State) (hst : samplesInput st = false) (hs : inputFree s.todo) :
    onNext (runStmt st s) fun t => inputFree t.todo := by
  cases st
  all_goals first | (simp [samplesInput] at hst; done) | skip
  all_goals
    simp only [runStmt, lineClear, linePutWord, linePutChars, lineShowError, lineErrorChars, lineEvent, linePhrase,
      lineScrollStart, lineScrollStep, lineWindow, lineScrollNext, lineNumber, lineDigit, linePutDigit, lineWait, linePoll,
      linePlayStart, linePlayTest, lineLight, linePlayNext, lineCompare, nextDigit, tickTC_eq, setIndicators_eq]
  all_goals
    try simp only [onNext_andThen, onNext_next, onNext_readReg, onNext_writeChar]
    intros
    repeat' split
    all_goals try simp only [onNext_andThen, onNext_next, onNext_writeChar]
    all_goals intros
    all_goals first | exact hs | simp [samplesInput, bodyClear, bodyShowWord, playStep, hs]

theorem mainAct_inputFree (s : State) (h : inputFree s.todo) : onNext (mainAct s) fun t => inputFree t.todo :=
  mainAct_onNext (I := fun t => inputFree t.todo)
    (fun st rest u hu hi => by
      rw [hu, inputFree_cons] at hi
      exact runStmt_inputFree st { u with todo := rest } hi.1 hi.2) s h

theorem settle_inputFree (n : Nat) (s : State) (h : inputFree s.todo) : onNext (settle n s) fun t => inputFree t.todo :=
  settle_onNext (I := fun t => inputFree t.todo)
    (fun st rest u hu hi => by
      rw [hu, inputFree_cons] at hi
      exact runStmt_inputFree st { u with todo := rest } hi.1 hi.2) n s h

/-! ### MAIN's part of a state -/

/-- `m` with the parts of the other agents, and the interleaving, taken from `a`. -/
def withAgents (a m : State) : State :=
  { m with
    tickFlag := a.tickFlag, freeOvf := a.freeOvf, freeCnt := a.freeCnt, ptimerCnt := a.ptimerCnt, inReg := a.inReg
    turns := a.turns, draws := a.draws }

/-- MAIN's part of a state: its registers and position, the outputs, the trace, the launch. -/
def view (s : State) : State :=
  { s with tickFlag := false, freeOvf := false, freeCnt := 0, ptimerCnt := 0, inReg := 0, turns := [], draws := 0 }

/-- MAIN's part of the next state. -/
def onView (r : Result) : Result := andThen r fun t => .next (view t)

@[simp] theorem view_todo (s : State) : (view s).todo = s.todo := rfl
@[simp] theorem view_withAgents (a m : State) : view (withAgents a m) = view m := rfl
@[simp] theorem view_view (s : State) : view (view s) = view s := rfl
@[simp] theorem withAgents_view (s : State) : withAgents s (view s) = s := rfl

theorem onView_eq_next {r : Result} {v : State} : onView r = .next v ↔ ∃ t, r = .next t ∧ view t = v := by
  simp [onView, andThen_eq_next]

/-- The other agents change none of MAIN's part. -/
@[simp] theorem view_agentAct (t : Config.Turn) (s : State) : view (agentAct t s) = view s := by
  cases t
  case ftimer => rw [agentAct_ftimer]; rfl
  case isr => simp only [agentAct, takeInterrupt_eq, view]
  all_goals rfl

/-- A line that neither samples an input nor polls reads and writes MAIN's part alone. -/
theorem runStmt_withAgents (a : State) (st : Stmt) (s : State) (h : samplesInput st = false) (hp : st ≠ .poll) :
    runStmt st (withAgents a s) = andThen (runStmt st s) fun t => .next (withAgents a t) := by
  have hw : ∀ slot ch (s : State), writeChar slot ch (withAgents a s) =
      andThen (writeChar slot ch s) fun t => .next (withAgents a t) := by
    intro slot ch s
    by_cases h : slot < Config.dispSlots ∧ ch ≠ 0
    · have h1 : slot ≤ 6 := by have := h.1; simp only [Config.dispSlots] at this; omega
      rw [writeChar_ok h1 h.2, writeChar_ok h1 h.2, andThen_next]; rfl
    · simp only [writeChar, if_neg h, andThen_fault]
  cases st
  all_goals first | (simp [samplesInput] at h; done) | exact absurd rfl hp | skip
  all_goals
    simp only [runStmt, lineClear, linePutWord, linePutChars, lineShowError, lineErrorChars, lineEvent, linePhrase,
      lineScrollStart, lineScrollStep, lineWindow, lineScrollNext, lineNumber, lineDigit, linePutDigit, lineWait,
      linePlayStart, linePlayTest, lineLight, linePlayNext, lineCompare,
      setIndicators_eq, andThen_next, hw, andThen_assoc]
  all_goals try rfl
  all_goals try (refine readReg_withHidden _ _ _ _ _ fun a => ?_)
  all_goals try (refine readReg_withHidden _ _ _ _ _ fun b => ?_)
  all_goals try (refine readReg_withHidden _ _ _ _ _ fun c => ?_)
  all_goals try simp only [andThen_assoc, andThen_next]
  all_goals try rfl
  all_goals repeat' split
  all_goals try simp only [andThen_assoc, andThen_next]
  all_goals try rfl
  all_goals try simp_all [withAgents]
  all_goals unfold nextDigit; split <;> rfl

theorem settle_withAgents (a : State) : ∀ (n : Nat) (s : State), inputFree s.todo →
    settle n (withAgents a s) = andThen (settle n s) fun t => .next (withAgents a t)
  | 0, s, _ => by simp [settle]
  | n + 1, s, hi => by
    cases h : s.todo with
    | nil => rw [settle_nil _ (s := withAgents a s) h, settle_nil _ h, andThen_next]
    | cons st ls =>
      rw [h, inputFree_cons] at hi
      cases hs : st.silent with
      | false => rw [settle_active _ (s := withAgents a s) h hs, settle_active _ h hs, andThen_next]
      | true =>
        have hp : st ≠ .poll := by rintro rfl; simp [Stmt.silent] at hs
        rw [settle_silent _ (s := withAgents a s) h hs, settle_silent _ h hs,
          show ({ withAgents a s with todo := ls } : State) = withAgents a { s with todo := ls } from rfl,
          runStmt_withAgents a st _ hi.1 hp, andThen_assoc, andThen_assoc]
        have hk := runStmt_inputFree st { s with todo := ls } hi.1 hi.2
        cases hr : runStmt st { s with todo := ls } with
        | next t => simp only [andThen_next]; exact settle_withAgents a n t (hk t hr)
        | fault e => rfl
        | refused e => rfl

/-- The silent code of MAIN reads and writes MAIN's part alone. -/
theorem onView_settle (n : Nat) (s : State) (h : inputFree s.todo) : onView (settle n s) = onView (settle n (view s)) := by
  conv_lhs => rw [← withAgents_view s, settle_withAgents s n (view s) h]
  simp only [onView, andThen_assoc, andThen_next, view_withAgents]

theorem settle_congr (n : Nat) {s u : State} (h : view s = view u) (hs : inputFree s.todo) (hu : inputFree u.todo) :
    onView (settle n s) = onView (settle n u) := by
  rw [onView_settle n s hs, onView_settle n u hu, h]

/-! ### A poll of TICK_FLAG (40_timing_service.md R142) -/

theorem poll_none {s : State} (h : s.dcnt = none) : runStmt .poll s = .fault (.readUnset .dcnt) := by
  simp [runStmt, linePoll, h]

theorem poll_zero {s : State} (h : s.dcnt = some 0) : runStmt .poll s = .next s := by
  simp [runStmt, linePoll, h]

theorem poll_idle {s : State} {d : Word16} (h : s.dcnt = some d) (h0 : d ≠ 0) (hf : s.tickFlag = false) :
    runStmt .poll s = .next (push [.poll] s) := by
  simp only [runStmt, linePoll, h, readReg_some, h0, if_false, tickTC_eq, hf]
  cases s
  simp_all [setTickFlag]

theorem poll_tick {s : State} {d : Word16} (h : s.dcnt = some d) (h0 : d ≠ 0) (hf : s.tickFlag = true) :
    runStmt .poll s =
      .next (push (if d - 1 = 0 then [] else [.poll]) { s with tickFlag := false, dcnt := some (d - 1) }) := by
  simp only [runStmt, linePoll, h, readReg_some, h0, if_false, tickTC_eq, hf, if_true]
  rfl

/-! ### Beats -/

/-- The action MAIN's part determines: MAIN's turn with a tick pending. -/
def beat (v : State) : Result := onView (mainAct { v with tickFlag := true })

/-- MAIN's turn is a poll that finds no tick and changes nothing, or a beat. -/
theorem mainAct_beat (s : State) (hi : inputFree s.todo) :
    (s.tickFlag = false ∧ (∃ ls, s.todo = .poll :: ls) ∧ mainAct s = .next s) ∨ onView (mainAct s) = beat (view s) := by
  cases hs : s.todo with
  | nil => right; simp [beat, mainAct, hs, onView, view]
  | cons st ls =>
    rw [hs, inputFree_cons] at hi
    by_cases hp : st = .poll
    · subst hp
      have hm : ∀ u : State, u.todo = .poll :: ls → mainAct u =
          andThen (runStmt .poll { u with todo := ls }) (settle settleFuel) := fun u hu => by simp only [mainAct, hu]
      cases hd : s.dcnt with
      | none =>
        right
        rw [beat, hm s hs, hm { view s with tickFlag := true } hs, poll_none (s := { s with todo := ls }) hd,
          poll_none (s := { view s with tickFlag := true, todo := ls }) hd]
      | some d =>
        by_cases h0 : d = 0
        · right
          subst h0
          rw [beat, hm s hs, hm { view s with tickFlag := true } hs, poll_zero (s := { s with todo := ls }) hd,
            poll_zero (s := { view s with tickFlag := true, todo := ls }) hd, andThen_next, andThen_next]
          exact settle_congr _ rfl hi.2 hi.2
        · cases hf : s.tickFlag with
          | false =>
            left
            refine ⟨rfl, ⟨ls, rfl⟩, ?_⟩
            rw [hm s hs, poll_idle (s := { s with todo := ls }) hd h0 hf, andThen_next,
              settle_active settleFuel (st := .poll) (ls := ls) rfl rfl]
            cases s
            simp_all [push]
          | true =>
            right
            rw [beat, hm s hs, hm { view s with tickFlag := true } hs, poll_tick (s := { s with todo := ls }) hd h0 hf,
              poll_tick (s := { view s with tickFlag := true, todo := ls }) hd h0 rfl, andThen_next, andThen_next]
            have h1 : inputFree ((if d - 1 = 0 then [] else [Stmt.poll]) ++ ls) := by
              split <;> simp [samplesInput, hi.2]
            exact settle_congr _ rfl h1 h1
    · right
      simp only [beat, mainAct, view_todo, hs]
      have hr : ∀ u : State, onView (andThen (runStmt st { u with todo := ls }) (settle settleFuel)) =
          andThen (runStmt st { view u with todo := ls }) fun t => onView (settle settleFuel (view t)) := by
        intro u
        have h := runStmt_withAgents u st { view u with todo := ls } hi.1 hp
        rw [show withAgents u { view u with todo := ls } = { u with todo := ls } from rfl] at h
        rw [h]
        have hk := runStmt_inputFree st { view u with todo := ls } hi.1 hi.2
        cases hx : runStmt st { view u with todo := ls } with
        | next t =>
          simp only [andThen_next]
          rw [onView_settle _ _ (by exact hk t hx), view_withAgents]
        | fault e => rfl
        | refused e => rfl
      rw [hr s]
      exact (hr { view s with tickFlag := true }).symm

/-- `n` beats from one part of MAIN's to another, none of them after the operation's end. -/
inductive Beats : Nat → State → State → Prop where
  | zero (v : State) : Beats 0 v v
  | succ {n : Nat} {v w x : State} : v.todo ≠ [] → beat v = .next w → Beats n w x → Beats (n + 1) v x

/-- Beats that come to the operation's end come to one state, in one number. -/
theorem beats_unique {n m : Nat} {v w x : State} (h : Beats n v w) (h' : Beats m v x) (hw : w.todo = []) (hx : x.todo = []) :
    w = x ∧ n = m := by
  induction h generalizing m with
  | zero v =>
    cases h' with
    | zero => exact ⟨rfl, rfl⟩
    | succ hv => exact absurd hw hv
  | succ hv hb _ ih =>
    cases h' with
    | zero => exact absurd hx hv
    | succ hv' hb' h' =>
      rw [hb] at hb'
      cases hb'
      obtain ⟨h1, h2⟩ := ih h' hw
      exact ⟨h1, congrArg _ h2⟩

/-- Whatever the interleaving, a run makes some number of beats. -/
theorem drive_beats : ∀ (ts : List Config.Turn) (s t : State), inputFree s.todo → s.todo ≠ [] → drive id ts s = .next t →
    ∃ n, Beats n (view s) (view t)
  | [], s, t, _, _, h => by cases h; exact ⟨0, .zero _⟩
  | a :: ts, s, t, hi, hs, h => by
    by_cases ha : a = .main
    · subst ha
      rw [drive_main, andThen_eq_next] at h
      obtain ⟨u, hu, h⟩ := h
      rcases mainAct_beat s hi with ⟨-, -, hm⟩ | hm
      · cases hm.symm.trans hu
        rw [if_neg hs] at h
        exact drive_beats ts s t hi hs h
      · have hb : beat (view s) = .next (view u) := by rw [← hm, hu]; rfl
        split at h
        · cases h
          exact ⟨1, .succ hs hb (.zero _)⟩
        · rename_i hx
          obtain ⟨n, hn⟩ := drive_beats ts u t (mainAct_inputFree s hi u hu) hx h
          exact ⟨n + 1, .succ hs hb hn⟩
    · rw [drive_agent id ha] at h
      have := drive_beats ts (agentAct a s) t (by simpa using hi) (by simpa using hs) h
      simpa using this

/-- With a tick before each, the turns of MAIN are beats. -/
theorem drive_paced {n : Nat} {v w : State} (h : Beats n v w) : ∀ s : State, view s = v → inputFree s.todo →
    ∃ t, drive id (pacedTurns n) s = .next t ∧ view t = w := by
  induction h with
  | zero v => exact fun s hv _ => ⟨s, rfl, hv⟩
  | @succ n v w x hv hb hrest ih =>
    intro s hs hi
    subst hs
    have hi' : inputFree (agentAct .ptimerTick s).todo := by simpa using hi
    rw [pacedTurns, drive_agent id (by decide), drive_main]
    rcases mainAct_beat _ hi' with ⟨hf, -, -⟩ | hm
    · simp [agentAct, setTickFlag] at hf
    · rw [view_agentAct, hb, onView_eq_next] at hm
      obtain ⟨u, hu, rfl⟩ := hm
      rw [hu, andThen_next]
      by_cases hx : u.todo = []
      · rw [if_pos hx]
        cases hrest with
        | zero => exact ⟨_, rfl, rfl⟩
        | succ h _ _ => exact absurd hx h
      · rw [if_neg hx]
        exact ih u rfl (mainAct_inputFree _ hi' u hu)

/-! ### Fair interleavings -/

theorem fair_shift {f : Nat → Config.Turn} (h : Fair f) (k : Nat) : Fair fun n => f (k + n) where
  tick n := by
    obtain ⟨m, hm, he⟩ := h.tick (k + n)
    exact ⟨m - k, by omega, by rw [show k + (m - k) = m by omega]; exact he⟩
  main n := by
    obtain ⟨m, hm, he⟩ := h.main (k + n)
    exact ⟨m - k, by omega, by rw [show k + (m - k) = m by omega]; exact he⟩

theorem firstTurns_succ (f : Nat → Config.Turn) (n : Nat) :
    firstTurns f (n + 1) = f 0 :: firstTurns (fun k => f (1 + k)) n := by
  simp [firstTurns, List.range_succ_eq_map, Function.comp_def, Nat.add_comm]

theorem firstTurns_add (f : Nat → Config.Turn) : ∀ n m : Nat,
    firstTurns f (n + m) = firstTurns f n ++ firstTurns (fun k => f (n + k)) m
  | 0, m => by simp [firstTurns]
  | n + 1, m => by
    rw [show n + 1 + m = (n + m) + 1 by omega, firstTurns_succ, firstTurns_succ, firstTurns_add _ n m]
    simp only [List.cons_append, List.cons.injEq, true_and]
    congr 2
    funext k
    congr 1
    omega

theorem drive_append_go (b : List Config.Turn) : ∀ (a : List Config.Turn) (s t : State), drive id a s = .next t →
    t.todo ≠ [] → drive id (a ++ b) s = drive id b t
  | [], s, t, h, _ => by cases h; rfl
  | x :: a, s, t, h, ht => by
    by_cases hx : x = .main
    · subst hx
      rw [drive_main, andThen_eq_next] at h
      obtain ⟨u, hu, h⟩ := h
      rw [List.cons_append, drive_main, hu, andThen_next]
      split at h
      · rename_i h0
        cases h
        exact absurd h0 ht
      · rename_i h0
        rw [if_neg h0]
        exact drive_append_go b a u t h ht
    · rw [drive_agent id hx] at h
      rw [List.cons_append, drive_agent id hx]
      exact drive_append_go b a _ t h ht

theorem agentAct_tickFlag (t : Config.Turn) (s : State) :
    (agentAct t s).tickFlag = (decide (t = .ptimerTick) || s.tickFlag) := by
  cases t
  case ftimer => rw [agentAct_ftimer]; simp
  case isr => simp [agentAct, takeInterrupt_eq]
  all_goals simp [agentAct, setTickFlag]

/-- A beat comes at MAIN's next turn where a tick is pending. -/
theorem drive_pending_beat {w : State} : ∀ (p : Nat) (f : Nat → Config.Turn) (s : State), f p = .main →
    s.tickFlag = true → beat (view s) = .next w → inputFree s.todo →
    ∃ n t, drive id (firstTurns f (n + 1)) s = .next t ∧ view t = w ∧ inputFree t.todo := by
  intro p
  induction p with
  | zero =>
    intro f s hf ht hb hi
    refine ⟨0, ?_⟩
    rcases mainAct_beat s hi with ⟨h, -, -⟩ | hm
    · rw [ht] at h; cases h
    · rw [hb, onView_eq_next] at hm
      obtain ⟨u, hu, rfl⟩ := hm
      rw [firstTurns_succ, hf, drive_main, hu, andThen_next]
      have hk := mainAct_inputFree s hi u hu
      split
      · exact ⟨_, rfl, rfl, hk⟩
      · exact ⟨u, by simp [firstTurns], rfl, hk⟩
  | succ p ih =>
    intro f s hf ht hb hi
    by_cases h0 : f 0 = .main
    · exact (fun ⟨n, t, h⟩ => ⟨n, t, h⟩ : (∃ n t, _) → _) (by
        rcases mainAct_beat s hi with ⟨h, -, -⟩ | hm
        · rw [ht] at h; cases h
        · rw [hb, onView_eq_next] at hm
          obtain ⟨u, hu, rfl⟩ := hm
          have hk := mainAct_inputFree s hi u hu
          refine ⟨0, ?_⟩
          rw [firstTurns_succ, h0, drive_main, hu, andThen_next]
          split
          · exact ⟨_, rfl, rfl, hk⟩
          · exact ⟨u, by simp [firstTurns], rfl, hk⟩)
    · obtain ⟨n, t, h⟩ := ih (fun k => f (1 + k)) (agentAct (f 0) s) (by rw [Nat.add_comm]; exact hf)
        (by rw [agentAct_tickFlag, ht, Bool.or_true]) (by simpa using hb) (by simpa using hi)
      exact ⟨n + 1, t, by rw [firstTurns_succ, drive_agent id h0]; exact h⟩

/-- In a fair interleaving a beat comes. -/
theorem drive_fair_beat {w : State} : ∀ (q : Nat) (f : Nat → Config.Turn) (s : State), Fair f → f q = .ptimerTick →
    beat (view s) = .next w → inputFree s.todo →
    ∃ n t, drive id (firstTurns f (n + 1)) s = .next t ∧ view t = w ∧ inputFree t.todo := by
  intro q
  induction q with
  | zero =>
    intro f s hf hq hb hi
    obtain ⟨m, -, hm⟩ := (fair_shift hf 1).main 0
    obtain ⟨n, t, h⟩ := drive_pending_beat m (fun k => f (1 + k)) (agentAct (f 0) s) hm
      (by rw [agentAct_tickFlag, hq]; rfl) (by simpa using hb) (by simpa using hi)
    exact ⟨n + 1, t, by rw [firstTurns_succ, drive_agent id (by rw [hq]; decide)]; exact h⟩
  | succ q ih =>
    intro f s hf hq hb hi
    have hq' : f (1 + q) = .ptimerTick := by rw [Nat.add_comm]; exact hq
    by_cases h0 : f 0 = .main
    · rcases mainAct_beat s hi with ⟨-, ⟨ls, hl⟩, hm⟩ | hm
      · obtain ⟨n, t, h⟩ := ih (fun k => f (1 + k)) s (fair_shift hf 1) hq' hb hi
        refine ⟨n + 1, t, ?_⟩
        rw [firstTurns_succ, h0, drive_main, hm, andThen_next, if_neg (by simp [hl])]
        exact h
      · rw [hb, onView_eq_next] at hm
        obtain ⟨u, hu, rfl⟩ := hm
        have hk := mainAct_inputFree s hi u hu
        refine ⟨0, ?_⟩
        rw [firstTurns_succ, h0, drive_main, hu, andThen_next]
        split
        · exact ⟨_, rfl, rfl, hk⟩
        · exact ⟨u, by simp [firstTurns], rfl, hk⟩
    · obtain ⟨n, t, h⟩ := ih (fun k => f (1 + k)) (agentAct (f 0) s) (fair_shift hf 1) hq' (by simpa using hb)
        (by simpa using hi)
      exact ⟨n + 1, t, by rw [firstTurns_succ, drive_agent id h0]; exact h⟩

/-- MAIN stands at a poll, and nothing of its own differs from `s`. -/
structure AtPoll (s u : State) : Prop where
  todo : u.todo = s.todo
  dcnt : u.dcnt = s.dcnt
  trace : u.trace = s.trace

theorem atPoll_agentAct {t : Config.Turn} {s u : State} (h : AtPoll (agentAct t s) u) : AtPoll s u where
  todo := h.todo.trans (agentAct_keeps t s).todo
  dcnt := h.dcnt.trans (agentAct_keeps t s).dcnt
  trace := h.trace.trans (agentAct_keeps t s).trace

/-- With a tick pending, MAIN's next turn polls it. -/
theorem drive_pending_poll : ∀ (p : Nat) (f : Nat → Config.Turn) (s : State), f p = .main → s.tickFlag = true →
    ∃ n u, f n = .main ∧ drive id (firstTurns f n) s = .next u ∧ u.tickFlag = true ∧ AtPoll s u := by
  intro p
  induction p with
  | zero => exact fun f s hf ht => ⟨0, s, hf, rfl, ht, rfl, rfl, rfl⟩
  | succ p ih =>
    intro f s hf ht
    by_cases h0 : f 0 = .main
    · exact ⟨0, s, h0, rfl, ht, rfl, rfl, rfl⟩
    · obtain ⟨n, u, hn, hu, hk, hp⟩ := ih (fun k => f (1 + k)) (agentAct (f 0) s) (by rw [Nat.add_comm]; exact hf)
        (by rw [agentAct_tickFlag, ht, Bool.or_true])
      exact ⟨n + 1, u, by rw [Nat.add_comm]; exact hn, by rw [firstTurns_succ, drive_agent id h0]; exact hu, hk,
        atPoll_agentAct hp⟩

/-- In a fair interleaving MAIN comes to a poll that finds a tick, whatever lines follow the poll. -/
theorem drive_fair_poll {ls : List Stmt} {d : Word16} (h0 : d ≠ 0) : ∀ (q : Nat) (f : Nat → Config.Turn) (s : State),
    Fair f → f q = .ptimerTick → s.todo = .poll :: ls → s.dcnt = some d →
    ∃ n u, f n = .main ∧ drive id (firstTurns f n) s = .next u ∧ u.tickFlag = true ∧ AtPoll s u := by
  intro q
  induction q with
  | zero =>
    intro f s hf hq hs hd
    obtain ⟨m, -, hm⟩ := (fair_shift hf 1).main 0
    obtain ⟨n, u, hn, hu, hk, hp⟩ := drive_pending_poll m (fun k => f (1 + k)) (agentAct (f 0) s) hm
      (by rw [agentAct_tickFlag, hq]; rfl)
    exact ⟨n + 1, u, by rw [Nat.add_comm]; exact hn,
      by rw [firstTurns_succ, drive_agent id (by rw [hq]; decide)]; exact hu, hk, atPoll_agentAct hp⟩
  | succ q ih =>
    intro f s hf hq hs hd
    have hq' : f (1 + q) = .ptimerTick := by rw [Nat.add_comm]; exact hq
    by_cases hm : f 0 = .main
    · cases ht : s.tickFlag with
      | true => exact ⟨0, s, hm, rfl, ht, rfl, rfl, rfl⟩
      | false =>
        obtain ⟨n, u, hn, hu, hk, hp⟩ := ih (fun k => f (1 + k)) s (fair_shift hf 1) hq' hs hd
        refine ⟨n + 1, u, by rw [Nat.add_comm]; exact hn, ?_, hk, hp⟩
        have hx : mainAct s = .next s := by
          simp only [mainAct, hs]
          rw [poll_idle (s := { s with todo := ls }) hd h0 ht, andThen_next,
            settle_active settleFuel (st := .poll) (ls := ls) rfl rfl]
          cases s
          simp_all [push]
        rw [firstTurns_succ, hm, drive_main, hx, andThen_next, if_neg (by simp [hs])]
        exact hu
    · obtain ⟨n, u, hn, hu, hk, hp⟩ := ih (fun k => f (1 + k)) (agentAct (f 0) s) (fair_shift hf 1) hq'
        (by rw [(agentAct_keeps _ s).todo, hs]) (by rw [(agentAct_keeps _ s).dcnt, hd])
      exact ⟨n + 1, u, by rw [Nat.add_comm]; exact hn, by rw [firstTurns_succ, drive_agent id hm]; exact hu, hk,
        atPoll_agentAct hp⟩

/-- In a fair interleaving as many beats come as the operation has. -/
theorem drive_fair {n : Nat} {v w : State} (h : Beats n v w) : ∀ (f : Nat → Config.Turn) (s : State), Fair f →
    view s = v → inputFree s.todo → ∃ m t, n ≤ m ∧ drive id (firstTurns f m) s = .next t ∧ view t = w := by
  induction h with
  | zero v => exact fun f s _ hs _ => ⟨0, s, Nat.le_refl _, rfl, hs⟩
  | @succ n v w x hv hb hrest ih =>
    intro f s hf hs hi
    subst hs
    obtain ⟨q, -, hq⟩ := hf.tick 0
    obtain ⟨m, t, hm, rfl, ht⟩ := drive_fair_beat q f s hf hq hb hi
    by_cases hx : t.todo = []
    · cases hrest with
      | zero => exact ⟨m + 1, t, by omega, hm, rfl⟩
      | succ h _ _ => exact absurd hx h
    · obtain ⟨k, u, hk, hu, hw⟩ := ih (fun j => f (m + 1 + j)) t (fair_shift hf (m + 1)) rfl ht
      exact ⟨m + 1 + k, u, by omega, by rw [firstTurns_add, drive_append_go _ _ _ _ hm hx]; exact hu, hw⟩

/-! ### Operations -/

/-- An operation that samples no input: its start and its end read and write MAIN's part alone, and its lines sample no
input. -/
structure Steady (start : State → Result) (finish : State → State) : Prop where
  begins : ∀ s, onView (start s) = onView (start (view s))
  turns : ∀ s ts, start { s with turns := ts } = andThen (start s) fun t => .next { t with turns := ts }
  free : ∀ s t, s.todo = [] → start s = .next t → inputFree t.todo
  finishes : ∀ s, view (finish s) = view (finish (view s))
  ends : ∀ s, (finish s).todo = s.todo

theorem finish_congr {start : State → Result} {finish : State → State} (h : Steady start finish) {s u : State}
    (hv : view s = view u) : view (finish s) = view (finish u) := by
  rw [h.finishes s, h.finishes u, hv]

theorem begin_free {start : State → Result} {finish : State → State} (h : Steady start finish) {s u : State}
    (hs : s.todo = []) (hu : beginOperation start s = .next u) : inputFree u.todo := by
  rw [beginOperation, andThen_eq_next] at hu
  obtain ⟨x, hx, hu⟩ := hu
  exact settle_inputFree _ x (h.free s x hs hx) u hu

theorem begin_congr {start : State → Result} {finish : State → State} (h : Steady start finish) {s u : State}
    (hv : view s = view u) (hs : s.todo = []) :
    onView (beginOperation start s) = onView (beginOperation start u) := by
  have hu : u.todo = [] := by rw [← view_todo, ← hv, view_todo, hs]
  have h1 : onView (start s) = onView (start u) := by rw [h.begins s, h.begins u, hv]
  simp only [beginOperation]
  have hf := h.free s
  have hf' := h.free u
  revert h1 hf hf'
  cases start s <;> cases start u <;> simp [onView, andThen]
  intro h1 hf hf'
  exact settle_congr _ h1 (hf hs) (hf' hu)

theorem begin_turns {start : State → Result} {finish : State → State} (h : Steady start finish) (s : State)
    (ts : List Config.Turn) : beginOperation start { s with turns := ts } =
      andThen (beginOperation start s) fun t => .next { t with turns := ts } := by
  rw [beginOperation, h.turns, beginOperation, andThen_assoc, andThen_assoc]
  congr 1
  funext t
  rw [andThen_next, show ({ t with turns := ts } : State) = withHidden t.freeOvf ts t.draws t from rfl,
    settle_withHidden]
  cases hx : settle settleFuel t with
  | next u =>
    have hk := settle_keeps _ t u hx
    simp only [andThen_next, withHidden]
    rw [← hk.freeOvf, ← hk.draws]
  | fault e => rfl
  | refused e => rfl

/-- What a run of such an operation that ends does, by beats. -/
theorem runOperation_beats {start : State → Result} {finish : State → State} (h : Steady start finish) {s t : State}
    (hs : s.todo = []) (hr : runOperation start finish s = .next t) (ht : t.todo = []) :
    ∃ u n w, beginOperation start s = .next u ∧ Beats n (view u) (view w) ∧ w.todo = [] ∧ view t = view (finish w) := by
  rw [runOperation, if_pos hs, andThen_eq_next] at hr
  obtain ⟨u, hu, hr⟩ := hr
  have hi := begin_free h hs hu
  by_cases h0 : u.todo = []
  · rw [if_pos h0] at hr
    cases hr
    exact ⟨u, 0, u, hu, .zero _, h0, rfl⟩
  · rw [if_neg h0, interleave] at hr
    have hgo : ∀ (ts : List Config.Turn) (x : State), view x = view u → inputFree x.todo → x.todo ≠ [] →
        drive finish ts x = .next t → ∃ n w, Beats n (view u) (view w) ∧ w.todo = [] ∧ view t = view (finish w) := by
      intro ts x hx hxi hx0 hd
      rw [drive_finish finish ts x hx0, andThen_eq_next] at hd
      obtain ⟨y, hy, hd⟩ := hd
      obtain ⟨n, hn⟩ := drive_beats ts x y hxi hx0 hy
      split at hd
      · rename_i hy0
        cases hd
        exact ⟨n, y, hx ▸ hn, hy0, rfl⟩
      · rename_i hy0
        cases hd
        exact absurd ht hy0
    split at hr
    · obtain ⟨n, w, hw⟩ := hgo _ _ (by rfl) (by exact hi) (by exact h0) hr
      exact ⟨u, n, w, hu, hw⟩
    · obtain ⟨n, w, hw⟩ := hgo _ _ (by rfl) (by exact hi) (by exact h0) hr
      exact ⟨u, n, w, hu, hw⟩

/-- Two runs that end agree in MAIN's part, whatever the interleaving of each is. -/
theorem runOperation_agree {start : State → Result} {finish : State → State} (h : Steady start finish) {s s' t t' : State}
    (hv : view s = view s') (hs : s.todo = []) (hr : runOperation start finish s = .next t)
    (hr' : runOperation start finish s' = .next t') (ht : t.todo = []) (ht' : t'.todo = []) : view t = view t' := by
  have hs' : s'.todo = [] := by rw [← view_todo, ← hv, view_todo, hs]
  obtain ⟨u, n, w, hu, hb, hw, he⟩ := runOperation_beats h hs hr ht
  obtain ⟨u', n', w', hu', hb', hw', he'⟩ := runOperation_beats h hs' hr' ht'
  have hc := begin_congr h hv hs
  rw [hu, hu'] at hc
  have hc : view u = view u' := by simpa [onView] using hc
  rw [hc] at hb
  rw [he, he', finish_congr h (beats_unique hb hb' hw hw').1]

/-- An operation that ends in one interleaving ends in every fair one, in the same part of MAIN's. -/
theorem runOperation_fair {start : State → Result} {finish : State → State} (h : Steady start finish) {s t : State}
    (hs : s.todo = []) (hr : runOperation start finish s = .next t) (ht : t.todo = []) {f : Nat → Config.Turn}
    (hf : Fair f) {s' : State} (hv : view s = view s') :
    ∃ n t', runOperation start finish { s' with turns := firstTurns f n } = .next t' ∧ t'.todo = [] ∧ view t' = view t := by
  obtain ⟨u, n, w, hu, hb, hw, he⟩ := runOperation_beats h hs hr ht
  have hs' : s'.todo = [] := by rw [← view_todo, ← hv, view_todo, hs]
  have hc := begin_congr h (s := s) (u := s') hv hs
  rw [hu] at hc
  obtain ⟨x, hx, hxv⟩ := onView_eq_next.1 hc.symm
  have hrun : ∀ ts, runOperation start finish { s' with turns := ts } =
      if x.todo = [] then .next (finish { x with turns := ts }) else interleave finish { x with turns := ts } := fun ts => by
    rw [runOperation, if_pos (by exact hs'), begin_turns h, hx, andThen_next, andThen_next]
  by_cases h0 : x.todo = []
  · refine ⟨0, finish { x with turns := firstTurns f 0 }, by rw [hrun, if_pos h0], (h.ends _).trans h0, ?_⟩
    have : Beats 0 (view u) (view x) := hxv ▸ .zero _
    rw [he, finish_congr h (s := { x with turns := firstTurns f 0 }) (u := x) rfl]
    apply finish_congr h
    exact (beats_unique hb this hw h0).1.symm
  · rw [← hxv] at hb
    obtain ⟨m, y, hm, hy, hyw⟩ := drive_fair hb f { x with turns := [] } hf rfl
      (show inputFree x.todo from begin_free h hs' hx)
    have hm0 : firstTurns f m ≠ [] := by
      rintro hm0
      rw [hm0] at hy
      cases hy
      exact h0 (by rw [← view_todo x]; exact (congrArg State.todo hyw).trans hw)
    have hy0 : y.todo = [] := by rw [← view_todo, hyw, view_todo, hw]
    refine ⟨m, finish y, ?_, (h.ends y).trans hy0, ?_⟩
    · rw [hrun, if_neg h0, interleave, if_neg (by exact hm0)]
      rw [drive_finish finish _ _ (by exact h0)]
      simp only [hy, andThen_next, if_pos hy0]
    · rw [he, finish_congr h hyw]

/-- A command whose lines sample no input. -/
theorem steady_command {body : List Stmt} (h : inputFree body) : Steady (fun s => .next (push body s)) endCommand where
  begins s := rfl
  turns s ts := rfl
  free s t hs ht := by cases ht; simp [hs, h]
  finishes s := rfl
  ends s := rfl

theorem inputFree_showWord (t : Text) : inputFree (bodyShowWord t) := by simp [bodyShowWord, bodyClear, samplesInput]
theorem inputFree_scroll (t : Text) : inputFree (bodyScroll t) := by simp [bodyScroll, bodyClear, samplesInput]
theorem inputFree_showPhrase (t : Text) : inputFree (bodyShowPhrase t) := by simp [bodyShowPhrase, bodyClear, samplesInput]
theorem inputFree_showNumber (n : Word32) : inputFree (bodyShowNumber n) := by
  simp [bodyShowNumber, bodyClear, samplesInput]
theorem inputFree_playRound (seq : Word16) (r : Byte) : inputFree (bodyPlayRound seq r) := by
  simp [bodyPlayRound, samplesInput]

/-- A label of the control program but those that wait for the player. -/
theorem steady_label (l : Label) (h : l ∉ ([.a2, .rl7, .g2] : List Label)) : Steady (labelBegin l) (labelEnd l) where
  begins s := by
    cases l
    case rl6 | rl7 =>
      by_cases hr : (s.round.setWidth 8).toNat ≤ 15 <;> cases hq : s.seq <;>
        simp only [labelBegin, view, hq, readReg_some, readReg_none, requireRound, hr, if_true, if_false] <;>
        first | rfl | simp only [onView, andThen_next, push, view, hq]
    case a1 =>
      by_cases hp : Text.legal s.launch.params.promptText = true <;>
        simp only [labelBegin, view, requireText, hp, if_true] <;> rfl
    all_goals rfl
  turns s ts := by
    cases l
    case rl6 | rl7 =>
      by_cases hr : (s.round.setWidth 8).toNat ≤ 15 <;> cases hq : s.seq <;>
        simp only [labelBegin, hq, readReg_some, readReg_none, requireRound, hr, if_true, if_false] <;>
        first | rfl | simp only [andThen_next, push, hq]
    case a1 =>
      by_cases hp : Text.legal s.launch.params.promptText = true <;>
        simp only [labelBegin, requireText, hp, if_true] <;> rfl
    all_goals rfl
  free s t hs ht := by
    cases l
    case a2 | rl7 | g2 => simp at h
    case rl6 =>
      simp only [labelBegin, readReg_eq_next, requireRound] at ht
      obtain ⟨q, -, ht⟩ := ht
      split at ht
      · cases ht; simp [hs, inputFree_playRound]
      · cases ht
    case a1 =>
      simp only [labelBegin, requireText] at ht
      split at ht
      · cases ht; simp [hs, inputFree_scroll]
      · cases ht
    case g1 =>
      cases ht
      simp only [push_todo, hs, List.append_nil]
      split <;> simp [inputFree_scroll, inputFree_showNumber]
    all_goals cases ht; simp [hs, samplesInput, inputFree_showWord, inputFree_showNumber]
  finishes s := by cases l <;> rfl
  ends s := by cases l <;> rfl

end Sys2Proof.Laws
end

