-- ==== Sys2Proof/Laws/PerInstr.lean ====
section
/-! SUPPORT. What holds of every command as syntax, one lemma per constructor: its opcode is in the map, and its encoding has
the length its format gives (spec/30_encoding.md R111, R114, R115). -/

namespace Sys2Proof.Laws.EncodingLength

/-- The characters of a command's string operand. -/
def textLength : Instr → Nat
  | .writeChar _ _ => 0
  | .setInd _ _ => 0
  | .readBtn => 0
  | .tick => 0
  | .wait _ => 0
  | .sampleEntropy => 0
  | .clear => 0
  | .showWord t => t.length
  | .showPhrase t => t.length
  | .scroll t => t.length
  | .showNumber _ => 0
  | .generate => 0
  | .playRound _ _ => 0
  | .capture _ _ => 0

/-- The length of a command in a format (R115). -/
def formatLength : Format → Nat → Nat
  | .f0, _ => 1
  | .fw, _ => 3
  | .fn, _ => 5
  | .fr, _ => 4
  | .fc, _ => 3
  | .fi, _ => 2
  | .fs, n => n + 2

/-- The opcode is in the map, the encoding has its format's length, and a well-formed command is no longer than the longest
one. -/
def Statement (i : Instr) : Prop :=
  (∃ f, formatOf (opcodeOf i) = some f ∧ (encode i).length = formatLength f (textLength i)) ∧
    (i.wf = true → (encode i).length ≤ longestCommand)

theorem text_bound {t : Text} {o : Option Field} (h : o.isNone = true)
    (ho : o = if Text.legal t then none else some .text) : t.length ≤ 255 := by
  subst ho
  split at h
  · rename_i hl
    exact (legal_iff.1 hl).1
  · simp at h

theorem writeChar (slot ch : Byte) : Statement (.writeChar slot ch) := ⟨⟨.fc, rfl, rfl⟩,
  fun _ => by simp [encode, operandBytes, longestCommand, Config.maxStr]⟩
theorem setInd (a b : Bool) : Statement (.setInd a b) := ⟨⟨.fi, rfl, rfl⟩,
  fun _ => by simp [encode, operandBytes, longestCommand, Config.maxStr]⟩
theorem readBtn : Statement .readBtn := ⟨⟨.f0, rfl, rfl⟩,
  fun _ => by simp [encode, operandBytes, longestCommand, Config.maxStr]⟩
theorem tick : Statement .tick := ⟨⟨.f0, rfl, rfl⟩,
  fun _ => by simp [encode, operandBytes, longestCommand, Config.maxStr]⟩
theorem wait (units : Word16) : Statement (.wait units) := ⟨⟨.fw, rfl, rfl⟩,
  fun _ => by simp [encode, operandBytes, bytes16, longestCommand, Config.maxStr]⟩
theorem sampleEntropy : Statement .sampleEntropy := ⟨⟨.f0, rfl, rfl⟩,
  fun _ => by simp [encode, operandBytes, longestCommand, Config.maxStr]⟩
theorem clear : Statement .clear := ⟨⟨.f0, rfl, rfl⟩,
  fun _ => by simp [encode, operandBytes, longestCommand, Config.maxStr]⟩

theorem showWord (t : Text) : Statement (.showWord t) := by
  refine ⟨⟨.fs, rfl, by simp [encode, operandBytes, formatLength, textLength]⟩, fun h => ?_⟩
  have := text_bound h rfl
  simp [encode, operandBytes, longestCommand, Config.maxStr]; omega

theorem showPhrase (t : Text) : Statement (.showPhrase t) := by
  refine ⟨⟨.fs, rfl, by simp [encode, operandBytes, formatLength, textLength]⟩, fun h => ?_⟩
  have := text_bound h rfl
  simp [encode, operandBytes, longestCommand, Config.maxStr]; omega

theorem scroll (t : Text) : Statement (.scroll t) := by
  refine ⟨⟨.fs, rfl, by simp [encode, operandBytes, formatLength, textLength]⟩, fun h => ?_⟩
  have := text_bound h rfl
  simp [encode, operandBytes, longestCommand, Config.maxStr]; omega

theorem showNumber (n : Word32) : Statement (.showNumber n) := ⟨⟨.fn, rfl, rfl⟩,
  fun _ => by simp [encode, operandBytes, bytes32, longestCommand, Config.maxStr]⟩
theorem generate : Statement .generate := ⟨⟨.f0, rfl, rfl⟩,
  fun _ => by simp [encode, operandBytes, longestCommand, Config.maxStr]⟩
theorem playRound (seq : Word16) (round : Byte) : Statement (.playRound seq round) := ⟨⟨.fr, rfl, rfl⟩,
  fun _ => by simp [encode, operandBytes, bytes16, longestCommand, Config.maxStr]⟩
theorem capture (seq : Word16) (round : Byte) : Statement (.capture seq round) := ⟨⟨.fr, rfl, rfl⟩,
  fun _ => by simp [encode, operandBytes, bytes16, longestCommand, Config.maxStr]⟩

end Sys2Proof.Laws.EncodingLength
end

