-- ==== Sys2Proof/Tests/Slice0.lean ====
section
/-! SUPPORT. Tests. Expected results are those of spec/95_test_vectors.md (named in each comment) or of the rule named. The
second half shows, for each obligation with hypotheses, a state and operands that meet them. -/

namespace Sys2Proof.Tests

open Sys2Proof Sys2Proof.Machine Sys2Proof.Safety

/-! ### Helpers -/

/-- Parameters with short waits and the one-character prompt "A". -/
def shortParams : Config.Params where
  wPhrase := 1
  wScroll := 1
  wPlay := 1
  wDebounce := 1
  wRound := 1
  tickCompare := 3
  promptText := [0x41]
  startButton := .a

/-- A launch with these parameters. -/
def launchOf (mode : Config.Mode) (commands : List Byte) : Config.Launch where
  mode := mode
  commands := commands
  params := shortParams

/-- Just after reset of a DIRECT launch, with draws chosen: the buttons released, the indicators off, every slot holding a
code no test writes. -/
def base : State :=
  { State.resetOf (launchOf .direct []) with
    tickFlag := false, freeOvf := false, freeCnt := 0x1A2B, ptimerCnt := 0, inReg := 0xFF, outReg := 0x00,
    disp := Vector.replicate 7 0x3F }

/-- The same in GAME mode, at a label. -/
def atLabel (l : Label) : State := { base with launch := launchOf .game [], cpc := l }

/-- The input levels with only this button pressed (active-low, 10_state.md R42). -/
def onlyPressed : Config.Button → Byte
  | .a => 0xFE
  | .b => 0xFD

/-- A press released before the first re-poll, taken at the first poll. -/
def tap (x : Config.Button) : Press := ⟨x, [], onlyPressed x, [], 0xFF⟩

/-- A press that follows two polls that find nothing and is held for two re-polls, the other button pressed too at the
second of them and at the release. -/
def hold (x : Config.Button) : Press :=
  ⟨x, [0xFF, 0x03], onlyPressed x, [onlyPressed x, 0xFC], match x with | .a => 0xFD | .b => 0xFE⟩

def withTurns (ts : List Config.Turn) (s : State) : State := { s with turns := ts }

/-- `r` answers a next state with `p`. -/
def ran (r : Result) (p : State → Bool) : Bool :=
  match r with
  | .next t => p t
  | .fault _ => false
  | .refused _ => false

/-- The refusal `r` answers, if it does. -/
def refusal (r : Result) : Option Refusal :=
  match r with
  | .next _ => none
  | .fault _ => none
  | .refused e => some e

theorem of_ran {r : Result} {p : State → Bool} (h : ran r p = true) : ∃ t, r = .next t ∧ p t = true := by
  cases r with
  | next t => exact ⟨t, rfl, h⟩
  | fault e => simp [ran] at h
  | refused e => simp [ran] at h

/-- The trace and the display a command leaves, run with a tick before every action of MAIN. -/
def shows (i : Instr) (n : Nat) (es : List Event) (display : List Char) : Bool :=
  ran (exec i (withTurns (pacedTurns n) base)) fun t =>
    t.todo = [] ∧ t.trace = es ∧ t.disp.toList = codes display

/-! ### Well-formedness: one ill-formed term for each check (30_encoding.md R116) -/

theorem test_wf_slot : (Instr.writeChar 7 0x41).badField = some .slot := by decide
theorem test_wf_ch : (Instr.writeChar 6 0).badField = some .ch := by decide
theorem test_wf_playRound : (Instr.playRound 0x0005 16).badField = some .round := by decide
theorem test_wf_capture : (Instr.capture 0x0005 16).badField = some .round := by decide
theorem test_wf_text_nul : (Instr.showWord [0x41, 0]).badField = some .text := by decide
theorem test_wf_text_long : (Instr.scroll (List.replicate 256 0x41)).badField = some .text := by decide +kernel
theorem test_wf_phrase_long : (Instr.showPhrase (List.replicate 256 0x41)).badField = some .text := by decide +kernel
theorem test_wf_good : (Instr.writeChar 6 0xFF).wf = true ∧ (Instr.capture 0xFFFF 15).wf = true := by decide

/-! ### Decoding: one word for every constructor, from R111, R114 and the vectors -/

theorem test_decode_writeChar : decodeOne 0 [0x01, 0x06, 0x30] = .ok (.writeChar 6 0x30, []) := by decide       -- W1
theorem test_decode_setInd : decodeOne 0 [0x02, 0x02] = .ok (.setInd false true, []) := by decide                 -- W4
theorem test_decode_readBtn : decodeOne 0 [0x03] = .ok (.readBtn, []) := by decide                                -- W5
theorem test_decode_tick : decodeOne 0 [0x10] = .ok (.tick, []) := by decide                                      -- T1
theorem test_decode_wait : decodeOne 0 [0x11, 0x2C, 0x01] = .ok (.wait 300, []) := by decide                      -- R122
theorem test_decode_sampleEntropy : decodeOne 0 [0x12] = .ok (.sampleEntropy, []) := by decide                    -- T10
theorem test_decode_clear : decodeOne 0 [0x20] = .ok (.clear, []) := by decide                                    -- D1
theorem test_decode_showWord :                                                                                    -- L1-7
    decodeOne 0 [0x21, 0x48, 0x45, 0x4C, 0x4C, 0x4F, 0x00] = .ok (.showWord (codes ['H', 'E', 'L', 'L', 'O']), []) := by
  decide
theorem test_decode_showPhrase : decodeOne 0 [0x22, 0x20, 0x20, 0x20, 0x00] = .ok (.showPhrase [0x20, 0x20, 0x20], []) := by
  decide                                                                                                          -- D9
theorem test_decode_scroll : decodeOne 0 [0x23, 0x48, 0x49, 0x00] = .ok (.scroll (codes ['H', 'I']), []) := by decide  -- D13
theorem test_decode_showNumber : decodeOne 0 [0x24, 0xE2, 0xD4, 0x01, 0x00] = .ok (.showNumber 120034, []) := by  -- N8
  decide
theorem test_decode_generate : decodeOne 0 [0x30] = .ok (.generate, []) := by decide                              -- R114
theorem test_decode_playRound : decodeOne 0 [0x40, 0x00, 0x80, 0x0F] = .ok (.playRound 0x8000 15, []) := by decide  -- P4
theorem test_decode_capture : decodeOne 0 [0x50, 0x02, 0x00, 0x00] = .ok (.capture 0x0002 0, []) := by decide      -- C4

/-! ### Decoder verdicts (E1 to E16) -/

theorem test_E1_to_E4 : decodeProgram [0x00] = .error (.illegalOpcode 0) ∧ decodeProgram [0xF0] = .error (.illegalOpcode 0) ∧
    decodeProgram [0xFF] = .error (.illegalOpcode 0) ∧ decodeProgram [0x13] = .error (.illegalOpcode 0) := by decide
theorem test_E5 : decodeProgram [0x20, 0x00] = .error (.illegalOpcode 1) := by decide
theorem test_E6_to_E8 : decodeProgram [0x11, 0x03] = .error (.truncated 0) ∧
    decodeProgram [0x24, 0x2A, 0x00] = .error (.truncated 0) ∧ decodeProgram [0x21, 0x41, 0x42] = .error (.truncated 0) := by
  decide
theorem test_E9 : decodeProgram (0x21 :: (List.replicate 256 0x41 ++ [0x00])) = .error (.stringTooLong 0) := by
  decide +kernel
theorem test_E10 : decodeProgram (0x21 :: (List.replicate 255 0x41 ++ [0x00])) = .ok [.showWord (List.replicate 255 0x41)] := by
  decide +kernel
theorem test_E11_to_E14 : decodeProgram [0x40, 0x05, 0x00, 0x10] = .error (.badField 0 .round) ∧
    decodeProgram [0x01, 0x07, 0x41] = .error (.badField 0 .slot) ∧
    decodeProgram [0x01, 0x06, 0x00] = .error (.badField 0 .ch) ∧
    decodeProgram [0x02, 0x04] = .error (.badField 0 .reserved) := by decide
theorem test_E15 : decodeProgram [0x20, 0x11, 0x03, 0x00, 0x40, 0x05, 0x00, 0x10] = .error (.badField 4 .round) := by decide
theorem test_E16 : decodeProgram [] = .ok [] := by decide

/-! ### The assembler (30_encoding.md R120, R121) -/

theorem test_assemble_word :
    assembleLine shortParams ['s', 'h', 'o', 'w', '_', 'w', 'o', 'r', 'd', ' ', '"', 'H', 'I', '"', ' ', ';', 'x'] =
      some (.showWord [0x48, 0x49]) := by decide
theorem test_assemble_round :
    assembleLine shortParams ['P', 'L', 'A', 'Y', '_', 'R', 'O', 'U', 'N', 'D', ' ', '0', 'x', '1', 'F', ',', ' ', '2'] =
      some (.playRound 0x1F 2) := by decide
theorem test_assemble_char :
    assembleLine shortParams ['W', 'R', 'I', 'T', 'E', '_', 'C', 'H', 'A', 'R', ' ', '6', ',', '\'', '0', '\''] =
      some (.writeChar 6 0x30) := by decide

theorem test_assemble_no_char_number :
    assembleLine shortParams ['W', 'A', 'I', 'T', ' ', '\'', 'A', '\''] = none := by decide

/-! ### The commands -/

-- W2, W3, W8
theorem test_writeChar : ran (exec (.writeChar 0 0x58) (withTurns [.main] base)) (fun t =>
    t.disp[0] = 0x58 ∧ t.disp[1] = 0x3F ∧ slotShown t 0 = some 0x58 ∧ slotShown t 1 = none ∧ outShown t = none ∧
    t.trace = [.write 0 0x58]) = true := by decide +kernel
theorem test_setInd : ran (exec (.setInd true true) (withTurns [.main] base)) (fun t =>
    t.outReg = 0x03 ∧ outShown t = some 0x03 ∧ t.trace = [.ind true true]) = true := by decide +kernel
theorem test_readBtn : ran (exec .readBtn (withTurns [.player 0xFD, .main] base)) (fun t =>
    t.trace = [.resp 2]) = true := by decide +kernel
theorem test_readBtn_ignores_bits : ran (exec .readBtn (withTurns [.player 0x00, .main] base)) (fun t =>
    t.trace = [.resp 3]) = true := by decide +kernel

-- T1, T4, T6, T7, T8, T10, T12
theorem test_tick_pending : ran (exec .tick (withTurns [.main] { base with tickFlag := true })) (fun t =>
    t.trace = [.resp 1] ∧ t.tickFlag = false) = true := by decide +kernel
theorem test_tick_between : ran (exec .tick (withTurns [.ptimerTick, .main] base)) (fun t => t.trace = [.resp 1]) = true := by
  decide +kernel
theorem test_wait_stale_tick : ran (exec (.wait 1) (withTurns [.main] { base with tickFlag := true })) (fun t =>
    t.todo = [] ∧ t.dcnt = some 0 ∧ t.tickFlag = false) = true := by decide +kernel
theorem test_wait_T7 : ran (exec (.wait 3)
    (withTurns [.main, .ptimerTick, .main, .main, .main, .ptimerTick, .main, .ptimerTick, .main, .ftimer] base)) (fun t =>
      t.todo = [] ∧ t.dcnt = some 0 ∧ t.turns = [.ftimer]) = true := by decide +kernel
theorem test_wait_merged_ticks : ran (exec (.wait 2) (withTurns [.ptimerTick, .ptimerTick, .main, .main] base)) (fun t =>
    t.todo = [.poll] ∧ t.dcnt = some 1) = true := by decide +kernel
theorem test_sampleEntropy : ran (exec .sampleEntropy (withTurns [.main] base)) (fun t =>
    t.trace = [.resp 0x1A2B]) = true := by decide +kernel
theorem test_ftimer_wrap : (agentAct .ftimer { base with freeCnt := 0xFFFF }).freeCnt = 0 ∧
    (agentAct .ftimer { base with freeCnt := 0xFFFF }).freeOvf = true ∧
    (agentAct .isr (agentAct .ftimer { base with freeCnt := 0xFFFF })).freeOvf = false := by decide +kernel

-- D1, D5, D6, D7, D9, D11, D13
theorem test_clear : shows .clear 7 clrTrace [' ', ' ', ' ', ' ', ' ', ' ', ' '] = true := by decide +kernel
theorem test_showWord_D5 : shows (.showWord (codes ['A', 'B', 'C', 'D', 'E', 'F', 'G'])) 12
    (clrTrace ++ [.write 1 0x45, .write 2 0x52, .write 3 0x52, .write 4 0x4F, .write 5 0x52, .error 1])
    [' ', 'E', 'R', 'R', 'O', 'R', ' '] = true := by decide +kernel
theorem test_showWord_D6 : shows (.showWord [0x41, 0x20, 0x42]) 10
    (clrTrace ++ [.write 1 0x41, .write 2 0x20, .write 3 0x42]) [' ', 'A', ' ', 'B', ' ', ' ', ' '] = true := by
  decide +kernel
theorem test_showPhrase_D9 : shows (.showPhrase [0x20, 0x20, 0x20]) 7 clrTrace [' ', ' ', ' ', ' ', ' ', ' ', ' '] = true := by
  decide +kernel
theorem test_showPhrase_D11 :
    shows (.showPhrase (codes [' ', ' ', 'A', 'B', ' ', ' ', ' ', 'C', 'D', ' '])) 27
      (clrTrace ++ [.write 1 0x41, .write 2 0x42] ++ clrTrace ++ [.write 1 0x43, .write 2 0x44] ++ clrTrace)
      [' ', ' ', ' ', ' ', ' ', ' ', ' '] = true := by decide +kernel
theorem test_scroll_D13 : ran (exec (.scroll (codes ['H', 'I'])) (withTurns (pacedTurns 31) base)) (fun t =>
    t.off = some 3 ∧ t.trace.drop 25 = [.write 1 0x20, .write 2 0x20, .write 3 0x20] ∧
    (t.trace.drop 19).take 6 =
      [.write 1 0x20, .write 2 0x20, .write 3 0x20, .write 4 0x20, .write 5 0x48, .write 6 0x49]) = true := by decide +kernel
theorem test_scroll_ends : ran (exec (.scroll []) (withTurns (pacedTurns 63) base)) (fun t =>
    t.todo = [] ∧ t.trace.length = 56 ∧ t.turns = []) = true := by decide +kernel

-- N1, N8, N10
theorem test_showNumber_N1 : shows (.showNumber 0) 8 (clrTrace ++ [.write 6 0x30])
    [' ', ' ', ' ', ' ', ' ', ' ', '0'] = true := by decide +kernel
theorem test_showNumber_N8 : shows (.showNumber 120034) 13
    (clrTrace ++ [.write 1 0x31, .write 2 0x32, .write 3 0x30, .write 4 0x30, .write 5 0x33, .write 6 0x34])
    [' ', '1', '2', '0', '0', '3', '4'] = true := by decide +kernel
theorem test_showNumber_N10 : shows (.showNumber 1000000) 12
    (clrTrace ++ [.write 1 0x45, .write 2 0x52, .write 3 0x52, .write 4 0x4F, .write 5 0x52, .error 2])
    [' ', 'E', 'R', 'R', 'O', 'R', ' '] = true := by decide +kernel

-- G1 (its second and third iterations), G4
theorem test_generate_G1 : ran (exec .generate
    (withTurns [.player 0xFE, .main, .main, .main, .ftimer, .main] { base with freeCnt := 0x0000 })) (fun t =>
      t.trace = [.resp 1] ∧ t.todo = []) = true := by decide +kernel
theorem test_generate_G4 : ran (exec .generate
    (withTurns [.player 0xFC, .main, .main] { base with freeCnt := 0xFFFF })) (fun t =>
      t.trace = [.resp 0xFFFF]) = true := by decide +kernel

-- P1, C2, C5, C6
theorem test_playRound_P1 : ran (exec (.playRound 0x0005 2) (withTurns (pacedTurns 48) base)) (fun t =>
    t.todo = [] ∧ t.outReg = 0 ∧ indicatorEvents t.trace =
      [.ind false true, .ind false false, .ind true false, .ind false false, .ind false true, .ind false false]) = true := by
  decide +kernel
theorem test_capture_C2 : ran (exec (.capture 0x0005 2) (withTurns (captureTurns 1 [tap .b, tap .b, tap .a]) base)) (fun t =>
    t.ret = 1 ∧ t.pcntPress = some 1 ∧
    indicatorEvents t.trace = [.ind false true, .ind false false, .ind false true, .ind false false]) = true := by
  decide +kernel
theorem test_capture_C5 : ran (exec (.capture 0x0001 0)
    (withTurns (pacedTurns 9 ++ [.player 0xFC, .main, .main] ++ pacedTurns 1 ++ [.player 0xFF, .main, .main]) base)) (fun t =>
      t.ret = 1 ∧ t.pcntPress = some 0 ∧ indicatorEvents t.trace = [.ind true false, .ind false false]) = true := by
  decide +kernel

theorem test_capture_C6 : ran (exec (.capture 0x0000 0)
    (withTurns (captureTurns 1 [⟨.a, [], 0xFE, [0xFE, 0xFE, 0xFE, 0xFE], 0xFF⟩]) base)) (fun t =>
      t.ret = 0 ∧ t.pcntPress = some 1 ∧ indicatorEvents t.trace = [.ind true false, .ind false false] ∧ t.turns = []) = true := by
  decide +kernel

/-! ### Steps -/

/-- E5: the launch is refused, and CLEAR does not run. -/
theorem test_step_refused :
    refusal (step { base with launch := launchOf .direct [0x20, 0x00] }) = some (.illegalOpcode 1) := by decide +kernel
/-- K1, label RL8: OVER = 1 goes to G0. -/
theorem test_step_RL8 : ran (step { atLabel .rl8 with overFlag := true }) (fun t => t.cpc = .g0) = true := by decide +kernel
/-- The opcode table's word runs as the first instruction after reset. -/
theorem test_withFetchWord : ran (step (State.reset.withFetchWord 8 0x20)) (fun t => t.trace = clrTrace ∧ t.cidx = 1) = true := by
  decide +kernel

/-! ### Witnesses: the hypotheses of each obligation can be met -/

/-- `r` answers some next state. -/
theorem answers_next {r : Result} (h : ran r (fun _ => true) = true) : ∃ t, r = .next t :=
  let ⟨t, ht, _⟩ := of_ran h
  ⟨t, ht⟩

theorem noNul_replicate (n : Nat) : noNul (List.replicate n 0x41) := by
  intro c hc
  rw [List.eq_of_mem_replicate hc]
  decide

theorem witness_DecodeInvertsEncode : (Instr.capture 0xFFFF 15).wf = true ∧ (Instr.writeChar 0 1).wf = true ∧
    (Instr.showWord []).wf = true := by decide
theorem witness_ProgramDecodeInvertsEncode : ∀ i ∈ [Instr.clear, .wait 3, .playRound 0 15], i.wf = true := by decide
theorem witness_DecodedBytesAreTheEncoding :
    decodeOne 3 [0x40, 0x05, 0x00, 0x0F, 0x20] = .ok (.playRound 0x0005 15, [0x20]) := by decide
theorem witness_IllegalOpcodesAreRefused :
    ∀ op ∈ ([0x00, 0x04, 0x13, 0x25, 0xFF] : List Byte),
      op ∉ ([0x01, 0x02, 0x03, 0x10, 0x11, 0x12, 0x20, 0x21, 0x22, 0x23, 0x24, 0x30, 0x40, 0x50] : List Byte) := by decide
/-- E6 and E7, and the shortest and longest truncated operand bytes. -/
theorem witness_FieldRulesOfTheDecoder :
    ∀ p ∈ ([((0x11, 2), [0x03]), ((0x24, 4), [0x2A, 0x00]), ((0x40, 3), []), ((0x50, 3), [0x05, 0x00]), ((0x01, 2), [0x06]),
        ((0x02, 1), [])] : List ((Byte × Nat) × List Byte)),
      p.1 ∈ ([(0x11, 2), (0x24, 4), (0x40, 3), (0x50, 3), (0x01, 2), (0x02, 1)] : List (Byte × Nat)) ∧
        p.2.length < p.1.2 := by decide
theorem witness_StringOperandVerdicts :
    (noNul [] ∧ noNul (List.replicate 255 0x41) ∧ (List.replicate 255 (0x41 : Byte)).length ≤ 255) ∧
      noNul (List.replicate 256 0x41) ∧ 255 < (List.replicate 256 (0x41 : Byte)).length :=
  ⟨⟨by unfold noNul; decide, noNul_replicate 255, by decide +kernel⟩, noNul_replicate 256, by decide +kernel⟩

/-- A DIRECT state at command `c` of a list. -/
def direct (bytes : List Byte) (c : Nat) (ts : List Config.Turn) : State :=
  { base with launch := launchOf .direct bytes, cidx := c, turns := ts }

theorem witness_StepRunsTheProgramCounter :
    ((direct [0x20, 0x10] 1 []).launch.mode = .direct ∧
      decodeProgram (direct [0x20, 0x10] 1 []).launch.commands = .ok [.clear, .tick] ∧
      [Instr.clear, .tick][(direct [0x20, 0x10] 1 []).cidx]? = some .tick) ∧ (atLabel .a0).launch.mode = .game := by decide
theorem witness_InvalidLaunchIsRefused : ((direct [0x20, 0x00] 0 []).launch.mode = .direct ∧
    decodeProgram (direct [0x20, 0x00] 0 []).launch.commands = .error (.illegalOpcode 1)) ∧
    ((∀ i ∈ [Instr.clear, .wait 3], i.wf = true) ∧
      decodeOne (encodeProgram [.clear, .wait 3]).length [0x40, 0x05, 0x00, 0x10] = .error (.badField 4 .round)) := by decide
theorem witness_EndedRunLeavesMainIdle : (direct [0x20] 1 [.main]).launch.mode = .direct ∧
    decodeProgram (direct [0x20] 1 [.main]).launch.commands = .ok [.clear] ∧
    [Instr.clear].length ≤ (direct [0x20] 1 [.main]).cidx ∧ (direct [0x20] 1 [.main]).turns = [.main] ∧
    (direct [0x20] 1 []).turns = [] := by decide
theorem witness_PausedOperationGoesOnWhereItStood :
    ∃ t, exec (.wait 3) (withTurns [.ptimerTick, .main] base) = .next t ∧ t.todo ≠ [] := by
  obtain ⟨t, ht, h⟩ := of_ran (r := exec (.wait 3) (withTurns [.ptimerTick, .main] base)) (p := fun t => t.todo = [.poll])
    (by decide +kernel)
  exact ⟨t, ht, by simpa using fun hx => by simp [hx] at h⟩
theorem witness_InadmissibleOperandsAreRefused :
    15 < (16 : Byte).toNat ∧ 255 < (List.replicate 256 (0x41 : Byte)).length ∧ ¬noNul [0x41, 0] :=
  ⟨by decide, by decide +kernel, fun h => h 0 (by decide) rfl⟩

theorem witness_CommandsKeepTheGameRegisters : ∃ t, exec .tick (withTurns [.main] base) = .next t :=
  answers_next (by decide +kernel)
theorem witness_StepsKeepTheLaunch : ∃ t, step (direct [0x10] 0 [.main]) = .next t := answers_next (by decide +kernel)
theorem witness_GameRegistersChangeAtTheirLabelsOnly :
    (atLabel .rl3).launch.mode = .game ∧ ∃ t, step (atLabel .rl3) = .next t :=
  ⟨rfl, answers_next (by decide +kernel)⟩

theorem witness_DisplayCommandsKeepTheIndicators :
    base.todo = [] ∧
    (∀ i ∈ ([.clear, .showWord [0x41], .showPhrase [0x41], .scroll [0x41], .showNumber 7] : List Instr),
      ran (exec i (withTurns (pacedTurns 20) base)) (fun _ => true) = true) ∧
    ∀ i ∈ ([.clear, .showWord [0x41], .showNumber 7] : List Instr), ∀ flag ∈ [true, false],
      (withTurns (List.replicate 8 .main) { base with tickFlag := flag }).turns ≠ [] ∧
      .ptimerTick ∉ (withTurns (List.replicate 8 .main) { base with tickFlag := flag }).turns ∧
      ran (exec i (withTurns (List.replicate 8 .main) { base with tickFlag := flag })) (fun t => t.todo = []) = true := by
  decide +kernel
theorem witness_TimingCommandsKeepTheOutputs :
    base.todo = [] ∧
    ∀ i ∈ ([.readBtn, .tick, .wait 1, .sampleEntropy, .generate] : List Instr),
      ran (exec i (withTurns (.player 0xFE :: pacedTurns 2) base)) (fun t => t.todo = []) = true := by decide +kernel
theorem witness_RoundCommandsKeepTheOtherRegisters :
    base.todo = [] ∧ ran (exec (.playRound 0x0005 0) (withTurns (pacedTurns 20) base)) (fun t => t.todo = []) = true ∧
      ran (exec (.capture 0x0005 0) (withTurns (captureTurns 1 [tap .b]) base)) (fun t => t.todo = []) = true ∧
      ran (exec (.capture 0x0005 0) (withTurns (pacedTurns 3) base)) (fun t => t.todo ≠ []) = true := by decide +kernel
theorem witness_CommandsWriteTheOutputPortsAlone :
    ([.main] : List Config.Turn) ≠ [] ∧ (∀ u ∈ ([.main] : List Config.Turn), u = .main) ∧
      ∃ t, exec .tick (withTurns [.main] base) = .next t := ⟨by decide, by decide, answers_next (by decide +kernel)⟩
theorem witness_InterruptIsInvisibleToMain :
    ([.isr, .main] : List Config.Turn).filter (· ≠ .isr) ≠ [] ∧
      (∃ t, exec .tick (withTurns [.isr, .main] { base with freeOvf := true }) = .next t) ∧
      ∃ t, execLabel .a0 (withTurns [.isr, .main] { base with freeOvf := true }) = .next t :=
  ⟨by decide, answers_next (by decide +kernel), answers_next (by decide +kernel)⟩

/-- The hypotheses of the one-action commands: TICK, SAMPLE_ENTROPY, READ_BTN, SET_IND, WRITE_CHAR. -/
theorem witness_one_action : ∃ (s : State) (e rest : List Config.Turn), s.todo = [] ∧ .main ∉ e ∧ s.turns = e ++ .main :: rest :=
  ⟨withTurns [.ptimerTick, .main, .ftimer] base, [.ptimerTick], [.ftimer], by decide +kernel⟩
theorem witness_TickTestsAndClears : base.todo = [] ∧ .main ∉ ([.ptimerTick] : List Config.Turn) ∧
    (withTurns [.ptimerTick, .main] base).turns = [.ptimerTick] ++ .main :: [] := by decide +kernel
theorem witness_SampleEntropyReadsFreeCnt : base.todo = [] ∧ .main ∉ ([.ftimer] : List Config.Turn) ∧
    (withTurns [.ftimer, .main] base).turns = [.ftimer] ++ .main :: [] := by decide +kernel
theorem witness_ReadBtnRespondsWithThePressedButtons : base.todo = [] ∧ .main ∉ ([.player 0] : List Config.Turn) ∧
    (withTurns [.player 0, .main] base).turns = [.player 0] ++ .main :: [] := by decide +kernel
theorem witness_SetIndWritesBothIndicators : base.todo = [] ∧ .main ∉ ([] : List Config.Turn) ∧
    (withTurns [.main] base).turns = [] ++ .main :: [] := by decide +kernel
theorem witness_WriteCharWritesOneSlot :
    (0 : Byte).toNat ≤ 6 ∧ (6 : Byte).toNat ≤ 6 ∧ (1 : Byte) ≠ 0 ∧ 6 < (7 : Byte).toNat ∧ base.todo = [] ∧
    .main ∉ ([] : List Config.Turn) ∧ (withTurns [.main] base).turns = [] ++ .main :: [] := by decide +kernel
theorem witness_OtherPortAccessesAreRefused :
    (¬((0x10 : Byte) = 0x10 ∧ 2 = 1) ∧ ¬((0x10 : Byte) = 0x20 ∧ 2 = 2)) ∧
    (¬((7 : Byte).toNat ≤ 6 ∧ 1 = 1) ∧ ¬((7 : Byte) = 0x11 ∧ 1 = 1)) ∧
    (¬((6 : Byte).toNat ≤ 6 ∧ 2 = 1) ∧ ¬((6 : Byte) = 0x11 ∧ 2 = 1)) := by decide
theorem witness_OneActionCommandsKeepOtherPorts :
    base.todo = [] ∧ (withTurns [.main] base).turns = .main :: [] ∧
    ∀ i ∈ ([.writeChar 6 0x41, .setInd true false, .readBtn, .sampleEntropy, .tick] : List Instr),
      ran (exec i (withTurns [.main] base)) (fun _ => true) = true := by decide +kernel

theorem witness_WaitEndsAfterItsTicks :
    (1 : Word16) ≠ 0 ∧ base.todo = [] ∧ truePolls false [.main] < (1 : Word16).toNat ∧
      (1 : Word16).toNat ≤ truePolls true [.main] ∧ truePolls false [.main, .ptimerTick, .main] = 1 := by decide

/-- A fair interleaving: MAIN and PTIMER by turns. -/
def byTurns (n : Nat) : Config.Turn := if n % 2 = 0 then .main else .ptimerTick

theorem byTurns_fair : Fair byTurns where
  tick n := ⟨2 * n + 1, by omega, by simp [byTurns, Nat.add_mod]⟩
  main n := ⟨2 * n, by omega, by simp [byTurns]⟩

/-- The WAITs in progress end a label, stand before a silent line, or before a line with a primitive. -/
theorem witness_FairInterleavingsEndEveryWait :
    Fair byTurns ∧ (Instr.wait 3).wf = true ∧ (Instr.wait 3) ≠ .generate ∧ (∀ seq round, (Instr.wait 3) ≠ .capture seq round) ∧
    base.todo = [] ∧
    (∀ ls ∈ ([[], [.scrollNext []], [.hold .a]] : List (List Stmt)),
      ({ base with todo := .poll :: ls, dcnt := some 3 } : State).todo = .poll :: ls ∧
      ({ base with todo := .poll :: ls, dcnt := some 3 } : State).dcnt = some 3) ∧
    (∀ ls ∈ ([[], [.hold .a]] : List (List Stmt)), ∀ st ∈ ls.head?, st.silent = false) ∧
    (∀ l ∈ ([.a1, .rl2, .rl4, .rl5, .rl6, .g1] : List Label),
      ({ atLabel l with seq := some 5 } : State).launch.mode = .game ∧ (atLabel l).launch.wf = true ∧
      l ∉ ([.a2, .rl7, .g2] : List Label) ∧ ({ atLabel l with seq := some 5 } : State).seq ≠ none ∧
      (atLabel l).round.toNat ≤ 15 ∧ (atLabel l).todo = [] ∧ (atLabel l).turns = []) ∧
    (direct [0x11, 0x03, 0x00] 0 []).launch.mode = .direct ∧ (direct [0x11, 0x03, 0x00] 0 []).turns = [] ∧
    decodeProgram (direct [0x11, 0x03, 0x00] 0 []).launch.commands = .ok [.wait 3] :=
  ⟨byTurns_fair, by decide, by simp, by simp, rfl, by simp, by simp [Stmt.silent], by decide, rfl, rfl, by decide⟩

theorem witness_ClearLeavesSevenBlanks : base.todo = [] ∧ 7 ≤ (withTurns (pacedTurns 7) base).turns.count .main := by
  decide +kernel
theorem witness_ShowWordEndState :
    ∀ w ∈ [[], codes ['A', 'B', 'C', 'D', 'E', 'F'], codes ['A', 'B', 'C', 'D', 'E', 'F', 'G']],
      Text.legal w = true ∧ base.todo = [] ∧
        7 + putWordActions w ≤ (withTurns (pacedTurns (7 + putWordActions w)) base).turns.count .main := by decide +kernel
theorem witness_ShowNumberEndState : base.todo = [] ∧ 13 ≤ (withTurns (pacedTurns 13) base).turns.count .main := by
  decide +kernel
/-- The same through another interleaving: false polls, ticks that merge, turns of the other agents. -/
def loose (n : Nat) : List Config.Turn :=
  (List.replicate n [.main, .ftimer, .main, .ptimerTick, .ptimerTick, .player 0xFC]).flatten

theorem witness_ShowPhrasePagesTheWords : Text.legal (codes ['H', 'I', ' ', 'X']) = true ∧ base.todo = [] ∧
    (withTurns (pacedTurns (showPhraseActions 1 (codes ['H', 'I', ' ', 'X']))) base).turns =
      pacedTurns (showPhraseActions base.launch.params.wPhrase.toNat (codes ['H', 'I', ' ', 'X'])) ++ [] ∧
    ran (exec (.showPhrase (codes ['H', 'I', ' ', 'X'])) (withTurns (loose 20) base)) (fun t => t.todo = []) = true := by
  decide +kernel
/-- The WAIT after the second word, before its first poll and after its last. -/
theorem witness_ShowPhrasePagesTheWords_wait : Text.legal (codes ['H', 'I', ' ', 'X']) = true ∧ base.todo = [] ∧
    words (codes ['H', 'I', ' ', 'X']) = [codes ['H', 'I']] ++ codes ['X'] :: [] ∧
    ∀ p ∈ [0, 1], p ≤ base.launch.params.wPhrase.toNat ∧
      (withTurns (pacedTurns (phraseWaitActions 1 [codes ['H', 'I']] (codes ['X']) + p)) base).turns =
        pacedTurns (phraseWaitActions base.launch.params.wPhrase.toNat [codes ['H', 'I']] (codes ['X']) + p) := by
  decide +kernel
/-- The windows at both ends and the slots at both ends too. -/
theorem witness_ScrollShowsEveryWindow :
    (∀ p ∈ ([(0, 1), (0, 6), (8, 1), (8, 6)] : List (Nat × Nat)),
      p.1 ≤ (codes ['H', 'I']).length + 6 ∧ 1 ≤ p.2 ∧ p.2 ≤ 6) ∧ Text.legal (codes ['H', 'I']) = true ∧ base.todo = [] ∧
    (withTurns (pacedTurns (scrollActions 1 (codes ['H', 'I']))) base).turns =
      pacedTurns (scrollActions base.launch.params.wScroll.toNat (codes ['H', 'I'])) ++ [] ∧
    ran (exec (.scroll (codes ['H', 'I'])) (withTurns (loose 60) base)) (fun t => t.todo = []) = true := by decide +kernel

/-- The WAITs after the first window and after the last. -/
theorem witness_ScrollShowsEveryWindow_wait : Text.legal (codes ['H', 'I']) = true ∧ base.todo = [] ∧
    ∀ off ∈ [0, 8], ∀ p ∈ [0, 1], off ≤ (codes ['H', 'I']).length + 6 ∧ p ≤ base.launch.params.wScroll.toNat ∧
      (withTurns (pacedTurns (scrollWaitActions 1 off + p)) base).turns =
        pacedTurns (scrollWaitActions base.launch.params.wScroll.toNat off + p) := by decide +kernel

/-- GENERATE's turns: the start button pressed or not, FREE_CNT advanced before the sample. -/
def genState (levels : Byte) (cnt : Word16) : State := { base with freeCnt := cnt, turns := [.player levels, .main, .main, .main] }

theorem witness_GenerateReturnsTheGatedSample :
    (genState 0xFE 1).turns = [.player 0xFE] ++ .main :: [] ++ .main :: [.main] ∧
    pressedOf (genState 0xFE 1).launch.params.startButton (!(agents [.player 0xFE] (genState 0xFE 1)).inReg.getLsbD 0)
      (!(agents [.player 0xFE] (genState 0xFE 1)).inReg.getLsbD 1) = true ∧
    (agents [] (agents [.player 0xFE] (genState 0xFE 1))).freeCnt ≠ 0 := by decide +kernel
theorem witness_GenerateSamplesAgain :
    (genState 0xFD 1).turns = [.player 0xFD] ++ .main :: [] ++ .main :: [.main] ∧
    pressedOf (genState 0xFD 1).launch.params.startButton (!(agents [.player 0xFD] (genState 0xFD 1)).inReg.getLsbD 0)
      (!(agents [.player 0xFD] (genState 0xFD 1)).inReg.getLsbD 1) = false ∧
    (agents [] (agents [.player 0xFE] (genState 0xFE 0))).freeCnt = 0 := by decide +kernel
theorem witness_GenerateNeverReturnsZero : ∃ t, exec .generate (genState 0xFE 5) = .next t ∧ t.todo = [] := by
  obtain ⟨t, ht, h⟩ := of_ran (r := exec .generate (genState 0xFE 5)) (p := fun t => t.todo = []) (by decide +kernel)
  exact ⟨t, ht, by simpa using h⟩
theorem witness_EveryNonzeroSequenceIsPossible : base.todo = [] ∧ (0xFFFF : Word16) ≠ 0 := by decide

theorem witness_PlayRoundReplaysThePrefix : (15 : Byte).toNat ≤ 15 ∧ base.todo = [] ∧
    (withTurns (pacedTurns (playRoundActions 1 15)) base).turns =
      pacedTurns (playRoundActions base.launch.params.wPlay.toNat (15 : Byte).toNat) ++ [] ∧
    ran (exec (.playRound 0x0005 1) (withTurns (loose 30) base)) (fun t => t.todo = []) = true := by decide +kernel
/-- Both WAITs of the first step and of the last, before the first poll and after the last. -/
theorem witness_PlayRoundReplaysThePrefix_wait : (15 : Byte).toNat ≤ 15 ∧ base.todo = [] ∧
    ∀ k ∈ [0, 15], ∀ p ∈ [0, 1], k ≤ (15 : Byte).toNat ∧ p ≤ base.launch.params.wPlay.toNat ∧
      (withTurns (pacedTurns (k * playRoundActions 1 0 + 12 + p)) base).turns =
        pacedTurns (k * playRoundActions base.launch.params.wPlay.toNat 0 + 12 + p) ∧
      (withTurns (pacedTurns (k * playRoundActions 1 0 + 12 + 1 + 1 + p)) base).turns =
        pacedTurns (k * playRoundActions base.launch.params.wPlay.toNat 0 + 12 + base.launch.params.wPlay.toNat + 1 + p) := by
  decide +kernel
/-- Before the first SetInd of the round, after it, and at the end. -/
theorem witness_PlayRoundNeverLightsBoth :
    base.todo = [] ∧ ∀ n ∈ [5, 14, 15, 16],
      ran (exec (.playRound 0x0005 0) (withTurns (pacedTurns n) base)) (fun t => t.todo = [] ↔ n = 16) = true := by
  decide +kernel
theorem witness_LongerRoundsReplayShorterOnes :
    base.todo = [] ∧ (1 : Byte).toNat = (0 : Byte).toNat + 1 ∧ base.trace = [] ∧
    ran (exec (.playRound 0x0002 0) (withTurns (pacedTurns 28) base)) (fun t => t.todo = [] ∧ t.trace = base.trace ++ t.trace)
      = true ∧
    ran (exec (.playRound 0x0002 1) (withTurns (.main :: pacedTurns 40) base))
      (fun t => t.todo = [] ∧ t.trace = base.trace ++ t.trace) = true := by decide +kernel
theorem witness_CaptureJudgesThePresses :
    (captureVerdict 0x0005 2 0 ([tap .b, hold .a, tap .b, tap .a].map (·.button)) =
        some (false, 3, [tap .a].map (·.button)) ∧
      captureVerdict 0x0005 2 0 ([tap .b, hold .b].map (·.button)) = some (true, 1, [].map Press.button) ∧
      captureVerdict 0x0005 0 0 ([tap .a].map (·.button)) = some (true, 0, [].map Press.button)) ∧
    captureVerdict 0 15 0 ((List.replicate 16 (tap .a)).map (·.button)) = some (false, 16, [].map Press.button) ∧
    [tap .a] <:+ [tap .b, hold .a, tap .b, tap .a] ∧ (∀ x ∈ [tap .a, tap .b, hold .a, hold .b], x.ok = true) ∧
    (15 : Byte).toNat ≤ 15 ∧ base.todo = [] ∧
    (withTurns (captureTurns 1 [tap .b, hold .b]) base).turns =
      captureTurns base.launch.params.wDebounce.toNat [tap .b, hold .b] ++ [] ∧
    ran (exec (.capture 0x0005 2) (withTurns (captureTurns 1 [tap .b, hold .b]) base)) (fun t => t.todo = []) = true := by
  decide +kernel
theorem witness_CaptureTakesAFirst :
    ({ base with todo := [.capPoll 0x0005 2], inReg := 0xFC } : State).todo = [.capPoll 0x0005 2] ∧
    (0xFC : Byte).getLsbD 0 = false := by decide
theorem witness_PlaybackAndCaptureAgree :
    ({ base with k := some 15, pcntPress := some 15 } : State).k = some 15 ∧
    ({ base with k := some 15, pcntPress := some 15 } : State).pcntPress = some 15 := by decide

theorem witness_A0StartsANewGame : (atLabel .a0).launch.mode = .game ∧ (atLabel .a0).cpc = .a0 ∧ (atLabel .a0).todo = [] ∧
    .main ∉ ([.ftimer] : List Config.Turn) ∧
    (withTurns [.ftimer, .main] (atLabel .a0)).turns = [.ftimer] ++ .main :: [] := by decide +kernel
theorem witness_LabelsWithoutOperations :
    ∀ l ∈ ([.s0, .rl0, .rl1, .rl3, .rl8, .rl9, .rl10, .g0, .g3] : List Label),
      (atLabel l).launch.mode = .game ∧ (atLabel l).todo = [] ∧ (atLabel l).cpc = l := by decide
theorem witness_RoundMessages :
    ∀ l ∈ ([.rl2, .rl4, .rl5] : List Label),
      (atLabel l).launch.mode = .game ∧ (atLabel l).todo = [] ∧ (atLabel l).cpc = l ∧
      ({ atLabel l with round := 15 } : State).round.toNat ≤ 15 ∧
      ran (step (withTurns (loose 20) { atLabel l with round := 15 })) (fun t => t.todo = []) = true ∧
      (withTurns (pacedTurns (showNumberActions (15 + 1) + 1)) { atLabel l with round := 15 }).turns =
        pacedTurns (showNumberActions (({ atLabel l with round := 15 } : State).round.toNat + 1) +
          (atLabel l).launch.params.wRound.toNat) ++ [] := by decide +kernel
/-- The WAIT of each label, before its only poll. -/
theorem witness_RoundMessages_wait :
    0 < (atLabel .rl2).launch.params.wRound.toNat ∧
    ∀ q ∈ ([(.rl2, 1), (.rl4, 12), (.rl5, showNumberActions (15 + 1))] : List (Label × Nat)),
      (withTurns (pacedTurns (q.2 + 0)) { atLabel q.1 with round := 15 }).launch.mode = .game ∧
      (withTurns (pacedTurns (q.2 + 0)) { atLabel q.1 with round := 15 }).cpc = q.1 ∧
      ran (step (withTurns (pacedTurns (q.2 + 0)) { atLabel q.1 with round := 15 })) (fun t => t.todo = [.poll]) = true := by
  decide +kernel
theorem witness_LabelsRunTheCommandsOperations :
    ∀ l ∈ ([.a1, .a2, .rl6, .rl7] : List Label),
      (atLabel l).launch.mode = .game ∧ (atLabel l).todo = [] ∧ ({ atLabel l with seq := some 5 } : State).seq = some 5 ∧
      ran (exec (.scroll (atLabel l).launch.params.promptText) (withTurns [.main] (atLabel l))) (fun _ => true) = true ∧
      ran (exec (.playRound 5 ((atLabel l).round.setWidth 8)) (withTurns [.main] (atLabel l))) (fun _ => true) = true ∧
      ran (exec .generate (withTurns [.player 0xFE, .main, .main] (atLabel l))) (fun _ => true) = true ∧
      ran (exec (.capture 5 ((atLabel l).round.setWidth 8)) (withTurns (captureTurns 1 [tap .b]) (atLabel l))) (fun t => t.todo = [])
        = true := by decide +kernel
theorem witness_GameOverShowsTheResult :
    (atLabel .g1).launch.mode = .game ∧ (atLabel .g1).cpc = .g1 ∧ (atLabel .g1).todo = [] ∧ (16 : BitVec 5).toNat ≤ 16 ∧
    (15 : BitVec 5) ≠ 16 ∧ (15 : BitVec 5).toNat ≤ 16 ∧
    ran (step (withTurns (loose 200) { atLabel .g1 with score := 15 })) (fun t => t.todo = []) = true ∧
    ran (step (withTurns (loose 200) { atLabel .g1 with score := 16 })) (fun t => t.todo = []) = true := by decide +kernel
/-- The WAITs after the first window and after the last of both texts. -/
theorem witness_GameOverShowsTheResult_wait :
    ∀ q ∈ ([(16, litYouWin), (15, litGameOver)] : List (BitVec 5 × Text)),
      q.2 = (if ({ atLabel .g1 with score := q.1 } : State).score = 16 then litYouWin else litGameOver) ∧
      ∀ off ∈ [0, q.2.length + 6], ∀ p ∈ [0, 1], off ≤ q.2.length + 6 ∧ p ≤ (atLabel .g1).launch.params.wScroll.toNat ∧
        (withTurns (pacedTurns (scrollWaitActions 1 off + p)) (atLabel .g1)).turns =
          pacedTurns (scrollWaitActions (atLabel .g1).launch.params.wScroll.toNat off + p) := by decide +kernel
theorem witness_RestartNeedsBothButtons :
    (atLabel .g2).launch.mode = .game ∧ (atLabel .g2).cpc = .g2 ∧ (atLabel .g2).todo = [] ∧
    .main ∉ ([.player 0xFC] : List Config.Turn) ∧ ([.main] : List Config.Turn) ≠ [] ∧
    (withTurns [.player 0xFC, .main, .main] (atLabel .g2)).turns = [.player 0xFC] ++ .main :: [.main] ∧
    (agents [.player 0xFC] (atLabel .g2)).inReg.getLsbD 0 = false ∧
    (agents [.player 0xFC] (atLabel .g2)).inReg.getLsbD 1 = false ∧
    (agents [.player 0xFE] (atLabel .g2)).inReg.getLsbD 1 = true := by decide +kernel

/-! ### Witnesses about runs -/

/-- Right after reset of a GAME launch with no waits and an empty prompt, with these turns. -/
def gameStart (ts : List Config.Turn) : State :=
  { State.resetOf { launchOf .game [] with params :=
      { shortParams with wPlay := 0, wScroll := 0, wDebounce := 0, wRound := 0, promptText := [] } } with
    tickFlag := false, freeOvf := false, freeCnt := 0x0001, ptimerCnt := 0, inReg := 0xFF, outReg := 0x00,
    disp := Vector.replicate 7 0x3F, turns := ts }

theorem gameStart_justReset (ts : List Config.Turn) : JustReset (gameStart ts).launch (gameStart ts) :=
  ⟨false, false, 0x0001, 0, 0xFF, false, false, Vector.replicate 7 0x3F, ts, 0, rfl⟩

theorem base_justReset : JustReset (launchOf .direct []) base :=
  ⟨false, false, 0x1A2B, 0, 0xFF, false, false, Vector.replicate 7 0x3F, [], 0, rfl⟩

theorem witness_ResetEstablishesTheRunInvariant :
    (launchOf .direct []).wf = true ∧ JustReset (launchOf .direct []) base := ⟨by decide, base_justReset⟩

/-- Before the first write nothing is shown. -/
theorem slots_unshown {s : State} (h : s.trace = []) : ∀ (j : Nat) (c : Byte), slotShown s j = some c → c ≠ 0 := by
  intro j c hc
  simp [slotShown, h] at hc

/-- The invariant at a DIRECT state, at any command of its list, before the first output. -/
theorem direct_runOk (bytes : List Byte) (c : Nat) (ts : List Config.Turn) : RunOk (direct bytes c ts) where
  launch := show Text.legal [0x41] = true by decide
  operation := ⟨fun st h => absurd h List.not_mem_nil, fun d h => by simp [direct, base, State.resetOf] at h⟩
  outputs := ⟨show (0x00 : Byte) >>> 2 = 0 by decide, slots_unshown rfl⟩
  controller := fun h => by simp [direct, launchOf] at h

/-- The invariant at a GAME state just after reset. -/
theorem gameStart_runOk : RunOk (gameStart []) where
  launch := by decide
  operation := ⟨fun st h => absurd h List.not_mem_nil, fun d h => by simp [gameStart, State.resetOf] at h⟩
  outputs := ⟨show (0x00 : Byte) >>> 2 = 0 by decide, slots_unshown rfl⟩
  controller := fun _ => by
    constructor
    case indicators => constructor <;> simp [gameStart, State.resetOf, litAt, quietAt, darkAt]
    all_goals simp [gameStart, State.resetOf, operationFree, inGame, inRound, overAt, cstateAt]

theorem witness_EveryStepKeepsTheRunInvariant :
    RunOk (direct [0x10] 0 [.main]) ∧ ∃ t, step (direct [0x10] 0 [.main]) = .next t :=
  ⟨direct_runOk _ _ _, answers_next (by decide +kernel)⟩
/-- GAME mode; a command to run; CIDX just past the last command; a refused list. -/
theorem witness_StepsAnswerUnlessTheLaunchIsInvalid :
    RunOk (gameStart []) ∧ (gameStart []).launch.mode = .game ∧
    RunOk (direct [0x10] 0 [.main]) ∧ decodeProgram (direct [0x10] 0 [.main]).launch.commands = .ok [.tick] ∧
    RunOk (direct [0x10] 1 [.main]) ∧ decodeProgram (direct [0x10] 1 [.main]).launch.commands = .ok [.tick] ∧
    RunOk (direct [0x00] 0 []) ∧ decodeProgram (direct [0x00] 0 []).launch.commands = .error (.illegalOpcode 0) :=
  ⟨gameStart_runOk, rfl, direct_runOk _ _ _, by decide, direct_runOk _ _ _, by decide, direct_runOk _ _ _, by decide⟩
theorem witness_NoRunReachesAModelFault :
    (launchOf .direct []).wf = true ∧ Reachable (launchOf .direct []) base := ⟨by decide, .reset _ base_justReset⟩

/-- A run of a few labels. -/
def labels : Nat → State → Option State
  | 0, s => some s
  | n + 1, s =>
    match step s with
    | .next t => labels n t
    | .fault _ => none
    | .refused _ => none

theorem labels_reachable {l : Config.Launch} : ∀ (n : Nat) (s t : State), Reachable l s → labels n s = some t → Reachable l t
  | 0, s, t, h, ht => by simp [labels] at ht; exact ht ▸ h
  | n + 1, s, t, h, ht => by
    simp only [labels] at ht
    split at ht
    · rename_i u hu
      exact labels_reachable n u t (.step s u h hu) ht
    · simp at ht
    · simp at ht

/-- Turns of a first round: A0 to A2 with SEQ = 1, the round's messages and playback, then one press. -/
def roundTurns (x : Config.Button) : List Config.Turn :=
  List.replicate 57 .main ++ [.player 0xFE, .main, .main, .player 0xFF] ++ List.replicate 44 .main ++ pressTurns 0 (tap x)

theorem reaches (x : Config.Button) (n : Nat) (p : State → Bool)
    (h : (labels n (gameStart (roundTurns x))).any p = true) :
    ∃ s, Reachable (gameStart (roundTurns x)).launch s ∧ p s = true := by
  cases hl : labels n (gameStart (roundTurns x)) with
  | none => simp [hl] at h
  | some s => exact ⟨s, labels_reachable n _ s (.reset _ (gameStart_justReset _)) hl, by simpa [hl] using h⟩

/-- Reached labels of ScoreCountsTheRoundsCompleted: RL1, RL3, RL6, RL7, RL9 after a right press, G0 after a wrong one. -/
theorem witness_ScoreCountsTheRoundsCompleted :
    (gameStart (roundTurns .b)).launch.wf = true ∧ (gameStart (roundTurns .b)).launch.mode = .game ∧
    (∀ p ∈ ([(5, .rl1), (7, .rl3), (10, .rl6), (11, .rl7), (13, .rl9), (14, .rl1)] : List (Nat × Label)),
      (labels p.1 (gameStart (roundTurns .b))).any (fun s => s.cpc = p.2) = true) ∧
    (labels 13 (gameStart (roundTurns .a))).any (fun s => s.cpc = .g0) = true := by decide +kernel
/-- A step that comes to G0, from RL8. -/
theorem witness_WinExactlyThroughRL10 :
    (∃ s, Reachable (gameStart (roundTurns .a)).launch s ∧
      (s.cpc = .rl8 ∧ s.overFlag = true ∧ ran (step s) fun t => t.cpc = .g0) = true) := by
  obtain ⟨s, hs, h⟩ := reaches .a 12 (fun s => s.cpc = .rl8 ∧ s.overFlag = true ∧ ran (step s) fun t => t.cpc = .g0)
    (by decide +kernel)
  exact ⟨s, hs, by simpa using h⟩

end Sys2Proof.Tests
end

section
/-! Frames of commands. `footprint` says which parts of the state a line of pseudocode may write, the lines it stands for
included; a command writes only what its lines, its end and the turns of the other agents write. -/

namespace Sys2Proof.Proofs

open Sys2Proof.Machine
open Sys2Proof.Safety
open Sys2Proof.Laws

/-! ### Parts of the state -/

/-- A part of the state that an operation may write: a register of MAIN's, an output, TICK_FLAG downward or upward, or the
events of the trace that go with no register. -/
inductive Part where
  | dcnt | pcntPress | capOver | k | i | off | rem | digk | started | ret | outReg | disp | tickClear | tickSet | error | resp

/-- This part of `t` is as in `s`. -/
def Part.same (p : Part) (s t : State) : Prop :=
  match p with
  | .dcnt => t.dcnt = s.dcnt
  | .pcntPress => t.pcntPress = s.pcntPress
  | .capOver => t.capOver = s.capOver
  | .k => t.k = s.k
  | .i => t.i = s.i
  | .off => t.off = s.off
  | .rem => t.rem = s.rem
  | .digk => t.digk = s.digk
  | .started => t.started = s.started
  | .ret => t.ret = s.ret
  | .outReg => t.outReg = s.outReg
  | .disp => t.disp = s.disp
  | .tickClear => s.tickFlag = true → t.tickFlag = true
  | .tickSet => t.tickFlag = true → s.tickFlag = true
  | .error => True
  | .resp => True

/-- The part whose write the event reports (20_memory.md R103). -/
def eventPart : Event → Part
  | .write _ _ => .disp
  | .ind _ _ => .outReg
  | .error _ => .error
  | .resp _ => .resp

/-- From `s` to `t` only the parts in `P` were written, and the trace grew by their events alone. -/
structure WritesOnly (P : List Part) (s t : State) : Prop where
  same : ∀ p, p ∉ P → p.same s t
  trace : ∃ es, t.trace = s.trace ++ es ∧ ∀ e ∈ es, eventPart e ∈ P

theorem writesOnly_trans {P : List Part} {s t u : State} (h : WritesOnly P s t) (g : WritesOnly P t u) :
    WritesOnly P s u where
  same p hp := by
    have hst := h.same p hp
    have htu := g.same p hp
    cases p
    case tickClear => exact fun x => htu (hst x)
    case tickSet => exact fun x => hst (htu x)
    case error | resp => trivial
    all_goals exact Eq.trans htu hst
  trace := by
    obtain ⟨es, hes, hP⟩ := h.trace
    obtain ⟨fs, hfs, hQ⟩ := g.trace
    refine ⟨es ++ fs, by rw [hfs, hes, List.append_assoc], fun e he => ?_⟩
    exact (List.mem_append.1 he).elim (hP e) (hQ e)

theorem writesOnly_mono {P Q : List Part} {s t : State} (h : WritesOnly P s t) (hPQ : P ⊆ Q) : WritesOnly Q s t where
  same p hp := h.same p fun hx => hp (hPQ hx)
  trace := let ⟨es, hes, hP⟩ := h.trace; ⟨es, hes, fun e he => hPQ (hP e he)⟩

/-- MAIN's position, the interleaving and the trace belong to no part. -/
theorem Part.same_position (p : Part) (s : State) (ls : List Stmt) (ts : List Config.Turn) (n c : Nat) (es : List Event) :
    p.same s { s with todo := ls, turns := ts, draws := n, cidx := c, trace := es } := by
  cases p
  case tickClear | tickSet => exact id
  case error | resp => trivial
  all_goals rfl

theorem writesOnly_position (P : List Part) (s : State) (ls : List Stmt) (ts : List Config.Turn) (n c : Nat) :
    WritesOnly P s { s with todo := ls, turns := ts, draws := n, cidx := c } where
  same p _ := p.same_position s ls ts n c s.trace
  trace := ⟨[], by simp, by simp⟩

theorem writesOnly_emit {P : List Part} {e : Event} (he : eventPart e ∈ P) (s : State) : WritesOnly P s (emit e s) where
  same p _ := p.same_position s s.todo s.turns s.draws s.cidx (s.trace ++ [e])
  trace := ⟨[e], rfl, by simpa using he⟩

/-! ### What a line writes -/

/-- The parts that a line, and the lines it stands for, may write. -/
def footprint : Stmt → List Part
  | .clear _ | .write _ _ | .window _ _ => [.disp]
  | .putWord _ | .showError _ => [.i, .disp, .error]
  | .putChars _ | .errorChars => [.i, .disp]
  | .event _ => [.error]
  | .wait _ | .poll | .hold _ => [.dcnt, .tickClear]
  | .phrase _ => [.i, .disp, .error, .dcnt, .tickClear]
  | .scrollStart _ | .scrollStep _ | .scrollNext _ => [.off, .disp, .dcnt, .tickClear]
  | .number _ | .digit | .putDigit _ => [.rem, .digk, .started, .i, .disp, .error]
  | .ind _ _ | .light _ => [.outReg]
  | .tick => [.ret, .tickClear]
  | .readBtn | .sample | .genBtn | .genSample _ => [.ret]
  | .playStart _ _ | .playTest _ _ | .playNext _ _ => [.k, .i, .disp, .error, .outReg, .dcnt, .tickClear]
  | .capStart _ _ | .capTest _ _ | .capPoll _ _ => [.pcntPress, .capOver, .ret, .outReg, .dcnt, .tickClear]
  | .compare _ _ => [.pcntPress, .capOver]
  | .restartPoll => []

/-- These lines write only parts in `P`. -/
def LinesWithin (P : List Part) (ls : List Stmt) : Prop := ∀ st ∈ ls, footprint st ⊆ P

@[simp] theorem linesWithin_nil (P : List Part) : LinesWithin P [] := by simp [LinesWithin]

@[simp] theorem linesWithin_cons (P : List Part) (st : Stmt) (ls : List Stmt) :
    LinesWithin P (st :: ls) ↔ footprint st ⊆ P ∧ LinesWithin P ls := by
  simp [LinesWithin]

@[simp] theorem linesWithin_append (P : List Part) (a b : List Stmt) :
    LinesWithin P (a ++ b) ↔ LinesWithin P a ∧ LinesWithin P b :=
  List.forall_mem_append

/-- What the line `st` does: it writes its footprint, and the lines it puts before the others stay within it. -/
structure LineWrites (st : Stmt) (s t : State) : Prop where
  writes : WritesOnly (footprint st) s t
  lines : ∀ P, footprint st ⊆ P → LinesWithin P s.todo → LinesWithin P t.todo

/-- Every line writes its footprint only: one case for each line, and in it one for each branch of its definition. -/
theorem runStmt_writes (st : Stmt) (s : State) : onNext (runStmt st s) (LineWrites st s) := by
  cases st
  all_goals
    simp only [runStmt, lineClear, linePutWord, linePutChars, lineShowError, lineErrorChars, lineEvent, linePhrase,
      lineScrollStart, lineScrollStep, lineWindow, lineScrollNext, lineNumber, lineDigit, linePutDigit, lineWait, linePoll,
      lineTick, lineSample, lineReadBtn, lineGenBtn, lineGenSample, linePlayStart, linePlayTest, lineLight, linePlayNext,
      lineCapStart, lineCapTest, lineCapPoll, lineHold, lineCompare, lineRestartPoll, nextDigit,
      readButtons_eq, readFree_eq, tickTC_eq, setIndicators_eq]
  all_goals
    try simp only [onNext_andThen, onNext_next, onNext_readReg, onNext_writeChar]
    intros
    repeat' split
    all_goals try simp only [onNext_andThen, onNext_next, onNext_writeChar]
    all_goals intros
    all_goals
      refine ⟨⟨fun p hp => ?_, ?_⟩, fun P hP hs => ?_⟩
      · cases p <;> simp [footprint, Part.same] at hp ⊢
      · simp [footprint, eventPart]
      · simp_all [footprint, bodyClear, bodyShowWord, playStep, pressLines]

/-! ### Operations -/

/-- An operation begun in `s` stands at `t`: it wrote only parts in `P`, and the lines still to run do the same. -/
structure RunWrites (P : List Part) (s t : State) : Prop where
  writes : WritesOnly P s t
  lines : LinesWithin P t.todo

theorem runStmt_runWrites {P : List Part} {s : State} (st : Stmt) (rest : List Stmt) (u : State) (hu : u.todo = st :: rest)
    (h : RunWrites P s u) : onNext (runStmt st { u with todo := rest }) (RunWrites P s) := by
  have hl := h.lines
  rw [hu, linesWithin_cons] at hl
  refine onNext_mono (runStmt_writes st { u with todo := rest }) fun t ht => ⟨?_, ht.lines P hl.1 hl.2⟩
  exact writesOnly_trans h.writes
    (writesOnly_trans (writesOnly_position P u rest u.turns u.draws u.cidx) (writesOnly_mono ht.writes hl.1))

theorem settle_runWrites {P : List Part} {s : State} (n : Nat) (u : State) (h : RunWrites P s u) :
    onNext (settle n u) (RunWrites P s) :=
  settle_onNext runStmt_runWrites n u h

theorem mainAct_runWrites {P : List Part} {s : State} (u : State) (h : RunWrites P s u) :
    onNext (mainAct u) (RunWrites P s) :=
  mainAct_onNext runStmt_runWrites u h

/-- The part that a turn of an agent other than MAIN may write: PTIMER sets TICK_FLAG (40_timing_service.md R146). -/
def turnFootprint : Config.Turn → List Part
  | .ptimerTick => [.tickSet]
  | .main | .ptimerCount | .ftimer | .isr | .player _ => []

theorem agentAct_writes (t : Config.Turn) (s : State) : WritesOnly (turnFootprint t) s (agentAct t s) where
  same p hp := by
    have hk := agentAct_keeps t s
    cases p
    case tickClear => intro h; rw [agentAct_tickFlag, h, Bool.or_true]
    case tickSet =>
      have ht : t ≠ .ptimerTick := by rintro rfl; simp [turnFootprint] at hp
      intro h
      simpa [agentAct_tickFlag, ht] using h
    case error | resp => trivial
    case dcnt => exact hk.dcnt
    case pcntPress => exact hk.pcntPress
    case capOver => exact hk.capOver
    case k => exact hk.k
    case i => exact hk.i
    case off => exact hk.off
    case rem => exact hk.rem
    case digk => exact hk.digk
    case started => exact hk.started
    case ret => exact hk.ret
    case outReg => exact hk.outReg
    case disp => exact hk.disp
  trace := ⟨[], by rw [(agentAct_keeps t s).trace, List.append_nil], by simp⟩

/-- A run through turns that write only parts in `P`, up to where it pauses or ends. -/
theorem drive_writes {P : List Part} {s : State} {finish : State → State} (hfin : ∀ u, WritesOnly P u (finish u)) :
    ∀ (ts : List Config.Turn) (u : State), (∀ t ∈ ts, turnFootprint t ⊆ P) → RunWrites P s u →
      onNext (drive finish ts u) (WritesOnly P s)
  | [], u, _, h => by simpa using h.writes
  | t :: ts, u, hts, h => by
    rw [List.forall_mem_cons] at hts
    by_cases ht : t = .main
    · subst ht
      rw [drive_main, onNext_andThen]
      refine onNext_mono (mainAct_runWrites u h) fun v hv => ?_
      split
      · rw [onNext_next]
        exact writesOnly_trans (writesOnly_trans hv.writes (writesOnly_position P v v.todo ts v.draws v.cidx)) (hfin _)
      · exact drive_writes hfin ts v hts.2 hv
    · rw [drive_agent finish ht]
      refine drive_writes hfin ts _ hts.2 ⟨?_, by simpa using h.lines⟩
      exact writesOnly_trans h.writes (writesOnly_mono (agentAct_writes t u) hts.1)

/-- The turns a step of this state can take: those prescribed, or one free turn (20_memory.md R103). -/
def turnsAhead (s : State) : List Config.Turn := if s.turns = [] then [Config.freeTurn s.draws] else s.turns

theorem interleave_eq_drive (finish : State → State) (s : State) : ∃ n,
    interleave finish s = drive finish (turnsAhead s) { s with turns := [], draws := n } := by
  unfold interleave turnsAhead
  split
  · rename_i h
    exact ⟨s.draws + 1, by rw [← h]⟩
  · exact ⟨s.draws, rfl⟩

/-- The parts that the agents other than MAIN may write while a step of this state takes its turns. -/
def agentsFootprint (s : State) : List Part := (turnsAhead s).flatMap turnFootprint

/-- The agents write at most TICK_FLAG, and that only where PTIMER may tick. -/
theorem mem_agentsFootprint {s : State} {p : Part} (h : p ∈ agentsFootprint s) :
    p = .tickSet ∧ (s.turns = [] ∨ .ptimerTick ∈ s.turns) := by
  obtain ⟨t, ht, hp⟩ := List.mem_flatMap.1 h
  cases t <;> simp only [turnFootprint, List.mem_singleton, List.not_mem_nil] at hp
  case ptimerTick =>
    refine ⟨hp, ?_⟩
    unfold turnsAhead at ht
    split at ht
    · exact .inl ‹_›
    · exact .inr ht

/-- A command writes only what its lines, its end and the other agents write. -/
theorem runCommand_writes {P : List Part} {body : List Stmt} {finish : State → State} {s : State} (hs : s.todo = [])
    (hbody : LinesWithin P body) (hfin : ∀ u, WritesOnly P u (finish u)) (hagents : agentsFootprint s ⊆ P) :
    onNext (runCommand body finish s) (WritesOnly P s) := by
  have hbegin : RunWrites P s (push body s) :=
    ⟨writesOnly_position P s (body ++ s.todo) s.turns s.draws s.cidx, by simpa [hs] using hbody⟩
  rw [runCommand, runOperation, if_pos hs, beginOperation, andThen_next, onNext_andThen]
  intro u hu
  have hrun := settle_runWrites settleFuel _ hbegin u hu
  have hkeep := settle_keeps settleFuel _ u hu
  have hahead : turnsAhead u = turnsAhead s := by rw [turnsAhead, hkeep.turns, hkeep.draws]; rfl
  split
  · rw [onNext_next]
    exact writesOnly_trans hrun.writes (hfin u)
  · obtain ⟨n, hn⟩ := interleave_eq_drive finish u
    rw [hn, hahead]
    refine drive_writes hfin _ _ (fun t ht => fun p hp => hagents (List.mem_flatMap.2 ⟨t, ht, hp⟩)) ⟨?_, hrun.lines⟩
    exact writesOnly_trans hrun.writes (writesOnly_position P u u.todo [] n u.cidx)

/-! ### Commands -/

/-- The lines of a command (30_encoding.md R114). -/
def commandLines : Instr → List Stmt
  | .writeChar slot ch => [.write slot.toNat ch]
  | .setInd a b => [.ind a b]
  | .readBtn => [.readBtn]
  | .tick => [.tick]
  | .wait units => [.wait units]
  | .sampleEntropy => [.sample]
  | .clear => bodyClear
  | .showWord t => bodyShowWord t
  | .showPhrase t => bodyShowPhrase t
  | .scroll t => bodyScroll t
  | .showNumber n => bodyShowNumber n
  | .generate => [.genBtn]
  | .playRound seq round => bodyPlayRound seq round
  | .capture seq round => bodyCapture seq round

/-- Whether a command gives a response at its end (30_encoding.md R119). -/
def responds : Instr → Bool
  | .readBtn | .tick | .sampleEntropy | .generate | .capture _ _ => true
  | .writeChar _ _ | .setInd _ _ | .wait _ | .clear | .showWord _ | .showPhrase _ | .scroll _ | .showNumber _
  | .playRound _ _ => false

/-- The end of a command. -/
def commandEnd (i : Instr) : State → State := if responds i then endWithResponse else endCommand

theorem requireText_eq_next {t : Text} {r : Result} {u : State} (h : requireText t r = .next u) : r = .next u := by
  unfold requireText at h
  split at h
  · exact h
  · cases h

theorem requireRound_eq_next {round : Byte} {r : Result} {u : State} (h : requireRound round r = .next u) : r = .next u := by
  unfold requireRound at h
  split at h
  · exact h
  · cases h

/-- A command that answers ran its lines. -/
theorem exec_runs_lines {i : Instr} {s t : State} (h : exec i s = .next t) :
    runCommand (commandLines i) (commandEnd i) s = .next t := by
  cases i
  case showWord | showPhrase | scroll => exact requireText_eq_next h
  case playRound | capture => exact requireRound_eq_next h
  all_goals exact h

/-- The parts that a command of MAIN may write. -/
def commandFootprint (i : Instr) : List Part :=
  (commandLines i).flatMap footprint ++ if responds i then [.resp] else []

theorem commandEnd_writes {P : List Part} {i : Instr} (hP : commandFootprint i ⊆ P) (s : State) :
    WritesOnly P s (commandEnd i s) := by
  have hc : ∀ u, WritesOnly P u (endCommand u) := fun u => writesOnly_position P u u.todo u.turns u.draws (u.cidx + 1)
  unfold commandEnd
  split
  · rename_i hr
    have hresp : .resp ∈ P := hP (by simp [commandFootprint, hr])
    exact writesOnly_trans (writesOnly_emit (e := .resp s.ret) hresp s) (hc _)
  · exact hc s

/-- The frame of every command. -/
theorem exec_writes {i : Instr} {s t : State} (hs : s.todo = []) (h : exec i s = .next t) :
    WritesOnly (commandFootprint i ++ agentsFootprint s) s t := by
  have hleft : commandFootprint i ⊆ commandFootprint i ++ agentsFootprint s := List.subset_append_left _ _
  refine runCommand_writes hs (fun st hst p hp => ?_) (commandEnd_writes hleft) (List.subset_append_right _ _) t
    (exec_runs_lines h)
  exact hleft (List.mem_append_left _ (List.mem_flatMap.2 ⟨st, hst, hp⟩))

/-- No line sets TICK_FLAG (10_state.md R41). -/
theorem tickSet_notMem_commandFootprint (i : Instr) : .tickSet ∉ commandFootprint i := by
  have hline : ∀ st, .tickSet ∉ footprint st := by intro st; cases st <;> simp [footprint]
  cases h : responds i <;> simp [commandFootprint, h, hline]

/-- What a command does not write is as before, but TICK_FLAG, which PTIMER may set. -/
theorem exec_same {i : Instr} {s t : State} {p : Part} (hs : s.todo = []) (h : exec i s = .next t)
    (hp : p ∉ commandFootprint i) (ht : p ≠ .tickSet) : p.same s t :=
  (exec_writes hs h).same p fun hx =>
    (List.mem_append.1 hx).elim hp fun hx => ht (mem_agentsFootprint hx).1

/-- Where PTIMER does not tick a command does not set TICK_FLAG. -/
theorem exec_sets_no_tickFlag {i : Instr} {s t : State} (hs : s.todo = []) (h : exec i s = .next t) (hne : s.turns ≠ [])
    (hno : .ptimerTick ∉ s.turns) : t.tickFlag = true → s.tickFlag = true :=
  (exec_writes hs h).same .tickSet fun hx =>
    (List.mem_append.1 hx).elim (tickSet_notMem_commandFootprint i) fun hx =>
      (mem_agentsFootprint hx).2.elim hne hno

/-- A command adds only the events of the parts it writes. -/
theorem exec_trace {i : Instr} {s t : State} (hs : s.todo = []) (h : exec i s = .next t) :
    ∃ es, t.trace = s.trace ++ es ∧ ∀ e ∈ es, eventPart e ∈ commandFootprint i := by
  obtain ⟨es, hes, hP⟩ := (exec_writes hs h).trace
  refine ⟨es, hes, fun e he => (List.mem_append.1 (hP e he)).elim id fun hx => ?_⟩
  have htick : eventPart e = .tickSet := (mem_agentsFootprint hx).1
  cases e <;> cases htick

@[simp] theorem commandFootprint_clear : commandFootprint .clear = [.disp] := rfl
@[simp] theorem commandFootprint_showWord (x : Text) :
    commandFootprint (.showWord x) = [.disp, .i, .disp, .error] := rfl
@[simp] theorem commandFootprint_showPhrase (x : Text) :
    commandFootprint (.showPhrase x) = [.disp, .i, .disp, .error, .dcnt, .tickClear] := rfl
@[simp] theorem commandFootprint_scroll (x : Text) :
    commandFootprint (.scroll x) = [.disp, .off, .disp, .dcnt, .tickClear] := rfl
@[simp] theorem commandFootprint_showNumber (n : Word32) :
    commandFootprint (.showNumber n) = [.disp, .rem, .digk, .started, .i, .disp, .error] := rfl

/-- Settles O17: the footprint of each of the five commands leaves out the parts that the statement says are kept. -/
theorem displayCommandsKeepTheIndicators : Obligations.DisplayCommandsKeepTheIndicators := by
  intro i s t hs hi h
  have same : ∀ p, p ∉ commandFootprint i → p ≠ .tickSet → p.same s t := fun p => exec_same hs h
  have houter : ∀ p ∈ ([.outReg, .pcntPress, .capOver, .k, .ret, .resp] : List Part), p ∉ commandFootprint i := by
    rcases hi with rfl | ⟨x, rfl⟩ | ⟨x, rfl⟩ | ⟨x, rfl⟩ | ⟨n, rfl⟩ <;> simp
  refine ⟨same .outReg (houter _ (by simp)) nofun, same .pcntPress (houter _ (by simp)) nofun,
    same .capOver (houter _ (by simp)) nofun, same .k (houter _ (by simp)) nofun, same .ret (houter _ (by simp)) nofun,
    fun hj => ?i, fun hj => ?off, fun hj => ?number, fun hj => ?timer, ?trace⟩
  case i =>
    refine same .i ?_ nofun
    rcases hj with rfl | ⟨x, rfl⟩ <;> simp
  case off =>
    refine same .off ?_ nofun
    rcases hi with rfl | ⟨x, rfl⟩ | ⟨x, rfl⟩ | ⟨x, rfl⟩ | ⟨n, rfl⟩ <;> simp at hj ⊢
  case number =>
    have hnum : ∀ p ∈ ([.rem, .digk, .started] : List Part), p ∉ commandFootprint i := by
      rcases hi with rfl | ⟨x, rfl⟩ | ⟨x, rfl⟩ | ⟨x, rfl⟩ | ⟨n, rfl⟩ <;> simp at hj ⊢
    exact ⟨same .rem (hnum _ (by simp)) nofun, same .digk (hnum _ (by simp)) nofun,
      same .started (hnum _ (by simp)) nofun⟩
  case timer =>
    have htim : ∀ p ∈ ([.dcnt, .tickClear] : List Part), p ∉ commandFootprint i := by
      rcases hj with rfl | ⟨x, rfl⟩ | ⟨n, rfl⟩ <;> simp
    have hkept : s.tickFlag = true → t.tickFlag = true := same .tickClear (htim _ (by simp)) nofun
    exact ⟨same .dcnt (htim _ (by simp)) nofun, hkept, fun hne hno =>
      Bool.eq_iff_iff.2 ⟨exec_sets_no_tickFlag hs h hne hno, hkept⟩⟩
  case trace =>
    obtain ⟨es, hes, hparts⟩ := exec_trace hs h
    refine ⟨es, hes, fun e he => ?_⟩
    have hp := hparts e he
    cases e with
    | write slot ch => exact .inl ⟨slot, ch, rfl⟩
    | error k => exact .inr ⟨k, rfl⟩
    | ind a b => exact absurd hp (houter .outReg (by simp))
    | resp v => exact absurd hp (houter .resp (by simp))

end Sys2Proof.Proofs
end

section
/-! The steps of the timers and of PLAYER, and the state after reset. -/

namespace Sys2Proof.Proofs

open Sys2Proof.Machine
open Sys2Proof.Laws

/-! ### The timers and PLAYER -/

theorem agentAct_ptimerTick (s : State) : agentAct .ptimerTick s = { s with tickFlag := true, ptimerCnt := 0 } := rfl

theorem agentAct_ptimerCount (s : State) : agentAct .ptimerCount s =
    { s with ptimerCnt := if s.ptimerCnt < s.tickCmp.toNat then s.ptimerCnt + 1 else s.ptimerCnt } := rfl

/-- FTIMER's step and PTIMER's read and write nothing in common, so they commute. -/
theorem agentAct_ftimer_comm {t : Config.Turn} (ht : t ∈ ([.ptimerCount, .ptimerTick] : List Config.Turn)) (s : State) :
    agentAct .ftimer (agentAct t s) = agentAct t (agentAct .ftimer s) := by
  rw [agentAct_ftimer, agentAct_ftimer]
  rcases List.mem_pair.1 ht with rfl | rfl
  · rw [agentAct_ptimerCount, agentAct_ptimerCount]
  · rw [agentAct_ptimerTick, agentAct_ptimerTick]

theorem agentAct_ptimer_free {t : Config.Turn} (ht : t ∈ ([.ptimerCount, .ptimerTick] : List Config.Turn)) (s : State) :
    (agentAct t s).freeCnt = s.freeCnt ∧ (agentAct t s).freeOvf = s.freeOvf := by
  rcases List.mem_pair.1 ht with rfl | rfl <;> exact ⟨rfl, rfl⟩

/-- Settles O21, from the equation of each agent's step. -/
theorem timersAndPlayerStepIndependently : Obligations.TimersAndPlayerStepIndependently := by
  intro s
  have hf := agentAct_ftimer s
  refine ⟨hf, ⟨0, agentAct_ptimerTick s⟩, ⟨_, agentAct_ptimerCount s⟩, fun t ht => ?_, by rw [hf], by rw [hf],
    fun levels => rfl⟩
  obtain ⟨hcnt, hovf⟩ := agentAct_ptimer_free ht s
  exact ⟨hcnt, hovf, agentAct_ftimer_comm ht s⟩

/-! ### Reset -/

/-- Before the first event OUT_REG is without value for an observer (70_reset_and_hazards.md R322). -/
theorem outShown_of_trace_nil {s : State} (h : s.trace = []) : outShown s = none := by simp [outShown, h]

/-- And so is every slot. -/
theorem slotShown_of_trace_nil {s : State} (h : s.trace = []) (slot : Nat) : slotShown s slot = none := by
  simp [slotShown, h]

/-- Settles O54: the registers are those of `State.resetOf`, and its trace is empty. -/
theorem resetValues : Obligations.ResetValues := by
  intro l
  have htrace : (State.resetOf l).trace = [] := rfl
  exact ⟨State.resetOf l, rfl, rfl, rfl, rfl, rfl, rfl, rfl, rfl, rfl, rfl, rfl, rfl, rfl, rfl, fun _ => rfl, fun _ => rfl,
    rfl, rfl, rfl, rfl, rfl, outShown_of_trace_nil htrace, fun slot _ => slotShown_of_trace_nil htrace slot⟩

end Sys2Proof.Proofs
end

section
/-! What every step keeps: the launch, TICK_CMP, and the trace so far. -/

namespace Sys2Proof.Proofs

open Sys2Proof.Machine
open Sys2Proof.Safety
open Sys2Proof.Laws

/-- From `s` to `t` the launch (20_memory.md R101) and TICK_CMP (10_state.md R45) stayed, and the trace only grew. -/
structure LaunchKept (s t : State) : Prop where
  launch : t.launch = s.launch
  tickCmp : t.tickCmp = s.tickCmp
  trace : ∃ es, t.trace = s.trace ++ es

theorem launchKept_of_trace_eq {s t : State} (hl : t.launch = s.launch) (hc : t.tickCmp = s.tickCmp)
    (ht : t.trace = s.trace) : LaunchKept s t :=
  ⟨hl, hc, [], by rw [ht, List.append_nil]⟩

theorem launchKept_trans {s t u : State} (h : LaunchKept s t) (g : LaunchKept t u) : LaunchKept s u where
  launch := g.launch.trans h.launch
  tickCmp := g.tickCmp.trans h.tickCmp
  trace := by
    obtain ⟨es, hes⟩ := h.trace
    obtain ⟨fs, hfs⟩ := g.trace
    exact ⟨es ++ fs, by rw [hfs, hes, List.append_assoc]⟩

theorem launchKept_of_mainKeeps {s t : State} (h : MainKeeps s t) : LaunchKept s t := ⟨h.launch, h.tickCmp, h.trace⟩

theorem agentAct_launchKept (t : Config.Turn) (s : State) : LaunchKept s (agentAct t s) :=
  have hk := agentAct_keeps t s
  launchKept_of_trace_eq hk.launch hk.tickCmp hk.trace

theorem launchKept_interleaving {s t : State} (h : LaunchKept s t) (ts : List Config.Turn) (n : Nat) :
    LaunchKept s { t with turns := ts, draws := n } := ⟨h.launch, h.tickCmp, h.trace⟩

/-- An operation keeps the launch if its entry and its end do: the lines of MAIN and the other agents always do. -/
theorem runOperation_launchKept {start : State → Result} {finish : State → State} {s : State}
    (hstart : onNext (start s) (LaunchKept s)) (hfin : ∀ u, LaunchKept u (finish u)) :
    onNext (runOperation start finish s) (LaunchKept s) := by
  refine runOperation_onNext (I := LaunchKept s) (fun _ => ?begin) (fun _ => launchKept_of_trace_eq rfl rfl rfl)
    (fun u hu => onNext_mono (mainAct_keeps u) fun _ hv => launchKept_trans hu (launchKept_of_mainKeeps hv))
    (fun t u hu => launchKept_trans hu (agentAct_launchKept t u)) (fun u ts n hu => launchKept_interleaving hu ts n)
    (fun u hu _ => hu) (fun u hu _ => launchKept_trans hu (hfin u))
  case begin =>
    rw [beginOperation, onNext_andThen]
    refine onNext_mono hstart fun u hu => ?_
    exact onNext_mono (settle_keeps settleFuel u) fun _ hv => launchKept_trans hu (launchKept_of_mainKeeps hv)

theorem commandEnd_launchKept (i : Instr) (s : State) : LaunchKept s (commandEnd i s) := by
  unfold commandEnd
  split
  · exact ⟨rfl, rfl, [.resp s.ret], rfl⟩
  · exact launchKept_of_trace_eq rfl rfl rfl

theorem exec_launchKept {i : Instr} {s t : State} (h : exec i s = .next t) : LaunchKept s t :=
  have hpush : onNext (.next (push (commandLines i) s)) (LaunchKept s) :=
    (onNext_next _ _).2 (launchKept_of_trace_eq rfl rfl rfl)
  runOperation_launchKept (start := fun s => .next (push (commandLines i) s)) hpush (commandEnd_launchKept i) t
    (exec_runs_lines h)

/-- A label's entry writes registers of the game and MAIN's position alone. -/
theorem labelBegin_launchKept (l : Label) (s : State) : onNext (labelBegin l s) (LaunchKept s) := by
  have hpush : ∀ ls, onNext (.next (push ls s)) (LaunchKept s) := fun ls =>
    (onNext_next _ _).2 (launchKept_of_trace_eq rfl rfl rfl)
  cases l
  case a1 => exact fun t ht => hpush _ t (requireText_eq_next ht)
  case rl6 | rl7 =>
    simp only [labelBegin, onNext_readReg]
    exact fun q _ t ht => hpush _ t (requireRound_eq_next ht)
  all_goals exact (onNext_next _ _).2 (launchKept_of_trace_eq rfl rfl rfl)

theorem labelEnd_launchKept (l : Label) (s : State) : LaunchKept s (labelEnd l s) := by
  cases l <;> exact launchKept_of_trace_eq rfl rfl rfl

theorem idle_launchKept (s : State) : onNext (idle s) (LaunchKept s) := by
  have hturn : ∀ t ts n, onNext (.next (agentAct t { s with turns := ts, draws := n })) (LaunchKept s) := fun t ts n =>
    (onNext_next _ _).2 (launchKept_trans (t := { s with turns := ts, draws := n }) (launchKept_of_trace_eq rfl rfl rfl)
      (agentAct_launchKept t _))
  unfold idle
  split
  · exact hturn _ s.turns _
  · exact hturn _ _ s.draws

/-- Where fetch answers the list is admitted, and what it hands over answers (30_encoding.md R126). -/
theorem fetch_eq_next {s t : State} {f : Option Instr → Result} (h : fetch s f = .next t) : ∃ i?, f i? = .next t := by
  unfold fetch at h
  split at h
  · cases h
  · exact ⟨_, h⟩

/-- Settles O15: a step is a label, a command or an idle turn, and each keeps the launch. -/
theorem stepsKeepTheLaunch : Obligations.StepsKeepTheLaunch := by
  intro s t h
  have hkept : LaunchKept s t := by
    unfold step at h
    split at h
    · exact runOperation_launchKept (labelBegin_launchKept s.cpc s) (labelEnd_launchKept s.cpc) t h
    · obtain ⟨_ | i, hi⟩ := fetch_eq_next h
      · exact idle_launchKept s t hi
      · exact exec_launchKept hi
  exact ⟨hkept.launch, hkept.tickCmp, hkept.trace⟩

end Sys2Proof.Proofs
end

section
/-! The interrupt handler and MAIN: an interleaving without its ISR turns gives the same run but for FREE_OVF. -/

namespace Sys2Proof.Proofs

open Sys2Proof.Machine
open Sys2Proof.Safety
open Sys2Proof.Laws

/-- The interleaving without the turns of ISR. -/
def dropIsr (ts : List Config.Turn) : List Config.Turn := ts.filter (· ≠ .isr)

/-- `s` with this FREE_OVF, and without the turns of ISR among those it prescribes. -/
def withoutIsr (f : Bool) (s : State) : State := { s with freeOvf := f, turns := dropIsr s.turns }

theorem dropIsr_isr (ts : List Config.Turn) : dropIsr (.isr :: ts) = dropIsr ts := by simp [dropIsr]

theorem dropIsr_cons {t : Config.Turn} (h : t ≠ .isr) (ts : List Config.Turn) :
    dropIsr (t :: ts) = t :: dropIsr ts := by simp [dropIsr, h]

theorem ne_nil_of_dropIsr_ne_nil {ts : List Config.Turn} (h : dropIsr ts ≠ []) : ts ≠ [] := by
  rintro rfl
  exact h rfl

/-! ### MAIN and the other agents -/

/-- Where an action keeps the interleaving, hiding it with the values of before is hiding it with those of after. -/
theorem andThen_withHidden {r : Result} {s : State} (h : onNext r (MainKeeps s)) (f : Bool) :
    (andThen r fun t => .next (withHidden f (dropIsr s.turns) s.draws t)) = andThen r fun t => .next (withoutIsr f t) := by
  cases r with
  | next t =>
    have hk := h t rfl
    rw [andThen_next, andThen_next, ← hk.turns, ← hk.draws]
    rfl
  | fault e => rfl
  | refused e => rfl

theorem settle_withoutIsr (f : Bool) (n : Nat) (s : State) :
    settle n (withoutIsr f s) = andThen (settle n s) fun t => .next (withoutIsr f t) :=
  (settle_withHidden f (dropIsr s.turns) s.draws n s).trans (andThen_withHidden (settle_keeps n s) f)

/-- MAIN's turn does not see FREE_OVF (60_exceptions.md R283). -/
theorem mainAct_withoutIsr (f : Bool) (s : State) :
    mainAct (withoutIsr f s) = andThen (mainAct s) fun t => .next (withoutIsr f t) :=
  (mainAct_withHidden f (dropIsr s.turns) s.draws s).trans (andThen_withHidden (mainAct_keeps s) f)

/-- ISR's turn changes FREE_OVF alone (R284). -/
theorem withoutIsr_agentAct_isr (f : Bool) (s : State) : withoutIsr f (agentAct .isr s) = withoutIsr f s := by
  rw [agentAct, takeInterrupt_eq]
  rfl

/-- The step of every agent is the same whatever FREE_OVF is, but for FREE_OVF. -/
theorem agentAct_withoutIsr (f : Bool) (t : Config.Turn) (s : State) :
    ∃ f', agentAct t (withoutIsr f s) = withoutIsr f' (agentAct t s) := by
  cases t with
  | main => exact ⟨f, rfl⟩
  | ptimerCount => exact ⟨f, rfl⟩
  | ptimerTick => exact ⟨f, rfl⟩
  | ftimer => exact ⟨f || decide (s.freeCnt = 0xFFFF), by rw [agentAct_ftimer, agentAct_ftimer]; rfl⟩
  | isr => exact ⟨false, by simp only [agentAct, takeInterrupt_eq]; rfl⟩
  | player levels => exact ⟨f, rfl⟩

/-! ### Operations -/

/-- An operation whose entry and end see neither FREE_OVF nor the interleaving. -/
structure IsrBlind (start : State → Result) (finish : State → State) : Prop where
  begins : ∀ f s, start (withoutIsr f s) = andThen (start s) fun t => .next (withoutIsr f t)
  turns : ∀ s, onNext (start s) fun t => t.turns = s.turns
  ends : ∀ f s, finish (withoutIsr f s) = withoutIsr f (finish s)

/-- A run through an interleaving and the run without its ISR turns go side by side. -/
theorem drive_withoutIsr {finish : State → State} (hfin : ∀ f s, finish (withoutIsr f s) = withoutIsr f (finish s)) :
    ∀ (ts : List Config.Turn) (f : Bool) (s t : State), drive finish ts s = .next t →
      ∃ f', drive finish (dropIsr ts) (withoutIsr f s) = .next (withoutIsr f' t)
  | [], f, s, t, h => by
    cases h
    exact ⟨f, rfl⟩
  | a :: ts, f, s, t, h => by
    by_cases hmain : a = .main
    · subst hmain
      rw [drive_main, andThen_eq_next] at h
      obtain ⟨u, hu, h⟩ := h
      rw [dropIsr_cons (by decide), drive_main, mainAct_withoutIsr, hu, andThen_next, andThen_next]
      by_cases hdone : u.todo = []
      · rw [if_pos hdone] at h
        cases h
        exact ⟨f, by rw [if_pos (by exact hdone), ← hfin]; rfl⟩
      · rw [if_neg hdone] at h
        rw [if_neg (by exact hdone)]
        exact drive_withoutIsr hfin ts f u t h
    · rw [drive_agent finish hmain] at h
      by_cases hisr : a = .isr
      · subst hisr
        rw [dropIsr_isr, ← withoutIsr_agentAct_isr]
        exact drive_withoutIsr hfin ts f _ t h
      · obtain ⟨f', hf'⟩ := agentAct_withoutIsr f a s
        rw [dropIsr_cons hisr, drive_agent finish hmain, hf']
        exact drive_withoutIsr hfin ts f' _ t h

theorem interleave_withoutIsr {finish : State → State} (hfin : ∀ f s, finish (withoutIsr f s) = withoutIsr f (finish s))
    (f : Bool) {s t : State} (hs : dropIsr s.turns ≠ []) (h : interleave finish s = .next t) :
    ∃ f', interleave finish (withoutIsr f s) = .next (withoutIsr f' t) := by
  rw [interleave, if_neg (ne_nil_of_dropIsr_ne_nil hs)] at h
  rw [interleave, if_neg (by exact hs)]
  exact drive_withoutIsr hfin s.turns f { s with turns := [] } t h

theorem beginOperation_withoutIsr {start : State → Result} {finish : State → State} (h : IsrBlind start finish)
    (f : Bool) (s : State) :
    beginOperation start (withoutIsr f s) = andThen (beginOperation start s) fun t => .next (withoutIsr f t) := by
  rw [beginOperation, h.begins, beginOperation, andThen_assoc, andThen_assoc]
  congr 1
  funext t
  rw [andThen_next, settle_withoutIsr]

theorem beginOperation_turns {start : State → Result} {finish : State → State} (h : IsrBlind start finish)
    (s : State) : onNext (beginOperation start s) fun t => t.turns = s.turns := by
  rw [beginOperation, onNext_andThen]
  exact onNext_mono (h.turns s) fun u hu => onNext_mono (settle_keeps settleFuel u) fun t ht => ht.turns.trans hu

/-- Where the handler runs is invisible to an operation of MAIN (20_memory.md R97). -/
theorem runOperation_withoutIsr {start : State → Result} {finish : State → State} (h : IsrBlind start finish)
    (f : Bool) {s t : State} (hs : dropIsr s.turns ≠ []) (hr : runOperation start finish s = .next t) :
    ∃ f', runOperation start finish (withoutIsr f s) = .next (withoutIsr f' t) := by
  rw [runOperation, andThen_eq_next] at hr
  obtain ⟨u, hu, hr⟩ := hr
  have hbegun : u.turns = s.turns ∧
      (if (withoutIsr f s).todo = [] then beginOperation start (withoutIsr f s) else .next (withoutIsr f s)) =
        .next (withoutIsr f u) := by
    by_cases hidle : s.todo = []
    · rw [if_pos hidle] at hu
      rw [if_pos (by exact hidle), beginOperation_withoutIsr h, hu, andThen_next]
      exact ⟨beginOperation_turns h s u hu, rfl⟩
    · rw [if_neg hidle] at hu
      cases hu
      exact ⟨rfl, if_neg hidle⟩
  obtain ⟨hturns, hbegun⟩ := hbegun
  rw [runOperation, hbegun, andThen_next]
  by_cases hdone : u.todo = []
  · rw [if_pos hdone] at hr
    cases hr
    exact ⟨f, by rw [if_pos (by exact hdone), h.ends]⟩
  · rw [if_neg hdone] at hr
    rw [if_neg (by exact hdone)]
    exact interleave_withoutIsr h.ends f (by rw [hturns]; exact hs) hr

/-! ### Commands and labels -/

theorem isrBlind_command (i : Instr) : IsrBlind (fun s => .next (push (commandLines i) s)) (commandEnd i) where
  begins _ _ := rfl
  turns s := (onNext_next _ _).2 rfl
  ends f s := by unfold commandEnd; split <;> rfl

theorem andThen_requireText (t : Text) (r : Result) (f : State → Result) :
    andThen (requireText t r) f = requireText t (andThen r f) := by
  unfold requireText
  split
  · rfl
  · exact andThen_refused _ f

theorem andThen_requireRound (round : Byte) (r : Result) (f : State → Result) :
    andThen (requireRound round r) f = requireRound round (andThen r f) := by
  unfold requireRound
  split
  · rfl
  · exact andThen_refused _ f

theorem isrBlind_label (l : Label) : IsrBlind (labelBegin l) (labelEnd l) where
  begins f s := by
    cases l
    case a1 =>
      rw [labelBegin, labelBegin, andThen_requireText]
      rfl
    case rl6 | rl7 =>
      refine readReg_withHidden _ _ _ _ _ fun q => ?_
      rw [andThen_requireRound]
      rfl
    all_goals rfl
  turns s := by
    cases l
    case a1 => exact fun t ht => by cases requireText_eq_next ht; rfl
    case rl6 | rl7 =>
      simp only [labelBegin, onNext_readReg]
      exact fun q _ t ht => by cases requireRound_eq_next ht; rfl
    all_goals exact (onNext_next _ _).2 rfl
  ends f s := by cases l <;> rfl

theorem requireText_of_next {t : Text} {r : Result} {u : State} (h : requireText t r = .next u) (r' : Result) :
    requireText t r' = r' := by
  unfold requireText at h ⊢
  split at h
  · rw [if_pos (by assumption)]
  · cases h

theorem requireRound_of_next {round : Byte} {r : Result} {u : State} (h : requireRound round r = .next u) (r' : Result) :
    requireRound round r' = r' := by
  unfold requireRound at h ⊢
  split at h
  · rw [if_pos (by assumption)]
  · cases h

/-- Whether the operands of a command are admitted does not depend on the state (30_encoding.md R116). -/
theorem exec_eq_runCommand {i : Instr} {s t : State} (h : exec i s = .next t) (u : State) :
    exec i u = runCommand (commandLines i) (commandEnd i) u := by
  cases i
  case showWord | showPhrase | scroll => exact requireText_of_next h _
  case playRound | capture => exact requireRound_of_next h _
  all_goals rfl

/-- Settles O23: the runs with and without the ISR turns go side by side, for a command and for a label. -/
theorem interruptIsInvisibleToMain : Obligations.InterruptIsInvisibleToMain := by
  intro s t ts hts
  refine ⟨fun i h => ?command, fun l h => ?label⟩
  case command =>
    obtain ⟨f, hf⟩ := runOperation_withoutIsr (s := { s with turns := ts }) (isrBlind_command i) s.freeOvf hts
      (exec_runs_lines h)
    exact ⟨f, (exec_eq_runCommand h _).trans hf⟩
  case label => exact runOperation_withoutIsr (s := { s with turns := ts }) (isrBlind_label l) s.freeOvf hts h

end Sys2Proof.Proofs
end

section
/-! The commands of one port access, and the accesses that MAIN has not. -/

namespace Sys2Proof.Proofs

open Sys2Proof.Machine
open Sys2Proof.Safety
open Sys2Proof.Laws

/-! ### Commands of one action -/

/-- A command of one line that leaves no line to run ends at MAIN's next turn. -/
theorem runCommand_one_ends {st : Stmt} (hst : st.silent = false) (finish : State → State) {s u : State}
    {e rest : List Config.Turn} (hs : s.todo = []) (he : .main ∉ e) (ht : s.turns = e ++ .main :: rest)
    (hrun : runStmt st { agents e s with turns := [] } = .next u) (hu : u.todo = []) :
    runCommand [st] finish s = .next (finish { u with turns := rest }) := by
  rw [runCommand_one hst finish s e rest hs he ht, hrun, andThen_next, settle_nil _ hu, andThen_next, if_pos hu]

/-- WRITE_CHAR's line, where slot and code are legal (20_memory.md R85). -/
theorem runStmt_write {slot : Nat} {ch : Byte} (hslot : slot ≤ 6) (hch : ch ≠ 0) (s : State) :
    runStmt (.write slot ch) s = .next (emit (.write slot ch) { s with disp := s.disp.setIfInBounds slot ch }) :=
  writeChar_ok hslot hch s

/-- SET_IND's line (R86). -/
theorem runStmt_ind (a b : Bool) (s : State) :
    runStmt (.ind a b) s = .next (emit (.ind a b) { s with outReg := indByte a b }) :=
  setIndicators_eq a b s

/-- READ_BTN's line (R88). -/
theorem runStmt_readBtn (s : State) :
    runStmt .readBtn s =
      .next { s with ret := (indByte (!s.inReg.getLsbD 0) (!s.inReg.getLsbD 1)).setWidth 16 } := by
  rw [runStmt, lineReadBtn, readButtons_eq]

/-- TICK's line (R87). -/
theorem runStmt_tick (s : State) :
    runStmt .tick s = .next { s with tickFlag := false, ret := if s.tickFlag then 1 else 0 } := by
  rw [runStmt, lineTick, tickTC_eq]
  rfl

theorem agents_todo_nil {s : State} (e : List Config.Turn) (hs : s.todo = []) : (agents e s).todo = [] :=
  (agents_keeps e s).todo.trans hs

/-- WriteChar of a slot or a code outside R85 is PortRefused of the slot. -/
theorem writeChar_refused {slot : Nat} {ch : Byte} (h : 6 < slot ∨ ch = 0) (s : State) :
    writeChar slot ch s = .fault (.portRefused (BitVec.ofNat 8 slot)) := by
  have hbad : ¬(slot < Config.dispSlots ∧ ch ≠ 0) := fun ⟨hslot, hch⟩ =>
    h.elim (fun h6 => by simp only [Config.dispSlots] at hslot; omega) hch
  rw [writeChar, if_neg hbad]

/-- Settles O24: the two answers of WriteChar, at MAIN's next turn. -/
theorem writeCharWritesOneSlot : Obligations.WriteCharWritesOneSlot := by
  intro s slot ch e rest hs he ht
  have hk := agents_keeps e s
  constructor
  · intro hslot hch
    refine (runCommand_one_ends rfl endCommand hs he ht (runStmt_write hslot hch _) (agents_todo_nil e hs)).trans ?_
    rw [← hk.disp, ← hk.trace, ← hk.cidx]
    rfl
  · intro hbad
    have hfault : runStmt (.write slot.toNat ch) { agents e s with turns := [] } = .fault (.portRefused slot) := by
      rw [runStmt, writeChar_refused hbad, BitVec.ofNat_toNat, BitVec.setWidth_eq]
    refine (runCommand_one (st := .write slot.toNat ch) rfl endCommand s e rest hs he ht).trans ?_
    rw [hfault, andThen_fault, andThen_fault]

theorem indByte_eq_ofNat (a b : Bool) : indByte a b = BitVec.ofNat 8 ((if a then 1 else 0) + (if b then 2 else 0)) := by
  cases a <;> cases b <;> rfl

/-- Settles O25: the one SetInd. -/
theorem setIndWritesBothIndicators : Obligations.SetIndWritesBothIndicators := by
  intro s a b e rest hs he ht
  have hk := agents_keeps e s
  refine (runCommand_one_ends rfl endCommand hs he ht (runStmt_ind a b _) (agents_todo_nil e hs)).trans ?_
  rw [← indByte_eq_ofNat, ← hk.trace, ← hk.cidx]
  rfl

/-- The response {pb, pa} of the active-low levels (46_port_commands.md R362). -/
theorem buttonsResponse_eq_ofNat (la lb : Bool) :
    (indByte (!la) (!lb)).setWidth 16 = BitVec.ofNat 16 ((if la then 0 else 1) + (if lb then 0 else 2)) := by
  cases la <;> cases lb <;> rfl

/-- Settles O26: the one ReadBtn, then the response. -/
theorem readBtnRespondsWithThePressedButtons : Obligations.ReadBtnRespondsWithThePressedButtons := by
  intro s e rest hs he ht
  have hk := agents_keeps e s
  refine (runCommand_one_ends rfl endWithResponse hs he ht (runStmt_readBtn _) (agents_todo_nil e hs)).trans ?_
  rw [← buttonsResponse_eq_ofNat, ← hk.trace, ← hk.cidx]
  rfl

/-- Settles O29: the one TickTC, then the response. -/
theorem tickTestsAndClears : Obligations.TickTestsAndClears := by
  intro s e rest hs he ht
  have hk := agents_keeps e s
  refine (runCommand_one_ends rfl endWithResponse hs he ht (runStmt_tick _) (agents_todo_nil e hs)).trans ?_
  rw [← hk.trace, ← hk.cidx]
  rfl

/-! ### The accesses that MAIN has not (20_memory.md R83) -/

theorem memRead_refused {addr : Byte} {n : Nat} (hin : ¬(addr = Config.inRegAddr ∧ n = 1))
    (hcnt : ¬(addr = Config.freeCntAddr ∧ n = 2)) (s : State) (f : Word16 → Result) :
    memRead addr n s f = .fault (.portRefused addr) := by
  rw [memRead, if_neg hin, if_neg hcnt]

theorem memWrite_refused {addr : Byte} {n : Nat} (hdisp : ¬(addr.toNat ≤ 6 ∧ n = 1))
    (hout : ¬(addr = Config.outRegAddr ∧ n = 1)) (v : Byte) (s : State) :
    memWrite addr n v s = .fault (.portRefused addr) := by
  by_cases hn : n = 1
  · have hslot : ¬addr.toNat < Config.dispBase + Config.dispSlots := fun h =>
      hdisp ⟨by simp only [Config.dispBase, Config.dispSlots] at h; omega, hn⟩
    rw [memWrite, if_neg (not_not_intro hn), if_neg hslot, if_neg fun h => hout ⟨h, hn⟩]
  · rw [memWrite, if_pos hn]

/-- Settles O27: a read or a write outside the map falls through every test of it. -/
theorem otherPortAccessesAreRefused : Obligations.OtherPortAccessesAreRefused :=
  fun s _ _ => ⟨fun hin hcnt f => memRead_refused hin hcnt s f, fun hdisp hout v => memWrite_refused hdisp hout v s⟩

end Sys2Proof.Proofs
end

section
/-! The worked encodings, and the opcodes outside the map. -/

namespace Sys2Proof.Proofs

/-- Settles O4: each of the twelve pairs is evaluated, by the encoder and by the decoder. -/
theorem workedEncodings : Obligations.WorkedEncodings := by
  unfold Obligations.WorkedEncodings
  decide

/-- The bytes without a format are those outside the opcode map of 30_encoding.md R114: a branch of `formatOf` for each
opcode of the map, and a last one for the rest. -/
theorem formatOf_eq_none_iff (op : Byte) : formatOf op = none ↔
    op ∉ ([0x01, 0x02, 0x03, 0x10, 0x11, 0x12, 0x20, 0x21, 0x22, 0x23, 0x24, 0x30, 0x40, 0x50] : List Byte) := by
  simp only [formatOf, List.mem_cons, ← BitVec.toNat_inj, List.not_mem_nil, or_false]
  split
  case h_15 => simp_all
  all_goals simp [*]

/-- The decoder refuses at its opcode what the map gives no format (R117): it tests the opcodes of the map and no other. -/
theorem decodeOne_of_formatOf_eq_none {op : Byte} (h : formatOf op = none) (off : Nat) (bs : List Byte) :
    decodeOne off (op :: bs) = .error (.illegalOpcode off) := by
  unfold formatOf at h
  split at h
  case h_15 => simp only [decodeOne]
  all_goals contradiction

/-- Settles O5: such a byte has no format, so the decoder falls through to its last branch. -/
theorem illegalOpcodesAreRefused : Obligations.IllegalOpcodesAreRefused :=
  fun off op bs hop => decodeOne_of_formatOf_eq_none ((formatOf_eq_none_iff op).2 hop) off bs

end Sys2Proof.Proofs
end

section
/-! An operation that neither samples an input nor waits. What MAIN does in it does not depend on the other agents, so through
any interleaving with as many turns of MAIN it ends as it does by MAIN's turns alone. -/

namespace Sys2Proof.Proofs

open Sys2Proof.Machine
open Sys2Proof.Safety
open Sys2Proof.Laws

/-- No line here, nor a line it stands for, samples an input or polls TICK_FLAG. -/
structure Unhindered (ls : List Stmt) : Prop where
  inputs : inputFree ls
  waits : ∃ P, .dcnt ∉ P ∧ LinesWithin P ls

theorem Unhindered.not_at_poll {ls : List Stmt} (h : Unhindered ls) (rest : List Stmt) : ls ≠ .poll :: rest := by
  obtain ⟨P, hP, hl⟩ := h.waits
  rintro rfl
  rw [linesWithin_cons] at hl
  exact hP (hl.1 (by simp [footprint]))

theorem mainAct_unhindered {s : State} (h : Unhindered s.todo) : onNext (mainAct s) fun t => Unhindered t.todo := by
  obtain ⟨P, hP, hl⟩ := h.waits
  have hself : RunWrites P s s := ⟨writesOnly_position P s s.todo s.turns s.draws s.cidx, hl⟩
  exact fun t ht => ⟨mainAct_inputFree s h.inputs t ht, P, hP, (mainAct_runWrites s hself t ht).lines⟩

/-- MAIN's turn is a beat, which MAIN's part of the state determines. -/
theorem onView_mainAct {s : State} (h : Unhindered s.todo) : onView (mainAct s) = beat (view s) :=
  (mainAct_beat s h.inputs).resolve_left fun ⟨_, ⟨ls, hls⟩, _⟩ => h.not_at_poll ls hls

@[simp] theorem view_cidx (s : State) : (view s).cidx = s.cidx := rfl
@[simp] theorem view_disp (s : State) : (view s).disp = s.disp := rfl
@[simp] theorem view_trace (s : State) : (view s).trace = s.trace := rfl

theorem todo_eq_of_view_eq {s t : State} (h : view s = view t) : s.todo = t.todo := by
  rw [← view_todo s, h, view_todo]

/-- The turns of the other agents neither help nor hinder: with as many turns of MAIN as it needs alone, such an operation
ends in the same part of MAIN's. -/
theorem drive_of_main_alone : ∀ (ts : List Config.Turn) {n : Nat} {s a t : State}, Unhindered s.todo → s.todo ≠ [] →
    view s = view a → drive id (List.replicate n .main) a = .next t → t.todo = [] → n ≤ ts.count .main →
    ∃ u, drive id ts s = .next u ∧ view u = view t
  | _, 0, s, a, t, _, hs, hv, ha, ht, _ => by
    cases ha
    exact absurd ((todo_eq_of_view_eq hv).trans ht) hs
  | [], n + 1, _, _, _, _, _, _, _, _, hn => by simp at hn
  | x :: ts, n + 1, s, a, t, h, hs, hv, ha, ht, hn => by
    by_cases hx : x = .main
    · subst hx
      rw [List.replicate_succ, drive_main, andThen_eq_next] at ha
      obtain ⟨b, hb, ha⟩ := ha
      have hbeat : onView (mainAct s) = .next (view b) := by
        rw [onView_mainAct h, hv, ← onView_mainAct (todo_eq_of_view_eq hv ▸ h), hb]
        rfl
      obtain ⟨c, hc, hcb⟩ := onView_eq_next.1 hbeat
      have htodo : c.todo = b.todo := todo_eq_of_view_eq hcb
      rw [drive_main, hc, andThen_next]
      by_cases hdone : b.todo = []
      · rw [if_pos hdone] at ha
        rw [if_pos (htodo.trans hdone)]
        cases ha
        exact ⟨_, rfl, hcb⟩
      · rw [if_neg hdone] at ha
        rw [if_neg (htodo ▸ hdone)]
        exact drive_of_main_alone ts (mainAct_unhindered h c hc) (htodo ▸ hdone) hcb ha ht (by simpa using hn)
    · rw [List.count_cons_of_ne hx] at hn
      rw [drive_agent id hx]
      exact drive_of_main_alone ts (by simpa using h) (by simpa using hs) ((view_agentAct x s).trans hv) ha ht hn

/-- A command of such lines ends, in the part of MAIN's in which it ends by MAIN's turns alone. -/
theorem runCommand_of_main_alone {st : Stmt} {ls : List Stmt} (hst : st.silent = false) (h : Unhindered (st :: ls))
    {n : Nat} {s t : State} (hs : s.todo = []) (hn : n ≤ s.turns.count .main)
    (ha : drive id (List.replicate n .main) { s with todo := st :: ls } = .next t) (ht : t.todo = []) :
    ∃ u, runCommand (st :: ls) endCommand s = .next (endCommand u) ∧ view u = view t := by
  have hturns : s.turns ≠ [] := by
    intro hnil
    rw [hnil, List.count_nil, Nat.le_zero] at hn
    subst hn
    cases ha
    cases ht
  obtain ⟨u, hu, huv⟩ := drive_of_main_alone s.turns (s := { s with todo := st :: ls, turns := [] }) h
    (List.cons_ne_nil _ _) (by rfl) ha ht hn
  refine ⟨u, ?_, huv⟩
  rw [runCommand_start hst ls endCommand s hs hturns, drive_finish _ _ _ (List.cons_ne_nil _ _), hu, andThen_next,
    if_pos ((todo_eq_of_view_eq huv).trans ht)]

end Sys2Proof.Proofs
end

section
/-! CLEAR, put_word and SHOW_WORD (41_display_renderer.md R160 to R163): loops that write a text to ascending slots. -/

namespace Sys2Proof.Proofs

open Sys2Proof.Machine
open Sys2Proof.Safety
open Sys2Proof.Laws

/-! ### Characters written to ascending slots -/

/-- The display after a text is written to ascending slots. -/
def setChars (slot : Nat) : Text → Vector Byte 7 → Vector Byte 7
  | [], d => d
  | c :: cs, d => setChars (slot + 1) cs (d.setIfInBounds slot c)

/-- The state after a text is written to ascending slots: the display, and the events of the writes. -/
def written (slot : Nat) (cs : Text) (s : State) : State :=
  { s with disp := setChars slot cs s.disp, trace := s.trace ++ writesFrom slot cs }

@[simp] theorem written_cidx (slot : Nat) (cs : Text) (s : State) : (written slot cs s).cidx = s.cidx := rfl
@[simp] theorem written_disp (slot : Nat) (cs : Text) (s : State) : (written slot cs s).disp = setChars slot cs s.disp := rfl
@[simp] theorem written_trace (slot : Nat) (cs : Text) (s : State) :
    (written slot cs s).trace = s.trace ++ writesFrom slot cs := rfl

theorem written_nil (slot : Nat) (s : State) : written slot [] s = s := by
  simp [written, setChars, writesFrom]

theorem written_cons (slot : Nat) (c : Byte) (cs : Text) (s : State) :
    written slot (c :: cs) s = written (slot + 1) cs (written slot [c] s) := by
  simp [written, setChars, writesFrom]

/-- One WriteChar (20_memory.md R85) writes a text of one character. -/
theorem writeChar_eq_written {slot : Nat} {c : Byte} (hslot : slot ≤ 6) (hc : c ≠ 0) (s : State) :
    writeChar slot c s = .next (written slot [c] s) :=
  writeChar_ok hslot hc s

/-- A slot before the first one written is as it was. -/
theorem setChars_getElem?_of_lt : ∀ (cs : Text) {slot j : Nat} (d : Vector Byte 7), j < slot →
    (setChars slot cs d)[j]? = d[j]?
  | [], _, _, _, _ => rfl
  | c :: cs, slot, j, d, h => by
    rw [setChars, setChars_getElem?_of_lt cs _ (by omega), Vector.getElem?_setIfInBounds_ne (by omega)]

/-- From the first slot written on, a slot has its character of the text, and past the text it is as it was. -/
theorem setChars_getElem?_add : ∀ (cs : Text) {slot j : Nat} (d : Vector Byte 7), slot + j < 7 →
    (setChars slot cs d)[slot + j]? = cs[j]?.or d[slot + j]?
  | [], _, _, _, _ => rfl
  | c :: cs, slot, 0, d, h => by
    rw [setChars, setChars_getElem?_of_lt cs _ (by omega)]
    exact Vector.getElem?_setIfInBounds_self_of_lt h
  | c :: cs, slot, j + 1, d, h => by
    have ih := setChars_getElem?_add cs (slot := slot + 1) (j := j) (d.setIfInBounds slot c) (by omega)
    rw [show slot + 1 + j = slot + (j + 1) by omega, Vector.getElem?_setIfInBounds_ne (by omega)] at ih
    exact ih

/-! ### Loops of writes -/

/-- MAIN stands before these lines, with this index in I. -/
def atLines (ls : List Stmt) (i : Option (BitVec 3)) (s : State) : State := { s with todo := ls, i := i }

/-- The lines `line 0`, `line 1`, … are a loop that writes the text to ascending slots, one character a line, with I at
`index k` before line `k`. -/
structure WriteLoop (slot : Nat) (cs : Text) (line : Nat → Stmt) (index : Nat → Option (BitVec 3)) : Prop where
  active : ∀ k, (line k).silent = false
  run : ∀ k (hk : k < cs.length) (rest : List Stmt) (s : State), runStmt (line k) (atLines rest (index k) s) =
    .next (atLines ((if k + 1 < cs.length then [line (k + 1)] else []) ++ rest) (index (k + 1))
      (written (slot + k) [cs[k]] s))

/-- How a run goes on after a turn of MAIN: the operation has ended, or it takes the turns left. -/
def afterMain (ts : List Config.Turn) (t : State) : Result :=
  if t.todo = [] then .next { t with turns := ts } else drive id ts t

theorem drive_main_eq_afterMain (ts : List Config.Turn) (s : State) :
    drive id (.main :: ts) s = andThen (mainAct s) (afterMain ts) :=
  drive_main id ts s

theorem afterMain_nil (ts : List Config.Turn) (i : Option (BitVec 3)) (s : State) :
    afterMain ts (atLines [] i s) = .next { atLines [] i s with turns := ts } :=
  if_pos rfl

theorem afterMain_cons (ts : List Config.Turn) (st : Stmt) (ls : List Stmt) (i : Option (BitVec 3)) (s : State) :
    afterMain ts (atLines (st :: ls) i s) = drive id ts (atLines (st :: ls) i s) :=
  if_neg (List.cons_ne_nil st ls)

section

variable {slot : Nat} {cs : Text} {line : Nat → Stmt} {index : Nat → Option (BitVec 3)}

/-- MAIN's turn at a line of a loop. -/
theorem WriteLoop.mainAct_eq (h : WriteLoop slot cs line index) {k : Nat} (hk : k < cs.length) (rest : List Stmt) (s : State) :
    mainAct (atLines (line k :: rest) (index k) s) =
      settle settleFuel (atLines ((if k + 1 < cs.length then [line (k + 1)] else []) ++ rest) (index (k + 1))
        (written (slot + k) [cs[k]] s)) :=
  (congrArg (andThen · _) (h.run k hk rest s)).trans (andThen_next _ _)

/-- MAIN's turns, with nothing between them, through a loop of writes from its line `k` on: the rest of the text is written,
and the silent code after the loop runs in the turn of the last write (00_scope.md R16). -/
theorem WriteLoop.drive_from (h : WriteLoop slot cs line index) (rest : List Stmt) (ts : List Config.Turn) :
    ∀ (n k : Nat) (s : State), k + (n + 1) = cs.length →
      drive id (List.replicate (n + 1) .main ++ ts) (atLines (line k :: rest) (index k) s) =
        andThen (settle settleFuel (atLines rest (index cs.length) (written (slot + k) (cs.drop k) s))) (afterMain ts) := by
  intro n
  induction n with
  | zero =>
    intro k s hlen
    have hk : k < cs.length := by omega
    have hdrop : cs.drop k = [cs[k]] := by rw [List.drop_eq_getElem_cons hk, List.drop_eq_nil_of_le (by omega)]
    rw [List.replicate_one, List.singleton_append, drive_main_eq_afterMain, h.mainAct_eq hk, if_neg (by omega), hdrop, ← hlen]
    rfl
  | succ n ih =>
    intro k s hlen
    have hk : k < cs.length := by omega
    rw [List.replicate_succ, List.cons_append, drive_main_eq_afterMain, h.mainAct_eq hk, if_pos (by omega),
      settle_active _ (st := line (k + 1)) (ls := rest) rfl (h.active _), andThen_next, List.singleton_append,
      afterMain_cons, ih (k + 1) _ (by omega), List.drop_eq_getElem_cons hk, written_cons _ _ (cs.drop (k + 1))]
    rfl

/-- The whole loop. -/
theorem WriteLoop.drive_all (h : WriteLoop slot cs line index) (hcs : cs ≠ []) (rest : List Stmt) (ts : List Config.Turn)
    (s : State) : drive id (List.replicate cs.length .main ++ ts) (atLines (line 0 :: rest) (index 0) s) =
      andThen (settle settleFuel (atLines rest (index cs.length) (written slot cs s))) (afterMain ts) := by
  obtain ⟨n, hn⟩ := Nat.exists_eq_succ_of_ne_zero (List.length_pos_of_ne_nil hcs).ne'
  have hall := h.drive_from rest ts n 0 s (by omega)
  rwa [← Nat.succ_eq_add_one, ← hn] at hall

end

/-- CLEAR's loop (R161) leaves I as it is. -/
theorem writeLoop_clear (i : Option (BitVec 3)) :
    WriteLoop 0 (List.replicate 7 Config.blank) .clear (fun _ => i) where
  active _ := rfl
  run k hk rest s := by
    have hlast : k + 1 < (List.replicate 7 Config.blank).length ↔ k < 6 := by rw [List.length_replicate]; omega
    rw [runStmt, lineClear, writeChar_eq_written (by rw [List.length_replicate] at hk; omega) (by decide), andThen_next]
    simp only [hlast, List.getElem_replicate, Nat.zero_add]
    rfl

/-- A line that writes the character at I and goes on to the next is a loop over a word that fits (R160). -/
theorem writeLoop_of_index {st : Stmt} {w : Text} (hst : st.silent = false) (hlen : w.length ≤ 6) (hw : noNul w)
    (hrun : ∀ {s : State} {i : BitVec 3} {c : Byte}, s.i = some i → w[i.toNat]? = some c →
      runStmt st s = andThen (writeChar (i.toNat + 1) c s) fun s =>
        .next (push (if i.toNat + 1 < w.length then [st] else []) { s with i := some (i + 1) })) :
    WriteLoop 1 w (fun _ => st) (fun k => some (BitVec.ofNat 3 k)) where
  active _ := hst
  run k hk rest s := by
    have hi : (BitVec.ofNat 3 k).toNat = k := Nat.mod_eq_of_lt (by omega)
    rw [hrun rfl (by rw [hi]; exact List.getElem?_eq_getElem hk), hi,
      writeChar_eq_written (by omega) (hw _ (List.getElem_mem hk)), andThen_next, BitVec.ofNat_add, Nat.add_comm k 1]
    rfl

theorem writeLoop_putChars {w : Text} (hlen : w.length ≤ 6) (hw : noNul w) :
    WriteLoop 1 w (fun _ => .putChars w) (fun k => some (BitVec.ofNat 3 k)) :=
  writeLoop_of_index rfl hlen hw fun hi hc => by rw [runStmt, linePutChars, hi, readReg_some, hc]

theorem writeLoop_errorChars : WriteLoop 1 litError (fun _ => .errorChars) (fun k => some (BitVec.ofNat 3 k)) :=
  writeLoop_of_index rfl (by decide) (by unfold noNul; decide) fun hi hc => by
    rw [runStmt, lineErrorChars, hi, readReg_some, hc]

/-! ### SHOW_WORD -/

/-- The state after put_word: the word, or ERROR and its event (R160). -/
def wordPut (w : Text) (s : State) : State :=
  if 6 < w.length then emit (.error 1) (written 1 litError s) else written 1 w s

@[simp] theorem wordPut_cidx (w : Text) (s : State) : (wordPut w s).cidx = s.cidx := by
  unfold wordPut
  split <;> simp

@[simp] theorem wordPut_trace (w : Text) (s : State) : (wordPut w s).trace = s.trace ++ putWordTrace w := by
  unfold wordPut putWordTrace
  split <;> simp

@[simp] theorem wordPut_disp (w : Text) (s : State) :
    (wordPut w s).disp = setChars 1 (if 6 < w.length then litError else w) s.disp := by
  unfold wordPut
  split <;> simp

/-- The state after SHOW_WORD: seven BLANKs (R161), then put_word (R162). -/
def wordShown (w : Text) (s : State) : State := wordPut w (written 0 (List.replicate 7 Config.blank) s)

@[simp] theorem wordShown_cidx (w : Text) (s : State) : (wordShown w s).cidx = s.cidx := by
  rw [wordShown, wordPut_cidx, written_cidx]

theorem clrTrace_eq_writesFrom : clrTrace = writesFrom 0 (List.replicate 7 Config.blank) := rfl

@[simp] theorem wordShown_trace (w : Text) (s : State) : (wordShown w s).trace = s.trace ++ showWordTrace w := by
  rw [wordShown, wordPut_trace, written_trace, showWordTrace, clrTrace_eq_writesFrom, List.append_assoc]

/-- SHOW_WORD's display (R163), whatever was there: CLEAR leaves BLANK in every slot, and put_word writes over it from slot 1
on. -/
theorem wordShown_disp (w : Text) (s : State) {slot : Nat} (h : slot < 7) :
    (wordShown w s).disp[slot]? = some (wordSlot w slot) := by
  have hblank : ∀ j < 7, (setChars 0 (List.replicate 7 Config.blank) s.disp)[j]? = some Config.blank := fun j hj => by
    have hclear := setChars_getElem?_add (List.replicate 7 Config.blank) (slot := 0) (j := j) s.disp (by omega)
    rwa [Nat.zero_add, List.getElem?_replicate_of_lt hj, Option.some_or] at hclear
  rw [wordShown, wordPut_disp, written_disp]
  cases slot with
  | zero => rw [setChars_getElem?_of_lt _ _ Nat.one_pos, hblank 0 h]; rfl
  | succ j =>
    rw [Nat.add_comm j 1] at h ⊢
    rw [setChars_getElem?_add _ _ h, hblank _ h, wordSlot, if_neg (c := 1 + j = 0) (by omega), Nat.add_sub_cancel_left,
      List.getD_eq_getElem?_getD, Option.or_some]

theorem unhindered_showWord (w : Text) : Unhindered (bodyShowWord w) where
  inputs := inputFree_showWord w
  waits := ⟨[.disp, .i, .error], by simp, by simp [bodyShowWord, bodyClear, footprint]⟩

/-- put_word of a word that does not fit goes to the loop that writes ERROR (R160). -/
theorem settle_putWord_long {w : Text} (hlen : 6 < w.length) (i : Option (BitVec 3)) (s : State) :
    settle settleFuel (atLines [.putWord w] i s) = .next (atLines [.errorChars, .event 1] (some 0) s) := by
  rw [settleFuel, settle_silent 15 (st := .putWord w) (ls := []) rfl rfl, runStmt, linePutWord, if_pos hlen, andThen_next,
    settle_silent 14 (st := .showError 1) (ls := []) rfl rfl, runStmt, lineShowError, andThen_next,
    settle_active 14 (st := .errorChars) (ls := [.event 1]) rfl rfl]
  rfl

theorem settle_putWord_empty (i : Option (BitVec 3)) (s : State) :
    settle settleFuel (atLines [.putWord []] i s) = .next (atLines [] i s) := by
  rw [settleFuel, settle_silent 15 (st := .putWord []) (ls := []) rfl rfl, runStmt, linePutWord, if_neg (by decide),
    if_pos rfl, andThen_next, settle_nil _ rfl]
  rfl

/-- Any other word is written by put_word's own loop. -/
theorem settle_putWord_fits {w : Text} (hlen : w.length ≤ 6) (hne : w ≠ []) (i : Option (BitVec 3)) (s : State) :
    settle settleFuel (atLines [.putWord w] i s) = .next (atLines [.putChars w] (some 0) s) := by
  rw [settleFuel, settle_silent 15 (st := .putWord w) (ls := []) rfl rfl, runStmt, linePutWord,
    if_neg (Nat.not_lt.2 hlen), if_neg hne, andThen_next, settle_active 15 (st := .putChars w) (ls := []) rfl rfl]
  rfl

/-- The event of put_word follows the last character of ERROR in the same turn of MAIN. -/
theorem settle_event (k : Nat) (i : Option (BitVec 3)) (s : State) :
    settle settleFuel (atLines [.event k] i s) = .next (atLines [] i (emit (.error k) s)) := by
  rw [settleFuel, settle_silent 15 (st := .event k) (ls := []) rfl rfl, runStmt, lineEvent, andThen_next, settle_nil _ rfl]
  rfl

/-- put_word from its first line, which is silent, by MAIN's turns alone. -/
theorem putWord_by_main_alone {w : Text} (hw : noNul w) (i : Option (BitVec 3)) (s : State) : ∃ i',
    andThen (settle settleFuel (atLines [.putWord w] i s)) (afterMain (List.replicate (putWordActions w) .main)) =
      .next { atLines [] i' (wordPut w s) with turns := [] } := by
  by_cases hlong : 6 < w.length
  · have hloop := writeLoop_errorChars.drive_all (by decide) [.event 1] [] s
    rw [settle_event, andThen_next, afterMain_nil, List.append_nil] at hloop
    rw [settle_putWord_long hlong, andThen_next, afterMain_cons, putWordActions, wordPut, if_pos hlong, if_pos hlong]
    exact ⟨_, hloop⟩
  · rw [putWordActions, wordPut, if_neg hlong, if_neg hlong]
    by_cases hempty : w = []
    · subst hempty
      rw [settle_putWord_empty, andThen_next, afterMain_nil, written_nil]
      exact ⟨_, rfl⟩
    · have hloop := (writeLoop_putChars (Nat.not_lt.1 hlong) hw).drive_all hempty [] [] s
      rw [settle_nil _ rfl, andThen_next, afterMain_nil, List.append_nil] at hloop
      rw [settle_putWord_fits (Nat.not_lt.1 hlong) hempty, andThen_next, afterMain_cons]
      exact ⟨_, hloop⟩

/-- SHOW_WORD by MAIN's turns alone. -/
theorem showWord_by_main_alone {w : Text} (hw : noNul w) (s : State) : ∃ i,
    drive id (List.replicate (7 + putWordActions w) .main) { s with todo := bodyShowWord w } =
      .next { atLines [] i (wordShown w s) with turns := [] } := by
  obtain ⟨i, hword⟩ := putWord_by_main_alone hw s.i (written 0 (List.replicate 7 Config.blank) s)
  have hclear := (writeLoop_clear s.i).drive_all (by decide) [.putWord w] (List.replicate (putWordActions w) .main) s
  rw [List.length_replicate, ← List.replicate_add] at hclear
  exact ⟨i, hclear.trans hword⟩

/-- Settles O34: through the interleaving the command ends as it does by MAIN's turns alone, where CLEAR's loop is followed by
put_word's. -/
theorem showWordEndState : Obligations.ShowWordEndState := by
  intro s w hw hs hturns
  obtain ⟨i, halone⟩ := showWord_by_main_alone (legal_iff.1 hw).2 s
  obtain ⟨u, hu, hview⟩ := runCommand_of_main_alone rfl (unhindered_showWord w) hs hturns halone rfl
  have hexec : exec (.showWord w) s = .next (endCommand u) := (if_pos hw).trans hu
  have hcidx : u.cidx = (wordShown w s).cidx := by rw [← view_cidx u, hview]; rfl
  have htrace : u.trace = (wordShown w s).trace := by rw [← view_trace u, hview]; rfl
  have hdisp : u.disp = (wordShown w s).disp := by rw [← view_disp u, hview]; rfl
  refine ⟨endCommand u, hexec, todo_eq_of_view_eq hview, ?cidx, ?trace, ?dcnt, fun slot hslot => ?disp⟩
  case cidx => rw [endCommand_cidx, hcidx, wordShown_cidx]
  case trace => rw [endCommand_trace, htrace, wordShown_trace]
  case dcnt => exact exec_same (p := .dcnt) hs hexec (by simp) nofun
  case disp => rw [endCommand_disp, hdisp, wordShown_disp w s hslot]

end Sys2Proof.Proofs
end

section
/-! SequenceGenerator: GENERATE's two lines (42_sequence_generator.md R200), and where a run of GENERATE can stand. -/

namespace Sys2Proof.Proofs

open Sys2Proof.Machine
open Sys2Proof.Laws

/-- GENERATE's ReadBtn, the start button's reading kept for the test after it. -/
theorem runStmt_genBtn (s : State) : runStmt .genBtn s = .next (push [.genSample
    (pressedOf s.launch.params.startButton (!s.inReg.getLsbD 0) (!s.inReg.getLsbD 1))] s) := by
  rw [runStmt, lineGenBtn, readButtons_eq]

/-- GENERATE's ReadFree: it returns a sample that is pressed and not zero, and starts the next iteration otherwise. -/
theorem runStmt_genSample (pressed : Bool) (s : State) : runStmt (.genSample pressed) s =
    .next (if pressed = true ∧ s.freeCnt ≠ 0 then { s with ret := s.freeCnt } else push [.genBtn] s) := by
  rw [runStmt, lineGenSample, readFree_eq]
  split <;> rfl

/-- Where a run of GENERATE can stand: at either of its two lines, or at its end with a value that is not zero. -/
inductive InGenerate (s : State) : Prop where
  | atReadBtn (htodo : s.todo = [.genBtn])
  | atReadFree (pressed : Bool) (htodo : s.todo = [.genSample pressed])
  | returned (htodo : s.todo = []) (hret : s.ret ≠ 0)

theorem InGenerate.ret_ne_zero {s : State} (h : InGenerate s) (hs : s.todo = []) : s.ret ≠ 0 := by
  cases h with
  | atReadBtn htodo => rw [hs] at htodo; cases htodo
  | atReadFree _ htodo => rw [hs] at htodo; cases htodo
  | returned _ hret => exact hret

/-- Only MAIN's position and the value returned matter. -/
theorem InGenerate.congr {s t : State} (h : InGenerate s) (htodo : t.todo = s.todo) (hret : t.ret = s.ret) :
    InGenerate t := by
  cases h with
  | atReadBtn hs => exact .atReadBtn (htodo.trans hs)
  | atReadFree p hs => exact .atReadFree p (htodo.trans hs)
  | returned hs hne => exact .returned (htodo.trans hs) (hret ▸ hne)

/-- Each of GENERATE's lines leads to the other or, past the test of the sample, to its end. -/
theorem runStmt_inGenerate (st : Stmt) (rest : List Stmt) (s : State) (hs : s.todo = st :: rest) (h : InGenerate s) :
    onNext (runStmt st { s with todo := rest }) InGenerate := by
  cases h with
  | atReadBtn htodo =>
    cases hs.symm.trans htodo
    rw [runStmt_genBtn, onNext_next]
    exact .atReadFree _ rfl
  | atReadFree pressed htodo =>
    cases hs.symm.trans htodo
    rw [runStmt_genSample, onNext_next]
    split
    · rename_i hsample
      exact .returned rfl hsample.2
    · exact .atReadBtn rfl
  | returned htodo _ => cases hs.symm.trans htodo

theorem beginOperation_inGenerate {s : State} (hs : s.todo = []) :
    onNext (beginOperation (fun s => .next (push [.genBtn] s)) s) InGenerate := by
  rw [begin_active rfl, onNext_next]
  exact .atReadBtn (by rw [push, hs]; rfl)

theorem agentAct_inGenerate (t : Config.Turn) (s : State) (h : InGenerate s) : InGenerate (agentAct t s) :=
  h.congr (agentAct_keeps t s).todo (agentAct_keeps t s).ret

/-- Settles O40: from its first line on GENERATE stands at `InGenerate`, MAIN's turns and the other agents' keep it there,
and its end adds the response alone. -/
theorem generateNeverReturnsZero : Obligations.GenerateNeverReturnsZero := by
  intro s t hs hexec
  have hrun : onNext (exec .generate s) fun u => u.todo = [] → u.ret ≠ 0 :=
    runOperation_onNext (I := InGenerate) (fun _ => beginOperation_inGenerate hs) (fun hne => absurd hs hne)
      (mainAct_onNext runStmt_inGenerate) agentAct_inGenerate (fun _ _ _ hu => hu.congr rfl rfl)
      (fun _ _ hne hnil => absurd hnil hne) (fun _ hu hnil _ => hu.ret_ne_zero hnil)
  exact hrun t hexec

end Sys2Proof.Proofs
end

section
/-! The indicators during a run: the events it adds for them, and what the last of these leaves in OUT_REG
(20_memory.md R86). -/

namespace Sys2Proof.Proofs

open Sys2Proof.Machine
open Sys2Proof.Safety
open Sys2Proof.Laws

theorem mem_indicatorEvents {a b : Bool} {es : List Event} : .ind a b ∈ indicatorEvents es ↔ .ind a b ∈ es := by
  simp [indicatorEvents]

theorem indicatorEvents_append (es fs : List Event) :
    indicatorEvents (es ++ fs) = indicatorEvents es ++ indicatorEvents fs :=
  List.filter_append es fs

theorem indicatorEvents_eq_nil {es : List Event} (h : ∀ e ∈ es, eventPart e ≠ .outReg) : indicatorEvents es = [] := by
  refine List.filter_eq_nil_iff.2 fun e he => ?_
  cases e with
  | ind a b => exact absurd rfl (h _ he)
  | write slot ch => exact Bool.false_ne_true
  | error k => exact Bool.false_ne_true
  | resp v => exact Bool.false_ne_true

theorem indByte_not_both {a b : Bool} (h : ¬(a = true ∧ b = true)) :
    ¬((indByte a b).getLsbD 0 = true ∧ (indByte a b).getLsbD 1 = true) := by
  revert h
  cases a <;> cases b <;> decide

/-- From `s` to `t` the indicator events `lit` were added, and OUT_REG is as one of them wrote it, or as it was where there
is none. -/
structure Indicated (lit : List Event) (s t : State) : Prop where
  trace : ∃ es, t.trace = s.trace ++ es ∧ indicatorEvents es = lit
  outReg : (lit = [] ∧ t.outReg = s.outReg) ∨ ∃ a b, .ind a b ∈ lit ∧ t.outReg = indByte a b

theorem indicated_nil {s t : State} (htrace : t.trace = s.trace) (hout : t.outReg = s.outReg) : Indicated [] s t :=
  ⟨⟨[], by rw [htrace, List.append_nil], rfl⟩, .inl ⟨rfl, hout⟩⟩

theorem indicated_setInd (a b : Bool) (s : State) :
    Indicated [.ind a b] s (emit (.ind a b) { s with outReg := indByte a b }) :=
  ⟨⟨[.ind a b], rfl, rfl⟩, .inr ⟨a, b, List.mem_singleton_self _, rfl⟩⟩

theorem indicated_of_writesOnly {P : List Part} {s t : State} (hP : .outReg ∉ P) (h : WritesOnly P s t) :
    Indicated [] s t := by
  obtain ⟨es, hes, hparts⟩ := h.trace
  exact ⟨⟨es, hes, indicatorEvents_eq_nil fun e he hout => hP (hout ▸ hparts e he)⟩, .inl ⟨rfl, h.same .outReg hP⟩⟩

theorem indicated_trans {x y : List Event} {s t u : State} (h : Indicated x s t) (g : Indicated y t u) :
    Indicated (x ++ y) s u where
  trace := by
    obtain ⟨es, hes, rfl⟩ := h.trace
    obtain ⟨fs, hfs, rfl⟩ := g.trace
    exact ⟨es ++ fs, by rw [hfs, hes, List.append_assoc], indicatorEvents_append es fs⟩
  outReg := by
    rcases g.outReg with ⟨rfl, hu⟩ | ⟨a, b, hmem, hu⟩
    · rcases h.outReg with ⟨rfl, ht⟩ | ⟨a, b, hmem, ht⟩
      · exact .inl ⟨rfl, hu.trans ht⟩
      · exact .inr ⟨a, b, List.mem_append_left _ hmem, hu.trans ht⟩
    · exact .inr ⟨a, b, List.mem_append_right _ hmem, hu⟩

theorem indicated_congr {lit : List Event} {s t u : State} (h : Indicated lit s t) (htrace : u.trace = t.trace)
    (hout : u.outReg = t.outReg) : Indicated lit s u :=
  ⟨by rw [htrace]; exact h.trace, by rw [hout]; exact h.outReg⟩

theorem Indicated.indicatorEvents_eq {lit es : List Event} {s t : State} (h : Indicated lit s t)
    (hes : t.trace = s.trace ++ es) : indicatorEvents es = lit := by
  obtain ⟨fs, hfs, rfl⟩ := h.trace
  rw [List.append_cancel_left (hes.symm.trans hfs)]

/-- A quiet line has neither OUT_REG nor K in its footprint. -/
theorem footprint_of_quiet {st : Stmt} (h : quiet st = true) : .outReg ∉ footprint st ∧ .k ∉ footprint st := by
  cases st <;> simp [quiet, footprint] at h ⊢

end Sys2Proof.Proofs
end

section
/-! PLAY_ROUND (43_playback_engine.md R210 to R213). Wherever a run of it stands, MAIN's position and K fix the indicator
events to come, and with those it has added they are always the same: each bit's indicator alone, then both off. -/

namespace Sys2Proof.Proofs

open Sys2Proof.Machine
open Sys2Proof.Safety
open Sys2Proof.Laws

/-! ### The lines -/

theorem runStmt_playStart (seq : Word16) (r : Byte) (s : State) :
    runStmt (.playStart seq r) s = .next (push [.playTest seq r] { s with k := some 0 }) := rfl

theorem runStmt_playTest (seq : Word16) (r : Byte) {s : State} {n : BitVec 5} (hk : s.k = some n) :
    runStmt (.playTest seq r) s = .next (push (if n.toNat ≤ r.toNat then playStep seq r s else []) s) := by
  rw [runStmt, linePlayTest, hk, readReg_some]

theorem runStmt_light (seq : Word16) {s : State} {n : BitVec 5} (hk : s.k = some n) :
    runStmt (.light seq) s = .next (emit (.ind (!seqBit seq n.toNat) (seqBit seq n.toNat))
      { s with outReg := indByte (!seqBit seq n.toNat) (seqBit seq n.toNat) }) := by
  simp only [runStmt, lineLight, hk, readReg_some, setIndicators_eq]

theorem runStmt_playNext (seq : Word16) (r : Byte) {s : State} {n : BitVec 5} (hk : s.k = some n) :
    runStmt (.playNext seq r) s = .next (push [.playTest seq r] { s with k := some (n + 1) }) := by
  rw [runStmt, linePlayNext, hk, readReg_some]

/-! ### The indicator events to come -/

/-- The indicator events of the steps `n` up to the last one of round `r` (R212). -/
def lightsFrom (seq : Word16) (r : Byte) (n : Nat) : List Event :=
  (List.range' n (r.toNat + 1 - n)).flatMap (lightTrace seq)

theorem lightsFrom_of_lt {seq : Word16} {r : Byte} {n : Nat} (h : r.toNat < n) : lightsFrom seq r n = [] := by
  rw [lightsFrom, Nat.sub_eq_zero_of_le h]
  rfl

theorem lightsFrom_of_le {seq : Word16} {r : Byte} {n : Nat} (h : n ≤ r.toNat) :
    lightsFrom seq r n = lightTrace seq n ++ lightsFrom seq r (n + 1) := by
  rw [lightsFrom, Nat.succ_sub h, List.range'_succ, List.flatMap_cons, lightsFrom, Nat.add_sub_add_right]

theorem lightsFrom_zero (seq : Word16) (r : Byte) :
    lightsFrom seq r 0 = (List.range (r.toNat + 1)).flatMap (lightTrace seq) := by
  rw [lightsFrom, Nat.sub_zero, List.range_eq_range']

/-- No event of a round lights both indicators. -/
theorem ind_mem_lightsFrom {seq : Word16} {r : Byte} {n : Nat} {a b : Bool} (h : .ind a b ∈ lightsFrom seq r n) :
    ¬(a = true ∧ b = true) := by
  obtain ⟨k, -, hk⟩ := List.mem_flatMap.1 h
  rcases List.mem_pair.1 hk with hlit | hdark
  · cases hlit
    simp
  · cases hdark
    simp

/-- The lines of PLAY_ROUND(`seq`, `r`) that MAIN has still to run, K being `k`, and the indicator events they will add. -/
inductive PlayLines (seq : Word16) (r : Byte) (k : Option (BitVec 5)) : List Stmt → List Event → Prop where
  | done : PlayLines seq r k [] []
  | quietLine {st : Stmt} {ls : List Stmt} {es : List Event} (hq : quiet st = true) (h : PlayLines seq r k ls es) :
    PlayLines seq r k (st :: ls) es
  | start : PlayLines seq r k [.playStart seq r] (lightsFrom seq r 0)
  | test {n : BitVec 5} (hk : k = some n) : PlayLines seq r k [.playTest seq r] (lightsFrom seq r n.toNat)
  | light {n : BitVec 5} {ls : List Stmt} {es : List Event} (hk : k = some n) (h : PlayLines seq r k ls es) :
    PlayLines seq r k (.light seq :: ls) (.ind (!seqBit seq n.toNat) (seqBit seq n.toNat) :: es)
  | dark {ls : List Stmt} {es : List Event} (h : PlayLines seq r k ls es) :
    PlayLines seq r k (.ind false false :: ls) (.ind false false :: es)
  | next {n : BitVec 5} (hk : k = some n) (hn : n.toNat ≤ r.toNat) :
    PlayLines seq r k [.playNext seq r] (lightsFrom seq r (n.toNat + 1))

theorem PlayLines.append_quiet {seq : Word16} {r : Byte} {k : Option (BitVec 5)} {ls : List Stmt} {es : List Event}
    (h : PlayLines seq r k ls es) : ∀ {qs : List Stmt}, (∀ st ∈ qs, quiet st = true) →
    PlayLines seq r k (qs ++ ls) es
  | [], _ => h
  | _ :: _, hqs => .quietLine (hqs _ List.mem_cons_self) (h.append_quiet fun st hst => hqs st (List.mem_cons_of_mem _ hst))

/-- One step: WATCH, the bit's indicator, both off, and on to the next bit (R210). -/
theorem playLines_playStep {seq : Word16} {r : Byte} {n : BitVec 5} (hn : n.toNat ≤ r.toNat) (s : State) :
    PlayLines seq r (some n) (playStep seq r s) (lightsFrom seq r n.toNat) := by
  rw [lightsFrom_of_le hn]
  exact .quietLine rfl (.quietLine rfl (.quietLine rfl (.light rfl (.quietLine rfl (.dark (.next rfl hn))))))

/-- From `s` to `t` the first of the indicator events `ahead` were added, and the lines still to run add the others. -/
def Plays (seq : Word16) (r : Byte) (ahead : List Event) (s t : State) : Prop :=
  ∃ lit later, ahead = lit ++ later ∧ Indicated lit s t ∧ PlayLines seq r t.k t.todo later

/-- Every line of PLAY_ROUND adds the events that it is to add. K does not overflow, `r` being at most 15. -/
theorem runStmt_plays {seq : Word16} {r : Byte} (hr : r.toNat ≤ 15) {st : Stmt} {rest : List Stmt} {ahead : List Event}
    {s : State} (hs : s.todo = rest) (h : PlayLines seq r s.k (st :: rest) ahead) :
    onNext (runStmt st s) (Plays seq r ahead s) := by
  cases h with
  | quietLine hq hrest =>
    obtain ⟨hout, hk⟩ := footprint_of_quiet hq
    intro t ht
    have hwrites := (runStmt_writes st s t ht).writes
    obtain ⟨-, qs, hqs, htodo⟩ := runStmt_quiet st s hq t ht
    refine ⟨[], ahead, rfl, indicated_of_writesOnly hout hwrites, ?_⟩
    rw [hwrites.same .k hk, htodo, hs]
    exact hrest.append_quiet hqs
  | start =>
    rw [runStmt_playStart, onNext_next]
    refine ⟨[], _, rfl, indicated_nil rfl rfl, ?_⟩
    rw [push_todo, hs]
    exact .test rfl
  | @test n hk =>
    rw [runStmt_playTest seq r hk, onNext_next]
    refine ⟨[], lightsFrom seq r n.toNat, rfl, indicated_nil rfl rfl, ?_⟩
    rw [push_todo, push_k, hs, List.append_nil]
    split
    · rename_i hn
      exact hk ▸ playLines_playStep hn s
    · rename_i hn
      rw [lightsFrom_of_lt (Nat.lt_of_not_le hn)]
      exact .done
  | @light n _ es hk hrest =>
    rw [runStmt_light seq hk, onNext_next]
    exact ⟨[_], es, rfl, indicated_setInd _ _ s, hs ▸ hrest⟩
  | @dark _ es hrest =>
    rw [runStmt_ind, onNext_next]
    exact ⟨[_], es, rfl, indicated_setInd _ _ s, hs ▸ hrest⟩
  | @next n hk hn =>
    have hsucc : (n + 1).toNat = n.toNat + 1 := BitVec.toNat_add_of_lt (show n.toNat + 1 < 2 ^ 5 by omega)
    rw [runStmt_playNext seq r hk, onNext_next]
    refine ⟨[], _, rfl, indicated_nil rfl rfl, ?_⟩
    rw [push_todo, ← hsucc, hs]
    exact .test rfl

/-! ### Runs -/

/-- A run of PLAY_ROUND(`seq`, `r`) from `s` stands at `t`: what it has added and what is to come are the whole round's
indicator events. -/
abbrev InPlayRound (seq : Word16) (r : Byte) (s t : State) : Prop := Plays seq r (lightsFrom seq r 0) s t

theorem inPlayRound_congr {seq : Word16} {r : Byte} {s t u : State} (h : InPlayRound seq r s t) (htrace : u.trace = t.trace)
    (hout : u.outReg = t.outReg) (hk : u.k = t.k) (htodo : u.todo = t.todo) : InPlayRound seq r s u := by
  obtain ⟨lit, later, hall, hlit, hlines⟩ := h
  exact ⟨lit, later, hall, indicated_congr hlit htrace hout, by rw [hk, htodo]; exact hlines⟩

theorem runStmt_inPlayRound {seq : Word16} {r : Byte} (hr : r.toNat ≤ 15) {s : State} (st : Stmt) (rest : List Stmt)
    (t : State) (ht : t.todo = st :: rest) (h : InPlayRound seq r s t) :
    onNext (runStmt st { t with todo := rest }) (InPlayRound seq r s) := by
  obtain ⟨lit, later, hall, hlit, hlines⟩ := h
  rw [ht] at hlines
  have hfront : Indicated lit s { t with todo := rest } := indicated_congr hlit rfl rfl
  refine onNext_mono (runStmt_plays (s := { t with todo := rest }) hr rfl hlines)
    fun u ⟨now, last, hlater, hnow, hlast⟩ => ?_
  exact ⟨lit ++ now, last, by rw [hall, hlater, List.append_assoc], indicated_trans hfront hnow, hlast⟩

theorem beginOperation_inPlayRound {seq : Word16} {r : Byte} (hr : r.toNat ≤ 15) {s : State} (hs : s.todo = []) :
    onNext (beginOperation (fun s => .next (push (bodyPlayRound seq r) s)) s) (InPlayRound seq r s) := by
  rw [beginOperation, andThen_next]
  refine settle_onNext (runStmt_inPlayRound hr) settleFuel _ ⟨[], _, rfl, indicated_nil rfl rfl, ?_⟩
  rw [push_todo, hs, List.append_nil]
  exact .start

theorem round_le_of_requireRound {r : Byte} {result : Result} {t : State} (h : requireRound r result = .next t) :
    r.toNat ≤ 15 := by
  unfold requireRound at h
  split at h
  · assumption
  · cases h

/-- Through any interleaving, finished or not, PLAY_ROUND stands at `InPlayRound`. -/
theorem playRound_inPlayRound {seq : Word16} {r : Byte} {s t : State} (hs : s.todo = [])
    (h : exec (.playRound seq r) s = .next t) : InPlayRound seq r s t := by
  have hr : r.toNat ≤ 15 := round_le_of_requireRound h
  refine runOperation_onNext (I := InPlayRound seq r s) (finish := endCommand) (fun _ => beginOperation_inPlayRound hr hs)
    (fun hne => absurd hs hne) (mainAct_onNext (runStmt_inPlayRound hr)) (fun a u hu => ?agent)
    (fun u ts n hu => inPlayRound_congr hu rfl rfl rfl rfl) (fun u hu _ => hu)
    (fun u hu _ => inPlayRound_congr hu rfl rfl rfl rfl) t (exec_runs_lines h)
  case agent =>
    have hk := agentAct_keeps a u
    exact inPlayRound_congr hu hk.trace hk.outReg hk.k hk.todo

/-- Settles O43: the events added are among those of the round, none of which lights both, and OUT_REG is as one of them
wrote it. -/
theorem playRoundNeverLightsBoth : Obligations.PlayRoundNeverLightsBoth := by
  intro s t seq r hs h
  obtain ⟨lit, later, hall, hlit, -⟩ := playRound_inPlayRound hs h
  obtain ⟨es, hes, rfl⟩ := hlit.trace
  have hnotBoth : ∀ {a b}, .ind a b ∈ indicatorEvents es → ¬(a = true ∧ b = true) := fun hmem =>
    ind_mem_lightsFrom (seq := seq) (r := r) (n := 0) (hall ▸ List.mem_append_left _ hmem)
  refine ⟨es, hes, ?never, fun hnone => ?before, fun ⟨a, b, hmem⟩ => ?since⟩
  case never =>
    rintro e he rfl
    exact hnotBoth (mem_indicatorEvents.2 he) ⟨rfl, rfl⟩
  case before =>
    rcases hlit.outReg with ⟨-, hout⟩ | ⟨a, b, hmem, -⟩
    · exact hout
    · exact absurd (mem_indicatorEvents.1 hmem) (hnone a b)
  case since =>
    rcases hlit.outReg with ⟨hnil, -⟩ | ⟨a', b', hlast, hout⟩
    · exact absurd (mem_indicatorEvents.2 hmem) (hnil ▸ List.not_mem_nil)
    · rw [hout]
      exact ⟨indByte_not_both (hnotBoth hlast), indByte_reserved a' b'⟩

/-- A run of PLAY_ROUND that ends has added the indicator events of the whole round. -/
theorem playRound_indicatorEvents {s t : State} {seq : Word16} {r : Byte} {es : List Event} (hs : s.todo = [])
    (h : exec (.playRound seq r) s = .next t) (ht : t.todo = []) (hes : t.trace = s.trace ++ es) :
    indicatorEvents es = (List.range (r.toNat + 1)).flatMap (lightTrace seq) := by
  obtain ⟨lit, later, hall, hlit, hlines⟩ := playRound_inPlayRound hs h
  rw [ht] at hlines
  cases hlines
  rw [hlit.indicatorEvents_eq hes, ← lightsFrom_zero, hall, List.append_nil]

/-- Settles O44: both rounds add their own events, and those of the longer one end with the last bit's. -/
theorem longerRoundsReplayShorterOnes : Obligations.LongerRoundsReplayShorterOnes := by
  refine ⟨fun _ _ _ _ _ => playRound_indicatorEvents, fun s s' t t' seq r r' es es' hs hs' hr h ht hes h' ht' hes' => ?_⟩
  rw [playRound_indicatorEvents hs' h' ht' hes', playRound_indicatorEvents hs h ht hes, hr, List.range_succ,
    List.flatMap_append, List.flatMap_singleton]

end Sys2Proof.Proofs
end

section
/-! PLAY_ROUND's light against CAPTURE's comparison (44_input_capture.md R225): each turns on whether the bit at its own
counter, K or PCNT_PRESS, is the button's (43_playback_engine.md R211, 44_input_capture.md R222). -/

namespace Sys2Proof.Proofs

open Sys2Proof.Machine
open Sys2Proof.Laws

theorem runStmt_compare (seq : Word16) (x : Config.Button) {s : State} {p : BitVec 5} (hp : s.pcntPress = some p) :
    runStmt (.compare seq x) s =
      if seqBit seq p.toNat = bitOf x then .next { s with pcntPress := some (p + 1) }
      else .next { s with capOver := some true } := by
  rw [runStmt, lineCompare, hp, readReg_some]

/-- The event that PLAY_ROUND adds for a bit is that of X's indicator alone exactly if the bit stands for X (R211). -/
theorem bitEvent_eq_iff (bit : Bool) (x : Config.Button) :
    Event.ind (!bit) bit = .ind (x = .a) (x = .b) ↔ bit = bitOf x := by
  cases x <;> cases bit <;> decide

theorem light_shows_iff (seq : Word16) (x : Config.Button) {s : State} {n : BitVec 5} (hk : s.k = some n) :
    (∃ t, runStmt (.light seq) s = .next t ∧ t.trace = s.trace ++ [.ind (x = .a) (x = .b)]) ↔
      seqBit seq n.toNat = bitOf x := by
  rw [← bitEvent_eq_iff, runStmt_light seq hk]
  simp only [Host.Outcome.next.injEq, exists_eq_left', emit_trace, List.append_cancel_left_eq, List.cons.injEq, and_true]

/-- A mismatch keeps PCNT_PRESS, which a match never does, the counter being 5 bits wide (R222). -/
theorem compare_accepts_iff (seq : Word16) (x : Config.Button) {s : State} {p : BitVec 5} (hp : s.pcntPress = some p) :
    runStmt (.compare seq x) s = .next { s with pcntPress := some (p + 1) } ↔ seqBit seq p.toNat = bitOf x := by
  rw [runStmt_compare seq x hp]
  refine ⟨fun h => ?accepted, fun hbit => if_pos hbit⟩
  case accepted =>
    by_contra hbit
    rw [if_neg hbit] at h
    have hkept : s.pcntPress = some (p + 1) := congrArg State.pcntPress (Host.Outcome.next.inj h)
    have hcount : p = p + 1 := Option.some.inj (hp.symm.trans hkept)
    bv_omega

/-- Settles O47: with K and PCNT_PRESS equal, both sides say that the same bit stands for X. -/
theorem playbackAndCaptureAgree : Obligations.PlaybackAndCaptureAgree := fun _ seq _ x hk hp =>
  (light_shows_iff seq x hk).trans (compare_accepts_iff seq x hp).symm

end Sys2Proof.Proofs
end

section
/-! What no operation of MAIN writes: SEQ, ROUND, SCORE, OVER, CSTATE and CPC, which the labels of the control program alone
write, on their entry and at their end (45_game_controller.md R264). -/

namespace Sys2Proof.Proofs

open Sys2Proof.Machine
open Sys2Proof.Safety
open Sys2Proof.Laws

/-- From `s` to `t` the game registers and the controller's position stayed. -/
structure GameKept (s t : State) : Prop where
  seq : t.seq = s.seq
  round : t.round = s.round
  score : t.score = s.score
  overFlag : t.overFlag = s.overFlag
  cstate : t.cstate = s.cstate
  cpc : t.cpc = s.cpc

theorem gameKept_refl (s : State) : GameKept s s := ⟨rfl, rfl, rfl, rfl, rfl, rfl⟩

theorem gameKept_trans {s t u : State} (h : GameKept s t) (g : GameKept t u) : GameKept s u where
  seq := g.seq.trans h.seq
  round := g.round.trans h.round
  score := g.score.trans h.score
  overFlag := g.overFlag.trans h.overFlag
  cstate := g.cstate.trans h.cstate
  cpc := g.cpc.trans h.cpc

theorem gameKept_of_mainKeeps {s t : State} (h : MainKeeps s t) : GameKept s t :=
  ⟨h.seq, h.round, h.score, h.overFlag, h.cstate, h.cpc⟩

theorem gameKept_of_agentKeeps {s t : State} (h : AgentKeeps s t) : GameKept s t :=
  ⟨h.seq, h.round, h.score, h.overFlag, h.cstate, h.cpc⟩

theorem gameKept_interleaving (s : State) (ts : List Config.Turn) (n : Nat) : GameKept s { s with turns := ts, draws := n } :=
  ⟨rfl, rfl, rfl, rfl, rfl, rfl⟩

/-- A property of the game registers that the entry of an operation establishes holds wherever the operation pauses or
ends: the lines of MAIN and the other agents write none of them. -/
theorem runOperation_onNext_of_gameKept {I Q : State → Prop} {start : State → Result} {finish : State → State} {s : State}
    (hI : ∀ {u v}, GameKept u v → I u → I v) (hstart : s.todo = [] → onNext (start s) I) (hgo : s.todo ≠ [] → I s)
    (hpause : ∀ u, I u → u.todo ≠ [] → Q u) (hdone : ∀ u, I u → u.todo = [] → Q (finish u)) :
    onNext (runOperation start finish s) Q := by
  refine runOperation_onNext (I := I) (fun hs => ?begin) hgo
    (fun u hu => onNext_mono (mainAct_keeps u) fun _ hv => hI (gameKept_of_mainKeeps hv) hu)
    (fun t u hu => hI (gameKept_of_agentKeeps (agentAct_keeps t u)) hu)
    (fun u ts n hu => hI (gameKept_interleaving u ts n) hu) hpause hdone
  case begin =>
    rw [beginOperation, onNext_andThen]
    refine onNext_mono (hstart hs) fun u hu => ?_
    exact onNext_mono (settle_keeps settleFuel u) fun _ hv => hI (gameKept_of_mainKeeps hv) hu

theorem commandEnd_gameKept (i : Instr) (s : State) : GameKept s (commandEnd i s) := by
  unfold commandEnd
  split <;> exact ⟨rfl, rfl, rfl, rfl, rfl, rfl⟩

theorem exec_gameKept {i : Instr} {s t : State} (h : exec i s = .next t) : GameKept s t :=
  have hpush : GameKept s (push (commandLines i) s) := ⟨rfl, rfl, rfl, rfl, rfl, rfl⟩
  runOperation_onNext_of_gameKept (I := GameKept s) (start := fun s => .next (push (commandLines i) s))
    (fun huv hu => gameKept_trans hu huv) (fun _ => (onNext_next _ _).2 hpush) (fun _ => gameKept_refl s)
    (fun _ hu _ => hu) (fun u hu _ => gameKept_trans hu (commandEnd_gameKept i u)) t (exec_runs_lines h)

/-- Settles O14: a command is an operation whose entry and end write no game register, and it keeps the launch. -/
theorem commandsKeepTheGameRegisters : Obligations.CommandsKeepTheGameRegisters := by
  intro i s t h
  have hgame := exec_gameKept h
  have hlaunch := exec_launchKept h
  exact ⟨hgame.seq, hgame.round, hgame.score, hgame.overFlag, hgame.cstate, hgame.cpc, hlaunch.tickCmp, hlaunch.launch,
    hlaunch.trace⟩

end Sys2Proof.Proofs
end

section
/-! The counters of a game: SCORE = ROUND at every label of one, within the bounds of 45_game_controller.md R260 and R262,
and OVER as R248 and R256 give it. One label of the control program leads from these facts to those of the next. -/

namespace Sys2Proof.Proofs

open Sys2Proof.Machine
open Sys2Proof.Safety
open Sys2Proof.Laws

/-- SCORE, ROUND and OVER as they are at label `l` (R248, R256, R262). -/
structure CountersAt (l : Label) (s : State) : Prop where
  score : inGame l = true → s.score = s.round
  bound : inGame l = true → s.round.toNat ≤ 16
  playing : inRound l = true → s.round.toNat ≤ 15
  overFlag : overAt l s.overFlag

/-- The counters are those of the label at CPC, and no operation is in progress at a label that has none. -/
structure CountersOk (s : State) : Prop where
  between : operationFree s.cpc = true → s.todo = []
  counters : CountersAt s.cpc s

theorem countersAt_of_gameKept {l : Label} {s t : State} (h : GameKept s t) (hs : CountersAt l s) : CountersAt l t where
  score hl := by rw [h.score, h.round, hs.score hl]
  bound hl := by rw [h.round]; exact hs.bound hl
  playing hl := by rw [h.round]; exact hs.playing hl
  overFlag := by rw [h.overFlag]; exact hs.overFlag

/-- Before a game SCORE, ROUND and OVER may be anything. -/
theorem countersAt_before_game {l : Label} (hl : l ∈ ([.a0, .a1, .a2, .s0] : List Label)) (s : State) : CountersAt l s := by
  simp only [List.mem_cons, List.not_mem_nil, or_false] at hl
  rcases hl with rfl | rfl | rfl | rfl <;> constructor <;> simp [inGame, inRound, overAt]

/-! ### Labels with an operation -/

/-- The entry of such a label, A0 apart, writes no game register. -/
theorem labelBegin_gameKept {l : Label} (hl : operationFree l = false) (h0 : l ≠ .a0) (s : State) :
    onNext (labelBegin l s) (GameKept s) := by
  have hpush : ∀ ls, onNext (.next (push ls s)) (GameKept s) := fun ls =>
    (onNext_next _ _).2 ⟨rfl, rfl, rfl, rfl, rfl, rfl⟩
  cases l
  case a0 => exact absurd rfl h0
  case a1 => exact fun t ht => hpush _ t (requireText_eq_next ht)
  case rl6 | rl7 =>
    simp only [labelBegin, onNext_readReg]
    exact fun q _ t ht => hpush _ t (requireRound_eq_next ht)
  case a2 | rl2 | rl4 | rl5 | g1 | g2 => exact hpush _
  all_goals cases hl

theorem labelBegin_counters {l : Label} (hl : operationFree l = false) {s : State} (hcpc : s.cpc = l) (h : CountersAt l s) :
    onNext (labelBegin l s) fun u => u.cpc = l ∧ CountersAt l u := by
  by_cases h0 : l = .a0
  · subst h0
    exact (onNext_next _ _).2 ⟨hcpc, countersAt_before_game (by simp) _⟩
  · exact onNext_mono (labelBegin_gameKept hl h0 s) fun u hu => ⟨hu.cpc.trans hcpc, countersAt_of_gameKept hu h⟩

/-- At its end CPC goes to a label that asks no more of the counters. -/
theorem labelEnd_operation_countersOk {l : Label} (hl : operationFree l = false) {s : State} (h : CountersAt l s)
    (hs : s.todo = []) : CountersOk (labelEnd l s) := by
  refine ⟨fun _ => by cases l <;> exact hs, ?_⟩
  obtain ⟨hscore, hbound, hplaying, hover⟩ := h
  cases l
  case a0 | a1 | a2 => exact countersAt_before_game (by simp [labelEnd]) _
  case rl2 | rl4 | rl5 | rl6 | g1 | g2 => exact ⟨hscore, hbound, hplaying, hover⟩
  case rl7 => exact ⟨hscore, hbound, hplaying, trivial⟩
  all_goals cases hl

/-! ### Labels without an operation -/

/-- A label without an operation ends at once (R244 to R246, R248, R253 to R256, R259). -/
theorem execLabel_of_operationFree {l : Label} (hl : operationFree l = true) {s : State} (hs : s.todo = []) :
    execLabel l s = andThen (labelBegin l s) fun u => .next (labelEnd l u) := by
  have hbegin : ∃ u, labelBegin l s = .next u ∧ u.todo = [] := by
    cases l
    case s0 | rl0 | rl1 | rl3 | rl8 | rl9 | rl10 | g0 | g3 => exact ⟨_, rfl, hs⟩
    all_goals cases hl
  obtain ⟨u, hu, hdone⟩ := hbegin
  rw [execLabel, runOperation, if_pos hs, beginOperation, hu, andThen_next, andThen_next, settle_nil _ hdone, andThen_next,
    if_pos hdone]

/-- A label without an operation leads from its counters to those of the next: S0 starts a game at 0, RL1 leaves the rounds
at ROUND = 16, RL9 counts the round in both, RL10 sets OVER. -/
theorem execLabel_operationFree_countersOk {l : Label} (hl : operationFree l = true) {s : State} (hs : s.todo = [])
    (h : CountersAt l s) : onNext (execLabel l s) CountersOk := by
  rw [execLabel_of_operationFree hl hs, onNext_andThen]
  obtain ⟨hscore, hbound, hplaying, hover⟩ := h
  cases l
  case a0 | a1 | a2 | rl2 | rl4 | rl5 | rl6 | rl7 | g1 | g2 => cases hl
  all_goals
    simp only [labelBegin, labelEnd, onNext_next]
    refine ⟨fun _ => hs, ?_⟩
  case s0 => exact ⟨fun _ => rfl, fun _ => by simp, fun _ => by simp, rfl⟩
  case rl0 => exact ⟨hscore, hbound, nofun, hover⟩
  case rl1 =>
    by_cases hround : s.round = 16
    · simp only [if_pos hround]
      exact ⟨hscore, hbound, nofun, hover⟩
    · simp only [if_neg hround]
      have hle := hbound rfl
      exact ⟨hscore, hbound, fun _ => by simp only; bv_omega, hover⟩
  case rl3 =>
    simp only [if_neg (Bool.eq_false_iff.1 hover)]
    exact ⟨hscore, hbound, hplaying, hover⟩
  case rl8 =>
    by_cases hov : s.overFlag = true
    · simp only [if_pos hov]
      exact ⟨hscore, hbound, nofun, hov⟩
    · simp only [if_neg hov]
      exact ⟨hscore, hbound, hplaying, Bool.eq_false_iff.2 hov⟩
  case rl9 =>
    have hle := hplaying rfl
    exact ⟨fun _ => congrArg (· + 1) (hscore rfl), fun _ => by simp only; bv_omega, nofun, hover⟩
  case rl10 => exact ⟨hscore, hbound, nofun, rfl⟩
  case g0 => exact ⟨hscore, hbound, nofun, hover⟩
  case g3 => exact countersAt_before_game (by simp) _

/-! ### Runs of GAME mode -/

theorem execLabel_countersOk {s : State} (h : CountersOk s) : onNext (execLabel s.cpc s) CountersOk := by
  cases hl : operationFree s.cpc with
  | true => exact execLabel_operationFree_countersOk hl (h.between hl) h.counters
  | false =>
    refine runOperation_onNext_of_gameKept (I := fun u => u.cpc = s.cpc ∧ CountersAt s.cpc u)
      (fun huv hu => ⟨huv.cpc.trans hu.1, countersAt_of_gameKept huv hu.2⟩) (fun _ => labelBegin_counters hl rfl h.counters)
      (fun _ => ⟨rfl, h.counters⟩) (fun u ⟨hcpc, hu⟩ _ => ?pause)
      (fun u ⟨_, hu⟩ hdone => labelEnd_operation_countersOk hl hu hdone)
    case pause =>
      refine ⟨fun hfree => ?_, hcpc ▸ hu⟩
      rw [hcpc, hl] at hfree
      cases hfree

theorem justReset_launch {l : Config.Launch} {s : State} (h : JustReset l s) : s.launch = l := by
  obtain ⟨_, _, _, _, _, _, _, _, _, _, rfl⟩ := h
  rfl

/-- A run keeps its launch (20_memory.md R101). -/
theorem reachable_launch {l : Config.Launch} {s : State} (h : Reachable l s) : s.launch = l := by
  induction h with
  | reset s hs => exact justReset_launch hs
  | step s t _ hst ih => exact (stepsKeepTheLaunch s t hst).1.trans ih

theorem step_of_game {s : State} (h : s.launch.mode = .game) : step s = execLabel s.cpc s := by
  rw [step, h]

theorem justReset_countersOk {l : Config.Launch} {s : State} (h : JustReset l s) : CountersOk s := by
  obtain ⟨_, _, _, _, _, _, _, _, _, _, rfl⟩ := h
  exact ⟨fun _ => rfl, countersAt_before_game (by simp [State.resetOf]) _⟩

theorem reachable_countersOk {l : Config.Launch} (hl : l.mode = .game) {s : State} (h : Reachable l s) : CountersOk s := by
  induction h with
  | reset s hs => exact justReset_countersOk hs
  | step s t hs hst ih =>
    have hgame : s.launch.mode = .game := by rw [reachable_launch hs, hl]
    rw [step_of_game hgame] at hst
    exact execLabel_countersOk ih t hst

/-- Settles O59: the counters of a reachable state are those of its label. -/
theorem scoreCountsTheRoundsCompleted : Obligations.ScoreCountsTheRoundsCompleted := by
  intro l s _ hl hs
  obtain ⟨hscore, hbound, hplaying, hover⟩ := (reachable_countersOk hl hs).counters
  refine ⟨fun hcpc => ?rl1, fun hcpc => ?round, fun hcpc => ?rl3, fun hcpc => ?g0⟩
  case rl1 => rw [hcpc] at hscore hbound; exact ⟨hscore rfl, hbound rfl⟩
  case round =>
    simp only [List.mem_cons, List.not_mem_nil, or_false] at hcpc
    rcases hcpc with hcpc | hcpc | hcpc <;> rw [hcpc] at hscore hplaying <;> exact ⟨hscore rfl, hplaying rfl⟩
  case rl3 => rw [hcpc] at hover; exact hover
  case g0 => rw [hcpc] at hover; exact hover

end Sys2Proof.Proofs
end

section
/-! Label A0 (45_game_controller.md R241): it discards the registers of the last game, then runs as a command of one SetInd
would. -/

namespace Sys2Proof.Proofs

open Sys2Proof.Machine
open Sys2Proof.Safety
open Sys2Proof.Laws

/-- `s` with the game registers as A0 leaves them. -/
def discardGame (s : State) : State :=
  { s with cstate := .awaitStart, seq := none, round := 0, score := 0, overFlag := false }

theorem execLabel_a0 {s : State} (hs : s.todo = []) :
    execLabel .a0 s = runCommand [.ind true true] (labelEnd .a0) (discardGame s) := by
  rw [execLabel, runCommand, runOperation, runOperation, if_pos hs, if_pos (by exact hs)]
  rfl

/-- The agents other than MAIN do not read the game registers. -/
theorem agentAct_discardGame (s : State) (t : Config.Turn) :
    agentAct t (discardGame s) = discardGame (agentAct t s) := by
  cases t with
  | ftimer => rw [agentAct_ftimer, agentAct_ftimer]; rfl
  | isr => rw [agentAct, agentAct, takeInterrupt_eq, takeInterrupt_eq]; rfl
  | main | ptimerCount | ptimerTick | player _ => rfl

theorem agents_discardGame (ts : List Config.Turn) (s : State) : agents ts (discardGame s) = discardGame (agents ts s) :=
  List.foldl_hom discardGame agentAct_discardGame

/-- Settles O48: the registers are discarded, then the one SetInd lights both indicators. -/
theorem a0StartsANewGame : Obligations.A0StartsANewGame := by
  intro s e rest hmode hcpc hs he ht
  rw [step_of_game hmode, hcpc, execLabel_a0 hs]
  refine (runCommand_one_ends (s := discardGame s) rfl (labelEnd .a0) hs he ht (runStmt_ind true true _)
    (agents_todo_nil e hs)).trans ?_
  rw [agents_discardGame, ← (agents_keeps e s).trace]
  rfl

end Sys2Proof.Proofs
end

section
/-! ISR's turn (60_exceptions.md R283 to R285): the overflow interrupt, taken where it is pending. -/

namespace Sys2Proof.Proofs

open Sys2Proof.Machine
open Sys2Proof.Laws

theorem agentAct_isr (s : State) : agentAct .isr s = { s with freeOvf := false } := takeInterrupt_eq s

/-- Where no overflow is pending the handler is not entered (R284: "enabled when FREE_OVF == 1"). -/
theorem takeInterrupt_of_not_pending {s : State} (h : ¬ interruptPending s) : takeInterrupt s = s := if_neg h

/-- Settles O22: the handler's one action is the write of FREE_OVF, and entry and return are no action. -/
theorem interruptClearsFreeOvfAlone : Obligations.InterruptClearsFreeOvfAlone := by
  intro s
  have hentry : interruptEntry s = s := rfl
  have hhandler : interruptHandler s = { s with freeOvf := false } := rfl
  have hreturn : interruptReturn s = s := rfl
  have hidle (hovf : s.freeOvf = false) : agentAct .isr s = s :=
    takeInterrupt_of_not_pending (by simp [interruptPending, hovf])
  exact ⟨hentry, hhandler, hreturn, agentAct_isr s, hidle⟩

end Sys2Proof.Proofs
end

section
/-! The decoder against the encoder (30_encoding.md R110 to R118). For each format, and so for every command, the bytes that
are admitted are exactly those that the encoder gives: one equivalence says both directions. -/

namespace Sys2Proof.Proofs

open Sys2Proof.Safety
open Sys2Proof.Laws

/-! ### Formats -/

theorem checked_eq_ok_iff {off : Nat} {i j : Instr} {bs rest : List Byte} :
    checked off i bs = .ok (j, rest) ↔ j.wf = true ∧ j = i ∧ bs = rest := by
  unfold checked Instr.wf
  cases h : i.badField with
  | none =>
    simp only [Except.ok.injEq, Prod.mk.injEq]
    constructor
    · rintro ⟨rfl, rfl⟩
      exact ⟨by rw [h]; rfl, rfl, rfl⟩
    · rintro ⟨-, rfl, rfl⟩
      exact ⟨rfl, rfl⟩
  | some f =>
    simp only [reduceCtorEq, false_iff]
    rintro ⟨hwf, rfl, -⟩
    rw [h] at hwf
    cases hwf

theorem decodeFW_eq_ok_iff {off : Nat} {mk : Word16 → Instr} {bs rest : List Byte} {i : Instr} :
    decodeFW off mk bs = .ok (i, rest) ↔ i.wf = true ∧ ∃ v, i = mk v ∧ bs = bytes16 v ++ rest := by
  constructor
  · intro h
    unfold decodeFW at h
    split at h
    · rename_i b1 b2 bs
      obtain ⟨hwf, hi, rfl⟩ := checked_eq_ok_iff.1 h
      exact ⟨hwf, le16 b1 b2, hi, by rw [bytes16_le16]; rfl⟩
    · cases h
  · rintro ⟨hwf, v, hi, rfl⟩
    exact checked_eq_ok_iff.2 ⟨hwf, by rw [le16_bytes]; exact hi, rfl⟩

theorem decodeFN_eq_ok_iff {off : Nat} {mk : Word32 → Instr} {bs rest : List Byte} {i : Instr} :
    decodeFN off mk bs = .ok (i, rest) ↔ i.wf = true ∧ ∃ v, i = mk v ∧ bs = bytes32 v ++ rest := by
  constructor
  · intro h
    unfold decodeFN at h
    split at h
    · rename_i b1 b2 b3 b4 bs
      obtain ⟨hwf, hi, rfl⟩ := checked_eq_ok_iff.1 h
      exact ⟨hwf, le32 b1 b2 b3 b4, hi, by rw [bytes32_le32]; rfl⟩
    · cases h
  · rintro ⟨hwf, v, hi, rfl⟩
    exact checked_eq_ok_iff.2 ⟨hwf, by rw [le32_bytes]; exact hi, rfl⟩

theorem decodeFR_eq_ok_iff {off : Nat} {mk : Word16 → Byte → Instr} {bs rest : List Byte} {i : Instr} :
    decodeFR off mk bs = .ok (i, rest) ↔ i.wf = true ∧ ∃ v r, i = mk v r ∧ bs = bytes16 v ++ [r] ++ rest := by
  constructor
  · intro h
    unfold decodeFR at h
    split at h
    · rename_i b1 b2 b3 bs
      obtain ⟨hwf, hi, rfl⟩ := checked_eq_ok_iff.1 h
      exact ⟨hwf, le16 b1 b2, b3, hi, by rw [bytes16_le16]; rfl⟩
    · cases h
  · rintro ⟨hwf, v, r, hi, rfl⟩
    exact checked_eq_ok_iff.2 ⟨hwf, by rw [le16_bytes]; exact hi, rfl⟩

theorem decodeFC_eq_ok_iff {off : Nat} {mk : Byte → Byte → Instr} {bs rest : List Byte} {i : Instr} :
    decodeFC off mk bs = .ok (i, rest) ↔ i.wf = true ∧ ∃ slot ch, i = mk slot ch ∧ bs = slot :: ch :: rest := by
  constructor
  · intro h
    unfold decodeFC at h
    split at h
    · rename_i b1 b2 bs
      obtain ⟨hwf, hi, rfl⟩ := checked_eq_ok_iff.1 h
      exact ⟨hwf, b1, b2, hi, rfl⟩
    · cases h
  · rintro ⟨hwf, slot, ch, hi, rfl⟩
    exact checked_eq_ok_iff.2 ⟨hwf, hi, rfl⟩

/-- The two bits of the byte that SetInd writes, and its reserved bits. -/
theorem indByte_fields (a b : Bool) :
    indByte a b >>> 2 = 0 ∧ (indByte a b).getLsbD 0 = a ∧ (indByte a b).getLsbD 1 = b := by
  cases a <;> cases b <;> decide

theorem decodeFI_eq_ok_iff {off : Nat} {mk : Bool → Bool → Instr} {bs rest : List Byte} {i : Instr} :
    decodeFI off mk bs = .ok (i, rest) ↔ i.wf = true ∧ ∃ a b, i = mk a b ∧ bs = indByte a b :: rest := by
  constructor
  · intro h
    unfold decodeFI at h
    split at h
    · rename_i b1 bs
      split at h
      · rename_i hbits
        obtain ⟨hwf, hi, rfl⟩ := checked_eq_ok_iff.1 h
        exact ⟨hwf, _, _, hi, by rw [indByte_bits hbits]⟩
      · cases h
    · cases h
  · rintro ⟨hwf, a, b, hi, rfl⟩
    obtain ⟨hbits, ha, hb⟩ := indByte_fields a b
    rw [decodeFI, if_pos hbits, ha, hb]
    exact checked_eq_ok_iff.2 ⟨hwf, hi, rfl⟩

/-- A string operand is what stands before the first 0x00, so that a legal one is read back (R113). -/
theorem decodeFS_eq_ok_iff {off : Nat} {mk : Text → Instr} (hmk : ∀ t, (mk t).wf = Text.legal t) {bs rest : List Byte}
    {i : Instr} :
    decodeFS off mk bs = .ok (i, rest) ↔ i.wf = true ∧ ∃ t, i = mk t ∧ bs = t ++ [0] ++ rest := by
  constructor
  · intro h
    unfold decodeFS at h
    split at h
    · cases h
    · rename_i t bs' hsplit
      split at h
      · cases h
      · obtain ⟨hwf, hi, rfl⟩ := checked_eq_ok_iff.1 h
        exact ⟨hwf, t, hi, by rw [(splitText_some hsplit).1, List.append_assoc]; rfl⟩
  · rintro ⟨hwf, t, rfl, rfl⟩
    obtain ⟨hlen, hnul⟩ := legal_iff.1 ((hmk t).symm.trans hwf)
    have hsplit : splitText (t ++ [0] ++ rest) = some (t, rest) := by
      rw [List.append_assoc]
      exact splitText_append hnul rest
    rw [decodeFS, hsplit]
    exact (if_neg (Nat.not_lt.2 hlen)).trans (checked_eq_ok_iff.2 ⟨hwf, rfl, rfl⟩)

theorem wf_text (t : Text) : (Instr.showWord t).wf = Text.legal t ∧ (Instr.showPhrase t).wf = Text.legal t ∧
    (Instr.scroll t).wf = Text.legal t := by
  simp only [Instr.wf, Instr.badField]
  cases Text.legal t <;> exact ⟨rfl, rfl, rfl⟩

/-! ### Commands -/

/-- The decoder admits exactly the encodings of the well-formed commands. -/
theorem decodeOne_eq_ok_iff {off : Nat} {bs rest : List Byte} {i : Instr} :
    decodeOne off bs = .ok (i, rest) ↔ i.wf = true ∧ bs = encode i ++ rest := by
  constructor
  · intro h
    cases bs with
    | nil => cases h
    | cons op bs =>
      have hop : ∀ {n : Nat}, op.toNat = n → op = BitVec.ofNat 8 n := fun hn => by rw [← hn, BitVec.ofNat_toNat, BitVec.setWidth_eq]
      simp only [decodeOne] at h
      split at h
      case h_15 => cases h
      all_goals
        rename_i hn
        cases hop hn
      case h_1 => obtain ⟨hwf, slot, ch, rfl, rfl⟩ := decodeFC_eq_ok_iff.1 h; exact ⟨hwf, rfl⟩
      case h_2 => obtain ⟨hwf, a, b, rfl, rfl⟩ := decodeFI_eq_ok_iff.1 h; exact ⟨hwf, rfl⟩
      case h_5 => obtain ⟨hwf, v, rfl, rfl⟩ := decodeFW_eq_ok_iff.1 h; exact ⟨hwf, rfl⟩
      case h_8 => obtain ⟨hwf, t, rfl, rfl⟩ := (decodeFS_eq_ok_iff fun t => (wf_text t).1).1 h; exact ⟨hwf, rfl⟩
      case h_9 => obtain ⟨hwf, t, rfl, rfl⟩ := (decodeFS_eq_ok_iff fun t => (wf_text t).2.1).1 h; exact ⟨hwf, rfl⟩
      case h_10 => obtain ⟨hwf, t, rfl, rfl⟩ := (decodeFS_eq_ok_iff fun t => (wf_text t).2.2).1 h; exact ⟨hwf, rfl⟩
      case h_11 => obtain ⟨hwf, v, rfl, rfl⟩ := decodeFN_eq_ok_iff.1 h; exact ⟨hwf, rfl⟩
      case h_13 | h_14 => obtain ⟨hwf, v, r, rfl, rfl⟩ := decodeFR_eq_ok_iff.1 h; exact ⟨hwf, rfl⟩
      all_goals obtain ⟨hwf, rfl, rfl⟩ := checked_eq_ok_iff.1 h; exact ⟨hwf, rfl⟩
  · rintro ⟨hwf, rfl⟩
    cases i with
    | writeChar slot ch => exact decodeFC_eq_ok_iff.2 ⟨hwf, slot, ch, rfl, rfl⟩
    | setInd a b => exact decodeFI_eq_ok_iff.2 ⟨hwf, a, b, rfl, rfl⟩
    | wait units => exact (decodeFW_eq_ok_iff (off := off)).2 ⟨hwf, units, rfl, rfl⟩
    | showWord t => exact (decodeFS_eq_ok_iff fun t => (wf_text t).1).2 ⟨hwf, t, rfl, rfl⟩
    | showPhrase t => exact (decodeFS_eq_ok_iff fun t => (wf_text t).2.1).2 ⟨hwf, t, rfl, rfl⟩
    | scroll t => exact (decodeFS_eq_ok_iff fun t => (wf_text t).2.2).2 ⟨hwf, t, rfl, rfl⟩
    | showNumber n => exact (decodeFN_eq_ok_iff (off := off)).2 ⟨hwf, n, rfl, rfl⟩
    | playRound seq round => exact decodeFR_eq_ok_iff.2 ⟨hwf, seq, round, rfl, rfl⟩
    | capture seq round => exact decodeFR_eq_ok_iff.2 ⟨hwf, seq, round, rfl, rfl⟩
    | readBtn | tick | sampleEntropy | clear | generate => exact (checked_eq_ok_iff (off := off)).2 ⟨hwf, rfl, rfl⟩

/-- Settles O1: an encoding is admitted. -/
theorem decodeInvertsEncode : Obligations.DecodeInvertsEncode :=
  fun _ _ _ hwf => decodeOne_eq_ok_iff.2 ⟨hwf, rfl⟩

/-- Settles O3: nothing else is. -/
theorem decodedBytesAreTheEncoding : Obligations.DecodedBytesAreTheEncoding :=
  fun _ _ _ _ h => decodeOne_eq_ok_iff.1 h

end Sys2Proof.Proofs
end

section
/-! The decoder's verdicts: on the fields of each format, on string operands, and on a whole list (30_encoding.md R113, R116 to
R118, R126). -/

namespace Sys2Proof.Proofs

open Sys2Proof.Machine
open Sys2Proof.Safety
open Sys2Proof.Laws

/-! ### Command lists -/

theorem encodeProgram_cons (i : Instr) (is : List Instr) : encodeProgram (i :: is) = encode i ++ encodeProgram is := rfl

/-- A command takes at least its opcode. -/
theorem length_le_encodeProgram : ∀ is : List Instr, is.length ≤ (encodeProgram is).length
  | [] => Nat.le_refl _
  | i :: is => by
    have := length_le_encodeProgram is
    rw [encodeProgram_cons, List.length_append, encode, List.length_cons, List.length_cons]
    omega

/-- A command that decodes to none is the end of the decoding. -/
theorem decodeFrom_of_error {fuel off : Nat} {bs : List Byte} {v : Verdict} (hbs : bs ≠ [])
    (h : decodeOne off bs = .error v) : decodeFrom (fuel + 1) off bs = .error v := by
  cases bs with
  | nil => exact absurd rfl hbs
  | cons b bs => rw [decodeFrom, h]

/-- A well-formed command is read, and the decoding goes on after its bytes. -/
theorem decodeFrom_encode {i : Instr} (hi : i.wf = true) (fuel off : Nat) (rest : List Byte) :
    decodeFrom (fuel + 1) off (encode i ++ rest) =
      (decodeFrom fuel (off + (encode i).length) rest).map (i :: ·) := by
  have hone : decodeOne off (encode i ++ rest) = .ok (i, rest) := decodeOne_eq_ok_iff.2 ⟨hi, rfl⟩
  have hlen : (encode i ++ rest).length - rest.length = (encode i).length := by
    rw [List.length_append, Nat.add_sub_cancel]
  rw [encode, List.cons_append] at hone hlen ⊢
  rw [decodeFrom, hone]
  simp only [hlen]
  cases decodeFrom fuel (off + (opcodeOf i :: operandBytes i).length) rest <;> rfl

/-- Well-formed commands are read one after another. -/
theorem decodeFrom_encodeProgram : ∀ {is : List Instr}, (∀ i ∈ is, i.wf = true) → ∀ (fuel off : Nat) (rest : List Byte),
    decodeFrom (is.length + fuel) off (encodeProgram is ++ rest) =
      (decodeFrom fuel (off + (encodeProgram is).length) rest).map (is ++ ·)
  | [], _, fuel, off, rest => by
    change decodeFrom (0 + fuel) off rest = (decodeFrom fuel off rest).map _
    rw [Nat.zero_add]
    cases decodeFrom fuel off rest <;> rfl
  | i :: is, h, fuel, off, rest => by
    obtain ⟨hi, his⟩ := List.forall_mem_cons.1 h
    rw [encodeProgram_cons, List.length_cons, Nat.add_right_comm, List.append_assoc, decodeFrom_encode hi,
      decodeFrom_encodeProgram his, List.length_append, Nat.add_assoc off]
    cases decodeFrom fuel (off + ((encode i).length + (encodeProgram is).length)) rest <;> rfl

/-- Settles O2: the bytes are fuel enough, and after the last command nothing is left. -/
theorem programDecodeInvertsEncode : Obligations.ProgramDecodeInvertsEncode := by
  intro is h
  obtain ⟨fuel, hfuel⟩ := Nat.exists_eq_add_of_le (length_le_encodeProgram is)
  have hall := decodeFrom_encodeProgram h fuel 0 []
  rw [List.append_nil] at hall
  rw [decodeProgram, hfuel, hall]
  cases fuel <;> simp [decodeFrom, Except.map]

/-- Where decoding stops there are well-formed commands, and then bytes that decode to none. -/
theorem decodeFrom_error_splits {v : Verdict} : ∀ {fuel off : Nat} {bytes : List Byte}, bytes.length ≤ fuel →
    decodeFrom fuel off bytes = .error v → ∃ (is : List Instr) (bs : List Byte), (∀ i ∈ is, i.wf = true) ∧ bs ≠ [] ∧
      bytes = encodeProgram is ++ bs ∧ decodeOne (off + (encodeProgram is).length) bs = .error v
  | fuel, off, [], _, h => by cases fuel <;> cases h
  | fuel + 1, off, b :: bytes, hlen, h => by
    cases hone : decodeOne off (b :: bytes) with
    | error w =>
      rw [decodeFrom_of_error (List.cons_ne_nil _ _) hone] at h
      cases h
      exact ⟨[], b :: bytes, nofun, List.cons_ne_nil _ _, rfl, hone⟩
    | ok p =>
      obtain ⟨hi, hbytes⟩ := decodeOne_eq_ok_iff.1 hone
      rw [hbytes, decodeFrom_encode hi] at h
      have hrest : decodeFrom fuel (off + (encode p.1).length) p.2 = .error v := by
        cases hx : decodeFrom fuel (off + (encode p.1).length) p.2 with
        | error w => rw [hx] at h; exact h
        | ok js => rw [hx] at h; cases h
      have hshort : p.2.length ≤ fuel := by
        have := congrArg List.length hbytes
        rw [List.length_append, encode, List.length_cons, List.length_cons] at this
        rw [List.length_cons] at hlen
        omega
      obtain ⟨is, bs, his, hbs, hsplit, hverdict⟩ := decodeFrom_error_splits hshort hrest
      refine ⟨p.1 :: is, bs, List.forall_mem_cons.2 ⟨hi, his⟩, hbs, ?_, ?_⟩
      · rw [hbytes, encodeProgram_cons, List.append_assoc, ← hsplit]
      · rw [encodeProgram_cons, List.length_append, ← Nat.add_assoc]
        exact hverdict

/-- The verdict on a list is that of its first invalid command (R118). -/
theorem decodeProgram_eq_error_iff {bytes : List Byte} {v : Verdict} : decodeProgram bytes = .error v ↔
    ∃ (is : List Instr) (bs : List Byte), (∀ i ∈ is, i.wf = true) ∧ bs ≠ [] ∧ bytes = encodeProgram is ++ bs ∧
      decodeOne (encodeProgram is).length bs = .error v := by
  constructor
  · intro h
    have hsplit := decodeFrom_error_splits (Nat.le_refl _) h
    simpa only [Nat.zero_add] using hsplit
  · rintro ⟨is, bs, his, hbs, rfl, hverdict⟩
    have hlen := length_le_encodeProgram is
    obtain ⟨n, hn⟩ := Nat.exists_eq_succ_of_ne_zero (List.length_pos_of_ne_nil hbs).ne'
    have hfuel : (encodeProgram is ++ bs).length = is.length + ((encodeProgram is).length - is.length + n + 1) := by
      rw [List.length_append, hn]
      omega
    rw [decodeProgram, hfuel, decodeFrom_encodeProgram his, Nat.zero_add, decodeFrom_of_error hbs hverdict]
    rfl

theorem step_of_direct {s : State} (h : s.launch.mode = .direct) :
    step s = fetch s fun i? => i?.elim (idle s) (exec · s) := by
  simp only [step, h]
  congr 1
  funext i?
  cases i? <;> rfl

theorem fetch_of_error {s : State} {v : Verdict} (h : decodeProgram s.launch.commands = .error v)
    (f : Option Instr → Result) : fetch s f = .refused (refusalOf v) := by
  rw [fetch, h]

theorem fetch_of_ok {s : State} {is : List Instr} (h : decodeProgram s.launch.commands = .ok is)
    (f : Option Instr → Result) : fetch s f = f is[s.cidx]? := by
  rw [fetch, h]

/-- Settles O10: the verdict on the list, and the refusal of the launch before anything runs. -/
theorem invalidLaunchIsRefused : Obligations.InvalidLaunchIsRefused :=
  ⟨fun _ _ => decodeProgram_eq_error_iff, fun s v hmode hv => by rw [step_of_direct hmode, fetch_of_error hv]⟩

/-! ### Steps of a DIRECT launch -/

theorem step_of_command {s : State} {is : List Instr} {i : Instr} (hmode : s.launch.mode = .direct)
    (h : decodeProgram s.launch.commands = .ok is) (hi : is[s.cidx]? = some i) : step s = exec i s := by
  rw [step_of_direct hmode, fetch_of_ok h, hi, Option.elim_some]

theorem step_past_end {s : State} {is : List Instr} (hmode : s.launch.mode = .direct)
    (h : decodeProgram s.launch.commands = .ok is) (hlen : is.length ≤ s.cidx) : step s = idle s := by
  rw [step_of_direct hmode, fetch_of_ok h, List.getElem?_eq_none hlen, Option.elim_none]

/-- Settles O9: in either mode the step is what the program counter names. -/
theorem stepRunsTheProgramCounter : Obligations.StepRunsTheProgramCounter :=
  fun _ => ⟨fun _ _ hmode h hi => step_of_command hmode h hi, step_of_game⟩

/-- Settles O11: past the last command a step is `idle`, which takes one turn of the other agents. -/
theorem endedRunLeavesMainIdle : Obligations.EndedRunLeavesMainIdle := by
  intro s is hmode h hlen
  rw [step_past_end hmode h hlen]
  exact ⟨fun t ts hturns => by rw [idle, hturns], fun hturns => by rw [idle, hturns]⟩

/-! ### String operands -/

theorem decodeFS_tooLong {t : Text} (hnul : noNul t) (hlen : 255 < t.length) (off : Nat) (mk : Text → Instr)
    (rest : List Byte) : decodeFS off mk (t ++ 0 :: rest) = .error (.stringTooLong off) := by
  rw [decodeFS, splitText_append hnul]
  exact if_pos hlen

theorem decodeFS_truncated {t : Text} (hnul : noNul t) (off : Nat) (mk : Text → Instr) :
    decodeFS off mk t = .error (.truncated off) := by
  rw [decodeFS, splitText_none hnul]

/-- Settles O7: the three string commands are read by the one format. -/
theorem stringOperandVerdicts : Obligations.StringOperandVerdicts := by
  intro off t rest hnul
  refine ⟨fun hlen => ?admitted, fun op hop => ?refused⟩
  case admitted =>
    obtain ⟨hword, hphrase, hscroll⟩ := wf_text t
    have hlegal : Text.legal t = true := legal_iff.2 ⟨hlen, hnul⟩
    have hbytes : ∀ op : Byte, op :: (t ++ 0 :: rest) = op :: (t ++ [0]) ++ rest := fun op => by simp
    rw [hbytes, hbytes, hbytes]
    exact ⟨decodeOne_eq_ok_iff.2 ⟨hword.trans hlegal, rfl⟩, decodeOne_eq_ok_iff.2 ⟨hphrase.trans hlegal, rfl⟩,
      decodeOne_eq_ok_iff.2 ⟨hscroll.trans hlegal, rfl⟩⟩
  case refused =>
    simp only [List.mem_cons, List.not_mem_nil, or_false] at hop
    rcases hop with rfl | rfl | rfl <;>
      exact ⟨fun hlen => decodeFS_tooLong hnul hlen off _ rest, decodeFS_truncated hnul off _⟩

/-! ### Fields -/

/-- Bits 7:2 of a byte are zero exactly if it is below 4. -/
theorem reserved_ne_zero_iff (b : Byte) : b >>> 2 ≠ 0 ↔ 4 ≤ b.toNat := by
  rw [Ne, ← BitVec.toNat_inj, BitVec.toNat_ushiftRight, Nat.shiftRight_eq_div_pow]
  simp only [BitVec.toNat_zero, BitVec.ofNat_eq_ofNat]
  omega

theorem checked_of_badField {i : Instr} {f : Field} (h : i.badField = some f) (off : Nat) (rest : List Byte) :
    checked off i rest = .error (.badField off f) := by
  rw [checked, h]

theorem checked_of_wf {i : Instr} (h : i.badField = none) (off : Nat) (rest : List Byte) :
    checked off i rest = .ok (i, rest) := by
  rw [checked, h]

/-- The round of PLAY_ROUND and CAPTURE (R116). -/
theorem checked_round {i : Instr} {r : Byte} (hi : i.badField = if 15 < r.toNat then some .round else none) (off : Nat)
    (rest : List Byte) :
    checked off i rest = if 15 < r.toNat then .error (.badField off .round) else .ok (i, rest) := by
  by_cases h : 15 < r.toNat
  · rw [if_pos h] at hi ⊢
    exact checked_of_badField hi off rest
  · rw [if_neg h] at hi ⊢
    exact checked_of_wf hi off rest

/-- The slot and the code of WRITE_CHAR (R116). -/
theorem checked_writeChar (slot ch : Byte) (off : Nat) (rest : List Byte) :
    checked off (.writeChar slot ch) rest = if 6 < slot.toNat then .error (.badField off .slot)
      else if ch = 0 then .error (.badField off .ch) else .ok (.writeChar slot ch, rest) := by
  rw [checked, Instr.badField]
  by_cases hslot : 6 < slot.toNat
  · rw [if_pos hslot, if_pos hslot]
  · by_cases hch : ch = 0
    · rw [if_neg hslot, if_neg hslot, if_pos hch, if_pos hch]
    · rw [if_neg hslot, if_neg hslot, if_neg hch, if_neg hch]

theorem decodeFW_truncated {bs : List Byte} (h : bs.length < 2) (off : Nat) (mk : Word16 → Instr) :
    decodeFW off mk bs = .error (.truncated off) := by
  match bs, h with
  | [], _ | [_], _ => rfl

theorem decodeFN_truncated {bs : List Byte} (h : bs.length < 4) (off : Nat) (mk : Word32 → Instr) :
    decodeFN off mk bs = .error (.truncated off) := by
  match bs, h with
  | [], _ | [_], _ | [_, _], _ | [_, _, _], _ => rfl

theorem decodeFR_truncated {bs : List Byte} (h : bs.length < 3) (off : Nat) (mk : Word16 → Byte → Instr) :
    decodeFR off mk bs = .error (.truncated off) := by
  match bs, h with
  | [], _ | [_], _ | [_, _], _ => rfl

theorem decodeFC_truncated {bs : List Byte} (h : bs.length < 2) (off : Nat) (mk : Byte → Byte → Instr) :
    decodeFC off mk bs = .error (.truncated off) := by
  match bs, h with
  | [], _ | [_], _ => rfl

theorem decodeFI_truncated {bs : List Byte} (h : bs.length < 1) (off : Nat) (mk : Bool → Bool → Instr) :
    decodeFI off mk bs = .error (.truncated off) := by
  match bs, h with
  | [], _ => rfl

/-- A command whose operand bytes end before its last field is Truncated (R115). -/
theorem decodeOne_truncated {op : Byte} {n : Nat} {bs : List Byte}
    (hop : (op, n) ∈ ([(0x11, 2), (0x24, 4), (0x40, 3), (0x50, 3), (0x01, 2), (0x02, 1)] : List (Byte × Nat)))
    (hlen : bs.length < n) (off : Nat) : decodeOne off (op :: bs) = .error (.truncated off) := by
  simp only [List.mem_cons, Prod.mk.injEq, List.not_mem_nil, or_false] at hop
  rcases hop with ⟨rfl, rfl⟩ | ⟨rfl, rfl⟩ | ⟨rfl, rfl⟩ | ⟨rfl, rfl⟩ | ⟨rfl, rfl⟩ | ⟨rfl, rfl⟩
  · exact decodeFW_truncated hlen off .wait
  · exact decodeFN_truncated hlen off .showNumber
  · exact decodeFR_truncated hlen off .playRound
  · exact decodeFR_truncated hlen off .capture
  · exact decodeFC_truncated hlen off .writeChar
  · exact decodeFI_truncated hlen off .setInd

/-- Settles O6: each format assembles its fields and tests them. -/
theorem fieldRulesOfTheDecoder : Obligations.FieldRulesOfTheDecoder := by
  intro off b1 b2 b3 b4 rest
  rw [← le16_eq, ← le32_eq]
  refine ⟨checked_round rfl off rest, checked_round rfl off rest, checked_writeChar b1 b2 off rest, ?setInd, rfl, rfl,
    fun op n bs hop hlen => decodeOne_truncated hop hlen off⟩
  case setInd =>
    change decodeFI off .setInd (b1 :: rest) = _
    rw [decodeFI]
    by_cases h : b1 >>> 2 = 0
    · rw [if_pos h, if_neg fun h4 => (reserved_ne_zero_iff b1).2 h4 h]
      rfl
    · rw [if_neg h, if_pos ((reserved_ne_zero_iff b1).1 h)]

/-- Settles O8: each expansion is evaluated, and each is a command of legal fields. -/
theorem pseudoInstructionsExpand : Obligations.PseudoInstructionsExpand := by
  refine ⟨⟨rfl, rfl, rfl, rfl, rfl⟩, fun p => ?_⟩
  refine ⟨rfl, rfl, rfl, rfl, rfl, rfl, rfl, rfl, rfl, rfl, fun x => ?_⟩
  cases x with
  | showError => exact (wf_text litError).1.trans (by decide)
  | indOff | indA | indB | indBoth | delayPhrase | delayScroll | delayPlay | delayDebounce | delayRound => rfl

end Sys2Proof.Proofs
end

section
/-! One action at a time: SAMPLE_ENTROPY, the iterations of GENERATE (42_sequence_generator.md R200), the restart poll of G2
(45_game_controller.md R258), CAPTURE's poll, the labels without an operation, and operands that no operation is handed. -/

namespace Sys2Proof.Proofs

open Sys2Proof.Machine
open Sys2Proof.Safety
open Sys2Proof.Laws

/-! ### Operands that no operation is handed (30_encoding.md R116) -/

theorem requireRound_refused {round : Byte} (h : 15 < round.toNat) (r : Result) :
    requireRound round r = .refused (.inadmissible .round) := if_neg (Nat.not_le.2 h)

theorem requireText_refused {t : Text} (h : 255 < t.length ∨ ¬noNul t) (r : Result) :
    requireText t r = .refused (.inadmissible .text) := by
  refine if_neg fun hlegal => ?_
  obtain ⟨hlen, hnul⟩ := legal_iff.1 hlegal
  exact h.elim (fun hlong => absurd hlen (Nat.not_le.2 hlong)) fun hbad => hbad hnul

/-- Settles O13: the operand is tested before anything else. -/
theorem inadmissibleOperandsAreRefused : Obligations.InadmissibleOperandsAreRefused :=
  fun _ => ⟨fun _ _ h => ⟨requireRound_refused h _, requireRound_refused h _⟩,
    fun _ h => ⟨requireText_refused h _, requireText_refused h _, requireText_refused h _⟩⟩

/-! ### SAMPLE_ENTROPY -/

/-- SAMPLE_ENTROPY's line (20_memory.md R89). -/
theorem runStmt_sample (s : State) : runStmt .sample s = .next { s with ret := s.freeCnt } := by
  rw [runStmt, lineSample, readFree_eq]

/-- Settles O30: the one ReadFree, then the response. -/
theorem sampleEntropyReadsFreeCnt : Obligations.SampleEntropyReadsFreeCnt := by
  intro s e rest hs he ht
  have hk := agents_keeps e s
  refine (runCommand_one_ends rfl endWithResponse hs he ht (runStmt_sample _) (agents_todo_nil e hs)).trans ?_
  rw [← hk.trace, ← hk.cidx]
  rfl

/-! ### GENERATE -/

/-- What GENERATE's two actions read in one iteration: the start button's level, then FREE_CNT. -/
def sampleTaken (u v : State) : Prop :=
  pressedOf u.launch.params.startButton (!u.inReg.getLsbD 0) (!u.inReg.getLsbD 1) = true ∧ v.freeCnt ≠ 0

/-- `s` with MAIN standing before these lines, in a run through turns given from outside. -/
def standing (ls : List Stmt) (s : State) : State := { s with todo := ls, turns := [] }

@[simp] theorem standing_todo (ls : List Stmt) (s : State) : (standing ls s).todo = ls := rfl

theorem agents_standing (ts : List Config.Turn) (ls : List Stmt) (s : State) :
    agents ts (standing ls s) = standing ls (agents ts s) :=
  agents_todo_turns ts s ls []

theorem drive_main_of_go {finish : State → State} {s u : State} (h : mainAct s = .next u) (hu : u.todo ≠ [])
    (ts : List Config.Turn) : drive finish (.main :: ts) s = drive finish ts u := by
  rw [drive_main, h, andThen_next, if_neg hu]

theorem drive_main_of_end {finish : State → State} {s u : State} (h : mainAct s = .next u) (hu : u.todo = [])
    (ts : List Config.Turn) : drive finish (.main :: ts) s = .next (finish { u with turns := ts }) := by
  rw [drive_main, h, andThen_next, if_pos hu]

/-- MAIN's turn at GENERATE's first line. -/
theorem mainAct_genBtn (s : State) : mainAct (standing [.genBtn] s) = .next (standing [.genSample
    (pressedOf s.launch.params.startButton (!s.inReg.getLsbD 0) (!s.inReg.getLsbD 1))] s) := by
  simp only [mainAct, standing_todo]
  rw [runStmt_genBtn, andThen_next, settle_active (ls := []) _ rfl rfl]
  rfl

/-- MAIN's turn at GENERATE's second line. -/
theorem mainAct_genSample (pressed : Bool) (s : State) : mainAct (standing [.genSample pressed] s) = .next
    (if pressed = true ∧ s.freeCnt ≠ 0 then standing [] { s with ret := s.freeCnt } else standing [.genBtn] s) := by
  simp only [mainAct, standing_todo]
  rw [runStmt_genSample, andThen_next]
  by_cases h : pressed = true ∧ s.freeCnt ≠ 0
  · rw [if_pos h, if_pos (by exact h)]
    exact settle_nil _ rfl
  · rw [if_neg h, if_neg (by exact h)]
    exact settle_active (ls := []) _ rfl rfl

/-- One iteration of GENERATE: it returns a sample taken, and begins the next iteration otherwise. -/
theorem drive_generate (finish : State → State) {s u v : State} {e₁ e₂ : List Config.Turn} (h₁ : .main ∉ e₁)
    (h₂ : .main ∉ e₂) (hu : u = agents e₁ s) (hv : v = agents e₂ u) (rest : List Config.Turn) :
    (sampleTaken u v → drive finish (e₁ ++ .main :: e₂ ++ .main :: rest) (standing [.genBtn] s) =
      .next (finish { v with todo := [], ret := v.freeCnt, turns := rest })) ∧
    (¬sampleTaken u v → drive finish (e₁ ++ .main :: e₂ ++ .main :: rest) (standing [.genBtn] s) =
      drive finish rest (standing [.genBtn] v)) := by
  rw [List.append_assoc, List.cons_append, drive_agents finish e₁ h₁, agents_standing, ← hu,
    drive_main_of_go (mainAct_genBtn u) (List.cons_ne_nil _ _), drive_agents finish e₂ h₂, agents_standing, ← hv]
  have hmain := mainAct_genSample (pressedOf u.launch.params.startButton (!u.inReg.getLsbD 0) (!u.inReg.getLsbD 1)) v
  constructor
  · intro h
    rw [if_pos (by exact h)] at hmain
    rw [drive_main_of_end hmain rfl]
    rfl
  · intro h
    rw [if_neg (by exact h)] at hmain
    rw [drive_main_of_go hmain (List.cons_ne_nil _ _)]

/-- The run of GENERATE, where turns are prescribed. -/
theorem exec_generate {s : State} (hs : s.todo = []) (ht : s.turns ≠ []) :
    exec .generate s = drive endWithResponse s.turns (standing [.genBtn] s) :=
  runCommand_start rfl [] endWithResponse s hs ht

/-- Settles O38: the first iteration takes the sample. -/
theorem generateReturnsTheGatedSample : Obligations.GenerateReturnsTheGatedSample := by
  intro s u v e₁ e₂ rest hs h₁ h₂ ht hu hv hpressed hcount
  have hku : AgentKeeps s u := hu ▸ agents_keeps e₁ s
  have hkv : AgentKeeps s v := agentKeeps_trans hku (hv ▸ agents_keeps e₂ u)
  have htaken : sampleTaken u v := ⟨by rw [hku.launch]; exact hpressed, hcount⟩
  have hv0 : v.todo = [] := hkv.todo.trans hs
  rw [exec_generate hs (by simp [ht]), ht, (drive_generate endWithResponse h₁ h₂ hu hv rest).1 htaken, ← hkv.trace,
    ← hkv.cidx, ← hv0]
  rfl

/-- Settles O39: the first iteration takes no sample, and the next one begins where a new GENERATE would. -/
theorem generateSamplesAgain : Obligations.GenerateSamplesAgain := by
  intro s u v e₁ e₂ rest hs h₁ h₂ hrest ht hu hv hrejected
  have hku : AgentKeeps s u := hu ▸ agents_keeps e₁ s
  have hkv : AgentKeeps s v := agentKeeps_trans hku (hv ▸ agents_keeps e₂ u)
  have htaken : ¬sampleTaken u v := by
    rintro ⟨hpressed, hcount⟩
    rw [hku.launch] at hpressed
    exact hrejected.elim (fun h => by rw [h] at hpressed; cases hpressed) fun h => hcount h
  have hv0 : v.todo = [] := hkv.todo.trans hs
  rw [exec_generate hs (by simp [ht]), ht, (drive_generate endWithResponse h₁ h₂ hu hv rest).2 htaken]
  exact (exec_generate (s := { v with turns := rest }) hv0 hrest).symm

/-- FTIMER's steps advance FREE_CNT (40_timing_service.md R147). -/
theorem agents_ftimer_freeCnt : ∀ (n : Nat) (s : State),
    (agents (List.replicate n .ftimer) s).freeCnt = s.freeCnt + BitVec.ofNat 16 n
  | 0, s => (BitVec.add_zero _).symm
  | n + 1, s => by
    rw [List.replicate_succ, agents_cons, agents_ftimer_freeCnt n, agentAct_ftimer, BitVec.add_assoc, Nat.add_comm n 1,
      BitVec.ofNat_add]
    rfl

theorem pressedOf_both (x : Config.Button) : pressedOf x true true = true := by cases x <;> rfl

/-- Settles O41: PLAYER presses both buttons, and FTIMER advances FREE_CNT to the value before it is sampled. -/
theorem everyNonzeroSequenceIsPossible : Obligations.EveryNonzeroSequenceIsPossible := by
  intro s v hs hv
  let wait := List.replicate (v - s.freeCnt).toNat Config.Turn.ftimer
  let ts := [.player 0] ++ .main :: wait ++ .main :: []
  let begun : State := { s with turns := ts }
  have hcount : (agents wait (agents [.player 0] begun)).freeCnt = v := by
    rw [agents_ftimer_freeCnt, BitVec.ofNat_toNat, BitVec.setWidth_eq]
    exact (BitVec.add_comm _ _).trans (BitVec.sub_add_cancel v s.freeCnt)
  have hlevels : (agents [.player 0] begun).inReg = 0 := rfl
  have hrun := generateReturnsTheGatedSample begun _ _ [.player 0] wait [] hs (by simp)
    (fun h => nomatch List.eq_of_mem_replicate h) rfl rfl rfl (by rw [hlevels]; exact pressedOf_both _) (by rw [hcount]; exact hv)
  exact ⟨ts, _, hrun, (agents_keeps wait _).todo.trans hs, hcount⟩

/-! ### Label G2 -/

/-- G2's poll (45_game_controller.md R258). -/
theorem runStmt_restartPoll (s : State) : runStmt .restartPoll s =
    .next (push (if !s.inReg.getLsbD 0 && !s.inReg.getLsbD 1 then [] else [.restartPoll]) s) := by
  rw [runStmt, lineRestartPoll, readButtons_eq]

theorem mainAct_restartPoll (s : State) : mainAct (standing [.restartPoll] s) =
    .next (standing (if !s.inReg.getLsbD 0 && !s.inReg.getLsbD 1 then [] else [.restartPoll]) s) := by
  simp only [mainAct, standing_todo]
  rw [runStmt_restartPoll, andThen_next]
  by_cases h : (!s.inReg.getLsbD 0 && !s.inReg.getLsbD 1) = true
  · rw [if_pos h, if_pos (by exact h)]
    exact settle_nil _ rfl
  · rw [if_neg h, if_neg (by exact h)]
    exact settle_active (ls := []) _ rfl rfl

theorem step_g2 {s : State} (hmode : s.launch.mode = .game) (hcpc : s.cpc = .g2) (hs : s.todo = []) (ht : s.turns ≠ []) :
    step s = drive (labelEnd .g2) s.turns (standing [.restartPoll] s) := by
  rw [step_of_game hmode, hcpc]
  exact runCommand_start rfl [] (labelEnd .g2) s hs ht

/-- Settles O53: the poll ends the label, or leaves MAIN where a G2 begun then would stand. -/
theorem restartNeedsBothButtons : Obligations.RestartNeedsBothButtons := by
  intro s e rest hmode hcpc hs he hrest ht
  have hk := agents_keeps e s
  have hidle : (agents e s).todo = [] := agents_todo_nil e hs
  have hmain := mainAct_restartPoll (agents e s)
  rw [step_g2 hmode hcpc hs (by simp [ht]), ht, drive_agents _ e he, agents_standing]
  refine ⟨fun ⟨ha, hb⟩ => ?both, fun hnot => ?again⟩
  case both =>
    rw [ha, hb] at hmain
    rw [drive_main_of_end hmain rfl, ← hidle]
    rfl
  case again =>
    rw [if_neg (by simpa only [Bool.and_eq_true, Bool.not_eq_true'] using hnot)] at hmain
    rw [drive_main_of_go hmain (List.cons_ne_nil _ _)]
    exact (step_g2 (s := { agents e s with turns := rest }) (hk.launch ▸ hmode) (hk.cpc.trans hcpc) hidle hrest).symm

/-! ### CAPTURE's poll -/

/-- Settles O46: the reading of A decides, and the first line of a press is the SetInd. -/
theorem captureTakesAFirst : Obligations.CaptureTakesAFirst := by
  intro s seq r rest hs ha
  have hpoll : runStmt (.capPoll seq r) { s with todo := rest } =
      .next { s with todo := pressLines seq .a s ++ .capTest seq r :: rest } := by
    rw [runStmt, lineCapPoll, readButtons_eq, ha, push, List.append_assoc]
    rfl
  simp only [mainAct, hs]
  rw [hpoll, andThen_next]
  exact settle_active (st := .ind true false) _ rfl rfl

/-! ### Labels without an operation -/

theorem step_of_operationFree {s : State} (hmode : s.launch.mode = .game) (hs : s.todo = [])
    (hfree : operationFree s.cpc = true) :
    step s = andThen (labelBegin s.cpc s) fun u => .next (labelEnd s.cpc u) := by
  rw [step_of_game hmode, execLabel_of_operationFree hfree hs]

/-- Settles O49: each of the nine labels writes its registers and sets CPC. -/
theorem labelsWithoutOperations : Obligations.LabelsWithoutOperations := by
  intro s hmode hs
  have hstep := step_of_operationFree hmode hs
  refine ⟨?_, ?_, ?_, ?_, ?_, ?_, ?_, ?_, ?_⟩ <;>
    · intro hcpc
      rw [hcpc] at hstep
      exact (hstep rfl).trans (andThen_next _ _)

end Sys2Proof.Proofs
end

section
/-! Runs in pieces, and the end of a run apart from the run: an operation paused goes on where it stood (20_memory.md R84), and
a label runs the operation of its command (45_game_controller.md R242, R243, R251, R252). -/

namespace Sys2Proof.Proofs

open Sys2Proof.Machine
open Sys2Proof.Safety
open Sys2Proof.Laws

/-! ### What begins an operation does not see the interleaving -/

/-- The entry of an operation neither reads nor writes the turns prescribed. -/
def TurnsBlind (start : State → Result) : Prop :=
  ∀ s ts, start { s with turns := ts } = andThen (start s) fun t => .next { t with turns := ts }

theorem turnsBlind_push (body : List Stmt) : TurnsBlind fun s => .next (push body s) := fun _ _ => rfl

theorem turnsBlind_label (l : Label) : TurnsBlind (labelBegin l) := by
  intro s ts
  cases l
  case a1 => rw [labelBegin, labelBegin, andThen_requireText]; rfl
  case rl6 | rl7 =>
    refine readReg_withHidden _ _ _ _ _ fun q => ?_
    rw [andThen_requireRound]
    rfl
  all_goals rfl

theorem settle_turns (n : Nat) (s : State) (ts : List Config.Turn) :
    settle n { s with turns := ts } = andThen (settle n s) fun t => .next { t with turns := ts } := by
  refine (settle_withHidden s.freeOvf ts s.draws n s).trans ?_
  cases h : settle n s with
  | next t =>
    have hk := settle_keeps n s t h
    rw [andThen_next, andThen_next, withHidden, ← hk.freeOvf, ← hk.draws]
  | fault e => rfl
  | refused e => rfl

/-- The state in which an operation takes its turns: begun, or in progress. -/
def begun (start : State → Result) (s : State) : Result := if s.todo = [] then beginOperation start s else .next s

theorem begun_turns {start : State → Result} (h : TurnsBlind start) (s : State) (ts : List Config.Turn) :
    begun start { s with turns := ts } = andThen (begun start s) fun t => .next { t with turns := ts } := by
  by_cases hs : s.todo = []
  · rw [begun, begun, if_pos hs, if_pos (by exact hs), beginOperation, h, beginOperation, andThen_assoc, andThen_assoc]
    congr 1
    funext t
    rw [andThen_next, settle_turns]
  · rw [begun, begun, if_neg hs, if_neg (by exact hs), andThen_next]

/-- The run of an operation through the turns prescribed. -/
theorem runOperation_turns {start : State → Result} (h : TurnsBlind start) (finish : State → State) (s : State)
    {ts : List Config.Turn} (hts : ts ≠ []) : runOperation start finish { s with turns := ts } =
      andThen (begun start s) fun u =>
        if u.todo = [] then .next (finish { u with turns := ts }) else drive finish ts { u with turns := [] } := by
  change andThen (begun start { s with turns := ts }) _ = _
  rw [begun_turns h, andThen_assoc]
  congr 1
  funext u
  rw [andThen_next]
  by_cases hu : u.todo = []
  · rw [if_pos hu, if_pos (by exact hu)]
  · rw [if_neg hu, if_neg (by exact hu), interleave, if_neg (by exact hts)]

/-! ### Pauses -/

/-- An end that leaves MAIN's position as it is. -/
def KeepsPosition (finish : State → State) : Prop := ∀ s, (finish s).todo = s.todo

theorem keepsPosition_commandEnd (i : Instr) : KeepsPosition (commandEnd i) := by
  intro s
  unfold commandEnd
  split <;> rfl

theorem keepsPosition_labelEnd (l : Label) : KeepsPosition (labelEnd l) := by
  intro s
  cases l <;> rfl

/-- Where a run pauses, its end has had no part in it. -/
theorem drive_id_of_pause {finish : State → State} (hfin : KeepsPosition finish) {ts : List Config.Turn} {s t : State}
    (hs : s.todo ≠ []) (h : drive finish ts s = .next t) (ht : t.todo ≠ []) : drive id ts s = .next t := by
  rw [drive_finish finish ts s hs, andThen_eq_next] at h
  obtain ⟨u, hu, h⟩ := h
  split at h
  · rename_i hdone
    cases h
    exact absurd ((hfin u).trans hdone) ht
  · cases h
    exact hu

/-- A run that pauses goes on through more turns as it would have done at once. -/
theorem drive_append_of_pause {finish : State → State} (hfin : KeepsPosition finish) {ts : List Config.Turn} {s t : State}
    (hs : s.todo ≠ []) (h : drive finish ts s = .next t) (ht : t.todo ≠ []) (us : List Config.Turn) :
    drive finish (ts ++ us) s = drive finish us t := by
  have hid := drive_id_of_pause hfin hs h ht
  rw [drive_finish finish _ s hs, drive_append_go us ts s t hid ht, ← drive_finish finish us t ht]

theorem runOperation_append_of_pause {start : State → Result} (hstart : TurnsBlind start) {finish : State → State}
    (hfin : KeepsPosition finish) {s t : State} {ts us : List Config.Turn} (hts : ts ≠ []) (hus : us ≠ [])
    (h : runOperation start finish { s with turns := ts } = .next t) (ht : t.todo ≠ []) :
    runOperation start finish { s with turns := ts ++ us } = runOperation start finish { t with turns := us } := by
  have happ : ts ++ us ≠ [] := fun h => hts (List.append_eq_nil_iff.1 h).1
  rw [runOperation_turns hstart finish s hts, andThen_eq_next] at h
  obtain ⟨u, hu, h⟩ := h
  have hgo : u.todo ≠ [] := by
    intro hdone
    rw [if_pos hdone] at h
    cases h
    exact ht ((hfin _).trans hdone)
  rw [if_neg hgo] at h
  have hnone : t.turns = [] :=
    drive_pause_turns ts _ rfl t (drive_id_of_pause (s := { u with turns := [] }) hfin hgo h ht) ht
  rw [runOperation_turns hstart finish s happ, hu, andThen_next, if_neg hgo,
    drive_append_of_pause (s := { u with turns := [] }) hfin hgo h ht, runOperation_turns hstart finish t hus, begun,
    if_neg ht, andThen_next, if_neg ht, ← hnone]

/-- Settles O12: the run of a command pauses as every operation does. -/
theorem pausedOperationGoesOnWhereItStood : Obligations.PausedOperationGoesOnWhereItStood := by
  intro i s t ts us hts hus h ht
  rw [exec_eq_runCommand h, exec_eq_runCommand h]
  exact runOperation_append_of_pause (turnsBlind_push _) (keepsPosition_commandEnd i) hts hus (exec_runs_lines h) ht

/-! ### The end of an operation -/

/-- What `finish` does at the end of an operation is done after its run. -/
theorem runOperation_finish (start : State → Result) (finish : State → State) (s : State) :
    runOperation start finish s =
      andThen (runOperation start id s) fun t => if t.todo = [] then .next (finish t) else .next t := by
  change andThen (begun start s) _ = andThen (andThen (begun start s) _) _
  rw [andThen_assoc]
  congr 1
  funext u
  by_cases hu : u.todo = []
  · rw [if_pos hu, if_pos hu, id, andThen_next, if_pos hu]
  · rw [if_neg hu, if_neg hu]
    unfold interleave
    split
    · exact drive_finish finish _ _ hu
    · exact drive_finish finish _ _ hu

/-- Inside an operation whose entry keeps CIDX it stays. -/
theorem runOperation_id_cidx {start : State → Result} {s : State} (hstart : onNext (start s) fun u => u.cidx = s.cidx) :
    onNext (runOperation start id s) fun t => t.cidx = s.cidx := by
  refine runOperation_onNext (I := fun u => u.cidx = s.cidx) (fun _ => ?begin) (fun _ => rfl)
    (fun u hu => onNext_mono (mainAct_keeps u) fun _ hv => hv.cidx.trans hu)
    (fun t u hu => (agentAct_keeps t u).cidx.trans hu) (fun _ _ _ hu => hu) (fun _ hu _ => hu) (fun _ hu _ => hu)
  case begin =>
    rw [beginOperation, onNext_andThen]
    exact onNext_mono hstart fun u hu => onNext_mono (settle_keeps settleFuel u) fun _ hv => hv.cidx.trans hu

theorem runCommand_id_cidx (body : List Stmt) (s : State) : onNext (runCommand body id s) fun t => t.cidx = s.cidx :=
  runOperation_id_cidx (start := fun s => .next (push body s)) ((onNext_next _ _).2 rfl)

/-- CIDX advances where a command ends (30_encoding.md R127), and only there. -/
theorem exec_cidx {i : Instr} {s t : State} (h : exec i s = .next t) :
    t.cidx = if t.todo = [] then s.cidx + 1 else s.cidx := by
  have hrun := exec_runs_lines h
  rw [runCommand, runOperation_finish, andThen_eq_next] at hrun
  obtain ⟨u, hu, hend⟩ := hrun
  have hcidx := runCommand_id_cidx (commandLines i) s u hu
  split at hend
  · rename_i hdone
    cases hend
    rw [if_pos ((keepsPosition_commandEnd i u).trans hdone), ← hcidx]
    unfold commandEnd
    split <;> rfl
  · rename_i hgo
    cases hend
    rw [if_neg hgo, hcidx]

/-- A label that begins with the lines of a command runs them as the command does, up to their ends. -/
theorem execLabel_of_command {l : Label} {i : Instr} {s t : State} (hbegin : labelBegin l s = .next (push (commandLines i) s))
    (hs : s.todo = []) (h : exec i s = .next t) : ∃ u, u.cidx = s.cidx ∧
      t = (if u.todo = [] then commandEnd i u else u) ∧
      execLabel l s = .next (if u.todo = [] then labelEnd l u else u) := by
  have hrun := exec_runs_lines h
  rw [runCommand, runOperation_finish, andThen_eq_next] at hrun
  obtain ⟨u, hu, hend⟩ := hrun
  have hcidx := runCommand_id_cidx (commandLines i) s u hu
  have hsame : runOperation (labelBegin l) id s = runOperation (fun s => .next (push (commandLines i) s)) id s := by
    rw [runOperation, runOperation, if_pos hs, if_pos hs, beginOperation, beginOperation, hbegin]
  refine ⟨u, hcidx, ?_, ?_⟩
  · by_cases hdone : u.todo = []
    · rw [if_pos hdone] at hend ⊢
      exact (Host.Outcome.next.inj hend).symm
    · rw [if_neg hdone] at hend ⊢
      exact (Host.Outcome.next.inj hend).symm
  · rw [execLabel, runOperation_finish, hsame, hu, andThen_next]
    split <;> rfl

/-- As `execLabel_of_command`, for a state `labelled t` that the label's end leaves where the command's leaves `t`. -/
theorem step_of_command_lines {l : Label} {i : Instr} {s t : State} {labelled : State → State}
    (hmode : s.launch.mode = .game) (hcpc : s.cpc = l) (hbegin : labelBegin l s = .next (push (commandLines i) s))
    (hs : s.todo = []) (h : exec i s = .next t)
    (hend : ∀ u : State, u.cidx = s.cidx → labelEnd l u = labelled (commandEnd i u)) :
    step s = .next (if t.todo = [] then labelled t else t) := by
  obtain ⟨u, hcidx, ht, hlabel⟩ := execLabel_of_command hbegin hs h
  rw [step_of_game hmode, hcpc, hlabel, ht]
  by_cases hdone : u.todo = []
  · rw [if_pos hdone, if_pos hdone, if_pos ((keepsPosition_commandEnd i u).trans hdone), hend u hcidx]
  · rw [if_neg hdone, if_neg hdone, if_neg hdone]

/-- Settles O51: each of the four labels begins with its command's lines, and only the ends differ. -/
theorem labelsRunTheCommandsOperations : Obligations.LabelsRunTheCommandsOperations := by
  intro s t hmode hs
  refine ⟨fun hcpc h => ?a1, fun q hcpc hq h => ?rl6, fun hcpc h => ?a2, fun q hcpc hq h => ?rl7⟩
  case a1 =>
    refine step_of_command_lines (l := .a1) (labelled := fun t => { t with cidx := s.cidx, cpc := .a2 }) hmode hcpc
      (by exact requireText_of_next h _) hs h fun u hu => ?_
    rw [← hu]
    rfl
  case rl6 =>
    refine step_of_command_lines (labelled := fun t => { t with cidx := s.cidx, cpc := .rl7 }) hmode hcpc ?_ hs h
      fun u hu => ?_
    · rw [labelBegin, hq, readReg_some]
      exact requireRound_of_next h _
    · rw [← hu]
      rfl
  case a2 =>
    refine step_of_command_lines (labelled := fun t => { t with cidx := s.cidx, cpc := .s0, trace := t.trace.dropLast })
      hmode hcpc rfl hs h fun u hu => ?_
    rw [← hu]
    simp [commandEnd, responds, labelEnd, endWithResponse, endCommand, emit]
  case rl7 =>
    refine step_of_command_lines (labelled := fun t =>
      { t with cidx := s.cidx, cpc := .rl8, trace := t.trace.dropLast, overFlag := t.ret.getLsbD 0 }) hmode hcpc ?_ hs h
      fun u hu => ?_
    · rw [labelBegin, hq, readReg_some]
      exact requireRound_of_next h _
    · rw [← hu]
      simp [commandEnd, responds, labelEnd, endWithResponse, endCommand, emit]

end Sys2Proof.Proofs
end

section
/-! What labels and commands leave as it was: the game registers at each label, the registers and the trace of the timing and
round commands, and the ports where MAIN alone moves. -/

namespace Sys2Proof.Proofs

open Sys2Proof.Machine
open Sys2Proof.Safety
open Sys2Proof.Laws

/-! ### The game registers at a label (10_state.md R30 to R33, R37) -/

/-- From `s` to `t` label `l` wrote at most the registers that are its own, and not CIDX. -/
structure LabelWrites (l : Label) (s t : State) : Prop where
  seq : l ∉ ([.a0, .s0] : List Label) → t.seq = s.seq
  counters : l ∉ ([.a0, .s0, .rl9] : List Label) → t.round = s.round ∧ t.score = s.score
  overFlag : l ∉ ([.a0, .s0, .rl7, .rl10] : List Label) → t.overFlag = s.overFlag
  cstate : l ∉ ([.a0, .s0, .rl0, .g0] : List Label) → t.cstate = s.cstate
  cidx : t.cidx = s.cidx

theorem labelWrites_trans {l : Label} {s t u : State} (h : LabelWrites l s t) (g : LabelWrites l t u) :
    LabelWrites l s u where
  seq hl := (g.seq hl).trans (h.seq hl)
  counters hl := ⟨(g.counters hl).1.trans (h.counters hl).1, (g.counters hl).2.trans (h.counters hl).2⟩
  overFlag hl := (g.overFlag hl).trans (h.overFlag hl)
  cstate hl := (g.cstate hl).trans (h.cstate hl)
  cidx := g.cidx.trans h.cidx

theorem labelWrites_of_gameKept (l : Label) {s t : State} (h : GameKept s t) (hc : t.cidx = s.cidx) : LabelWrites l s t :=
  ⟨fun _ => h.seq, fun _ => ⟨h.round, h.score⟩, fun _ => h.overFlag, fun _ => h.cstate, hc⟩

theorem labelWrites_push (l : Label) (ls : List Stmt) (s : State) : LabelWrites l s (push ls s) :=
  labelWrites_of_gameKept l ⟨rfl, rfl, rfl, rfl, rfl, rfl⟩ rfl

theorem labelBegin_labelWrites (l : Label) (s : State) : onNext (labelBegin l s) (LabelWrites l s) := by
  have hpush : ∀ ls, onNext (.next (push ls s)) (LabelWrites l s) := fun ls =>
    (onNext_next _ _).2 (labelWrites_push l ls s)
  cases l
  case a1 => exact fun t ht => hpush _ t (requireText_eq_next ht)
  case rl6 | rl7 =>
    simp only [labelBegin, onNext_readReg]
    exact fun q _ t ht => hpush _ t (requireRound_eq_next ht)
  case a2 | rl2 | rl4 | rl5 | g1 | g2 => exact hpush _
  all_goals
    rw [labelBegin, onNext_next]
    constructor <;> simp

theorem labelEnd_labelWrites (l : Label) (s : State) : LabelWrites l s (labelEnd l s) := by
  cases l
  case rl7 => constructor <;> simp [labelEnd]
  all_goals exact ⟨fun _ => rfl, fun _ => ⟨rfl, rfl⟩, fun _ => rfl, fun _ => rfl, rfl⟩

theorem execLabel_labelWrites (l : Label) (s : State) : onNext (execLabel l s) (LabelWrites l s) := by
  refine runOperation_onNext (I := LabelWrites l s) (fun _ => ?begin)
    (fun _ => labelWrites_of_gameKept l (gameKept_refl s) rfl)
    (fun u hu => onNext_mono (mainAct_keeps u) fun _ hv =>
      labelWrites_trans hu (labelWrites_of_gameKept l (gameKept_of_mainKeeps hv) hv.cidx))
    (fun t u hu => labelWrites_trans hu
      (labelWrites_of_gameKept l (gameKept_of_agentKeeps (agentAct_keeps t u)) (agentAct_keeps t u).cidx))
    (fun u ts n hu => labelWrites_trans hu (labelWrites_of_gameKept l (gameKept_interleaving u ts n) rfl))
    (fun _ hu _ => hu) (fun u hu _ => labelWrites_trans hu (labelEnd_labelWrites l u))
  case begin =>
    rw [beginOperation, onNext_andThen]
    exact onNext_mono (labelBegin_labelWrites l s) fun u hu => onNext_mono (settle_keeps settleFuel u) fun _ hv =>
      labelWrites_trans hu (labelWrites_of_gameKept l (gameKept_of_mainKeeps hv) hv.cidx)

/-- Settles O16: a label's entry and end write the registers that are its own, and what runs between them none. -/
theorem gameRegistersChangeAtTheirLabelsOnly : Obligations.GameRegistersChangeAtTheirLabelsOnly := by
  intro s t hmode h
  rw [step_of_game hmode] at h
  obtain ⟨hseq, hcounters, hover, hcstate, hcidx⟩ := execLabel_labelWrites s.cpc s t h
  exact ⟨hseq, hcounters, hover, hcstate, hcidx⟩

/-! ### Responses (30_encoding.md R119) -/

theorem resp_notMem_footprint (st : Stmt) : .resp ∉ footprint st := by cases st <;> simp [footprint]

/-- What a command adds to the trace: the events of its lines, and at its end the response, if it gives one. -/
theorem exec_trace_response {i : Instr} {s t : State} (hs : s.todo = []) (h : exec i s = .next t) :
    ∃ es, (∀ e ∈ es, ∃ st ∈ commandLines i, eventPart e ∈ footprint st) ∧
      t.trace = s.trace ++ es ++ if t.todo = [] ∧ responds i = true then [.resp t.ret] else [] := by
  let P := .tickSet :: (commandLines i).flatMap footprint
  have hlines : ∀ {es : List Event}, (∀ e ∈ es, eventPart e ∈ P) →
      ∀ e ∈ es, ∃ st ∈ commandLines i, eventPart e ∈ footprint st := by
    intro es hes e he
    refine List.mem_flatMap.1 ((List.mem_cons.1 (hes e he)).resolve_left fun htick => ?_)
    cases e <;> cases htick
  have hagent : ∀ t : Config.Turn, turnFootprint t ⊆ P := by
    intro t p hp
    cases t <;> simp [turnFootprint] at hp
    exact hp ▸ List.mem_cons_self
  have hturns : ∀ (u : State) (ts : List Config.Turn) (n : Nat), RunWrites P s u →
      RunWrites P s { u with turns := ts, draws := n } := fun u ts n hu =>
    ⟨writesOnly_trans hu.writes (writesOnly_position P u u.todo ts n u.cidx), hu.lines⟩
  refine runOperation_onNext (I := RunWrites P s)
    (Q := fun t => ∃ es, (∀ e ∈ es, ∃ st ∈ commandLines i, eventPart e ∈ footprint st) ∧
      t.trace = s.trace ++ es ++ if t.todo = [] ∧ responds i = true then [.resp t.ret] else [])
    (start := fun s => .next (push (commandLines i) s)) (finish := commandEnd i) (fun _ => ?begin) (fun hne => absurd hs hne)
    mainAct_runWrites
    (fun t u hu => ⟨writesOnly_trans hu.writes (writesOnly_mono (agentAct_writes t u) (hagent t)), by simpa using hu.lines⟩)
    hturns (fun u hu hne => ?pause) (fun u hu hdone => ?done) t (exec_runs_lines h)
  case begin =>
    rw [beginOperation, andThen_next]
    refine settle_runWrites settleFuel _ ⟨writesOnly_position P s _ s.turns s.draws s.cidx, ?_⟩
    rw [push_todo, hs, List.append_nil]
    exact fun st hst p hp => List.mem_cons_of_mem _ (List.mem_flatMap.2 ⟨st, hst, hp⟩)
  case pause =>
    obtain ⟨es, hes, hP⟩ := hu.writes.trace
    exact ⟨es, hlines hP, by rw [hes, if_neg fun hx => hne hx.1, List.append_nil]⟩
  case done =>
    obtain ⟨es, hes, hP⟩ := hu.writes.trace
    refine ⟨es, hlines hP, ?_⟩
    rw [keepsPosition_commandEnd i u, hdone]
    unfold commandEnd
    cases hr : responds i with
    | true => rw [if_pos rfl, endWithResponse_trace, hes, if_pos ⟨rfl, rfl⟩]; rfl
    | false => rw [if_neg Bool.false_ne_true, endCommand_trace, hes, if_neg fun hx => Bool.false_ne_true hx.2,
        List.append_nil]

/-- A command whose lines write no output adds the response alone. -/
theorem exec_trace_of_no_output {i : Instr} {s t : State} (hs : s.todo = []) (h : exec i s = .next t)
    (hlines : ∀ st ∈ commandLines i, ∀ p ∈ ([.disp, .outReg, .error] : List Part), p ∉ footprint st) :
    t.trace = s.trace ++ if t.todo = [] ∧ responds i = true then [.resp t.ret] else [] := by
  obtain ⟨es, hes, ht⟩ := exec_trace_response hs h
  cases es with
  | nil => rw [ht, List.append_nil]
  | cons e es =>
    obtain ⟨st, hst, hp⟩ := hes e List.mem_cons_self
    cases e with
    | write slot ch => exact absurd hp (hlines st hst .disp (by simp))
    | ind a b => exact absurd hp (hlines st hst .outReg (by simp))
    | error k => exact absurd hp (hlines st hst .error (by simp))
    | resp v => exact absurd hp (resp_notMem_footprint st)

/-- No event of a command's lines is a response. -/
theorem exec_trace_no_response {i : Instr} {s t : State} (hs : s.todo = []) (h : exec i s = .next t) :
    ∃ es, (∀ e ∈ es, ∀ v, e ≠ .resp v) ∧
      t.trace = s.trace ++ es ++ if t.todo = [] ∧ responds i = true then [.resp t.ret] else [] := by
  obtain ⟨es, hes, ht⟩ := exec_trace_response hs h
  refine ⟨es, fun e he v hv => ?_, ht⟩
  obtain ⟨st, -, hp⟩ := hes e he
  rw [hv] at hp
  exact resp_notMem_footprint st hp

/-! ### READ_BTN, TICK, WAIT, SAMPLE_ENTROPY and GENERATE -/

/-- The commands that sample an input or wait, and write no output. -/
def timingCommand (i : Instr) : Prop :=
  i = .readBtn ∨ i = .tick ∨ (∃ u, i = .wait u) ∨ i = .sampleEntropy ∨ i = .generate

/-- The parts such a command's line may write. -/
theorem footprint_of_timingCommand {i : Instr} (hi : timingCommand i) {st : Stmt} (hst : st ∈ commandLines i) :
    footprint st ⊆ [.ret, .dcnt, .tickClear] ∧ ((∀ u, i ≠ .wait u) → .dcnt ∉ footprint st) := by
  rcases hi with rfl | rfl | ⟨u, rfl⟩ | rfl | rfl <;> cases List.mem_singleton.1 hst <;> simp [footprint]

theorem notMem_commandFootprint {i : Instr} {p : Part} (hlines : ∀ st ∈ commandLines i, p ∉ footprint st)
    (hp : p ≠ .resp) : p ∉ commandFootprint i := by
  intro hmem
  rcases List.mem_append.1 hmem with hmem | hmem
  · obtain ⟨st, hst, hx⟩ := List.mem_flatMap.1 hmem
    exact hlines st hst hx
  · split at hmem
    · exact hp (List.mem_singleton.1 hmem)
    · exact List.not_mem_nil hmem

/-- Settles O18: the lines of the five commands write the result, DCNT and TICK_FLAG at most. -/
theorem timingCommandsKeepTheOutputs : Obligations.TimingCommandsKeepTheOutputs := by
  intro i s t hs hi h
  have hout : ∀ p, p ∉ ([.ret, .dcnt, .tickClear] : List Part) → ∀ st ∈ commandLines i, p ∉ footprint st :=
    fun p hp st hst hx => hp ((footprint_of_timingCommand hi hst).1 hx)
  have same : ∀ p, p ∉ ([.ret, .dcnt, .tickClear] : List Part) → p ≠ .resp → p ≠ .tickSet → p.same s t :=
    fun p hp hresp htick => exec_same hs h (notMem_commandFootprint (hout p hp) hresp) htick
  refine ⟨same .disp (by simp) nofun nofun, same .outReg (by simp) nofun nofun, same .pcntPress (by simp) nofun nofun,
    same .capOver (by simp) nofun nofun, same .k (by simp) nofun nofun, same .i (by simp) nofun nofun,
    same .off (by simp) nofun nofun, same .rem (by simp) nofun nofun, same .digk (by simp) nofun nofun,
    same .started (by simp) nofun nofun, fun hwait => ?dcnt, ?trace⟩
  case dcnt =>
    exact exec_same (p := .dcnt) hs h
      (notMem_commandFootprint (fun st hst => (footprint_of_timingCommand hi hst).2 hwait) nofun) nofun
  case trace =>
    have htrace := exec_trace_of_no_output hs h fun st hst p hp => hout p (by
      simp only [List.mem_cons, List.not_mem_nil, or_false] at hp
      rcases hp with rfl | rfl | rfl <;> simp) st hst
    by_cases hresp : t.todo = [] ∧ responds i = true
    · rw [if_pos hresp] at htrace
      refine .inr ⟨?_, hresp.1, htrace⟩
      rintro u rfl
      cases hresp.2
    · rw [if_neg hresp, List.append_nil] at htrace
      exact .inl htrace

/-! ### PLAY_ROUND and CAPTURE -/

@[simp] theorem commandFootprint_playRound (seq : Word16) (r : Byte) :
    commandFootprint (.playRound seq r) = [.k, .i, .disp, .error, .outReg, .dcnt, .tickClear] := rfl
@[simp] theorem commandFootprint_capture (seq : Word16) (r : Byte) : commandFootprint (.capture seq r) =
    [.disp, .i, .disp, .error, .pcntPress, .capOver, .ret, .outReg, .dcnt, .tickClear, .resp] := rfl

/-- Settles O19: the footprints of the two commands, and CAPTURE's one response. -/
theorem roundCommandsKeepTheOtherRegisters : Obligations.RoundCommandsKeepTheOtherRegisters := by
  intro s t seq r hs
  refine ⟨fun h => ?playRound, fun h => ?capture⟩
  case playRound =>
    have same : ∀ p, p ∉ commandFootprint (.playRound seq r) → p ≠ .tickSet → p.same s t := fun p => exec_same hs h
    refine ⟨same .ret (by simp) nofun, same .pcntPress (by simp) nofun, same .capOver (by simp) nofun,
      same .off (by simp) nofun, same .rem (by simp) nofun, same .digk (by simp) nofun, same .started (by simp) nofun, ?_⟩
    obtain ⟨es, hes, ht⟩ := exec_trace_no_response hs h
    exact ⟨es, by rw [ht, if_neg fun hx => Bool.false_ne_true hx.2, List.append_nil], hes⟩
  case capture =>
    have same : ∀ p, p ∉ commandFootprint (.capture seq r) → p ≠ .tickSet → p.same s t := fun p => exec_same hs h
    refine ⟨same .k (by simp) nofun, same .off (by simp) nofun, same .rem (by simp) nofun, same .digk (by simp) nofun,
      same .started (by simp) nofun, ?_⟩
    obtain ⟨es, hes, ht⟩ := exec_trace_no_response hs h
    exact ⟨es, hes, by simpa only [responds, and_true] using ht⟩

/-! ### Ports where MAIN alone moves (20_memory.md R80 to R82) -/

/-- From `s` to `t` the inputs, the counters, the compare register and FREE_OVF stayed, and TICK_FLAG was not set. -/
structure PortsKept (s t : State) : Prop where
  inReg : t.inReg = s.inReg
  freeCnt : t.freeCnt = s.freeCnt
  freeOvf : t.freeOvf = s.freeOvf
  tickCmp : t.tickCmp = s.tickCmp
  tickFlag : t.tickFlag = true → s.tickFlag = true

theorem portsKept_refl (s : State) : PortsKept s s := ⟨rfl, rfl, rfl, rfl, id⟩

theorem portsKept_trans {s t u : State} (h : PortsKept s t) (g : PortsKept t u) : PortsKept s u :=
  ⟨g.inReg.trans h.inReg, g.freeCnt.trans h.freeCnt, g.freeOvf.trans h.freeOvf, g.tickCmp.trans h.tickCmp,
    fun hu => h.tickFlag (g.tickFlag hu)⟩

theorem portsKept_of_mainKeeps {s t : State} (h : MainKeeps s t) : PortsKept s t :=
  ⟨h.inReg, h.freeCnt, h.freeOvf, h.tickCmp, h.tickFlag⟩

theorem portsKept_commandEnd (i : Instr) (s : State) (ts : List Config.Turn) :
    PortsKept s (commandEnd i { s with turns := ts }) := by
  unfold commandEnd
  split <;> exact ⟨rfl, rfl, rfl, rfl, id⟩

theorem drive_portsKept (i : Instr) : ∀ (ts : List Config.Turn) (s : State), (∀ t ∈ ts, t = .main) →
    onNext (drive (commandEnd i) ts s) (PortsKept s)
  | [], s, _ => (onNext_next _ _).2 (portsKept_refl s)
  | t :: ts, s, hts => by
    obtain ⟨rfl, hrest⟩ := List.forall_mem_cons.1 hts
    rw [drive_main, onNext_andThen]
    refine onNext_mono (mainAct_keeps s) fun u hu => ?_
    have hports := portsKept_of_mainKeeps hu
    split
    · exact (onNext_next _ _).2 (portsKept_trans hports (portsKept_commandEnd i u ts))
    · exact onNext_mono (drive_portsKept i ts u hrest) fun _ hv => portsKept_trans hports hv

/-- Where MAIN alone moves a command keeps the ports that are not its own to write. -/
theorem exec_portsKept {i : Instr} {s t : State} (hturns : s.turns ≠ []) (hmain : ∀ u ∈ s.turns, u = .main)
    (h : exec i s = .next t) : PortsKept s t := by
  have hrun : runCommand (commandLines i) (commandEnd i) { s with turns := s.turns } = .next t := exec_runs_lines h
  rw [runCommand, runOperation_turns (turnsBlind_push _) _ _ hturns, andThen_eq_next] at hrun
  obtain ⟨u, hu, hrun⟩ := hrun
  have hbegun : PortsKept s u := by
    unfold begun at hu
    split at hu
    · rw [beginOperation, andThen_next] at hu
      have hpush : PortsKept s (push (commandLines i) s) := ⟨rfl, rfl, rfl, rfl, id⟩
      exact portsKept_trans hpush (portsKept_of_mainKeeps (settle_keeps settleFuel _ u hu))
    · cases hu
      exact portsKept_refl s
  split at hrun
  · cases hrun
    exact portsKept_trans hbegun (portsKept_commandEnd i u _)
  · have hturn : PortsKept { u with turns := [] } t := drive_portsKept i _ _ hmain t hrun
    exact portsKept_trans hbegun ⟨hturn.inReg, hturn.freeCnt, hturn.freeOvf, hturn.tickCmp, hturn.tickFlag⟩

/-- An address shows what is behind it: where this is the same for the two states, so is the view. -/
theorem portView_congr {s t : State} {addr : Byte} (hdisp : addr.toNat ≤ 6 → t.disp[addr.toNat]? = s.disp[addr.toNat]?)
    (hin : t.inReg = s.inReg) (hout : addr = 0x11 → t.outReg = s.outReg) (hcnt : t.freeCnt = s.freeCnt)
    (hstatus : addr = 0x22 → timerStatus t = timerStatus s) (hcmp : t.tickCmp = s.tickCmp) :
    portView t addr = portView s addr := by
  unfold portView
  by_cases h0 : addr.toNat < Config.dispBase + Config.dispSlots
  · rw [if_pos h0, if_pos h0]
    exact hdisp (by simp only [Config.dispBase, Config.dispSlots] at h0; omega)
  · rw [if_neg h0, if_neg h0, hin, hcnt, hcmp]
    by_cases h1 : addr = Config.outRegAddr
    · rw [hout h1]
      by_cases h2 : addr = Config.timerStatusAddr
      · rw [hstatus h2]
      · rw [if_neg h2, if_neg h2]
    · rw [if_neg h1, if_neg h1]
      by_cases h2 : addr = Config.timerStatusAddr
      · rw [hstatus h2]
      · rw [if_neg h2, if_neg h2]

/-- Settles O20: of the registers behind the PORT space MAIN's turns write the display, OUT_REG and TICK_FLAG alone. -/
theorem commandsWriteTheOutputPortsAlone : Obligations.CommandsWriteTheOutputPortsAlone := by
  intro i s t hturns hmain h
  obtain ⟨hin, hcnt, hovf, hcmp, hflag⟩ := exec_portsKept hturns hmain h
  refine ⟨fun addr hslot hout hstatus => ?_, ?_, ?_⟩
  · exact portView_congr (fun hle => absurd hle (by omega)) hin (fun hx => absurd hx hout) hcnt (fun hx => absurd hx hstatus)
      hcmp
  · rw [timerStatus_ovf, timerStatus_ovf, hovf]
  · rw [timerStatus_tick, timerStatus_tick]
    exact hflag

/-! ### The one-action commands -/

/-- A command of one line that comes at the first turn: where it answers, its line did. -/
theorem runCommand_first_turn {st : Stmt} (hst : st.silent = false) {finish : State → State} {s t : State}
    {rest : List Config.Turn} (hs : s.todo = []) (hturns : s.turns = .main :: rest)
    (hone : ∀ u, onNext (runStmt st u) fun v => v.todo = u.todo) (h : runCommand [st] finish s = .next t) :
    ∃ u, runStmt st { s with turns := [] } = .next u ∧ t = finish { u with turns := rest } := by
  have hrun := runCommand_one hst finish s [] rest hs (by simp) hturns
  rw [agents_nil] at hrun
  rw [hrun, andThen_assoc, andThen_eq_next] at h
  obtain ⟨u, hu, h⟩ := h
  have hdone : u.todo = [] := (hone _ u hu).trans hs
  rw [settle_nil _ hdone, andThen_next, if_pos hdone] at h
  exact ⟨u, hu, (Host.Outcome.next.inj h).symm⟩

/-- Settles O28: each of the five commands is its one line, which writes one cell at most. -/
theorem oneActionCommandsKeepOtherPorts : Obligations.OneActionCommandsKeepOtherPorts := by
  intro s t rest addr hs hturns
  refine ⟨fun slot ch h haddr => ?writeChar, fun a b h haddr => ?setInd, fun h => ?readBtn, fun h => ?sample, fun h => ?tick⟩
  case writeChar =>
    obtain ⟨u, hu, rfl⟩ := runCommand_first_turn rfl hs hturns
      (fun u => by rw [runStmt, onNext_writeChar]; exact fun _ _ => rfl) h
    obtain ⟨-, -, rfl⟩ := writeChar_next hu
    refine portView_congr (fun _ => ?_) rfl (fun _ => rfl) rfl (fun _ => rfl) rfl
    exact Vector.getElem?_setIfInBounds_ne fun hx => haddr (BitVec.eq_of_toNat_eq hx.symm)
  case setInd =>
    obtain ⟨u, hu, rfl⟩ := runCommand_first_turn rfl hs hturns (fun u => by rw [runStmt_ind, onNext_next]; rfl) h
    rw [runStmt_ind] at hu
    cases hu
    exact portView_congr (fun _ => rfl) rfl (fun hx => absurd hx haddr) rfl (fun _ => rfl) rfl
  case readBtn =>
    obtain ⟨u, hu, rfl⟩ := runCommand_first_turn rfl hs hturns (fun u => by rw [runStmt_readBtn, onNext_next]) h
    rw [runStmt_readBtn] at hu
    cases hu
    exact portView_congr (fun _ => rfl) rfl (fun _ => rfl) rfl (fun _ => rfl) rfl
  case sample =>
    obtain ⟨u, hu, rfl⟩ := runCommand_first_turn rfl hs hturns (fun u => by rw [runStmt_sample, onNext_next]) h
    rw [runStmt_sample] at hu
    cases hu
    exact portView_congr (fun _ => rfl) rfl (fun _ => rfl) rfl (fun _ => rfl) rfl
  case tick =>
    obtain ⟨u, hu, rfl⟩ := runCommand_first_turn rfl hs hturns (fun u => by rw [runStmt_tick, onNext_next]) h
    rw [runStmt_tick] at hu
    cases hu
    refine ⟨fun haddr => portView_congr (fun _ => rfl) rfl (fun _ => rfl) rfl (fun hx => absurd hx haddr) rfl, ?_, ?_⟩
    · rw [timerStatus_tick]
      rfl
    · rw [timerStatus_ovf, timerStatus_ovf]
      rfl

end Sys2Proof.Proofs
end

section
/-! The invariant of a run. Reset establishes it, every step keeps it, and from it no step faults: an operation that can go on
answers, a command begins with lines that need no register, and each label of the control program leads from what holds at it
to what holds at the next. -/

namespace Sys2Proof.Proofs

open Sys2Proof.Machine
open Sys2Proof.Safety
open Sys2Proof.Laws

/-! ### The part of the invariant that holds in either mode -/

/-- The launch is legal, the operation in progress can go on, and the outputs are as the spec gives them. -/
structure Sound (s : State) : Prop where
  launch : s.launch.wf = true
  operation : OperationOk s
  outputs : OutputsOk s

theorem sound_of_runOk {s : State} (h : RunOk s) : Sound s := ⟨h.launch, h.operation, h.outputs⟩

/-- Only the launch, MAIN's registers and lines, and the outputs matter. -/
theorem sound_of_agentKeeps {s t : State} (h : AgentKeeps s t) (hs : Sound s) : Sound t :=
  ⟨h.launch ▸ hs.launch, operationOk_of_agentKeeps h hs.operation, outputsOk_of_eq hs.outputs h.outReg h.disp h.trace⟩

theorem sound_interleaving {s : State} (hs : Sound s) (ts : List Config.Turn) (n : Nat) :
    Sound { s with turns := ts, draws := n } :=
  ⟨hs.launch, ⟨fun st hst => ready_mono (by constructor <;> exact id) (hs.operation.ready st hst), hs.operation.digk⟩,
    outputsOk_of_eq hs.outputs rfl rfl rfl⟩

theorem answers_sound {r : Result} {s : State} (hs : Sound s) (hk : onNext r (MainKeeps s)) (ha : answers r OperationOk)
    (ho : onNext r OutputsOk) : answers r Sound := by
  obtain ⟨t, ht, hop⟩ := ha
  exact ⟨t, ht, (hk t ht).launch ▸ hs.launch, hop, ho t ht⟩

theorem settle_sound (n : Nat) {s : State} (hs : Sound s) : answers (settle n s) Sound :=
  answers_sound hs (settle_keeps n s) (settle_operationOk n s hs.operation) (settle_outputs n s hs.outputs)

theorem mainAct_sound (s : State) (hs : Sound s) : answers (mainAct s) Sound :=
  answers_sound hs (mainAct_keeps s) (mainAct_operationOk s hs.operation) (mainAct_outputs s hs.outputs)

/-! ### Lines that need no register -/

/-- These lines can run in every state. -/
def FreshLines (ls : List Stmt) : Prop := ∀ s, ∀ st ∈ ls, Ready s st

@[simp] theorem freshLines_nil : FreshLines [] := fun _ _ h => absurd h List.not_mem_nil
@[simp] theorem freshLines_cons (st : Stmt) (ls : List Stmt) :
    FreshLines (st :: ls) ↔ (∀ s, Ready s st) ∧ FreshLines ls := by
  simp [FreshLines, forall_and]
@[simp] theorem freshLines_append (a b : List Stmt) : FreshLines (a ++ b) ↔ FreshLines a ∧ FreshLines b := by
  simp [FreshLines, or_imp, forall_and]

theorem freshLines_clear : FreshLines bodyClear := by simp [bodyClear, Ready]

theorem freshLines_showWord {t : Text} (h : noNul t) : FreshLines (bodyShowWord t) := by
  simp [bodyShowWord, freshLines_clear, Ready, h]

theorem freshLines_scroll {t : Text} (h : noNul t) : FreshLines (bodyScroll t) := by
  simp [bodyScroll, freshLines_clear, Ready, h]

theorem freshLines_showNumber (n : Word32) : FreshLines (bodyShowNumber n) := by
  simp [bodyShowNumber, freshLines_clear, Ready]

theorem noNul_nil : noNul [] := fun _ hc => absurd hc List.not_mem_nil

/-- The words of a text hold characters of the text alone. -/
theorem noNul_wordsFrom : ∀ {t run : Text}, noNul run → noNul t → ∀ w ∈ wordsFrom run t, noNul w
  | [], run, hrun, _, w, hw => by
    unfold wordsFrom at hw
    split at hw
    · exact absurd hw List.not_mem_nil
    · cases List.mem_singleton.1 hw
      exact fun c hc => hrun c (List.mem_reverse.1 hc)
  | c :: cs, run, hrun, ht, w, hw => by
    obtain ⟨hc, hcs⟩ := List.forall_mem_cons.1 ht
    unfold wordsFrom at hw
    split at hw
    · split at hw
      · exact noNul_wordsFrom noNul_nil hcs w hw
      · rcases List.mem_cons.1 hw with rfl | hw
        · exact fun c hc => hrun c (List.mem_reverse.1 hc)
        · exact noNul_wordsFrom noNul_nil hcs w hw
    · exact noNul_wordsFrom (List.forall_mem_cons.2 ⟨hc, hrun⟩) hcs w hw

theorem noNul_words {t : Text} (h : noNul t) : ∀ w ∈ words t, noNul w := noNul_wordsFrom noNul_nil h

theorem noNul_of_legal {t : Text} (h : Text.legal t = true) : noNul t := (legal_iff.1 h).2

/-- A command with legal fields begins with lines that can run (20_memory.md R85). -/
theorem freshLines_command {i : Instr} (hi : i.wf = true) : FreshLines (commandLines i) := by
  cases i
  case writeChar slot ch =>
    have hfields : slot.toNat ≤ 6 ∧ ch ≠ 0 := by
      simp only [Instr.wf, Instr.badField] at hi
      split at hi
      · cases hi
      · split at hi
        · cases hi
        · exact ⟨by omega, by assumption⟩
    exact (freshLines_cons _ _).2 ⟨fun _ => hfields, freshLines_nil⟩
  case showWord t => exact freshLines_showWord (noNul_of_legal ((wf_text t).1 ▸ hi))
  case scroll t => exact freshLines_scroll (noNul_of_legal ((wf_text t).2.2 ▸ hi))
  case showPhrase t =>
    have hwords := noNul_words (noNul_of_legal ((wf_text t).2.1 ▸ hi))
    exact (freshLines_append _ _).2 ⟨freshLines_clear, (freshLines_cons _ _).2 ⟨fun _ => hwords, freshLines_nil⟩⟩
  case showNumber n => exact freshLines_showNumber n
  case capture seq r =>
    have hgo : noNul litGo := by unfold noNul; decide
    simp [commandLines, bodyCapture, freshLines_showWord hgo, Ready]
  all_goals simp [commandLines, bodyClear, bodyPlayRound, Ready]

/-- An operation that begins with such lines can go on. -/
theorem sound_push {s : State} {ls : List Stmt} (h : Sound s) (hs : s.todo = []) (hls : FreshLines ls) :
    Sound (push ls s) := by
  refine ⟨h.launch, ⟨fun st hst => ?_, h.operation.digk⟩, outputsOk_of_eq h.outputs rfl rfl rfl⟩
  rw [push_todo, hs, List.append_nil] at hst
  exact hls _ st hst

/-! ### Commands -/

theorem sound_commandEnd (i : Instr) {s : State} (h : Sound s) (hs : s.todo = []) : Sound (commandEnd i s) := by
  have hop : ∀ u : State, u.todo = [] → u.digk = s.digk → OperationOk u := fun u hu hd =>
    ⟨fun st hst => absurd (hu ▸ hst) List.not_mem_nil, hd ▸ h.operation.digk⟩
  unfold commandEnd
  split
  · exact ⟨h.launch, hop _ hs rfl, outputsOk_of_eq (outputsOk_emit h.outputs (e := .resp s.ret) fun _ => rfl) rfl rfl rfl⟩
  · exact ⟨h.launch, hop _ hs rfl, outputsOk_of_eq h.outputs rfl rfl rfl⟩

/-- The meaning of a command with legal fields is its run. -/
theorem exec_of_wf {i : Instr} (hi : i.wf = true) (s : State) :
    exec i s = runCommand (commandLines i) (commandEnd i) s := by
  have hround : ∀ {r : Byte} {f : Option Field}, f.isNone = true → (f = if 15 < r.toNat then some .round else none) →
      ∀ x, requireRound r x = x := by
    intro r f hf h x
    refine if_pos (Nat.not_lt.1 fun hlt => ?_)
    rw [h, if_pos hlt] at hf
    cases hf
  cases i
  case showWord t => exact if_pos ((wf_text t).1 ▸ hi)
  case showPhrase t => exact if_pos ((wf_text t).2.1 ▸ hi)
  case scroll t => exact if_pos ((wf_text t).2.2 ▸ hi)
  case playRound seq r => exact hround hi rfl _
  case capture seq r => exact hround hi rfl _
  all_goals rfl

/-- A command with legal fields answers. -/
theorem exec_sound {i : Instr} (hi : i.wf = true) {s : State} (h : Sound s) : answers (exec i s) Sound := by
  rw [exec_of_wf hi]
  refine runOperation_answers (I := Sound) (start := fun s => .next (push (commandLines i) s)) (fun hs => ?begin)
    (fun _ => h) mainAct_sound (fun t u hu => sound_of_agentKeeps (agentAct_keeps t u) hu)
    (fun u ts n hu => sound_interleaving hu ts n) (fun _ hu _ => hu) (fun u hu hdone => sound_commandEnd i hu hdone)
  case begin =>
    rw [beginOperation, andThen_next]
    exact settle_sound settleFuel (sound_push h hs (freshLines_command hi))

theorem idle_sound {s : State} (h : Sound s) : answers (idle s) Sound := by
  unfold idle
  split
  · exact (answers_next _ _).2 (sound_of_agentKeeps (agentAct_keeps _ _) (sound_interleaving h s.turns (s.draws + 1)))
  · exact (answers_next _ _).2 (sound_of_agentKeeps (agentAct_keeps _ _) (sound_interleaving h _ s.draws))

/-- An admitted list holds well-formed commands. -/
theorem decodeFrom_wf : ∀ {fuel off : Nat} {bytes : List Byte} {is : List Instr}, decodeFrom fuel off bytes = .ok is →
    ∀ i ∈ is, i.wf = true
  | fuel, off, [], is, h, i, hi => by
    have hnil : is = [] := by cases fuel <;> exact (Except.ok.inj h).symm
    exact absurd (hnil ▸ hi) List.not_mem_nil
  | 0, off, b :: bs, is, h, i, hi => by cases h
  | fuel + 1, off, b :: bs, is, h, i, hi => by
    cases hone : decodeOne off (b :: bs) with
    | error v =>
      rw [decodeFrom_of_error (List.cons_ne_nil _ _) hone] at h
      cases h
    | ok p =>
      obtain ⟨hwf, hbytes⟩ := decodeOne_eq_ok_iff.1 hone
      rw [hbytes, decodeFrom_encode hwf] at h
      cases hrest : decodeFrom fuel (off + (encode p.1).length) p.2 with
      | error v => rw [hrest] at h; cases h
      | ok js =>
        rw [hrest] at h
        cases Except.ok.inj h
        rcases List.mem_cons.1 hi with rfl | hi
        · exact hwf
        · exact decodeFrom_wf hrest i hi

theorem runOk_of_sound {s : State} (h : Sound s) (hmode : s.launch.mode = .direct) : RunOk s :=
  ⟨h.launch, h.operation, h.outputs, fun hgame => by rw [hmode] at hgame; cases hgame⟩

/-- A step of an admitted DIRECT launch answers. -/
theorem step_direct_sound {s : State} {is : List Instr} (h : Sound s) (hmode : s.launch.mode = .direct)
    (hlist : decodeProgram s.launch.commands = .ok is) : answers (step s) Sound := by
  cases hi : is[s.cidx]? with
  | some i =>
    rw [step_of_command hmode hlist hi]
    exact exec_sound (decodeFrom_wf hlist i (List.mem_of_getElem? hi)) h
  | none =>
    rw [step_past_end hmode hlist (List.getElem?_eq_none_iff.1 hi)]
    exact idle_sound h

/-! ### Inside a label with an operation -/

/-- The registers that no operation writes, as they are at label `l`. -/
structure GameAt (l : Label) (s : State) : Prop where
  counters : CountersAt l s
  seq : inGame l = true → ∃ v, s.seq = some v ∧ v ≠ 0
  full : l = .rl10 → s.round = 16
  cstate : ∀ c, cstateAt l = some c → s.cstate = c
  first : l = .rl0 → s.round = 0

theorem gameAt_of_gameKept {l : Label} {s t : State} (h : GameKept s t) (hs : GameAt l s) : GameAt l t where
  counters := countersAt_of_gameKept h hs.counters
  seq hl := h.seq ▸ hs.seq hl
  full hl := h.round.trans (hs.full hl)
  cstate c hc := h.cstate.trans (hs.cstate c hc)
  first hl := h.round.trans (hs.first hl)

/-- MAIN's lines inside label `l`, and what they leave in OUT_REG. -/
def LinesAt (l : Label) (s : State) : Prop :=
  match l with
  | .a0 => s.todo = [.ind true true] ∨ s.todo = [] ∧ s.outReg = 3
  | .a1 => s.outReg = 3 ∧ ∀ st ∈ s.todo, quiet st = true
  | .a2 => (s.outReg = 3 ∧ ∀ st ∈ s.todo, quiet st = true) ∧ InGenerate s
  | .rl2 | .rl6 | .rl7 => EndsDark s
  | .rl4 | .rl5 | .g1 | .g2 => s.outReg = 0 ∧ ∀ st ∈ s.todo, quiet st = true
  | .s0 | .rl0 | .rl1 | .rl3 | .rl8 | .rl9 | .rl10 | .g0 | .g3 => False

theorem linesAt_congr {l : Label} {s t : State} (h : LinesAt l s) (htodo : t.todo = s.todo) (hout : t.outReg = s.outReg)
    (hret : t.ret = s.ret) : LinesAt l t := by
  cases l
  case a0 | a1 | rl4 | rl5 | g1 | g2 =>
    simp only [LinesAt, htodo, hout] at h ⊢
    exact h
  case a2 => exact ⟨by rw [htodo, hout]; exact h.1, h.2.congr htodo hret⟩
  case rl2 | rl6 | rl7 =>
    simp only [LinesAt, EndsDark, htodo, hout] at h ⊢
    exact h
  all_goals exact h

/-- Every line of the label keeps them. -/
theorem runStmt_linesAt {l : Label} (st : Stmt) (rest : List Stmt) (s : State) (hs : s.todo = st :: rest)
    (h : LinesAt l s) : onNext (runStmt st { s with todo := rest }) (LinesAt l) := by
  cases l
  case a0 =>
    rcases h with h | ⟨h, -⟩
    · cases hs.symm.trans h
      rw [runStmt_ind, onNext_next]
      exact .inr ⟨rfl, rfl⟩
    · cases hs.symm.trans h
  case a1 => exact runStmt_quietLines 3 st rest s hs h
  case a2 =>
    exact fun t ht => ⟨runStmt_quietLines 3 st rest s hs h.1 t ht, runStmt_inGenerate st rest s hs h.2 t ht⟩
  case rl2 | rl6 | rl7 => exact runStmt_endsDark_front st rest s hs h
  case rl4 | rl5 | g1 | g2 => exact runStmt_quietLines 0 st rest s hs h
  all_goals exact absurd h id

/-- A run of label `l` stands at `s`. -/
structure InLabel (l : Label) (s : State) : Prop where
  sound : Sound s
  cpc : s.cpc = l
  game : GameAt l s
  await : l = .a0 → s.cstate = .awaitStart
  lines : LinesAt l s

theorem InLabel.of_gameKept {l : Label} {s t : State} (h : InLabel l s) (hk : GameKept s t) (hsound : Sound t)
    (hlines : LinesAt l t) : InLabel l t :=
  ⟨hsound, hk.cpc.trans h.cpc, gameAt_of_gameKept hk h.game, fun hl => hk.cstate.trans (h.await hl), hlines⟩

theorem settle_inLabel {l : Label} (n : Nat) {s : State} (h : InLabel l s) : answers (settle n s) (InLabel l) := by
  obtain ⟨t, ht, hsound⟩ := settle_sound n h.sound
  exact ⟨t, ht, h.of_gameKept (gameKept_of_mainKeeps (settle_keeps n s t ht)) hsound
    (settle_onNext runStmt_linesAt n s h.lines t ht)⟩

theorem mainAct_inLabel {l : Label} (s : State) (h : InLabel l s) : answers (mainAct s) (InLabel l) := by
  obtain ⟨t, ht, hsound⟩ := mainAct_sound s h.sound
  exact ⟨t, ht, h.of_gameKept (gameKept_of_mainKeeps (mainAct_keeps s t ht)) hsound
    (mainAct_onNext runStmt_linesAt s h.lines t ht)⟩

theorem agentAct_inLabel {l : Label} (t : Config.Turn) (s : State) (h : InLabel l s) : InLabel l (agentAct t s) :=
  have hk := agentAct_keeps t s
  h.of_gameKept (gameKept_of_agentKeeps hk) (sound_of_agentKeeps hk h.sound) (linesAt_congr h.lines hk.todo hk.outReg hk.ret)

/-! ### Where a label pauses, goes on and ends -/

/-- A label that stays in progress meets the controller's invariant. -/
theorem runOk_of_inLabel {l : Label} {s : State} (hl : operationFree l = false) (h : InLabel l s) (hs : s.todo ≠ []) :
    RunOk s := by
  obtain ⟨hsound, rfl, ⟨⟨hscore, hbound, hplaying, hover⟩, hseq, hfull, hcstate, hfirst⟩, hawait, hlines⟩ := h
  refine ⟨hsound.launch, hsound.operation, hsound.outputs, fun _ => ?_⟩
  have hind : IndicatorsOk s ∧
      (s.cpc = .a2 → s.todo = [] ∨ s.todo = [.genBtn] ∨ ∃ p, s.todo = [.genSample p]) := by
    unfold LinesAt at hlines
    split at hlines
    case h_1 hcpc =>
      refine ⟨⟨fun _ _ => hlines.resolve_right fun hx => hs hx.1, ?_, ?_, ?_, ?_, ?_⟩, ?_⟩ <;>
        simp [hcpc, litAt, quietAt, darkAt]
    case h_2 hcpc =>
      refine ⟨⟨?_, fun _ => hlines.1, fun _ => hlines.2, ?_, ?_, ?_⟩, ?_⟩ <;> simp [hcpc, darkAt]
    case h_3 hcpc =>
      refine ⟨⟨?_, fun _ => hlines.1.1, fun _ => hlines.1.2, ?_, ?_, ?_⟩, fun _ => ?_⟩
      case refine_5 =>
        rcases hlines.2 with htodo | ⟨p, htodo⟩ | ⟨htodo, -⟩
        · exact .inr (.inl htodo)
        · exact .inr (.inr ⟨p, htodo⟩)
        · exact .inl htodo
      all_goals simp [hcpc, darkAt]
    case h_4 hcpc =>
      refine ⟨⟨?_, ?_, ?_, ?_, fun _ _ => hlines, ?_⟩, ?_⟩ <;> simp [hcpc, litAt, quietAt, darkAt, hs]
    case h_5 hcpc | h_6 hcpc =>
      refine ⟨⟨?_, ?_, ?_, ?_, ?_, fun _ => hlines⟩, ?_⟩ <;> simp [hcpc, litAt, quietAt]
    case h_7 hcpc | h_8 hcpc | h_9 hcpc | h_10 hcpc =>
      have hdark : EndsDark s := by
        rw [EndsDark, darkAfter_quiet hlines.2, hlines.1]
        rfl
      refine ⟨⟨?_, ?_, fun _ => hlines.2, ?_, ?_, fun _ => hdark⟩, ?_⟩ <;> simp [hcpc, litAt]
    all_goals exact absurd hlines id
  obtain ⟨hind, hgate⟩ := hind
  refine ⟨?between, fun ha0 _ => hawait ha0, hgate, ?sample, hseq, hscore, hbound, hplaying, hfull, hover, hcstate, hfirst,
    hind⟩
  case between => rw [hl]; nofun
  case sample => intro hs0; rw [hs0] at hl; cases hl

/-- And where it is in progress it goes on. -/
theorem inLabel_of_runOk {s : State} (h : RunOk s) (hmode : s.launch.mode = .game) (hs : s.todo ≠ []) :
    InLabel s.cpc s := by
  obtain ⟨hbetween, hawait, hgate, -, hseq, hscore, hbound, hplaying, hfull, hover, hcstate, hfirst, hind⟩ :=
    h.controller hmode
  obtain ⟨hlighting, hlit, hquiet, -, hclearing, hdark⟩ := hind
  refine ⟨sound_of_runOk h, rfl, ⟨⟨hscore, hbound, hplaying, hover⟩, hseq, hfull, hcstate, hfirst⟩,
    fun ha0 => hawait ha0 hs, ?_⟩
  have hoff : darkAt s.cpc = true → quietAt s.cpc = true → s.outReg = 0 ∧ ∀ st ∈ s.todo, quiet st = true := by
    intro hd hq
    have hends := hdark hd
    rw [darkAfter_quiet (hquiet hq)] at hends
    exact ⟨of_decide_eq_true hends, hquiet hq⟩
  cases hcpc : s.cpc <;> rw [hcpc] at hbetween hlit hquiet hdark hoff
  case a0 => exact .inl (hlighting hcpc hs)
  case a1 => exact ⟨hlit rfl, hquiet rfl⟩
  case a2 =>
    refine ⟨⟨hlit rfl, hquiet rfl⟩, ?_⟩
    rcases hgate hcpc with htodo | htodo | ⟨p, htodo⟩
    · exact absurd htodo hs
    · exact .atReadBtn htodo
    · exact .atReadFree p htodo
  case rl2 => exact hclearing hcpc hs
  case rl6 | rl7 => exact hdark rfl
  case rl4 | rl5 | g1 | g2 => exact hoff rfl rfl
  all_goals exact hs (hbetween rfl)

end Sys2Proof.Proofs
end

section
/-! The invariant of a run at the control program's labels: from what holds at a label to what holds at the next, and the
statements about runs that follow from it. -/

namespace Sys2Proof.Proofs

open Sys2Proof.Machine
open Sys2Proof.Safety
open Sys2Proof.Laws

/-! ### Between operations -/

/-- What holds at label `l` with no operation in progress: the game registers, GENERATE's result, the indicators. -/
structure AtLabel (l : Label) (s : State) : Prop where
  game : GameAt l s
  sample : l = .s0 → s.ret ≠ 0
  lit : litAt l = true → s.outReg = 3
  round : l = .rl1 ∨ l = .rl2 → s.outReg = if s.round = 0 then 3 else 0
  dark : darkAt l = true → s.outReg = 0

theorem controllerOk_iff_atLabel {s : State} (hs : s.todo = []) : ControllerOk s ↔ AtLabel s.cpc s := by
  have hends : darkAfter (s.outReg = 0) s.todo = true ↔ s.outReg = 0 := by
    rw [hs]
    exact decide_eq_true_iff
  constructor
  · rintro ⟨-, -, -, hsample, hseq, hscore, hbound, hplaying, hfull, hover, hcstate, hfirst, hind⟩
    exact ⟨⟨⟨hscore, hbound, hplaying, hover⟩, hseq, hfull, hcstate, hfirst⟩, hsample, hind.lit,
      fun h => hind.round (h.imp_right fun h => ⟨h, hs⟩), fun h => hends.1 (hind.dark h)⟩
  · rintro ⟨⟨⟨hscore, hbound, hplaying, hover⟩, hseq, hfull, hcstate, hfirst⟩, hsample, hlit, hround, hdark⟩
    exact ⟨fun _ => hs, fun _ hne => absurd hs hne, fun _ => .inl hs, hsample, hseq, hscore, hbound, hplaying, hfull, hover,
      hcstate, hfirst, fun _ hne => absurd hs hne, hlit, fun _ _ hst => absurd (hs ▸ hst) List.not_mem_nil,
      fun h => hround (h.imp_right And.left), fun _ hne => absurd hs hne, fun h => hends.2 (hdark h)⟩

theorem runOk_of_atLabel {s : State} (hsound : Sound s) (hs : s.todo = []) (h : AtLabel s.cpc s) : RunOk s :=
  ⟨hsound.launch, hsound.operation, hsound.outputs, fun _ => (controllerOk_iff_atLabel hs).2 h⟩

theorem sound_idle {s t : State} (h : Sound s) (hs : s.todo = []) (hl : t.launch = s.launch) (ht : t.todo = s.todo)
    (hd : t.digk = s.digk) (ho : t.outReg = s.outReg) (hdisp : t.disp = s.disp) (htr : t.trace = s.trace) : Sound t :=
  ⟨hl ▸ h.launch, ⟨fun _ hst => absurd (hs ▸ ht ▸ hst) List.not_mem_nil, hd ▸ h.operation.digk⟩,
    outputsOk_of_eq h.outputs ho hdisp htr⟩

/-! ### Labels with an operation -/

theorem inLabel_push {l : Label} {s : State} {ls : List Stmt} (hl : l ≠ .a0) (hsound : Sound s) (hs : s.todo = [])
    (hcpc : s.cpc = l) (hgame : GameAt l s) (hls : FreshLines ls) (hlines : LinesAt l (push ls s)) :
    InLabel l (push ls s) :=
  have hk : GameKept s (push ls s) := ⟨rfl, rfl, rfl, rfl, rfl, rfl⟩
  ⟨sound_push hsound hs hls, hcpc, gameAt_of_gameKept hk hgame, fun h => absurd h hl, hlines⟩

theorem quiet_push {s : State} {ls : List Stmt} (hs : s.todo = []) (hls : ∀ st ∈ ls, quiet st = true) :
    ∀ st ∈ (push ls s).todo, quiet st = true := by
  rw [push_todo, hs, List.append_nil]
  exact hls

theorem quiet_scroll (t : Text) : ∀ st ∈ bodyScroll t, quiet st = true := by simp [bodyScroll, bodyClear, quiet]
theorem quiet_showWord (t : Text) : ∀ st ∈ bodyShowWord t, quiet st = true := by simp [bodyShowWord, bodyClear, quiet]
theorem quiet_showNumber (n : Word32) : ∀ st ∈ bodyShowNumber n, quiet st = true := by
  simp [bodyShowNumber, bodyClear, quiet]

theorem noNul_literals : noNul litWatch ∧ noNul litGo ∧ noNul litRound ∧ noNul litYouWin ∧ noNul litGameOver := by
  unfold noNul
  decide

/-- ROUND is admitted as an operand where a round is played (45_game_controller.md R262). -/
theorem requireRound_of_playing {r : BitVec 5} (h : r.toNat ≤ 15) (x : Result) : requireRound (r.setWidth 8) x = x :=
  if_pos (by rw [BitVec.toNat_setWidth]; omega)

/-- The entry of a label with an operation. -/
theorem labelBegin_inLabel {l : Label} (hl : operationFree l = false) {s : State} (hsound : Sound s) (hs : s.todo = [])
    (hcpc : s.cpc = l) (h : AtLabel l s) : answers (labelBegin l s) (InLabel l) := by
  obtain ⟨-, -, hround, hwin, hover⟩ := noNul_literals
  have hdark : darkAt l = true → s.outReg = 0 := h.dark
  have hendsDark : ∀ {ls : List Stmt}, s.outReg = 0 → darkAfter true ls = true → EndsDark (push ls s) := fun h0 hls => by
    rw [EndsDark, push_todo, hs, List.append_nil, push_outReg, h0]
    exact hls
  cases l
  case a0 =>
    refine (answers_next _ _).2 ⟨?_, hcpc, ⟨countersAt_before_game (by simp) _, nofun, nofun, nofun, nofun⟩, fun _ => rfl,
      .inl (congrArg _ hs)⟩
    exact sound_push (sound_idle hsound hs rfl rfl rfl rfl rfl rfl) hs (by simp [Ready])
  case a1 =>
    have hlegal : Text.legal s.launch.params.promptText = true := hsound.launch
    rw [labelBegin, requireText, if_pos hlegal]
    exact (answers_next _ _).2 (inLabel_push nofun hsound hs hcpc h.game (freshLines_scroll (noNul_of_legal hlegal))
      ⟨h.lit rfl, quiet_push hs (quiet_scroll _)⟩)
  case a2 =>
    exact (answers_next _ _).2 (inLabel_push nofun hsound hs hcpc h.game (by simp [Ready])
      ⟨⟨h.lit rfl, quiet_push hs (by simp [quiet])⟩, .atReadBtn (congrArg _ hs)⟩)
  case rl2 =>
    refine (answers_next _ _).2 (inLabel_push nofun hsound hs hcpc h.game (by simp [Ready]) ?_)
    rw [LinesAt, EndsDark, push_todo, hs]
    rfl
  case rl4 =>
    exact (answers_next _ _).2 (inLabel_push nofun hsound hs hcpc h.game
      ((freshLines_append _ _).2 ⟨freshLines_showWord hround, by simp [Ready]⟩)
      ⟨hdark rfl, quiet_push hs (List.forall_mem_append.2 ⟨quiet_showWord _, by simp [quiet]⟩)⟩)
  case rl5 =>
    exact (answers_next _ _).2 (inLabel_push nofun hsound hs hcpc h.game
      ((freshLines_append _ _).2 ⟨freshLines_showNumber _, by simp [Ready]⟩)
      ⟨hdark rfl, quiet_push hs (List.forall_mem_append.2 ⟨quiet_showNumber _, by simp [quiet]⟩)⟩)
  case rl6 =>
    obtain ⟨q, hq, -⟩ := h.game.seq rfl
    rw [labelBegin, hq, readReg_some, requireRound_of_playing (h.game.counters.playing rfl)]
    exact (answers_next _ _).2 (inLabel_push nofun hsound hs hcpc h.game (by simp [bodyPlayRound, Ready])
      (hendsDark (hdark rfl) rfl))
  case rl7 =>
    obtain ⟨q, hq, -⟩ := h.game.seq rfl
    rw [labelBegin, hq, readReg_some, requireRound_of_playing (h.game.counters.playing rfl)]
    exact (answers_next _ _).2 (inLabel_push nofun hsound hs hcpc h.game
      ((freshLines_append _ _).2 ⟨freshLines_showWord noNul_literals.2.1, by simp [Ready]⟩) (hendsDark (hdark rfl) rfl))
  case g1 =>
    refine (answers_next _ _).2 (inLabel_push nofun hsound hs hcpc h.game ?_ ⟨hdark rfl, quiet_push hs ?_⟩)
    · split
      · exact freshLines_scroll hwin
      · exact (freshLines_append _ _).2 ⟨freshLines_scroll hover, freshLines_showNumber _⟩
    · split
      · exact quiet_scroll _
      · exact List.forall_mem_append.2 ⟨quiet_scroll _, quiet_showNumber _⟩
  case g2 =>
    exact (answers_next _ _).2 (inLabel_push nofun hsound hs hcpc h.game (by simp [Ready])
      ⟨hdark rfl, quiet_push hs (by simp [quiet])⟩)
  all_goals cases hl

/-- OUT_REG after a label that turns both indicators off. -/
theorem outReg_of_endsDark {s : State} (h : EndsDark s) (hs : s.todo = []) : s.outReg = 0 := by
  rw [EndsDark, hs] at h
  exact of_decide_eq_true h

/-- The end of a label with an operation. -/
theorem labelEnd_atLabel {l : Label} (hl : operationFree l = false) {s : State} (h : InLabel l s) (hs : s.todo = []) :
    AtLabel (labelEnd l s).cpc (labelEnd l s) := by
  obtain ⟨-, -, ⟨⟨hscore, hbound, hplaying, hover⟩, hseq, -, hcstate, -⟩, hawait, hlines⟩ := h
  cases l
  case a0 =>
    have hlit : s.outReg = 3 := hlines.elim (fun hx => nomatch hx.symm.trans hs) And.right
    exact ⟨⟨countersAt_before_game (by simp [labelEnd]) _, nofun, nofun, fun c hc => by cases hc; exact hawait rfl, nofun⟩,
      nofun, fun _ => hlit, by simp [labelEnd], nofun⟩
  case a1 =>
    exact ⟨⟨countersAt_before_game (by simp [labelEnd]) _, nofun, nofun, hcstate, nofun⟩,
      nofun, fun _ => hlines.1, by simp [labelEnd], nofun⟩
  case a2 =>
    exact ⟨⟨countersAt_before_game (by simp [labelEnd]) _, nofun, nofun, hcstate, nofun⟩,
      fun _ => hlines.2.ret_ne_zero hs, fun _ => hlines.1.1, by simp [labelEnd], nofun⟩
  case rl2 | rl6 =>
    exact ⟨⟨⟨hscore, hbound, hplaying, hover⟩, hseq, nofun, hcstate, nofun⟩, nofun, nofun, by simp [labelEnd],
      fun _ => outReg_of_endsDark hlines hs⟩
  case rl7 =>
    exact ⟨⟨⟨hscore, hbound, hplaying, trivial⟩, hseq, nofun, hcstate, nofun⟩, nofun, nofun, by simp [labelEnd],
      fun _ => outReg_of_endsDark hlines hs⟩
  case rl4 | rl5 | g1 | g2 =>
    exact ⟨⟨⟨hscore, hbound, hplaying, hover⟩, hseq, nofun, hcstate, nofun⟩, nofun, nofun, by simp [labelEnd],
      fun _ => hlines.1⟩
  all_goals cases hl

theorem labelEnd_sound (l : Label) {s : State} (h : Sound s) (hs : s.todo = []) : Sound (labelEnd l s) := by
  cases l <;> exact sound_idle h hs rfl rfl rfl rfl rfl rfl

theorem execLabel_runOk_of_operation {s : State} (h : RunOk s) (hmode : s.launch.mode = .game)
    (hl : operationFree s.cpc = false) : answers (execLabel s.cpc s) RunOk := by
  have hsound := sound_of_runOk h
  refine runOperation_answers (I := InLabel s.cpc) (fun hs => ?begin) (fun hs => inLabel_of_runOk h hmode hs) mainAct_inLabel
    agentAct_inLabel (fun u ts n hu => ?turns) (fun u hu hs => runOk_of_inLabel hl hu hs)
    (fun u hu hs => runOk_of_atLabel (labelEnd_sound _ hu.sound hs) ((keepsPosition_labelEnd _ u).trans hs)
      (labelEnd_atLabel hl hu hs))
  case begin =>
    rw [beginOperation, answers_andThen]
    exact answers_mono (labelBegin_inLabel hl hsound hs rfl ((controllerOk_iff_atLabel hs).1 (h.controller hmode)))
      fun u hu => settle_inLabel settleFuel hu
  case turns =>
    exact hu.of_gameKept (gameKept_interleaving u ts n) (sound_interleaving hu.sound ts n)
      (linesAt_congr hu.lines rfl rfl rfl)

/-! ### Labels without an operation -/

/-- Such a label leads to the next one in one step (45_game_controller.md R244 to R246, R248, R253 to R256, R259). The
counters are those of `execLabel_operationFree_countersOk`. -/
theorem execLabel_atLabel {l : Label} (hl : operationFree l = true) {s : State} (hs : s.todo = []) (h : AtLabel l s) :
    answers (execLabel l s) fun t => t.todo = [] ∧ AtLabel t.cpc t := by
  have hcounters := execLabel_operationFree_countersOk hl hs h.game.counters
  rw [execLabel_of_operationFree hl hs, onNext_andThen] at hcounters
  rw [execLabel_of_operationFree hl hs, answers_andThen]
  obtain ⟨⟨⟨-, -, hplaying, -⟩, hseq, -, hcstate, hfirst⟩, hsample, hlit, hround, hdark⟩ := h
  cases l
  case a0 | a1 | a2 | rl2 | rl4 | rl5 | rl6 | rl7 | g1 | g2 => cases hl
  all_goals
    simp only [labelBegin, onNext_next] at hcounters
    simp only [labelBegin, answers_next]
    refine ⟨hs, ?_⟩
    have hnext := hcounters.counters
  case s0 =>
    exact ⟨⟨hnext, fun _ => ⟨s.ret, rfl, hsample rfl⟩, nofun, fun c hc => by cases hc; rfl, fun _ => rfl⟩, nofun,
      fun _ => hlit rfl, by simp [labelEnd], nofun⟩
  case rl0 =>
    have hstart : s.round = 0 := hfirst rfl
    exact ⟨⟨hnext, hseq, nofun, fun c hc => by cases hc; rfl, nofun⟩, nofun, nofun,
      fun _ => by simpa [labelEnd, hstart] using hlit rfl, nofun⟩
  case rl1 =>
    have hout := hround (.inl rfl)
    simp only [labelEnd] at hnext ⊢
    by_cases h16 : s.round = 16
    · have hoff : s.outReg = 0 := by rw [hout, h16]; rfl
      simp only [if_pos h16] at hnext ⊢
      exact ⟨⟨hnext, hseq, fun _ => h16, hcstate, nofun⟩, nofun, nofun, by simp, fun _ => hoff⟩
    · simp only [if_neg h16] at hnext ⊢
      exact ⟨⟨hnext, hseq, nofun, hcstate, nofun⟩, nofun, nofun, fun _ => hout, nofun⟩
  case rl3 =>
    simp only [labelEnd] at hnext ⊢
    cases hov : s.overFlag <;> simp only [hov, if_true, Bool.false_eq_true, if_false] at hnext ⊢ <;>
      exact ⟨⟨hnext, hseq, nofun, hcstate, nofun⟩, nofun, nofun, by simp, fun _ => hdark rfl⟩
  case rl8 =>
    simp only [labelEnd] at hnext ⊢
    cases hov : s.overFlag <;> simp only [hov, if_true, Bool.false_eq_true, if_false] at hnext ⊢ <;>
      exact ⟨⟨hnext, hseq, nofun, hcstate, nofun⟩, nofun, nofun, by simp, fun _ => hdark rfl⟩
  case rl9 =>
    have hle : s.round.toNat ≤ 15 := hplaying rfl
    have hne : s.round + 1 ≠ 0 := by bv_omega
    exact ⟨⟨hnext, hseq, nofun, hcstate, nofun⟩, nofun, nofun, fun _ => (hdark rfl).trans (if_neg hne).symm, nofun⟩
  case rl10 =>
    exact ⟨⟨hnext, hseq, nofun, hcstate, nofun⟩, nofun, nofun, by simp [labelEnd], fun _ => hdark rfl⟩
  case g3 => exact ⟨⟨hnext, nofun, nofun, nofun, nofun⟩, nofun, nofun, by simp [labelEnd], nofun⟩
  case g0 =>
    exact ⟨⟨hnext, hseq, nofun, fun c hc => by cases hc; rfl, nofun⟩, nofun, nofun, by simp [labelEnd], fun _ => hdark rfl⟩

/-- Such a label changes nothing that the launch, an operation or an observer of the outputs could see. -/
theorem execLabel_sound_of_operationFree {l : Label} (hl : operationFree l = true) {s : State} (hs : s.todo = [])
    (h : Sound s) : onNext (execLabel l s) Sound := by
  rw [execLabel_of_operationFree hl hs, onNext_andThen]
  cases l
  case a0 | a1 | a2 | rl2 | rl4 | rl5 | rl6 | rl7 | g1 | g2 => cases hl
  all_goals
    rw [labelBegin, onNext_next, onNext_next]
    exact sound_idle h hs rfl rfl rfl rfl rfl rfl

/-! ### Steps -/

/-- A step of the control program answers, and keeps the invariant. -/
theorem step_game_runOk {s : State} (h : RunOk s) (hmode : s.launch.mode = .game) : answers (step s) RunOk := by
  rw [step_of_game hmode]
  cases hl : operationFree s.cpc with
  | false => exact execLabel_runOk_of_operation h hmode hl
  | true =>
    have hs : s.todo = [] := (h.controller hmode).between hl
    refine answers_mono (answers_onNext (execLabel_atLabel hl hs ((controllerOk_iff_atLabel hs).1 (h.controller hmode)))
      (execLabel_sound_of_operationFree hl hs (sound_of_runOk h))) fun t ⟨⟨ht, hat⟩, hsound⟩ => ?_
    exact runOk_of_atLabel hsound ht hat

/-- So does a step of an admitted DIRECT launch. -/
theorem step_direct_runOk {s : State} {is : List Instr} (h : RunOk s) (hmode : s.launch.mode = .direct)
    (hlist : decodeProgram s.launch.commands = .ok is) : answers (step s) RunOk := by
  obtain ⟨t, ht, hsound⟩ := step_direct_sound (sound_of_runOk h) hmode hlist
  exact ⟨t, ht, runOk_of_sound hsound ((stepsKeepTheLaunch s t ht).1 ▸ hmode)⟩

theorem step_refused {s : State} {v : Verdict} (hmode : s.launch.mode = .direct)
    (hlist : decodeProgram s.launch.commands = .error v) : step s = .refused (refusalOf v) :=
  invalidLaunchIsRefused.2 s v hmode hlist

/-- From the invariant a step answers with the invariant, or it is the refusal of an invalid list. -/
theorem step_runOk_or_refused {s : State} (h : RunOk s) : answers (step s) RunOk ∨ ∃ e, step s = .refused e := by
  cases hmode : s.launch.mode with
  | game => exact .inl (step_game_runOk h hmode)
  | direct =>
    cases hlist : decodeProgram s.launch.commands with
    | ok is => exact .inl (step_direct_runOk h hmode hlist)
    | error v => exact .inr ⟨_, step_refused hmode hlist⟩

/-- Settles O56: a step that answers, answers with the invariant. -/
theorem everyStepKeepsTheRunInvariant : Obligations.EveryStepKeepsTheRunInvariant := by
  intro s t h ht
  rcases step_runOk_or_refused h with ⟨u, hu, hok⟩ | ⟨e, he⟩
  · cases hu.symm.trans ht
    exact hok
  · cases he.symm.trans ht

/-- Settles O57: a step answers in GAME mode and where the list is admitted, and is the refusal elsewhere. -/
theorem stepsAnswerUnlessTheLaunchIsInvalid : Obligations.StepsAnswerUnlessTheLaunchIsInvalid := by
  intro s h
  refine ⟨fun hmode => ?_, fun is hmode hlist => ?_, fun v => step_refused⟩
  · obtain ⟨t, ht, -⟩ := step_game_runOk h hmode
    exact ⟨t, ht⟩
  · obtain ⟨t, ht, -⟩ := step_direct_runOk h hmode hlist
    exact ⟨t, ht⟩

/-! ### Runs -/

/-- Settles O55: nothing is in progress, nothing has been written, and at A0 nothing is asked of the registers. -/
theorem resetEstablishesTheRunInvariant : Obligations.ResetEstablishesTheRunInvariant := by
  intro l s hl h
  obtain ⟨tf, fo, fc, pc, ir, ia, ib, d, ts, n, rfl⟩ := h
  refine runOk_of_atLabel ⟨hl, ⟨fun st hst => absurd hst List.not_mem_nil, nofun⟩, indByte_reserved ia ib, ?_⟩ rfl ?_
  · intro j c hj
    rw [slotShown_of_trace_nil rfl] at hj
    cases hj
  · exact ⟨⟨countersAt_before_game (by simp [State.resetOf]) _, nofun, nofun, nofun, nofun⟩, nofun, nofun,
      by simp [State.resetOf], nofun⟩

theorem reachable_runOk {l : Config.Launch} (hl : l.wf = true) {s : State} (h : Reachable l s) : RunOk s := by
  induction h with
  | reset s hs => exact resetEstablishesTheRunInvariant l s hl hs
  | step s t _ hst ih => exact everyStepKeepsTheRunInvariant s t ih hst

/-- Settles O58: every state of a run meets the invariant. -/
theorem noRunReachesAModelFault : Obligations.NoRunReachesAModelFault := by
  intro l s hl h f hf
  rcases step_runOk_or_refused (reachable_runOk hl h) with ⟨t, ht, -⟩ | ⟨e, he⟩
  · cases ht.symm.trans hf
  · cases he.symm.trans hf

/-- A label with an operation does not lead to G0. -/
theorem execLabel_ne_g0 {l : Label} (hl : operationFree l = false) {s : State} (hcpc : s.cpc = l) :
    onNext (execLabel l s) fun t => t.cpc ≠ .g0 := by
  refine runOperation_onNext_of_gameKept (I := fun u => u.cpc = l) (fun huv hu => huv.cpc.trans hu)
    (fun _ => ?begin) (fun _ => hcpc) (fun u hu _ => ?pause) (fun u _ _ => ?done)
  case begin =>
    by_cases h0 : l = .a0
    · subst h0
      exact (onNext_next _ _).2 hcpc
    · exact onNext_mono (labelBegin_gameKept hl h0 s) fun u hu => hu.cpc.trans hcpc
  case pause =>
    rintro hg0
    rw [← hu, hg0] at hl
    cases hl
  case done =>
    cases l
    case s0 | rl0 | rl1 | rl3 | rl8 | rl9 | rl10 | g0 | g3 => cases hl
    all_goals exact nofun

/-- Settles O60: of the labels that can lead to G0, RL3 finds OVER 0, RL8 has a round in play, and RL10 is come to with
ROUND = 16. -/
theorem winExactlyThroughRL10 : Obligations.WinExactlyThroughRL10 := by
  intro l s t hl hgame hs hst hne hg0
  have hmode : s.launch.mode = .game := by rw [reachable_launch hs, hgame]
  have hok := (reachable_runOk hl hs).controller hmode
  rw [step_of_game hmode] at hst
  cases hfree : operationFree s.cpc with
  | false => exact absurd hg0 (execLabel_ne_g0 hfree rfl t hst)
  | true =>
    have hidle := hok.between hfree
    obtain ⟨⟨⟨hscore, -, hplaying, hover⟩, -, hfull, -⟩, -⟩ := (controllerOk_iff_atLabel hidle).1 hok
    rw [execLabel_of_operationFree hfree hidle] at hst
    cases hcpc : s.cpc <;> rw [hcpc] at hst hfree hscore hplaying hover hfull
    case g0 => exact absurd hcpc hne
    case s0 | rl0 | rl9 | g3 => cases hst; cases hg0
    case rl1 =>
      cases hst
      simp only [labelEnd] at hg0
      split at hg0 <;> cases hg0
    case rl3 =>
      cases hst
      simp only [labelEnd, if_neg (Bool.eq_false_iff.1 hover)] at hg0
      cases hg0
    case rl8 =>
      cases hst
      have hround := hplaying rfl
      have hlow : s.score.toNat ≤ 15 := by rw [hscore rfl]; exact hround
      refine ⟨⟨fun h16 => ?_, nofun⟩, fun _ => hlow⟩
      rw [show s.score = 16 from h16] at hlow
      exact absurd hlow (by decide)
    case rl10 =>
      cases hst
      exact ⟨⟨fun _ => rfl, fun _ => (hscore rfl).trans (hfull rfl)⟩, fun h => absurd rfl h⟩
    all_goals cases hfree

end Sys2Proof.Proofs
end

section
/-! Paths of beats. An operation that samples no input is described by where its beats lead: from lines to be run to lines to be
run, through so many actions of MAIN. The silent code between two actions is counted too, since one action can be followed by
`settleFuel` silent lines at most. What every interleaving, a paced one and a fair one make of an operation follows from one
such path. -/

namespace Sys2Proof.Proofs

open Sys2Proof.Machine
open Sys2Proof.Safety
open Sys2Proof.Laws

/-! ### Paths -/

/-- `s` with MAIN standing before these lines. -/
def before (ls : List Stmt) (s : State) : State := { s with todo := ls }

@[simp] theorem before_todo (ls : List Stmt) (s : State) : (before ls s).todo = ls := rfl

/-- MAIN stands before a primitive, or has no line to run. -/
def AtPrimitive (s : State) : Prop := ∀ st ∈ s.todo.head?, st.silent = false

theorem atPrimitive_nil {s : State} (h : s.todo = []) : AtPrimitive s := by simp [AtPrimitive, h]

theorem atPrimitive_before {st : Stmt} (h : st.silent = false) (ls : List Stmt) (s : State) :
    AtPrimitive (before (st :: ls) s) := by simpa [AtPrimitive] using h

theorem settle_atPrimitive (k : Nat) {s : State} (h : AtPrimitive s) : settle k s = .next s := by
  cases hs : s.todo with
  | nil => exact settle_nil k hs
  | cons st ls => exact settle_active k hs (h st (by rw [hs]; rfl))

/-- Silent code that comes to a primitive within `k` lines does so within more. -/
theorem settle_mono : ∀ {k l : Nat} {s u : State}, k ≤ l → settle k s = .next u → AtPrimitive u → settle l s = .next u
  | 0, l, s, u, _, h, hu => by
    cases h
    exact settle_atPrimitive l hu
  | k + 1, 0, s, u, hkl, _, _ => absurd hkl (by omega)
  | k + 1, l + 1, s, u, hkl, h, hu => by
    cases hs : s.todo with
    | nil =>
      rw [settle_nil _ hs] at h ⊢
      exact h
    | cons st ls =>
      cases hsilent : st.silent with
      | false =>
        rw [settle_active _ hs hsilent] at h ⊢
        exact h
      | true =>
        rw [settle_silent _ hs hsilent, andThen_eq_next] at h ⊢
        obtain ⟨t, ht, h⟩ := h
        exact ⟨t, ht, settle_mono (by omega) h hu⟩

/-- From `s`, the silent code at its front being within `k` lines, `n` beats lead to MAIN's part of `w`. -/
def BeatsTo (k : Nat) (s : State) (n : Nat) (w : State) : Prop :=
  ∃ u, settle k s = .next u ∧ AtPrimitive u ∧ Beats n (view u) (view w)

theorem beatsTo_self (k : Nat) {s : State} (h : AtPrimitive s) : BeatsTo k s 0 s :=
  ⟨s, settle_atPrimitive k h, h, .zero _⟩

theorem beatsTo_mono {k l n : Nat} {s w : State} (hkl : k ≤ l) (h : BeatsTo k s n w) : BeatsTo l s n w :=
  let ⟨u, hu, hp, hb⟩ := h
  ⟨u, settle_mono hkl hu hp, hp, hb⟩

/-- Before a primitive there is no silent code to count. -/
theorem beatsTo_refuel {k n : Nat} {s w : State} (hs : AtPrimitive s) (h : BeatsTo k s n w) (l : Nat) : BeatsTo l s n w := by
  obtain ⟨u, hu, hp, hb⟩ := h
  rw [settle_atPrimitive k hs] at hu
  cases hu
  exact ⟨s, settle_atPrimitive l hs, hp, hb⟩

theorem beatsTo_congr {k n : Nat} {s t w : State} (hv : view s = view t) (hs : inputFree s.todo) (h : BeatsTo k s n w) :
    BeatsTo k t n w := by
  obtain ⟨u, hu, hp, hb⟩ := h
  have ht : inputFree t.todo := todo_eq_of_view_eq hv ▸ hs
  have hsettle : onView (settle k t) = .next (view u) := by rw [← settle_congr k hv hs ht, hu]; rfl
  obtain ⟨u', hu', hvu⟩ := onView_eq_next.1 hsettle
  exact ⟨u', hu', by rw [AtPrimitive, todo_eq_of_view_eq hvu]; exact hp, hvu ▸ hb⟩

/-- From `s` `n` beats lead to where `t` stands: whatever is `m` beats from `t` is `n + m` beats from `s`. Within `k` lines
the silent code at the front of `s` ends, and within `l` lines that at the front of `t` has to. -/
def Leads (k : Nat) (s : State) (n l : Nat) (t : State) : Prop :=
  ∀ m w, BeatsTo l t m w → BeatsTo k s (n + m) w

theorem leads_refl (k : Nat) (s : State) : Leads k s 0 k s := fun _ _ h => by rwa [Nat.zero_add]

theorem Leads.trans {k l j n m : Nat} {s t u : State} (h : Leads k s n l t) (g : Leads l t m j u) :
    Leads k s (n + m) j u := fun i w hu => by
  rw [Nat.add_assoc]
  exact h _ w (g i w hu)

theorem Leads.weaken {k l j n : Nat} {s t : State} (h : Leads k s n l t) (hjl : j ≤ l) : Leads k s n j t :=
  fun m w ht => h m w (beatsTo_mono hjl ht)

theorem Leads.refuel {k l n : Nat} {s t : State} (h : Leads k s n l t) (ht : AtPrimitive t) (j : Nat) :
    Leads k s n j t := fun m w hj => h m w (beatsTo_refuel ht hj l)

/-- A path to where MAIN rests. -/
theorem Leads.beatsTo {k l n : Nat} {s t : State} (h : Leads k s n l t) (ht : AtPrimitive t) : BeatsTo k s n t :=
  h 0 t (beatsTo_self l ht)

/-- A silent line takes no action. -/
theorem leads_silent {st : Stmt} (hst : st.silent = true) {ls : List Stmt} {s t : State}
    (h : runStmt st (before ls s) = .next t) (k : Nat) : Leads (k + 1) (before (st :: ls) s) 0 k t := fun _ _ ⟨u, hu, hp, hb⟩ => by
  rw [Nat.zero_add]
  refine ⟨u, ?_, hp, hb⟩
  rw [settle_silent k (before_todo (st :: ls) s) hst]
  exact (congrArg (andThen · _) h).trans ((andThen_next _ _).trans hu)

theorem inputFree_of_cons {st : Stmt} {ls : List Stmt} (h : samplesInput st = false) (hls : inputFree ls) :
    inputFree (st :: ls) := (inputFree_cons st ls).2 ⟨h, hls⟩

/-- A primitive other than a poll takes one, and all the silent code that may follow an action is ahead. -/
theorem leads_act {st : Stmt} (hst : st.silent = false) (hin : samplesInput st = false) (hpoll : st ≠ .poll)
    {ls : List Stmt} (hls : inputFree ls) {s t : State} (h : runStmt st (before ls s) = .next t) (k : Nat) :
    Leads k (before (st :: ls) s) 1 settleFuel t := fun m w ⟨u, hu, hp, hb⟩ => by
  have hact := atPrimitive_before hst ls s
  have hmain : mainAct (before (st :: ls) s) = .next u :=
    (congrArg (andThen · _) h).trans ((andThen_next _ _).trans hu)
  have hbeat : beat (view (before (st :: ls) s)) = .next (view u) := by
    rcases mainAct_beat (before (st :: ls) s) (inputFree_of_cons hin hls) with ⟨-, ⟨ls', hls'⟩, -⟩ | hb
    · exact absurd (List.cons.inj hls').1 hpoll
    · rw [← hb, hmain]
      rfl
  refine ⟨_, settle_atPrimitive k hact, hact, ?_⟩
  rw [Nat.add_comm]
  exact .succ (List.cons_ne_nil _ _) hbeat hb

/-- `s` with this DCNT. -/
def withDcnt (d : Word16) (s : State) : State := { s with dcnt := some d }

/-- A beat at a poll finds a tick (40_timing_service.md R142). -/
theorem leads_poll {ls : List Stmt} (hls : inputFree ls) {d : Word16} (h0 : d ≠ 0) (s : State) (k : Nat) :
    Leads k (before (.poll :: ls) (withDcnt d s)) 1 settleFuel
      (before ((if d - 1 = 0 then [] else [.poll]) ++ ls) (withDcnt (d - 1) s)) := fun m w hw => by
  have hin : inputFree ((if d - 1 = 0 then [] else [Stmt.poll]) ++ ls) := by
    split
    · exact hls
    · exact inputFree_of_cons rfl hls
  have htick : BeatsTo settleFuel
      (push (if d - 1 = 0 then [] else [.poll]) (before ls { withDcnt (d - 1) s with tickFlag := false })) m w :=
    beatsTo_congr (by rfl) hin hw
  obtain ⟨u, hu, hp, hb⟩ := htick
  have hpending : mainAct (before (.poll :: ls) { withDcnt d s with tickFlag := true }) = .next u := by
    have hrun := poll_tick (s := before ls { withDcnt d s with tickFlag := true }) rfl h0 rfl
    exact (congrArg (andThen · _) hrun).trans ((andThen_next _ _).trans hu)
  have hbeat : beat (view (before (.poll :: ls) (withDcnt d s))) = .next (view u) := by
    rcases mainAct_beat (before (.poll :: ls) { withDcnt d s with tickFlag := true }) (inputFree_of_cons rfl hls) with
      ⟨hflag, -, -⟩ | hb
    · cases hflag
    · rw [hpending] at hb
      exact hb.symm
  have hact := atPrimitive_before (st := .poll) rfl ls (withDcnt d s)
  refine ⟨_, settle_atPrimitive k hact, hact, ?_⟩
  rw [Nat.add_comm]
  exact .succ (List.cons_ne_nil _ _) hbeat hb

/-! ### WAIT (40_timing_service.md R142) -/

/-- Polls that do not end the wait. -/
theorem leads_polls {ls : List Stmt} (hls : inputFree ls) (s : State) (k l : Nat) : ∀ (p : Nat) (d : Word16), p < d.toNat →
    Leads k (before (.poll :: ls) (withDcnt d s)) p l (before (.poll :: ls) (withDcnt (d - BitVec.ofNat 16 p) s))
  | 0, d, _ => by
    rw [show d - BitVec.ofNat 16 0 = d from BitVec.sub_zero d]
    exact (leads_refl k _).refuel (atPrimitive_before rfl ls _) l
  | p + 1, d, hp => by
    have h0 : d ≠ 0 := by rintro rfl; simp at hp
    have h1 : d - 1 ≠ 0 := by bv_omega
    have hfirst := leads_poll hls h0 s k
    rw [if_neg h1] at hfirst
    have hrest := leads_polls hls s settleFuel l p (d - 1) (by bv_omega)
    rw [show d - 1 - BitVec.ofNat 16 p = d - BitVec.ofNat 16 (p + 1) by bv_omega] at hrest
    have hall := hfirst.trans hrest
    rwa [Nat.add_comm 1 p] at hall

/-- The polls that end the wait. -/
theorem leads_polls_all {ls : List Stmt} (hls : inputFree ls) {d : Word16} (h0 : d ≠ 0) (s : State) (k : Nat) :
    Leads k (before (.poll :: ls) (withDcnt d s)) d.toNat settleFuel (before ls (withDcnt 0 s)) := by
  obtain ⟨p, hp⟩ := Nat.exists_eq_succ_of_ne_zero fun h => h0 (BitVec.eq_of_toNat_eq h)
  have hlast : d - BitVec.ofNat 16 p = 1 := by bv_omega
  have hmost := leads_polls hls s k settleFuel p d (by omega)
  rw [hlast] at hmost
  rw [hp]
  exact hmost.trans (leads_poll hls (by decide) s settleFuel)

theorem runStmt_wait (u : Word16) (ls : List Stmt) (s : State) : runStmt (.wait u) (before ls s) =
    .next (before ((if u = 0 then [] else [.poll]) ++ ls) (withDcnt u s)) := rfl

/-- A whole WAIT. -/
theorem leads_wait {ls : List Stmt} (hls : inputFree ls) (u : Word16) (s : State) {k : Nat} (hk : k ≤ settleFuel) :
    Leads (k + 1) (before (.wait u :: ls) s) u.toNat k (before ls (withDcnt 0 s)) := by
  have hentry := leads_silent rfl (runStmt_wait u ls s) k
  by_cases h0 : u = 0
  · subst h0
    exact hentry
  · rw [if_neg h0] at hentry
    have hall := hentry.trans ((leads_polls_all hls h0 s k).weaken hk)
    rwa [Nat.zero_add] at hall

/-- A WAIT of which `p` polls are done. -/
theorem leads_wait_part {ls : List Stmt} (hls : inputFree ls) {u : Word16} {p : Nat} (hp : p < u.toNat) (s : State)
    (k l : Nat) :
    Leads (k + 1) (before (.wait u :: ls) s) p l (before (.poll :: ls) (withDcnt (u - BitVec.ofNat 16 p) s)) := by
  have h0 : u ≠ 0 := by rintro rfl; simp at hp
  have hentry := leads_silent rfl (runStmt_wait u ls s) k
  rw [if_neg h0] at hentry
  have hall := hentry.trans (leads_polls hls s k l p u hp)
  rwa [Nat.zero_add] at hall

/-! ### From a path to the runs of an operation -/

/-- Only an operation in progress has beats. -/
theorem todo_ne_nil_of_beats {n : Nat} {v w : State} (h : Beats n v w) (hn : 0 < n) : v.todo ≠ [] := by
  cases h with
  | zero => exact absurd hn (Nat.lt_irrefl _)
  | succ hne _ _ => exact hne

theorem pacedTurns_ne_nil {n : Nat} (hn : 0 < n) : pacedTurns n ≠ [] := by
  cases n with
  | zero => exact absurd hn (Nat.lt_irrefl _)
  | succ n => exact List.cons_ne_nil _ _

/-- A path of beats to the end of an operation, through a paced interleaving: it ends at the last beat's turn. -/
theorem drive_paced_ends {n : Nat} {v w : State} (h : Beats n v w) (hw : w.todo = []) (rest : List Config.Turn) :
    ∀ s : State, view s = v → inputFree s.todo → s.todo ≠ [] →
      ∃ t, drive id (pacedTurns n ++ rest) s = .next t ∧ view t = w ∧ t.turns = rest := by
  induction h with
  | zero v =>
    rintro s rfl - hs
    exact absurd hw hs
  | @succ n v w x hv hb hrest ih =>
    rintro s rfl hi -
    have hi' : inputFree (agentAct .ptimerTick s).todo := by simpa using hi
    have hmain : ∃ u, mainAct (agentAct .ptimerTick s) = .next u ∧ view u = w := by
      rcases mainAct_beat _ hi' with ⟨hflag, -, -⟩ | hm
      · cases hflag
      · rw [view_agentAct, hb, onView_eq_next] at hm
        exact hm
    obtain ⟨u, hu, rfl⟩ := hmain
    rw [pacedTurns, List.cons_append, List.cons_append, drive_agent id (by decide)]
    by_cases hdone : u.todo = []
    · cases hrest with
      | zero => exact ⟨_, drive_main_of_end hu hdone _, rfl, rfl⟩
      | succ h _ _ => exact absurd hdone h
    · rw [drive_main_of_go hu hdone]
      exact ih hw u rfl (mainAct_inputFree _ hi' u hu) hdone

section

variable {start : State → Result} {finish : State → State} {s t w : State} {n : Nat}

/-- Where an operation stands once it has begun. -/
theorem begun_of_beatsTo (hs : s.todo = []) (hstart : start s = .next t) (hb : BeatsTo settleFuel t n w) :
    ∃ u, begun start s = .next u ∧ AtPrimitive u ∧ Beats n (view u) (view w) := by
  obtain ⟨u, hu, hp, hbeats⟩ := hb
  exact ⟨u, by rw [begun, if_pos hs, beginOperation, hstart, andThen_next, hu], hp, hbeats⟩

/-- Every run that ends, ends at the end of the path. -/
theorem view_of_ended (h : Steady start finish) (hs : s.todo = []) (hstart : start s = .next t)
    (hb : BeatsTo settleFuel t n w) (hw : w.todo = []) {u : State} (hu : runOperation start finish s = .next u)
    (hdone : u.todo = []) : view u = view (finish w) := by
  obtain ⟨x, hx, -, hbeats⟩ := begun_of_beatsTo hs hstart hb
  obtain ⟨x', m, w', hx', hbeats', hw', hv⟩ := runOperation_beats h hs hu hdone
  rw [begun, if_pos hs, hx'] at hx
  cases hx
  rw [hv]
  exact finish_congr h (beats_unique hbeats' hbeats hw' hw).1

/-- With a tick before every action an operation ends at the end of the path, having taken its actions. -/
theorem runOperation_paced (h : Steady start finish) (hs : s.todo = []) (hstart : start s = .next t) (hn : 0 < n)
    (hb : BeatsTo settleFuel t n w) (hw : w.todo = []) {rest : List Config.Turn} (hturns : s.turns = pacedTurns n ++ rest) :
    ∃ u, runOperation start finish s = .next (finish u) ∧ u.todo = [] ∧ u.turns = rest ∧
      view (finish u) = view (finish w) := by
  obtain ⟨x, hx, -, hbeats⟩ := begun_of_beatsTo hs hstart hb
  have hgo : x.todo ≠ [] := todo_ne_nil_of_beats (v := view x) hbeats hn
  have hne : pacedTurns n ++ rest ≠ [] := fun h => pacedTurns_ne_nil hn (List.append_eq_nil_iff.1 h).1
  have hin : inputFree x.todo := by
    rw [begun, if_pos hs] at hx
    exact begin_free h hs hx
  obtain ⟨u, hu, hv, hrest⟩ := drive_paced_ends hbeats hw rest { x with turns := [] } rfl hin hgo
  have hdone : u.todo = [] := (todo_eq_of_view_eq (t := w) hv).trans hw
  refine ⟨u, ?_, hdone, hrest, finish_congr h hv⟩
  have hrun := runOperation_turns (start := start) h.turns finish s hne
  rw [← hturns] at hrun
  rw [show s = { s with turns := s.turns } from rfl, hrun, hx, andThen_next, if_neg hgo, hturns,
    drive_finish finish _ _ (by exact hgo), hu, andThen_next, if_pos hdone]

/-- With a tick before every action an operation pauses where the turns end. -/
theorem runOperation_paced_pause (h : Steady start finish) (hs : s.todo = []) (hstart : start s = .next t) (hn : 0 < n)
    (hb : BeatsTo settleFuel t n w) (hw : w.todo ≠ []) (hturns : s.turns = pacedTurns n) :
    ∃ u, runOperation start finish s = .next u ∧ u.turns = [] ∧ view u = view w := by
  obtain ⟨x, hx, -, hbeats⟩ := begun_of_beatsTo hs hstart hb
  have hgo : x.todo ≠ [] := todo_ne_nil_of_beats (v := view x) hbeats hn
  have hne : pacedTurns n ≠ [] := pacedTurns_ne_nil hn
  have hin : inputFree x.todo := by
    rw [begun, if_pos hs] at hx
    exact begin_free h hs hx
  obtain ⟨u, hu, hv⟩ := drive_paced hbeats { x with turns := [] } rfl hin
  have hgo' : u.todo ≠ [] := by rwa [todo_eq_of_view_eq (t := w) hv]
  refine ⟨u, ?_, drive_pause_turns _ _ rfl u hu hgo', hv⟩
  have hrun := runOperation_turns (start := start) h.turns finish s hne
  rw [← hturns] at hrun
  rw [show s = { s with turns := s.turns } from rfl, hrun, hx, andThen_next, if_neg hgo, hturns,
    drive_finish finish _ _ (by exact hgo), hu, andThen_next, if_neg hgo']

end

/-- An operation that neither samples an input nor waits takes its actions at MAIN's turns, wherever these stand. -/
theorem drive_unhindered {w : State} (hw : w.todo = []) : ∀ (ts : List Config.Turn) {n : Nat} {s : State},
    Unhindered s.todo → s.todo ≠ [] → Beats n (view s) (view w) → n ≤ ts.count .main →
    ∃ u, drive id ts s = .next u ∧ view u = view w
  | _, 0, s, _, hs, hb, _ => by
    generalize hv : view s = v at hb
    generalize hx : view w = x at hb
    cases hb
    exact absurd ((todo_eq_of_view_eq (hv.trans hx.symm)).trans hw) hs
  | [], n + 1, _, _, _, _, hn => by simp at hn
  | a :: ts, n + 1, s, h, hs, hb, hn => by
    by_cases ha : a = .main
    · subst ha
      generalize hx : view w = x at hb
      cases hb with
      | @succ _ _ v' _ _ hbeat hrest =>
        rw [← onView_mainAct h, onView_eq_next] at hbeat
        obtain ⟨u, hu, rfl⟩ := hbeat
        by_cases hdone : u.todo = []
        · rw [drive_main_of_end hu hdone]
          refine ⟨_, rfl, ?_⟩
          cases hrest with
          | zero => rfl
          | succ hne _ _ => exact absurd hdone hne
        · rw [drive_main_of_go hu hdone]
          subst hx
          exact drive_unhindered hw ts (mainAct_unhindered h u hu) hdone hrest (by simpa using hn)
    · rw [List.count_cons_of_ne ha] at hn
      rw [drive_agent id ha]
      exact drive_unhindered hw ts (by simpa using h) (by simpa using hs) (by rwa [view_agentAct]) hn

theorem push_eq_before {s : State} (hs : s.todo = []) (body : List Stmt) :
    (.next (push body s) : Result) = .next (before body s) := by
  simp only [push, before, hs, List.append_nil]

/-- A command of such lines ends at the end of its path, through any interleaving with as many turns of MAIN. -/
theorem runCommand_unhindered {body : List Stmt} (h : Unhindered body) {n : Nat} {s w : State} (hs : s.todo = [])
    (hpos : 0 < n) (hb : BeatsTo settleFuel (before body s) n w) (hw : w.todo = []) (hn : n ≤ s.turns.count .main) :
    ∃ u, runCommand body endCommand s = .next (endCommand u) ∧ view u = view w := by
  have hturns : s.turns ≠ [] := by
    intro hnil
    rw [hnil, List.count_nil] at hn
    omega
  obtain ⟨x, hx, -, hbeats⟩ := begun_of_beatsTo (start := fun s => .next (push body s)) hs (push_eq_before hs body) hb
  have hgo : x.todo ≠ [] := todo_ne_nil_of_beats (v := view x) hbeats hpos
  have hx' : Unhindered x.todo := by
    obtain ⟨P, hP, hlines⟩ := h.waits
    have hrun := hx
    rw [begun, if_pos hs, beginOperation, andThen_next] at hrun
    have hpush : LinesWithin P (push body s).todo := by
      rw [push_todo, hs, List.append_nil]
      exact hlines
    refine ⟨settle_inputFree _ _ (by rw [push_todo, hs, List.append_nil]; exact h.inputs) x hrun, P, hP, ?_⟩
    exact (settle_runWrites (s := push body s) _ _
      ⟨writesOnly_position P _ _ _ _ _, hpush⟩ x hrun).lines
  obtain ⟨u, hu, hv⟩ := drive_unhindered hw s.turns (s := { x with turns := [] }) hx' hgo hbeats hn
  have hdone : u.todo = [] := (todo_eq_of_view_eq hv).trans hw
  refine ⟨u, ?_, hv⟩
  have hrun := runOperation_turns (turnsBlind_push body) endCommand s hturns
  rw [runCommand, show s = { s with turns := s.turns } from rfl, hrun, hx, andThen_next, if_neg hgo,
    drive_finish _ _ _ (by exact hgo), hu, andThen_next, if_pos hdone]

end Sys2Proof.Proofs
end

section
/-! Where the beats of DisplayRenderer's operations lead (41_display_renderer.md R160 to R169): CLEAR, put_word, the ERROR
rendering, SHOW_WORD and SHOW_NUMBER. -/

namespace Sys2Proof.Proofs

open Sys2Proof.Machine
open Sys2Proof.Safety
open Sys2Proof.Laws

/-! ### Loops of writes -/

/-- `s` with this I. -/
def withI (i : Option (BitVec 3)) (s : State) : State := { s with i := i }

theorem withI_eq_self {i : Option (BitVec 3)} {s : State} (h : s.i = i) : withI i s = s := by
  rw [← h]
  rfl

theorem written_i (slot : Nat) (cs : Text) (s : State) : (written slot cs s).i = s.i := rfl

theorem withI_self (s : State) : withI s.i s = s := rfl

/-- A line of a loop neither samples an input nor polls. -/
def WritesLine (st : Stmt) : Prop := samplesInput st = false ∧ st ≠ .poll

section

variable {slot : Nat} {cs : Text} {line : Nat → Stmt} {index : Nat → Option (BitVec 3)}

theorem WriteLoop.leads_from (h : WriteLoop slot cs line index) (hline : ∀ j, WritesLine (line j)) {rest : List Stmt}
    (hrest : inputFree rest) : ∀ (n j k : Nat) (s : State), j + (n + 1) = cs.length →
    Leads k (atLines (line j :: rest) (index j) s) (n + 1) settleFuel
      (atLines rest (index cs.length) (written (slot + j) (cs.drop j) s)) := by
  intro n
  induction n with
  | zero =>
    intro j k s hlen
    have hj : j < cs.length := by omega
    have hact := leads_act (s := withI (index j) s) (h.active j) (hline j).1 (hline j).2 hrest (h.run j hj rest s) k
    rw [if_neg (by omega)] at hact
    rw [List.drop_eq_getElem_cons hj, List.drop_eq_nil_of_le (by omega), ← hlen]
    exact hact
  | succ n ih =>
    intro j k s hlen
    have hj : j < cs.length := by omega
    have hact := leads_act (s := withI (index j) s) (h.active j) (hline j).1 (hline j).2 hrest (h.run j hj rest s) k
    rw [if_pos (by omega)] at hact
    rw [List.drop_eq_getElem_cons hj, written_cons, Nat.add_comm (n + 1) 1]
    exact hact.trans (ih (j + 1) settleFuel _ (by omega))

/-- A loop of writes takes an action for each character. -/
theorem WriteLoop.leads (h : WriteLoop slot cs line index) (hline : ∀ j, WritesLine (line j)) (hcs : cs ≠ [])
    {rest : List Stmt} (hrest : inputFree rest) (s : State) (k : Nat) :
    Leads k (before (line 0 :: rest) (withI (index 0) s)) cs.length settleFuel
      (before rest (withI (index cs.length) (written slot cs s))) := by
  obtain ⟨n, hn⟩ := Nat.exists_eq_succ_of_ne_zero (List.length_pos_of_ne_nil hcs).ne'
  have hall := h.leads_from hline hrest n 0 k s (by omega)
  rwa [← Nat.succ_eq_add_one, ← hn] at hall

end

/-! ### CLEAR -/

/-- The state after CLEAR's seven writes. -/
@[irreducible] def cleared (s : State) : State := written 0 (List.replicate 7 Config.blank) s

theorem cleared_eq (s : State) : cleared s = written 0 (List.replicate 7 Config.blank) s := by unfold cleared; rfl

theorem cleared_trace (s : State) : (cleared s).trace = s.trace ++ clrTrace := by
  rw [cleared_eq, written_trace, clrTrace_eq_writesFrom]

theorem cleared_i (s : State) : (cleared s).i = s.i := by rw [cleared_eq, written_i]

theorem cleared_disp (s : State) : (cleared s).disp = Vector.replicate 7 Config.blank := by
  rw [cleared_eq, written_disp]
  refine Vector.ext fun j hj => ?_
  have hset := setChars_getElem?_add (List.replicate 7 Config.blank) (slot := 0) (j := j) s.disp (by omega)
  rw [Nat.zero_add, List.getElem?_replicate_of_lt hj, Option.some_or] at hset
  rw [Vector.getElem_replicate]
  exact (Vector.getElem?_eq_some_iff.1 hset).2

theorem leads_clear {rest : List Stmt} (hrest : inputFree rest) (s : State) (k : Nat) :
    Leads k (before (bodyClear ++ rest) s) 7 settleFuel (before rest (cleared s)) := by
  have hloop := (writeLoop_clear s.i).leads (fun _ => ⟨rfl, nofun⟩) (List.cons_ne_nil _ _) hrest s k
  rwa [List.length_replicate, withI_self, withI_eq_self (written_i _ _ s), ← cleared_eq] at hloop

/-! ### put_word and the ERROR rendering -/

/-- The state after the ERROR rendering and its event. -/
def errorShown (e : Nat) (s : State) : State := emit (.error e) (written 1 litError s)

theorem runStmt_event (e : Nat) (ls : List Stmt) (s : State) :
    runStmt (.event e) (before ls s) = .next (before ls (emit (.error e) s)) := rfl

theorem runStmt_showError (e : Nat) (ls : List Stmt) (s : State) :
    runStmt (.showError e) (before ls s) = .next (before (.errorChars :: .event e :: ls) (withI (some 0) s)) := rfl

/-- The ERROR rendering takes five actions. -/
theorem leads_showError (e : Nat) {rest : List Stmt} (hrest : inputFree rest) (s : State) (k : Nat) {l : Nat}
    (hl : l + 1 ≤ settleFuel) : ∃ i, Leads (k + 1) (before (.showError e :: rest) s) 5 l
      (before rest (withI i (errorShown e s))) := by
  have hloop := writeLoop_errorChars.leads (fun _ => ⟨rfl, nofun⟩) (by decide) (inputFree_of_cons (st := .event e) rfl hrest)
    s k
  have hevent := leads_silent rfl (runStmt_event e rest
    (withI (some (BitVec.ofNat 3 litError.length)) (written 1 litError s))) l
  exact ⟨_, (leads_silent rfl (runStmt_showError e rest s) k).trans ((hloop.weaken hl).trans hevent)⟩

theorem runStmt_putWord_long {w : Text} (hlen : 6 < w.length) (ls : List Stmt) (s : State) :
    runStmt (.putWord w) (before ls s) = .next (before (.showError 1 :: ls) s) := by
  rw [runStmt, linePutWord, if_pos hlen]
  rfl

theorem runStmt_putWord_empty (ls : List Stmt) (s : State) :
    runStmt (.putWord []) (before ls s) = .next (before ls s) := rfl

theorem runStmt_putWord_fits {w : Text} (hlen : w.length ≤ 6) (hne : w ≠ []) (ls : List Stmt) (s : State) :
    runStmt (.putWord w) (before ls s) = .next (before (.putChars w :: ls) (withI (some 0) s)) := by
  rw [runStmt, linePutWord, if_neg (Nat.not_lt.2 hlen), if_neg hne]
  rfl

/-- put_word takes an action for each character it writes (R160). -/
theorem leads_putWord {w : Text} (hw : noNul w) {rest : List Stmt} (hrest : inputFree rest) (s : State) {k : Nat}
    (hk : k + 2 ≤ settleFuel) : ∃ i, Leads (k + 2) (before (.putWord w :: rest) s) (putWordActions w) k
      (before rest (withI i (wordPut w s))) := by
  by_cases hlong : 6 < w.length
  · obtain ⟨i, herror⟩ := leads_showError 1 hrest s k (l := k) (by omega)
    rw [putWordActions, if_pos hlong, wordPut, if_pos hlong]
    have hall := (leads_silent rfl (runStmt_putWord_long hlong rest s) (k + 1)).trans herror
    exact ⟨i, hall⟩
  · rw [putWordActions, if_neg hlong, wordPut, if_neg hlong]
    by_cases hempty : w = []
    · subst hempty
      rw [written_nil]
      exact ⟨s.i, (leads_silent rfl (runStmt_putWord_empty rest s) (k + 1)).weaken (by omega)⟩
    · have hloop := (writeLoop_putChars (Nat.not_lt.1 hlong) hw).leads (fun _ => ⟨rfl, nofun⟩) hempty hrest s (k + 1)
      have hall := (leads_silent rfl (runStmt_putWord_fits (Nat.not_lt.1 hlong) hempty rest s) (k + 1)).trans
        (hloop.weaken (j := k) (by omega))
      rw [Nat.zero_add] at hall
      exact ⟨some (BitVec.ofNat 3 w.length), hall⟩

/-- SHOW_WORD: CLEAR, then put_word (R162). -/
theorem leads_showWord {w : Text} (hw : noNul w) {rest : List Stmt} (hrest : inputFree rest) (s : State) (k : Nat)
    {l : Nat} (hl : l + 2 ≤ settleFuel) : ∃ i, Leads k (before (bodyShowWord w ++ rest) s) (7 + putWordActions w) l
      (before rest (withI i (wordShown w s))) := by
  obtain ⟨i, hword⟩ := leads_putWord hw hrest (cleared s) hl
  rw [wordShown, ← cleared_eq]
  refine ⟨i, Leads.trans ?_ (hword)⟩
  rw [bodyShowWord, List.append_assoc]
  exact (leads_clear (inputFree_of_cons (st := .putWord w) rfl hrest) s k).weaken hl

/-! ### SHOW_NUMBER -/

/-- The character SHOW_NUMBER writes in visible slot `j`, if any, written there. -/
def digitShown (n j : Nat) (s : State) : State := (numberChar n j).elim s fun c => written j [c] s

/-- The events of visible slot `j`: its write, if there is one. -/
def digitEvents (n j : Nat) : List Event := (numberChar n j).elim [] fun c => [.write j c]

theorem digitShown_trace (n j : Nat) (s : State) : (digitShown n j s).trace = s.trace ++ digitEvents n j := by
  unfold digitShown digitEvents
  cases numberChar n j with
  | none => exact (List.append_nil _).symm
  | some c => rfl

theorem digitShown_disp_self (n : Nat) {j : Nat} (hj : j < 7) (s : State) :
    (digitShown n j s).disp[j]? = (numberChar n j).or s.disp[j]? := by
  unfold digitShown
  cases numberChar n j with
  | none => rfl
  | some c => exact Vector.getElem?_setIfInBounds_self_of_lt hj

theorem digitShown_disp_of_ne (n : Nat) {j slot : Nat} (hj : j ≠ slot) (s : State) :
    (digitShown n j s).disp[slot]? = s.disp[slot]? := by
  unfold digitShown
  cases numberChar n j with
  | none => rfl
  | some c => exact Vector.getElem?_setIfInBounds_ne hj

/-- `s` at DIGK = `j` of the loop for `n` (R168): REM is what the digits before left, STARTED says whether one was shown. -/
def atDigit (n j : Nat) (s : State) : State :=
  { s with
    digk := some (BitVec.ofNat 3 (min j 6)), rem := some (BitVec.ofNat 32 (n % 10 ^ (7 - j)))
    started := some (decide (n / 10 ^ (7 - j) ≠ 0)) }

/-- The lines from DIGK = `j` on. -/
def digitLines (j : Nat) : List Stmt := if j ≤ 6 then [.digit] else []

/-- The digit at DIGK = `j` of what the digits before left. -/
theorem digit_of_rem (n : Nat) {j : Nat} (hj : j ≤ 6) :
    n % 10 ^ (7 - j) / 10 ^ (6 - j) = n / 10 ^ (6 - j) % 10 ∧ n % 10 ^ (7 - j) % 10 ^ (6 - j) = n % 10 ^ (6 - j) := by
  rw [show 7 - j = 6 - j + 1 by omega, pow_succ]
  exact ⟨Nat.mod_mul_right_div_self n _ _, Nat.mod_mul_right_mod n _ _⟩

/-- The digit at DIGK = `j` is shown or blank (R168): leading zeros are those before the first digit that is not 0. -/
theorem shown_iff {n : Nat} {j : Nat} (hj : j ≤ 6) :
    (n / 10 ^ (6 - j) % 10 ≠ 0 ∨ decide (n / 10 ^ (7 - j) ≠ 0) = true) ↔ n / 10 ^ (6 - j) ≠ 0 := by
  rw [decide_eq_true_iff, show 7 - j = 6 - j + 1 by omega, pow_succ, ← Nat.div_div_eq_div_mul]
  omega

/-- `s` when the digit at DIGK = `j` has been taken off REM. -/
def digitTaken (n j : Nat) (s : State) : State :=
  { s with
    digk := some (BitVec.ofNat 3 j), rem := some (BitVec.ofNat 32 (n % 10 ^ (6 - j)))
    started := some (decide (n / 10 ^ (6 - j) ≠ 0)) }

theorem toNat_digk {j : Nat} (hj : j ≤ 6) : (BitVec.ofNat 3 j).toNat = j := Nat.mod_eq_of_lt (by omega)

theorem nextDigit_taken (n : Nat) {j : Nat} (hj : j ≤ 6) (rest : List Stmt) (s : State) :
    nextDigit (BitVec.ofNat 3 j) (before rest (digitTaken n j s)) = before (digitLines (j + 1) ++ rest) (atDigit n (j + 1) s) := by
  rw [nextDigit, toNat_digk hj, digitLines, atDigit, show 7 - (j + 1) = 6 - j by omega]
  by_cases h : j < 6
  · rw [if_pos h, if_pos (by omega), Nat.min_eq_left (by omega), BitVec.ofNat_add]
    rfl
  · rw [if_neg h, if_neg (by omega), Nat.min_eq_right (by omega), show j = 6 by omega]
    rfl

/-- A digit before the first that is not 0 is blank, a later one is shown (R168). -/
theorem runStmt_digit {n : Nat} (hn : n < 10 ^ 6) {j : Nat} (h1 : 1 ≤ j) (hj : j ≤ 6) (rest : List Stmt) (s : State) :
    runStmt .digit (before rest (atDigit n j s)) = .next (if n / 10 ^ (6 - j) ≠ 0 then
      before (.putDigit (digitChar (n / 10 ^ (6 - j) % 10)) :: rest) (digitTaken n j s)
      else before (digitLines (j + 1) ++ rest) (atDigit n (j + 1) s)) := by
  obtain ⟨hdiv, hmod⟩ := digit_of_rem n hj
  have hpow : 10 ^ (7 - j) ≤ 10 ^ 6 := Nat.pow_le_pow_right (by decide) (by omega)
  have hrem : (BitVec.ofNat 32 (n % 10 ^ (7 - j))).toNat = n % 10 ^ (7 - j) :=
    Nat.mod_eq_of_lt (lt_of_le_of_lt (Nat.mod_le _ _) (by omega))
  have hdivisor : digitDivisor (BitVec.ofNat 3 j) = 10 ^ (6 - j) := by rw [digitDivisor, toNat_digk hj]
  have hdigit : ¬9 < n / 10 ^ (6 - j) % 10 := by omega
  rw [runStmt, lineDigit, before, atDigit, Nat.min_eq_left hj]
  simp only [readReg_some, hrem, hdivisor, hdiv, hmod, if_neg hdigit, shown_iff hj]
  by_cases hzero : n / 10 ^ (6 - j) = 0
  · have hbefore : n / 10 ^ (7 - j) = 0 := by
      rw [show 7 - j = 6 - j + 1 by omega, pow_succ, ← Nat.div_div_eq_div_mul, hzero]
    rw [if_neg (not_not_intro hzero), if_neg (not_not_intro hzero), ← nextDigit_taken n hj rest s]
    simp only [digitTaken, hbefore, hzero]
    rfl
  · rw [if_pos hzero, if_pos hzero]
    simp only [digitTaken, decide_eq_true hzero]
    rfl

theorem runStmt_putDigit (n : Nat) {j : Nat} (hj : j ≤ 6) {ch : Byte} (hch : ch ≠ 0) (rest : List Stmt) (s : State) :
    runStmt (.putDigit ch) (before rest (digitTaken n j s)) =
      .next (before (digitLines (j + 1) ++ rest) (atDigit n (j + 1) (written j [ch] s))) := by
  rw [← nextDigit_taken n hj, runStmt, linePutDigit]
  simp only [before, digitTaken, readReg_some, toNat_digk hj]
  rw [writeChar_eq_written (by omega) hch, andThen_next]
  rfl

/-- A digit of a number below 10^6 takes an action if it is shown. -/
theorem leads_digit {n : Nat} (hn : n < 10 ^ 6) (hn0 : n ≠ 0) {j : Nat} (h1 : 1 ≤ j) (hj : j ≤ 6) {rest : List Stmt}
    (hrest : inputFree rest) (s : State) {k : Nat} (hk : k ≤ settleFuel) :
    Leads (k + 1) (before (.digit :: rest) (atDigit n j s)) (digitEvents n j).length k
      (before (digitLines (j + 1) ++ rest) (atDigit n (j + 1) (digitShown n j s))) := by
  have hrun := leads_silent rfl (runStmt_digit hn h1 hj rest s) k
  by_cases hzero : n / 10 ^ (6 - j) = 0
  · have hchar : numberChar n j = none := if_pos ⟨hzero, fun h => hn0 h.1⟩
    rw [digitEvents, digitShown, hchar]
    rwa [if_neg (not_not_intro hzero)] at hrun
  · have hchar : numberChar n j = some (digitChar (n / 10 ^ (6 - j) % 10)) := if_neg fun h => hzero h.1
    have hne : digitChar (n / 10 ^ (6 - j) % 10) ≠ 0 := digitChar_ne_zero (by omega)
    rw [digitEvents, digitShown, hchar]
    rw [if_pos hzero] at hrun
    exact hrun.trans ((leads_act (st := .putDigit _) rfl rfl nofun hrest (runStmt_putDigit n hj hne rest s) k).weaken hk)

/-- `m` digits from slot `j` on, each written where it is shown. -/
def digitsShown (n j m : Nat) (s : State) : State := (List.range' j m).foldl (fun s j => digitShown n j s) s

theorem digitsShown_succ (n j m : Nat) (s : State) :
    digitsShown n j (m + 1) s = digitsShown n (j + 1) m (digitShown n j s) := rfl

theorem digitsShown_trace (n : Nat) : ∀ (m j : Nat) (s : State),
    (digitsShown n j m s).trace = s.trace ++ (List.range' j m).flatMap (digitEvents n)
  | 0, _, _ => (List.append_nil _).symm
  | m + 1, j, s => by
    rw [digitsShown_succ, digitsShown_trace n m, digitShown_trace, List.range'_succ, List.flatMap_cons, List.append_assoc]

/-- A slot the digits come to has its character, if one is shown there, and another is as it was. -/
theorem digitsShown_disp (n : Nat) : ∀ (m j : Nat) (s : State), j + m ≤ 7 → ∀ slot < 7,
    (digitsShown n j m s).disp[slot]? =
      if j ≤ slot ∧ slot < j + m then (numberChar n slot).or s.disp[slot]? else s.disp[slot]?
  | 0, j, s, _, slot, _ => (if_neg (by omega)).symm
  | m + 1, j, s, hm, slot, hslot => by
    rw [digitsShown_succ, digitsShown_disp n m (j + 1) _ (by omega) slot hslot]
    by_cases hj : slot = j
    · subst hj
      rw [if_neg (by omega), if_pos (by omega), digitShown_disp_self n hslot]
    · rw [digitShown_disp_of_ne n (Ne.symm hj)]
      by_cases hin : j ≤ slot ∧ slot < j + (m + 1)
      · rw [if_pos hin, if_pos (by omega)]
      · rw [if_neg hin, if_neg (by omega)]

theorem leads_digits {n : Nat} (hn : n < 10 ^ 6) (hn0 : n ≠ 0) {rest : List Stmt} (hrest : inputFree rest) (k : Nat) :
    ∀ (m j : Nat) (s : State), 1 ≤ j → j + m = 7 → k + m ≤ settleFuel →
      Leads (k + m) (before (digitLines j ++ rest) (atDigit n j s)) ((List.range' j m).flatMap (digitEvents n)).length k
        (before rest (atDigit n 7 (digitsShown n j m s)))
  | 0, j, s, _, hj, _ => by
    obtain rfl : j = 7 := hj
    exact leads_refl k _
  | m + 1, j, s, h1, hj, hk => by
    have hfirst := leads_digit hn hn0 h1 (by omega : j ≤ 6) hrest s (k := k + m) (by omega)
    have hothers := leads_digits hn hn0 hrest k m (j + 1) (digitShown n j s) (by omega) (by omega) (by omega)
    rw [digitLines, if_pos (by omega), List.range'_succ, List.flatMap_cons, List.length_append, digitsShown_succ]
    exact hfirst.trans hothers

/-- SHOW_NUMBER `n` has written its events and its display from `s` to `t`. -/
structure NumberShown (n : Nat) (s t : State) : Prop where
  trace : t.trace = s.trace ++ showNumberTrace n
  disp : ∀ slot < 7, t.disp[slot]? = some (numberSlot n slot)

theorem NumberShown.congr {n : Nat} {s t u : State} (h : NumberShown n s t) (htrace : u.trace = t.trace)
    (hdisp : u.disp = t.disp) : NumberShown n s u where
  trace := htrace.trans h.trace
  disp := hdisp ▸ h.disp

theorem showNumberTrace_of_small {n : Nat} (hn : n < 10 ^ 6) :
    showNumberTrace n = clrTrace ++ (List.range' 1 6).flatMap (digitEvents n) := by
  rw [showNumberTrace, if_neg (Nat.not_le.2 hn)]
  refine congrArg (clrTrace ++ List.flatMap · _) (funext fun j => ?_)
  rw [digitEvents]
  cases numberChar n j <;> rfl

theorem numberShown_digits {n : Nat} (hn : n < 10 ^ 6) (s : State) :
    NumberShown n s (digitsShown n 1 6 (cleared s)) where
  trace := by rw [digitsShown_trace, cleared_trace, showNumberTrace_of_small hn, List.append_assoc]
  disp slot hslot := by
    rw [digitsShown_disp n 6 1 _ (by decide) slot hslot, cleared_disp, Vector.getElem?_replicate, if_pos hslot, numberSlot,
      if_neg (Nat.not_le.2 hn)]
    by_cases h0 : slot = 0
    · rw [if_neg (by omega), if_pos h0]
    · rw [if_pos (by omega), if_neg h0, Option.or_some]

theorem numberShown_error {n : Nat} (hn : 10 ^ 6 ≤ n) {s u : State} (htrace : u.trace = s.trace ++ clrTrace)
    (hdisp : u.disp = Vector.replicate 7 Config.blank) : NumberShown n s (errorShown 2 u) where
  trace := by
    rw [showNumberTrace, if_pos hn]
    simp [errorShown, emit, htrace]
  disp slot hslot := by
    have hchars : (errorShown 2 u).disp = setChars 1 litError u.disp := rfl
    have hblank : u.disp[slot]? = some Config.blank := by
      rw [hdisp, Vector.getElem?_replicate, if_pos hslot]
    rw [hchars, numberSlot, if_pos hn]
    by_cases h0 : slot = 0
    · rw [if_pos h0, setChars_getElem?_of_lt _ _ (by omega), hblank]
    · obtain ⟨j, rfl⟩ : ∃ j, slot = 1 + j := ⟨slot - 1, by omega⟩
      rw [if_neg h0, setChars_getElem?_add _ _ hslot, hblank, Option.or_some, List.getD_eq_getElem?_getD,
        Nat.add_sub_cancel_left]

theorem runStmt_number_zero (rest : List Stmt) (s : State) :
    runStmt (.number 0) (before rest s) = .next (before (.write 6 (digitChar 0) :: rest) s) := rfl

/-- DIGK = 1, REM the number, nothing shown (R168). -/
def numberBegun (n : Word32) (s : State) : State := { s with rem := some n, started := some false, digk := some 1 }

theorem runStmt_number {n : Word32} (hn : n ≠ 0) (rest : List Stmt) (s : State) :
    runStmt (.number n) (before rest s) = .next (before (.digit :: rest) (numberBegun n s)) := by
  rw [runStmt, lineNumber, if_neg hn]
  rfl

theorem numberBegun_eq_atDigit {n : Word32} (hn : n.toNat < 10 ^ 6) (s : State) :
    numberBegun n s = atDigit n.toNat 1 s := by
  rw [numberBegun, atDigit, Nat.mod_eq_of_lt hn, Nat.div_eq_of_lt hn, BitVec.ofNat_toNat, BitVec.setWidth_eq]
  rfl

theorem runStmt_digit_error {n : Word32} (hn : 10 ^ 6 ≤ n.toNat) (rest : List Stmt) (s : State) :
    runStmt .digit (before rest (numberBegun n s)) = .next (before (.showError 2 :: rest) (numberBegun n s)) := by
  have hdigit : 9 < n.toNat / digitDivisor 1 := by
    rw [show digitDivisor 1 = 10 ^ 5 from rfl]
    omega
  rw [runStmt, lineDigit]
  simp only [before, numberBegun, readReg_some, if_pos hdigit]
  rfl

theorem runStmt_write_digit (rest : List Stmt) (s : State) :
    runStmt (.write 6 (digitChar 0)) (before rest s) = .next (before rest (digitsShown 0 1 6 s)) := by
  rw [runStmt, writeChar_eq_written (by decide) (by decide)]
  rfl

/-- SHOW_NUMBER's actions: from 10^6 on CLEAR and ERROR, whose event is none (R169). -/
def numberActions (n : Nat) : Nat := if 10 ^ 6 ≤ n then 12 else showNumberActions n

theorem numberActions_of_small {n : Nat} (hn : n < 10 ^ 6) : numberActions n = showNumberActions n :=
  if_neg (Nat.not_le.2 hn)

theorem length_digitEvents_le (n j : Nat) : (digitEvents n j).length ≤ 1 := by
  rw [digitEvents]
  cases numberChar n j <;> simp

theorem numberActions_le (n : Nat) : numberActions n ≤ 13 := by
  by_cases hn : 10 ^ 6 ≤ n
  · rw [numberActions, if_pos hn]
    decide
  · rw [numberActions, if_neg hn, showNumberActions, showNumberTrace_of_small (Nat.not_le.1 hn), List.length_append,
      List.length_flatMap]
    have hsum := List.sum_le_card_nsmul ((List.range' 1 6).map fun j => (digitEvents n j).length) 1
      (List.forall_mem_map.2 fun j _ => length_digitEvents_le n j)
    rw [List.length_map, List.length_range', smul_eq_mul] at hsum
    have hclear : clrTrace.length = 7 := rfl
    omega

/-- SHOW_NUMBER after CLEAR. -/
theorem leads_number (n : Word32) {rest : List Stmt} (hrest : inputFree rest) (s : State) {k : Nat}
    (hk : k + 8 ≤ settleFuel) : ∃ t m, NumberShown n.toNat s t ∧ 7 + m = numberActions n.toNat ∧
      Leads (k + 7) (before (.number n :: rest) (cleared s)) m k (before rest t) := by
  by_cases hn0 : n = 0
  · subst hn0
    have hwrite := leads_act (st := .write 6 _) rfl rfl nofun hrest (runStmt_write_digit rest (cleared s)) (k + 6)
    exact ⟨_, 0 + 1, numberShown_digits (by decide) s, by decide,
      (leads_silent rfl (runStmt_number_zero rest (cleared s)) (k + 6)).trans (hwrite.weaken (by omega))⟩
  · have hentry := leads_silent rfl (runStmt_number hn0 rest (cleared s)) (k + 6)
    by_cases hlarge : 10 ^ 6 ≤ n.toNat
    · obtain ⟨i, herror⟩ := leads_showError 2 hrest (numberBegun n (cleared s)) (k + 4) (l := k) (by omega)
      have hdigit := leads_silent rfl (runStmt_digit_error hlarge rest (cleared s)) (k + 5)
      have hshown := numberShown_error hlarge (u := numberBegun n (cleared s)) (cleared_trace s) (cleared_disp s)
      refine ⟨_, 0 + (0 + 5), ?_, ?_, hentry.trans (hdigit.trans herror)⟩
      · exact hshown.congr rfl rfl
      · rw [numberActions, if_pos hlarge]
    · have hsmall : n.toNat < 10 ^ 6 := Nat.not_le.1 hlarge
      have hne : n.toNat ≠ 0 := fun h => hn0 (BitVec.eq_of_toNat_eq h)
      have hloop := leads_digits hsmall hne hrest k 6 1 (cleared s) (by decide) rfl (by omega)
      rw [numberBegun_eq_atDigit hsmall] at hentry
      refine ⟨_, _, ?_, ?_, hentry.trans hloop⟩
      · exact (numberShown_digits hsmall s).congr rfl rfl
      · rw [numberActions_of_small hsmall, showNumberActions, showNumberTrace_of_small hsmall, List.length_append,
          Nat.zero_add]
        rfl

/-- SHOW_NUMBER: CLEAR, then the number (R168). -/
theorem leads_showNumber (n : Word32) {rest : List Stmt} (hrest : inputFree rest) (s : State) (l : Nat) {k : Nat}
    (hk : k + 8 ≤ settleFuel) : ∃ t, NumberShown n.toNat s t ∧
      Leads l (before (bodyShowNumber n ++ rest) s) (numberActions n.toNat) k (before rest t) := by
  obtain ⟨t, m, ht, hm, hnumber⟩ := leads_number n hrest s hk
  refine ⟨t, ht, ?_⟩
  rw [bodyShowNumber, List.append_assoc, ← hm]
  exact ((leads_clear (inputFree_of_cons (st := .number n) rfl hrest) s l).weaken (by omega)).trans hnumber

end Sys2Proof.Proofs
end

section
/-! CLEAR and SHOW_NUMBER (41_display_renderer.md R161, R168, R169) through any interleaving with enough turns of MAIN. -/

namespace Sys2Proof.Proofs

open Sys2Proof.Machine
open Sys2Proof.Safety
open Sys2Proof.Laws

theorem before_nil {s : State} (hs : s.todo = []) : before [] s = s := by
  rw [before, ← hs]

section

variable (ls : List Stmt) (s : State)

theorem before_trace : (before ls s).trace = s.trace := rfl
theorem before_disp : (before ls s).disp = s.disp := rfl

end

section

variable {s t : State} (h : view s = view t)
include h

/-! MAIN's part of a state has all but the inputs, the timers and the turns. -/

theorem trace_of_view : s.trace = t.trace := by rw [← view_trace s, h, view_trace]
theorem disp_of_view : s.disp = t.disp := by rw [← view_disp s, h, view_disp]
theorem i_of_view : s.i = t.i := (congrArg State.i h : (view s).i = (view t).i)
theorem dcnt_of_view : s.dcnt = t.dcnt := (congrArg State.dcnt h : (view s).dcnt = (view t).dcnt)
theorem outReg_of_view : s.outReg = t.outReg := (congrArg State.outReg h : (view s).outReg = (view t).outReg)
theorem k_of_view : s.k = t.k := (congrArg State.k h : (view s).k = (view t).k)

end

theorem unhindered_clear : Unhindered bodyClear where
  inputs := by simp [bodyClear]; rfl
  waits := ⟨[.disp], by simp, by simp [bodyClear, footprint]⟩

theorem unhindered_showNumber (n : Word32) : Unhindered (bodyShowNumber n) where
  inputs := by simp [bodyShowNumber, bodyClear]; exact ⟨rfl, rfl⟩
  waits := ⟨[.disp, .rem, .digk, .started, .i, .error], by simp, by simp [bodyShowNumber, bodyClear, footprint]⟩

/-- Settles O33: CLEAR's loop is a path of seven beats, and no line of it waits. -/
theorem clearLeavesSevenBlanks : Obligations.ClearLeavesSevenBlanks := by
  unfold Obligations.ClearLeavesSevenBlanks
  intro s hs hmain
  have hpath : Leads settleFuel (before (bodyClear ++ []) s) 7 settleFuel (before [] (cleared s)) :=
    leads_clear inputFree_nil s settleFuel
  have hbeats : BeatsTo settleFuel (before bodyClear s) 7 (before [] (cleared s)) :=
    hpath.beatsTo (atPrimitive_nil rfl)
  obtain ⟨u, hu, hv⟩ := runCommand_unhindered unhindered_clear hs (by decide) hbeats rfl hmain
  have hexec : exec .clear s = .next (endCommand u) := hu
  have htodo : u.todo = [] := todo_eq_of_view_eq hv
  have hdisp : u.disp = Vector.replicate 7 0x20 := by rw [disp_of_view hv, before_disp, cleared_disp]
  have htrace : u.trace = s.trace ++ clrTrace := by rw [trace_of_view hv, before_trace, cleared_trace]
  refine ⟨endCommand u, hexec, hdisp, htrace, ?_, htodo, ?_, ?_⟩
  · have hcidx := exec_cidx hexec
    rwa [if_pos (by exact htodo)] at hcidx
  · exact (i_of_view hv).trans (cleared_i s)
  · exact exec_same (p := .dcnt) hs hexec
      (notMem_commandFootprint (by simp [commandLines, bodyClear, footprint]) nofun) nofun

/-- Settles O35: the path of SHOW_NUMBER takes at most thirteen beats, and no line of it waits. -/
theorem showNumberEndState : Obligations.ShowNumberEndState := by
  unfold Obligations.ShowNumberEndState
  intro s n hs hmain
  obtain ⟨t, ht, hpath⟩ := leads_showNumber n inputFree_nil s settleFuel (k := 0) (by decide)
  rw [List.append_nil] at hpath
  have hpos : 0 < numberActions n.toNat := by
    obtain ⟨-, m, -, hm, -⟩ := leads_number n inputFree_nil s (k := 0) (by decide)
    omega
  obtain ⟨u, hu, hv⟩ := runCommand_unhindered (unhindered_showNumber n) hs hpos (hpath.beatsTo (atPrimitive_nil rfl)) rfl
    ((numberActions_le n.toNat).trans hmain)
  have hexec : exec (.showNumber n) s = .next (endCommand u) := hu
  have htodo : u.todo = [] := todo_eq_of_view_eq hv
  have hcidx := exec_cidx hexec
  rw [if_pos (by exact htodo)] at hcidx
  have hdcnt : Part.dcnt.same s (endCommand u) := exec_same hs hexec
    (notMem_commandFootprint (by simp [commandLines, bodyShowNumber, bodyClear, footprint]) nofun) nofun
  have hshown : NumberShown n.toNat s u := ht.congr ((trace_of_view hv).trans (before_trace [] t))
    ((disp_of_view hv).trans (before_disp [] t))
  exact ⟨endCommand u, hexec, htodo, hcidx, hshown.trace, hdcnt, hshown.disp⟩

end Sys2Proof.Proofs
end

section
/-! Where the runs of a command or a label pause and end, from the path of its lines: the form in which the paging, scrolling
and playing operations use their paths. -/

namespace Sys2Proof.Proofs

open Sys2Proof.Machine
open Sys2Proof.Safety
open Sys2Proof.Laws

/-- The operation begun at `s` has paused where `w` stands. -/
structure PausedAt (s t w : State) : Prop where
  todo : t.todo ≠ []
  turns : t.turns = []
  cidx : t.cidx = s.cidx
  cpc : t.cpc = s.cpc
  view : view t = view w

theorem PausedAt.inWait {s t w : State} {u : Word16} {p : Nat} {es : List Event} (h : PausedAt s t w)
    (hdcnt : w.dcnt = some (u - BitVec.ofNat 16 p)) (htrace : w.trace = s.trace ++ es) : InWait s t u p es where
  todo := h.todo
  turns := h.turns
  cidx := h.cidx
  cpc := h.cpc
  dcnt := (dcnt_of_view h.view).trans hdcnt
  trace := (trace_of_view h.view).trans htrace

/-- An operation keeps CPC and CIDX up to its end, if its entry does. -/
theorem runOperation_id_position {start : State → Result} {s : State} (hs : s.todo = [])
    (hstart : onNext (start s) fun u => u.cidx = s.cidx ∧ u.cpc = s.cpc) :
    onNext (runOperation start id s) fun t => t.cidx = s.cidx ∧ t.cpc = s.cpc := by
  intro t ht
  exact ⟨runOperation_id_cidx (onNext_mono hstart fun _ h => h.1) t ht,
    runOperation_onNext_of_gameKept (I := fun u => u.cpc = s.cpc) (Q := fun u => u.cpc = s.cpc)
      (fun huv hu => huv.cpc.trans hu) (fun _ => onNext_mono hstart fun _ h => h.2) (fun h => absurd hs h)
      (fun _ hu _ => hu) (fun _ hu _ => hu) t ht⟩

section

variable {start : State → Result} {finish : State → State} {body : List Stmt} {s w : State} {n : Nat}

/-- With a tick before every action an operation pauses where its path has come to. -/
theorem runOperation_pausedAt (h : Steady start finish) (hs : s.todo = []) (hstart : start s = .next (before body s))
    (hn : 0 < n) (hb : BeatsTo settleFuel (before body s) n w) (hw : w.todo ≠ []) (hturns : s.turns = pacedTurns n) :
    ∃ t, runOperation start finish s = .next t ∧ PausedAt s t w := by
  obtain ⟨t, ht, hnone, hv⟩ := runOperation_paced_pause h hs hstart hn hb hw hturns
  have hgo : t.todo ≠ [] := by rwa [todo_eq_of_view_eq hv]
  have hrun := ht
  rw [runOperation_finish, andThen_eq_next] at hrun
  obtain ⟨u, hu, hend⟩ := hrun
  have hsame : u = t := by
    split at hend
    · rename_i hdone
      cases hend
      exact absurd ((h.ends u).trans hdone) hgo
    · exact Host.Outcome.next.inj hend
  have hposition := runOperation_id_position (start := start) hs (by rw [hstart, onNext_next]; exact ⟨rfl, rfl⟩) u hu
  rw [hsame] at hposition
  exact ⟨t, ht, hgo, hnone, hposition.1, hposition.2, hv⟩

end

/-! ### Commands -/

/-- A command that is these lines, none of which samples an input, and has no response. -/
structure PlainCommand (i : Instr) (body : List Stmt) (s : State) : Prop where
  lines : inputFree body
  run : exec i s = runCommand body endCommand s

/-- The command begun at `s` has ended, its outputs and trace as `w` has them. -/
structure EndedAt (s t w : State) : Prop where
  todo : t.todo = []
  cidx : t.cidx = s.cidx + 1
  trace : t.trace = w.trace
  disp : t.disp = w.disp
  outReg : t.outReg = w.outReg

section

variable {i : Instr} {body : List Stmt} {s w : State} {n : Nat}

theorem PlainCommand.start (h : PlainCommand i body s) (hs : s.todo = []) :
    exec i s = runOperation (fun s => .next (push body s)) endCommand s ∧
      (.next (push body s) : Result) = .next (before body s) :=
  ⟨h.run, push_eq_before hs body⟩

theorem endedAt_of_view {t : State} (hexec : exec i s = .next t) (hdone : t.todo = []) (hv : view t = view (endCommand w)) :
    EndedAt s t w where
  todo := hdone
  cidx := by rw [exec_cidx hexec, if_pos hdone]
  trace := trace_of_view (t := endCommand w) hv
  disp := disp_of_view (t := endCommand w) hv
  outReg := outReg_of_view (t := endCommand w) hv

/-- Through any interleaving in which it ends a command ends where its path does. -/
theorem PlainCommand.ended (h : PlainCommand i body s) (hs : s.todo = []) (hb : BeatsTo settleFuel (before body s) n w)
    (hw : w.todo = []) {t : State} (ht : exec i s = .next t) (hdone : t.todo = []) : EndedAt s t w := by
  obtain ⟨hrun, hpush⟩ := h.start hs
  exact endedAt_of_view ht hdone
    (view_of_ended (steady_command h.lines) hs hpush hb hw (hrun ▸ ht) hdone)

theorem PlainCommand.paced (h : PlainCommand i body s) (hs : s.todo = []) (hb : BeatsTo settleFuel (before body s) n w)
    (hw : w.todo = []) (hn : 0 < n) {rest : List Config.Turn} (hturns : s.turns = pacedTurns n ++ rest) :
    ∃ t, exec i s = .next t ∧ EndedAt s t w ∧ t.turns = rest := by
  obtain ⟨hrun, hpush⟩ := h.start hs
  obtain ⟨u, hu, hdone, hrest, hv⟩ := runOperation_paced (steady_command h.lines) hs hpush hn hb hw hturns
  have hexec : exec i s = .next (endCommand u) := hrun.trans hu
  exact ⟨_, hexec, endedAt_of_view hexec hdone hv, hrest⟩

theorem PlainCommand.paused (h : PlainCommand i body s) (hs : s.todo = []) (hb : BeatsTo settleFuel (before body s) n w)
    (hw : w.todo ≠ []) (hn : 0 < n) (hturns : s.turns = pacedTurns n) : ∃ t, exec i s = .next t ∧ PausedAt s t w := by
  obtain ⟨hrun, hpush⟩ := h.start hs
  rw [hrun]
  exact runOperation_pausedAt (steady_command h.lines) hs hpush hn hb hw hturns

end

/-! ### Inside a WAIT -/

/-- From `s` MAIN has come into a WAIT of `u`, of which `p` polls are done, and has written nothing since. -/
structure Waiting (s : State) (u : Word16) (p : Nat) (w : State) : Prop where
  todo : w.todo ≠ []
  primitive : AtPrimitive w
  dcnt : w.dcnt = some (u - BitVec.ofNat 16 p)
  trace : w.trace = s.trace
  disp : w.disp = s.disp
  outReg : w.outReg = s.outReg
  k : w.k = s.k

theorem waiting_before {st : Stmt} (hst : st.silent = false) (ls : List Stmt) (u : Word16) (p : Nat) (s : State) :
    Waiting s u p (before (st :: ls) (withDcnt (u - BitVec.ofNat 16 p) s)) :=
  ⟨List.cons_ne_nil _ _, atPrimitive_before hst _ _, rfl, rfl, rfl, rfl, rfl⟩

/-- `p` polls of a WAIT that a primitive follows. -/
theorem leads_wait_upto {st : Stmt} {ls : List Stmt} (hls : inputFree (st :: ls)) (hst : st.silent = false) (u : Word16)
    {p : Nat} (hp : p ≤ u.toNat) (s : State) {k l : Nat} (hk : k ≤ settleFuel) :
    ∃ w, Waiting s u p w ∧ Leads (k + 1) (before (.wait u :: st :: ls) s) p l w := by
  rcases hp.lt_or_eq with hlt | rfl
  · exact ⟨_, waiting_before rfl _ u p s, leads_wait_part hls hlt s k l⟩
  · have hw := waiting_before hst ls u u.toNat s
    rw [BitVec.ofNat_toNat, BitVec.setWidth_eq, BitVec.sub_self] at hw
    exact ⟨_, hw, (leads_wait hls u s hk).refuel hw.primitive l⟩

end Sys2Proof.Proofs
end

section
/-! SHOW_PHRASE (41_display_renderer.md R164, R165): the words of its text, and the path through them. -/

namespace Sys2Proof.Proofs

open Sys2Proof.Machine
open Sys2Proof.Safety
open Sys2Proof.Laws

/-! ### The words of a text -/

/-- A run in progress is the beginning of the first word; a BLANK or the end of the text ends it. -/
theorem wordsFrom_run : ∀ (t run : Text), run ≠ [] → ∃ u ws, wordsFrom run t = (run.reverse ++ u) :: ws ∧ 0x20 ∉ u ∧
    (t = u ∧ ws = [] ∨ ∃ v, t = u ++ 0x20 :: v ∧ ws = wordsFrom [] v)
  | [], run, hrun => ⟨[], [], by rw [wordsFrom, if_neg hrun, List.append_nil], List.not_mem_nil, .inl ⟨rfl, rfl⟩⟩
  | c :: cs, run, hrun => by
    by_cases hc : c = Config.blank
    · refine ⟨[], wordsFrom [] cs, ?_, List.not_mem_nil, .inr ⟨cs, by rw [hc]; rfl, rfl⟩⟩
      rw [wordsFrom, if_pos hc, if_neg hrun, List.append_nil]
    · obtain ⟨u, ws, hwords, hu, hend⟩ := wordsFrom_run cs (c :: run) (List.cons_ne_nil _ _)
      refine ⟨c :: u, ws, ?_, ?_, ?_⟩
      · rw [wordsFrom, if_neg hc, hwords, List.reverse_cons, List.append_assoc]
        rfl
      · rintro (_ | ⟨_, hmem⟩)
        · exact hc rfl
        · exact hu hmem
      · rcases hend with ⟨rfl, hws⟩ | ⟨v, rfl, hws⟩
        · exact .inl ⟨rfl, hws⟩
        · exact .inr ⟨v, rfl, hws⟩

theorem maximalRuns_blank {t : Text} {ws : List Text} (h : MaximalRuns t ws) : MaximalRuns (0x20 :: t) ws := by
  obtain ⟨hwords, lead, gaps, hlen, hlead, hgaps, hbetween, rfl⟩ := h
  refine ⟨hwords, 0x20 :: lead, gaps, hlen, ?_, hgaps, hbetween, rfl⟩
  rintro c (_ | ⟨_, hc⟩)
  · rfl
  · exact hlead c hc

theorem maximalRuns_last {w : Text} (hne : w ≠ []) (hw : 0x20 ∉ w) : MaximalRuns w [w] := by
  refine ⟨by simpa using ⟨hne, hw⟩, [], [[]], rfl, nofun, by simp, by simp, by simp⟩

theorem maximalRuns_cons {w v : Text} {ws : List Text} (hne : w ≠ []) (hw : 0x20 ∉ w) (h : MaximalRuns v ws) :
    MaximalRuns (w ++ 0x20 :: v) (w :: ws) := by
  obtain ⟨hwords, lead, gaps, hlen, hlead, hgaps, hbetween, rfl⟩ := h
  have hgap : ∀ c ∈ 0x20 :: lead, c = 0x20 := by
    rintro c (_ | ⟨_, hc⟩)
    · rfl
    · exact hlead c hc
  refine ⟨List.forall_mem_cons.2 ⟨⟨hne, hw⟩, hwords⟩, [], (0x20 :: lead) :: gaps, by simp [hlen], nofun,
    List.forall_mem_cons.2 ⟨hgap, hgaps⟩, ?_, by simp⟩
  cases gaps with
  | nil => simp
  | cons g gs =>
    rw [List.dropLast_cons_cons]
    exact List.forall_mem_cons.2 ⟨List.cons_ne_nil _ _, hbetween⟩

theorem maximalRuns_words : ∀ t : Text, MaximalRuns t (words t)
  | [] => ⟨nofun, [], [], rfl, nofun, nofun, nofun, rfl⟩
  | c :: cs => by
    by_cases hc : c = Config.blank
    · rw [words, wordsFrom, if_pos hc, if_pos rfl, hc]
      exact maximalRuns_blank (maximalRuns_words cs)
    · obtain ⟨u, ws, hwords, hu, hend⟩ := wordsFrom_run cs [c] (List.cons_ne_nil _ _)
      rw [words, wordsFrom, if_neg hc, hwords]
      have hrun : 0x20 ∉ c :: u := by
        rintro (_ | ⟨_, hmem⟩)
        · exact hc rfl
        · exact hu hmem
      rcases hend with ⟨rfl, rfl⟩ | ⟨v, rfl, rfl⟩
      · exact maximalRuns_last (List.cons_ne_nil _ _) hrun
      · have hlt : v.length < (c :: (u ++ 0x20 :: v)).length := by simp; omega
        exact maximalRuns_cons (List.cons_ne_nil _ _) hrun (maximalRuns_words v)
termination_by t => t.length

/-! ### The path through the words -/

theorem runStmt_phrase_nil (ls : List Stmt) (s : State) : runStmt (.phrase []) (before ls s) = .next (before ls s) := rfl

theorem runStmt_phrase_cons (w : Text) (ws : List Text) (ls : List Stmt) (s : State) :
    runStmt (.phrase (w :: ws)) (before ls s) =
      .next (before (.putWord w :: .wait s.launch.params.wPhrase :: .clear 0 :: .phrase ws :: ls) s) := rfl

/-- Between two words: the words so far have left these events, and the display is blank. -/
structure BetweenWords (s t : State) (es : List Event) : Prop where
  launch : t.launch = s.launch
  trace : t.trace = s.trace ++ es
  disp : t.disp = Vector.replicate 7 Config.blank

theorem written_launch (slot : Nat) (cs : Text) (s : State) : (written slot cs s).launch = s.launch := rfl

theorem wordPut_launch (w : Text) (s : State) : (wordPut w s).launch = s.launch := by
  unfold wordPut
  split
  · rw [emit_launch, written_launch]
  · rw [written_launch]

theorem cleared_launch (s : State) : (cleared s).launch = s.launch := by
  rw [cleared_eq, written_launch]

theorem betweenWords_cleared (s : State) : BetweenWords s (cleared s) clrTrace :=
  ⟨cleared_launch s, cleared_trace s, cleared_disp s⟩

/-- A word is written over a blank display. -/
theorem wordPut_disp_of_blank {s : State} (h : s.disp = Vector.replicate 7 Config.blank) (w : Text) {slot : Nat}
    (hslot : slot < 7) : (wordPut w s).disp[slot]? = some (wordSlot w slot) := by
  have hcleared : (wordShown w s).disp = (wordPut w s).disp := by
    rw [wordShown, ← cleared_eq, wordPut_disp, wordPut_disp, cleared_disp, h]
  rw [← hcleared, wordShown_disp w s hslot]

section

variable {rest : List Stmt} (hrest : inputFree rest)
include hrest

/-- A word, up to its WAIT. -/
theorem leads_phrase_word {w : Text} (hw : noNul w) (ws : List Text) (s : State) :
    ∃ i, Leads 8 (before (.phrase (w :: ws) :: rest) s) (putWordActions w) 5
      (before (.wait s.launch.params.wPhrase :: .clear 0 :: .phrase ws :: rest) (withI i (wordPut w s))) := by
  have hlines : inputFree (.wait s.launch.params.wPhrase :: .clear 0 :: .phrase ws :: rest) :=
    inputFree_of_cons rfl (inputFree_of_cons rfl (inputFree_of_cons rfl hrest))
  obtain ⟨i, hword⟩ := leads_putWord hw hlines s (k := 5) (by decide)
  have hall := (leads_silent rfl (runStmt_phrase_cons w ws rest s) 7).trans hword
  rw [Nat.zero_add] at hall
  exact ⟨i, hall⟩

/-- A word, its WAIT and CLEAR. -/
theorem leads_phrase_step {w : Text} (hw : noNul w) (ws : List Text) (s : State) :
    ∃ t, BetweenWords s t (putWordTrace w ++ clrTrace) ∧
      Leads 8 (before (.phrase (w :: ws) :: rest) s) (putWordActions w + s.launch.params.wPhrase.toNat + 7) 8
        (before (.phrase ws :: rest) t) := by
  have hphrase : inputFree (.phrase ws :: rest) := inputFree_of_cons rfl hrest
  obtain ⟨i, hword⟩ := leads_phrase_word hrest hw ws s
  have hwait := leads_wait (inputFree_of_cons (st := .clear 0) rfl hphrase) s.launch.params.wPhrase
    (withI i (wordPut w s)) (k := 4) (by decide)
  have hclear := (leads_clear hphrase (withDcnt 0 (withI i (wordPut w s))) 4).weaken (j := 8) (by decide)
  refine ⟨_, ⟨?_, ?_, cleared_disp _⟩, (hword.trans hwait).trans hclear⟩
  · rw [cleared_launch]
    exact wordPut_launch w s
  · rw [cleared_trace, ← List.append_assoc, ← wordPut_trace]
    rfl

/-- The first words. -/
theorem leads_first_words (after : List Text) : ∀ (ws : List Text) {s0 s : State} {es : List Event},
    (∀ w ∈ ws, noNul w) → BetweenWords s0 s es →
    ∃ t, BetweenWords s0 t (es ++ ws.flatMap fun w => putWordTrace w ++ clrTrace) ∧
      Leads 8 (before (.phrase (ws ++ after) :: rest) s)
        (ws.map fun w => putWordActions w + s.launch.params.wPhrase.toNat + 7).sum 8 (before (.phrase after :: rest) t)
  | [], s0, s, es, _, hs => ⟨s, by rwa [List.flatMap_nil, List.append_nil], leads_refl 8 _⟩
  | w :: ws, s0, s, es, hws, hs => by
    obtain ⟨hw, hws⟩ := List.forall_mem_cons.1 hws
    obtain ⟨u, hu, hword⟩ := leads_phrase_step hrest hw (ws ++ after) s
    have hsu : BetweenWords s0 u (es ++ (putWordTrace w ++ clrTrace)) :=
      ⟨hu.launch.trans hs.launch, by rw [hu.trace, hs.trace, List.append_assoc], hu.disp⟩
    obtain ⟨t, ht, hwords⟩ := leads_first_words after ws hws hsu
    rw [hu.launch] at hwords
    rw [List.append_assoc] at ht
    exact ⟨t, ht, hword.trans hwords⟩

end

/-- From the entry of SHOW_PHRASE through its first words. -/
theorem leads_showPhrase (x : Text) (hx : noNul x) {ws after : List Text} (hwords : words x = ws ++ after) (s : State) :
    ∃ t, BetweenWords s t (clrTrace ++ ws.flatMap fun w => putWordTrace w ++ clrTrace) ∧
      Leads settleFuel (before (bodyShowPhrase x) s)
        (7 + (ws.map fun w => putWordActions w + s.launch.params.wPhrase.toNat + 7).sum) 8 (before [.phrase after] t) := by
  have hws : ∀ w ∈ ws, noNul w := fun w hw => noNul_words hx w (by rw [hwords]; exact List.mem_append_left _ hw)
  obtain ⟨t, ht, hpath⟩ := leads_first_words inputFree_nil after ws hws (betweenWords_cleared s)
  have hclear := (leads_clear (inputFree_of_cons (st := .phrase (words x)) rfl inputFree_nil) s settleFuel).weaken (j := 8)
    (by decide)
  rw [cleared_launch] at hpath
  rw [hwords] at hclear
  refine ⟨t, ht, ?_⟩
  rw [bodyShowPhrase, hwords]
  exact hclear.trans hpath

theorem plain_showPhrase {x : Text} (hx : Text.legal x = true) (s : State) :
    PlainCommand (.showPhrase x) (bodyShowPhrase x) s where
  lines := inputFree_showPhrase x
  run := if_pos hx

/-- Inside the WAIT after a word. -/
theorem showPhrase_waits {s : State} {x w : Text} {ws after : List Text} {p : Nat} (hx : Text.legal x = true)
    (hs : s.todo = []) (hwords : words x = ws ++ w :: after) (hp : p ≤ s.launch.params.wPhrase.toNat)
    (hturns : s.turns = pacedTurns (phraseWaitActions s.launch.params.wPhrase.toNat ws w + p)) :
    ∃ t, exec (.showPhrase x) s = .next t ∧ InWait s t s.launch.params.wPhrase p (phraseWaitTrace ws w) ∧
      ∀ slot < 7, t.disp[slot]? = some (wordSlot w slot) := by
  have hw : noNul w := noNul_words (noNul_of_legal hx) w (by rw [hwords]; simp)
  obtain ⟨u, hu, hpath⟩ := leads_showPhrase x (noNul_of_legal hx) hwords s
  obtain ⟨i, hword⟩ := leads_phrase_word inputFree_nil hw after u
  rw [hu.launch] at hword
  obtain ⟨v, hv, hwait⟩ := leads_wait_upto (st := .clear 0) (ls := [.phrase after]) (by simp; exact ⟨rfl, rfl⟩) rfl
    s.launch.params.wPhrase hp (withI i (wordPut w u)) (k := 4) (l := 0) (by decide)
  have hbeats := ((hpath.trans hword).trans hwait).beatsTo hv.primitive
  have hpos : 0 < phraseWaitActions s.launch.params.wPhrase.toNat ws w + p := by
    rw [phraseWaitActions]
    omega
  obtain ⟨t, ht, hpaused⟩ := (plain_showPhrase hx s).paused hs hbeats hv.todo hpos hturns
  have htrace : v.trace = s.trace ++ phraseWaitTrace ws w := by
    rw [phraseWaitTrace, ← List.append_assoc, ← hu.trace]
    exact hv.trace.trans (wordPut_trace w u)
  refine ⟨t, ht, hpaused.inWait hv.dcnt htrace, fun slot hslot => ?_⟩
  rw [disp_of_view hpaused.view, hv.disp]
  exact wordPut_disp_of_blank hu.disp w hslot

/-- The whole path. -/
theorem beatsTo_showPhrase (x : Text) (hx : noNul x) (s : State) : ∃ w, w.todo = [] ∧
    BetweenWords s w (showPhraseTrace x) ∧
    BeatsTo settleFuel (before (bodyShowPhrase x) s) (showPhraseActions s.launch.params.wPhrase.toNat x) w := by
  obtain ⟨t, ht, hpath⟩ := leads_showPhrase x hx (after := []) (List.append_nil _).symm s
  have hend := leads_silent rfl (runStmt_phrase_nil [] t) 7
  exact ⟨before [] t, rfl, ⟨ht.launch, ht.trace, ht.disp⟩, (hpath.trans hend).beatsTo (atPrimitive_nil rfl)⟩

/-- Settles O36: the words are the maximal runs, and the path through them word by word. -/
theorem showPhrasePagesTheWords : Obligations.ShowPhrasePagesTheWords := by
  unfold Obligations.ShowPhrasePagesTheWords
  refine ⟨maximalRuns_words, fun s x w ws after p hx hs hwords hp hturns => showPhrase_waits hx hs hwords hp hturns,
    fun s x hx hs => ?_⟩
  obtain ⟨w, hw, hbetween, hbeats⟩ := beatsTo_showPhrase x (noNul_of_legal hx) s
  have hplain := plain_showPhrase hx s
  have hshown : ∀ {t}, EndedAt s t w → t.trace = s.trace ++ showPhraseTrace x ∧ t.disp = Vector.replicate 7 0x20 :=
    fun h => ⟨h.trace.trans hbetween.trace, h.disp.trans hbetween.disp⟩
  refine ⟨fun t ht hdone => ?_, fun rest hturns => ?_⟩
  · have hended := hplain.ended hs hbeats hw ht hdone
    exact ⟨hended.cidx, hshown hended⟩
  · have hpos : 0 < showPhraseActions s.launch.params.wPhrase.toNat x := by
      rw [showPhraseActions]
      omega
    obtain ⟨t, ht, hended, hrest⟩ := hplain.paced hs hbeats hw hpos hturns
    exact ⟨t, ht, hended.todo, hended.cidx, hrest, hshown hended⟩

end Sys2Proof.Proofs
end

section
/-! SCROLL (41_display_renderer.md R166, R167): its windows, and the path through them. -/

namespace Sys2Proof.Proofs

open Sys2Proof.Machine
open Sys2Proof.Safety
open Sys2Proof.Laws

/-! ### The windows -/

theorem windowChar_ne_nul {x : Text} (hx : noNul x) (off j : Nat) : windowChar x off j ≠ 0 := by
  unfold windowChar
  split
  · rw [List.getD_eq_getElem?_getD]
    cases hc : x[off + j - 7]? with
    | none => simp [Config.blank]
    | some c => exact hx c (List.mem_of_getElem? hc)
  · simp [Config.blank]

/-- The window reads the text between six BLANKs and six BLANKs (R166). -/
theorem padded_getElem? (x : Text) {off j : Nat} (hoff : off ≤ x.length + 6) (h1 : 1 ≤ j) (h6 : j ≤ 6) :
    (List.replicate 6 0x20 ++ x ++ List.replicate 6 0x20)[off + j - 1]? = some (windowChar x off j) := by
  rw [List.append_assoc, windowChar]
  by_cases hlead : off + j < 7
  · rw [List.getElem?_append_left (by rw [List.length_replicate]; omega), List.getElem?_replicate_of_lt (by omega),
      if_neg (by omega)]
  · have hpos : off + j - 1 - 6 = off + j - 7 := by omega
    rw [List.getElem?_append_right (by rw [List.length_replicate]; omega), List.length_replicate, hpos, if_pos (by omega),
      List.getD_eq_getElem?_getD]
    by_cases htext : off + j - 7 < x.length
    · rw [List.getElem?_append_left htext, List.getElem?_eq_getElem htext]
      rfl
    · rw [List.getElem?_append_right (by omega), List.getElem?_replicate_of_lt (by omega),
        List.getElem?_eq_none (by omega)]
      rfl

/-- The characters of window `off`, slot 1 first. -/
@[irreducible] def windowChars (x : Text) (off : Nat) : Text := (List.range 6).map fun j => windowChar x off (j + 1)

theorem length_windowChars (x : Text) (off : Nat) : (windowChars x off).length = 6 := by
  unfold windowChars
  rfl

theorem windowChars_getElem? (x : Text) (off : Nat) {j : Nat} (hj : j < 6) :
    (windowChars x off)[j]? = some (windowChar x off (j + 1)) := by
  unfold windowChars
  rw [List.getElem?_map, List.getElem?_range hj]
  rfl

theorem windowTrace_eq (x : Text) (off : Nat) : windowTrace x off = writesFrom 1 (windowChars x off) := by
  unfold windowChars
  rfl

theorem windowChars_drop (x : Text) (off : Nat) {j : Nat} (hj : j < 6) :
    (windowChars x off).drop j = windowChar x off (j + 1) :: (windowChars x off).drop (j + 1) := by
  have hlen : j < (windowChars x off).length := by rwa [length_windowChars]
  have hget := windowChars_getElem? x off hj
  rw [List.getElem?_eq_getElem hlen] at hget
  rw [List.drop_eq_getElem_cons hlen, Option.some.inj hget]

/-! ### The path through the windows -/

/-- OFF holds `off`. -/
def OffIs (off : Nat) (s : State) : Prop := ∃ o, s.off = some o ∧ o.toNat = off

theorem runStmt_window {x : Text} (hx : noNul x) {off j : Nat} (hj : j < 6) (rest : List Stmt) {s : State}
    (hoff : OffIs off s) : runStmt (.window x (j + 1)) (before rest s) =
      .next (before ((if j + 1 < 6 then [.window x (j + 1 + 1)] else []) ++ rest)
        (written (j + 1) [windowChar x off (j + 1)] s)) := by
  obtain ⟨o, ho, rfl⟩ := hoff
  have hoff' : (before rest s).off = some o := ho
  rw [runStmt, lineWindow, hoff', readReg_some, writeChar_eq_written (by omega) (windowChar_ne_nul hx _ _), andThen_next]
  rfl

section

variable {rest : List Stmt} (hrest : inputFree rest)
include hrest

/-- The writes of a window from slot `j + 1` on. -/
theorem leads_window_from {x : Text} (hx : noNul x) {off : Nat} : ∀ (n j : Nat) {s : State} (k : Nat), j + (n + 1) = 6 →
    OffIs off s → Leads k (before (.window x (j + 1) :: rest) s) (n + 1) settleFuel
      (before rest (written (j + 1) ((windowChars x off).drop j) s))
  | 0, j, s, k, hj, hs => by
    have hact := leads_act (st := .window x (j + 1)) rfl rfl nofun hrest (runStmt_window hx (by omega) rest hs) k
    rw [if_neg (by omega)] at hact
    rw [windowChars_drop x off (by omega), List.drop_eq_nil_of_le (by rw [length_windowChars]; omega)]
    exact hact
  | n + 1, j, s, k, hj, hs => by
    have hact := leads_act (st := .window x (j + 1)) rfl rfl nofun hrest (runStmt_window hx (by omega) rest hs) k
    rw [if_pos (by omega)] at hact
    have hs' : OffIs off (written (j + 1) [windowChar x off (j + 1)] s) := hs
    rw [windowChars_drop x off (by omega), written_cons, Nat.add_comm (n + 1) 1]
    exact hact.trans (leads_window_from hx n (j + 1) settleFuel (by omega) hs')

theorem leads_window {x : Text} (hx : noNul x) {off : Nat} {s : State} (k : Nat) (hs : OffIs off s) :
    Leads k (before (.window x 1 :: rest) s) 6 settleFuel (before rest (written 1 (windowChars x off) s)) :=
  leads_window_from hrest hx 5 0 k rfl hs

end

/-- Before window `off`: the windows so far have left these events, and slot 0 is blank. -/
structure BeforeWindow (s t : State) (off : Nat) (es : List Event) : Prop where
  launch : t.launch = s.launch
  trace : t.trace = s.trace ++ es
  disp : t.disp[0]? = some Config.blank
  atOff : OffIs off t

/-- Window `off` is on the display. -/
structure WindowShown (x : Text) (s t : State) (off : Nat) (es : List Event) : Prop extends
    BeforeWindow s t off (es ++ windowTrace x off) where
  slots : ∀ slot < 7, t.disp[slot]? = some (scrollSlot x off slot)

theorem WindowShown.congr {x : Text} {s t u : State} {off : Nat} {es : List Event} (h : WindowShown x s t off es)
    (hlaunch : u.launch = t.launch) (htrace : u.trace = t.trace) (hdisp : u.disp = t.disp) (hoff : u.off = t.off) :
    WindowShown x s u off es where
  launch := hlaunch.trans h.launch
  trace := htrace.trans h.trace
  disp := hdisp ▸ h.disp
  atOff := by
    rw [OffIs, hoff]
    exact h.atOff
  slots := hdisp ▸ h.slots

theorem windowShown_written (x : Text) {s t : State} {off : Nat} {es : List Event} (h : BeforeWindow s t off es) :
    WindowShown x s (written 1 (windowChars x off) t) off es where
  launch := by rw [written_launch, h.launch]
  trace := by rw [written_trace, h.trace, ← windowTrace_eq, List.append_assoc]
  disp := by rw [written_disp, setChars_getElem?_of_lt _ _ Nat.one_pos, h.disp]
  atOff := h.atOff
  slots slot hslot := by
    rw [written_disp]
    by_cases h0 : slot = 0
    · subst h0
      rw [setChars_getElem?_of_lt _ _ Nat.one_pos, h.disp]
      rfl
    · obtain ⟨j, rfl⟩ : ∃ j, slot = 1 + j := ⟨slot - 1, by omega⟩
      rw [setChars_getElem?_add _ _ hslot, windowChars_getElem? x off (by omega), Option.some_or, scrollSlot, if_neg h0,
        Nat.add_comm j 1]

theorem runStmt_scrollStart (x : Text) (rest : List Stmt) (s : State) :
    runStmt (.scrollStart x) (before rest s) = .next (before (.scrollStep x :: rest) { s with off := some 0 }) := rfl

theorem runStmt_scrollStep (x : Text) (rest : List Stmt) (s : State) : runStmt (.scrollStep x) (before rest s) =
    .next (before (.window x 1 :: .wait s.launch.params.wScroll :: .scrollNext x :: rest) s) := rfl

/-- The next window, at the next OFF. -/
theorem runStmt_scrollNext {x : Text} (hx : x.length ≤ 255) {off : Nat} (hoff : off < x.length + 6) (rest : List Stmt)
    {s : State} (hs : OffIs off s) : ∃ o, o.toNat = off + 1 ∧
      runStmt (.scrollNext x) (before rest s) = .next (before (.scrollStep x :: rest) { s with off := some o }) := by
  obtain ⟨o, ho, rfl⟩ := hs
  have ho' : (before rest s).off = some o := ho
  refine ⟨o + 1, ?_, ?_⟩
  · rw [BitVec.toNat_add]
    exact Nat.mod_eq_of_lt (by show o.toNat + 1 < 512; omega)
  · rw [runStmt, lineScrollNext, ho', readReg_some, if_pos hoff]
    rfl

/-- After the last window, CLEAR. -/
theorem runStmt_scrollNext_last {x : Text} (rest : List Stmt) {s : State} (hs : OffIs (x.length + 6) s) :
    runStmt (.scrollNext x) (before rest s) = .next (before (bodyClear ++ rest) s) := by
  obtain ⟨o, ho, hoff⟩ := hs
  have ho' : (before rest s).off = some o := ho
  rw [runStmt, lineScrollNext, ho', readReg_some, if_neg (by omega)]
  rfl

section

variable {rest : List Stmt} (hrest : inputFree rest) {x : Text} (hx : noNul x)
include hrest hx

/-- A window, up to its WAIT. -/
theorem leads_scroll_window {s t : State} {off : Nat} {es : List Event} (ht : BeforeWindow s t off es) :
    Leads 14 (before (.scrollStep x :: rest) t) 6 settleFuel
      (before (.wait s.launch.params.wScroll :: .scrollNext x :: rest) (written 1 (windowChars x off) t)) := by
  have hlines : inputFree (.wait s.launch.params.wScroll :: .scrollNext x :: rest) :=
    inputFree_of_cons rfl (inputFree_of_cons rfl hrest)
  have hstep := leads_silent rfl (runStmt_scrollStep x rest t) 13
  rw [ht.launch] at hstep
  have hall := hstep.trans (leads_window hlines hx 13 ht.atOff)
  exact hall

/-- A window and its WAIT. -/
theorem leads_scroll_waited {s t : State} {off : Nat} {es : List Event} (ht : BeforeWindow s t off es) :
    ∃ u, WindowShown x s u off es ∧ u.dcnt = some 0 ∧
      Leads 14 (before (.scrollStep x :: rest) t) (6 + s.launch.params.wScroll.toNat) 15 (before (.scrollNext x :: rest) u) := by
  have hwait := leads_wait (inputFree_of_cons (st := .scrollNext x) rfl hrest) s.launch.params.wScroll
    (written 1 (windowChars x off) t) (k := 15) (by decide)
  refine ⟨_, ?_, rfl, (leads_scroll_window hrest hx ht).trans hwait⟩
  exact (windowShown_written x ht).congr rfl rfl rfl rfl

variable (hlen : x.length ≤ 255)
include hlen

/-- The first windows. -/
theorem leads_first_windows {s t : State} {es : List Event} (ht : BeforeWindow s t 0 es) : ∀ off : Nat,
    off ≤ x.length + 6 → ∃ u, BeforeWindow s u off (es ++ (List.range off).flatMap (windowTrace x)) ∧
      Leads 14 (before (.scrollStep x :: rest) t) (off * (6 + s.launch.params.wScroll.toNat)) 14
        (before (.scrollStep x :: rest) u)
  | 0, _ => ⟨t, by rwa [List.range_zero, List.flatMap_nil, List.append_nil], by rw [Nat.zero_mul]; exact leads_refl 14 _⟩
  | off + 1, hoff => by
    obtain ⟨u, hu, hpath⟩ := leads_first_windows ht off (by omega)
    obtain ⟨v, hv, -, hwindow⟩ := leads_scroll_waited hrest hx hu
    obtain ⟨o, ho, hnext⟩ := runStmt_scrollNext hlen (by omega) rest hv.atOff
    refine ⟨{ v with off := some o }, ⟨hv.launch, ?_, hv.disp, o, rfl, ho⟩, ?_⟩
    · rw [List.range_succ, List.flatMap_append, List.flatMap_singleton, ← List.append_assoc es]
      exact hv.trace
    · rw [Nat.succ_mul]
      exact hpath.trans (hwindow.trans (leads_silent rfl hnext 14))

/-- A window and `p` polls of its WAIT: after the last one MAIN stands before the next window, or before CLEAR. -/
theorem leads_scroll_upto {s t : State} {off : Nat} {es : List Event} (ht : BeforeWindow s t off es)
    (hoff : off ≤ x.length + 6) {p : Nat} (hp : p ≤ s.launch.params.wScroll.toNat) : ∃ u w, WindowShown x s u off es ∧
      Waiting u s.launch.params.wScroll p w ∧ Leads 14 (before (.scrollStep x :: rest) t) (6 + p) 0 w := by
  rcases hp.lt_or_eq with hlt | rfl
  · have hwait := leads_wait_part (inputFree_of_cons (st := .scrollNext x) rfl hrest) hlt (written 1 (windowChars x off) t) 15 0
    exact ⟨_, _, windowShown_written x ht, waiting_before rfl _ _ p _, (leads_scroll_window hrest hx ht).trans hwait⟩
  · obtain ⟨u, hu, hdcnt, hpath⟩ := leads_scroll_waited hrest hx ht
    have hzero : u.dcnt = some (s.launch.params.wScroll - BitVec.ofNat 16 s.launch.params.wScroll.toNat) := by
      rw [BitVec.ofNat_toNat, BitVec.setWidth_eq, BitVec.sub_self]
      exact hdcnt
    rcases hoff.lt_or_eq with hlt | rfl
    · obtain ⟨o, -, hnext⟩ := runStmt_scrollNext hlen hlt rest hu.atOff
      have hwindow := (leads_silent rfl hnext 14).trans
        (leads_silent rfl (runStmt_scrollStep x rest { u with off := some o }) 13)
      have hact := atPrimitive_before (st := .window x 1) rfl (.wait u.launch.params.wScroll :: .scrollNext x :: rest)
        { u with off := some o }
      exact ⟨u, _, hu, ⟨List.cons_ne_nil _ _, hact, hzero, rfl, rfl, rfl, rfl⟩, hpath.trans (hwindow.refuel hact 0)⟩
    · have hclear := leads_silent rfl (runStmt_scrollNext_last rest hu.atOff) 14
      have hact := atPrimitive_before (st := .clear 0) rfl rest u
      exact ⟨u, _, hu, ⟨List.cons_ne_nil _ _, hact, hzero, rfl, rfl, rfl, rfl⟩, hpath.trans (hclear.refuel hact 0)⟩

/-- From the entry of SCROLL through its first windows. -/
theorem leads_scroll_entry (s : State) {off : Nat} (hoff : off ≤ x.length + 6) (l : Nat) :
    ∃ u, BeforeWindow s u off (clrTrace ++ (List.range off).flatMap (windowTrace x)) ∧
      Leads l (before (bodyScroll x ++ rest) s) (7 + off * (6 + s.launch.params.wScroll.toNat)) 14
        (before (.scrollStep x :: rest) u) := by
  have hclear := leads_clear (inputFree_of_cons (st := .scrollStart x) rfl hrest) s l
  have hstart := (leads_silent rfl (runStmt_scrollStart x rest (cleared s)) 15).weaken (j := 14) (by decide)
  have hblank : (cleared s).disp[0]? = some Config.blank := by
    rw [cleared_disp, Vector.getElem?_replicate, if_pos (by decide)]
  have hbegun : BeforeWindow s { cleared s with off := some 0 } 0 clrTrace :=
    ⟨cleared_launch s, cleared_trace s, hblank, 0, rfl, rfl⟩
  obtain ⟨u, hu, hpath⟩ := leads_first_windows hrest hx hlen hbegun off hoff
  exact ⟨u, hu, (hclear.trans hstart).trans hpath⟩

/-- Inside the WAIT after window `off`. -/
theorem beatsTo_scroll_wait (s : State) {off : Nat} (hoff : off ≤ x.length + 6) {p : Nat}
    (hp : p ≤ s.launch.params.wScroll.toNat) : ∃ w, w.todo ≠ [] ∧
      w.dcnt = some (s.launch.params.wScroll - BitVec.ofNat 16 p) ∧ w.trace = s.trace ++ scrollWaitTrace x off ∧
      (∀ slot < 7, w.disp[slot]? = some (scrollSlot x off slot)) ∧
      BeatsTo settleFuel (before (bodyScroll x ++ rest) s) (scrollWaitActions s.launch.params.wScroll.toNat off + p) w := by
  obtain ⟨t, ht, hentry⟩ := leads_scroll_entry hrest hx hlen s hoff settleFuel
  obtain ⟨u, w, hu, hw, hwait⟩ := leads_scroll_upto hrest hx hlen ht hoff hp
  refine ⟨w, hw.todo, hw.dcnt, ?_, ?_, ?_⟩
  · rw [hw.trace, hu.trace, scrollWaitTrace, List.range_succ, List.flatMap_append, List.flatMap_singleton, List.append_assoc]
  · rw [hw.disp]
    exact hu.slots
  · rw [scrollWaitActions, Nat.add_assoc _ 6 p]
    exact (hentry.trans hwait).beatsTo hw.primitive

/-- The whole of SCROLL. -/
theorem leads_scroll (s : State) (l : Nat) : ∃ t, t.trace = s.trace ++ scrollTrace x ∧
    t.disp = Vector.replicate 7 Config.blank ∧
    Leads l (before (bodyScroll x ++ rest) s) (scrollActions s.launch.params.wScroll.toNat x) settleFuel (before rest t) := by
  obtain ⟨t, ht, hentry⟩ := leads_scroll_entry hrest hx hlen s le_rfl l
  obtain ⟨u, hu, -, hwindow⟩ := leads_scroll_waited hrest hx ht
  have hclear := (leads_silent rfl (runStmt_scrollNext_last rest hu.atOff) 14).trans (leads_clear hrest u 14)
  refine ⟨cleared u, ?_, cleared_disp u, ?_⟩
  · rw [cleared_trace, hu.trace, scrollTrace, show x.length + 7 = x.length + 6 + 1 from rfl, List.range_succ (n := x.length + 6),
      List.flatMap_append, List.flatMap_singleton]
    simp only [List.append_assoc]
  · rw [scrollActions, Nat.succ_mul, ← Nat.add_assoc]
    exact (hentry.trans hwindow).trans hclear

end

theorem plain_scroll {x : Text} (hx : Text.legal x = true) (s : State) : PlainCommand (.scroll x) (bodyScroll x) s where
  lines := inputFree_scroll x
  run := if_pos hx

/-- Settles O37: the windows read the padded text, and the path through them window by window. -/
theorem scrollShowsEveryWindow : Obligations.ScrollShowsEveryWindow := by
  unfold Obligations.ScrollShowsEveryWindow
  refine ⟨fun x off j hoff h1 h6 => padded_getElem? x hoff h1 h6, fun s x off p hx hs hoff hp hturns => ?wait,
    fun s x hx hs => ?whole⟩
  case wait =>
    obtain ⟨w, hw, hdcnt, htrace, hslots, hbeats⟩ :=
      beatsTo_scroll_wait inputFree_nil (noNul_of_legal hx) (legal_iff.1 hx).1 s hoff hp
    rw [List.append_nil] at hbeats
    have hpos : 0 < scrollWaitActions s.launch.params.wScroll.toNat off + p := by
      rw [scrollWaitActions]
      omega
    obtain ⟨t, ht, hpaused⟩ := (plain_scroll hx s).paused hs hbeats hw hpos hturns
    exact ⟨t, ht, hpaused.inWait hdcnt htrace, disp_of_view hpaused.view ▸ hslots⟩
  case whole =>
    obtain ⟨w, htrace, hdisp, hpath⟩ := leads_scroll inputFree_nil (noNul_of_legal hx) (legal_iff.1 hx).1 s settleFuel
    rw [List.append_nil] at hpath
    have hbeats := hpath.beatsTo (atPrimitive_nil rfl)
    have hplain := plain_scroll hx s
    have hshown : ∀ {t}, EndedAt s t (before [] w) →
        t.trace = s.trace ++ scrollTrace x ∧ t.disp = Vector.replicate 7 0x20 :=
      fun h => ⟨h.trace.trans htrace, h.disp.trans hdisp⟩
    refine ⟨fun t ht hdone => ?_, fun rest hturns => ?_⟩
    · have hended := hplain.ended hs hbeats rfl ht hdone
      exact ⟨hended.cidx, hshown hended⟩
    · have hpos : 0 < scrollActions s.launch.params.wScroll.toNat x := by
        rw [scrollActions]
        omega
      obtain ⟨t, ht, hended, hrest⟩ := hplain.paced hs hbeats rfl hpos hturns
      exact ⟨t, ht, hended.todo, hended.cidx, hrest, hshown hended⟩

end Sys2Proof.Proofs
end

section
/-! PLAY_ROUND (43_playback_engine.md R210, R211): the path through its steps. -/

namespace Sys2Proof.Proofs

open Sys2Proof.Machine
open Sys2Proof.Safety
open Sys2Proof.Laws

/-! ### SHOW_WORD on the display -/

/-- SHOW_WORD has shown a word between `s` and `t`. -/
structure WordShown (w : Text) (s t : State) : Prop where
  launch : t.launch = s.launch
  trace : t.trace = s.trace ++ showWordTrace w
  disp : ∀ slot < 7, t.disp[slot]? = some (wordSlot w slot)
  outReg : t.outReg = s.outReg
  k : t.k = s.k

theorem written_outReg (slot : Nat) (cs : Text) (s : State) : (written slot cs s).outReg = s.outReg := rfl
theorem written_k (slot : Nat) (cs : Text) (s : State) : (written slot cs s).k = s.k := rfl

theorem wordPut_outReg (w : Text) (s : State) : (wordPut w s).outReg = s.outReg := by
  unfold wordPut
  split
  · rw [emit_outReg, written_outReg]
  · rw [written_outReg]

theorem wordPut_k (w : Text) (s : State) : (wordPut w s).k = s.k := by
  unfold wordPut
  split
  · rw [emit_k, written_k]
  · rw [written_k]

theorem wordShown_of_wordShown (w : Text) (s : State) : WordShown w s (wordShown w s) where
  launch := by rw [wordShown, wordPut_launch, written_launch]
  trace := wordShown_trace w s
  disp _ hslot := wordShown_disp w s hslot
  outReg := by rw [wordShown, wordPut_outReg, written_outReg]
  k := by rw [wordShown, wordPut_k, written_k]

/-- SHOW_WORD's path, by what it leaves. -/
theorem leads_wordShown {w : Text} (hw : noNul w) {rest : List Stmt} (hrest : inputFree rest) (s : State) (k : Nat)
    {l : Nat} (hl : l + 2 ≤ settleFuel) : ∃ t, WordShown w s t ∧
      Leads k (before (bodyShowWord w ++ rest) s) (7 + putWordActions w) l (before rest t) := by
  obtain ⟨i, hpath⟩ := leads_showWord hw hrest s k hl
  obtain ⟨hlaunch, htrace, hdisp, hout, hk⟩ := wordShown_of_wordShown w s
  exact ⟨withI i (wordShown w s), ⟨hlaunch, htrace, hdisp, hout, hk⟩, hpath⟩

/-! ### The steps of a round -/

/-- Before step `k` of a round begun at `s`. -/
structure BeforeStep (seq : Word16) (s t : State) (k : Nat) : Prop where
  launch : t.launch = s.launch
  trace : t.trace = s.trace ++ playStepsTrace seq k
  step : t.k = some (BitVec.ofNat 5 k)
  outReg : t.outReg = if k = 0 then s.outReg else 0
  disp : 0 < k → ∀ slot < 7, t.disp[slot]? = some (wordSlot litWatch slot)

/-- In step `k`, with WATCH on the display, the events of the step so far and these indicators. -/
structure InStep (seq : Word16) (s t : State) (k : Nat) (es : List Event) (v : Byte) : Prop where
  launch : t.launch = s.launch
  trace : t.trace = s.trace ++ (playStepsTrace seq k ++ showWordTrace litWatch ++ es)
  step : t.k = some (BitVec.ofNat 5 k)
  outReg : t.outReg = v
  disp : ∀ slot < 7, t.disp[slot]? = some (wordSlot litWatch slot)

theorem InStep.wait {seq : Word16} {s t : State} {k : Nat} {es : List Event} {v : Byte} (h : InStep seq s t k es v)
    (d : Word16) : InStep seq s (withDcnt d t) k es v := ⟨h.launch, h.trace, h.step, h.outReg, h.disp⟩

/-- The indicators of a bit, lit alone. -/
def bitByte (b : Bool) : Byte := if b then 2 else 1

theorem indByte_bit (b : Bool) : indByte (!b) b = bitByte b := by cases b <;> rfl

theorem toNat_step {k : Nat} (hk : k ≤ 15) : (BitVec.ofNat 5 k).toNat = k := Nat.mod_eq_of_lt (by omega)

section

variable {seq : Word16} {r : Byte}

/-- The lines of a step from its indicator on. -/
def lightLines (W : Word16) (seq : Word16) (r : Byte) : List Stmt :=
  .light seq :: .wait W :: .ind false false :: [.playNext seq r]

/-- The lines of a step from the second WAIT on. -/
def darkLines (seq : Word16) (r : Byte) : List Stmt := .ind false false :: [.playNext seq r]

theorem inputFree_darkLines (seq : Word16) (r : Byte) : inputFree (darkLines seq r) :=
  inputFree_of_cons rfl (inputFree_of_cons rfl inputFree_nil)

theorem inputFree_lightLines (W : Word16) (seq : Word16) (r : Byte) : inputFree (lightLines W seq r) :=
  inputFree_of_cons rfl (inputFree_of_cons rfl (inputFree_darkLines seq r))

theorem runStmt_playTest_go {s t : State} {k : Nat} (hr : r.toNat ≤ 15) (hk : k ≤ r.toNat) (ht : BeforeStep seq s t k) :
    runStmt (.playTest seq r) (before [] t) = .next (before (bodyShowWord litWatch ++ .wait s.launch.params.wPlay ::
      lightLines s.launch.params.wPlay seq r) t) := by
  rw [runStmt_playTest seq r (s := before [] t) ht.step, toNat_step (by omega), if_pos hk, playStep]
  simp only [before, push, List.append_nil, ht.launch]
  rfl

theorem runStmt_playTest_end {s t : State} (hr : r.toNat ≤ 15) (ht : BeforeStep seq s t (r.toNat + 1)) :
    runStmt (.playTest seq r) (before [] t) = .next (before [] t) := by
  have hk : (BitVec.ofNat 5 (r.toNat + 1)).toNat = r.toNat + 1 := Nat.mod_eq_of_lt (by omega)
  rw [runStmt_playTest seq r (s := before [] t) ht.step, hk, if_neg (by omega)]
  rfl

theorem runStmt_light_step {s t : State} {k : Nat} {es : List Event} {v : Byte} (hk : k ≤ 15) (ht : InStep seq s t k es v)
    (ls : List Stmt) : runStmt (.light seq) (before ls t) =
      .next (before ls (emit (.ind (!seqBit seq k) (seqBit seq k)) { t with outReg := bitByte (seqBit seq k) })) := by
  rw [runStmt_light seq (s := before ls t) ht.step, toNat_step hk, indByte_bit]
  rfl

theorem runStmt_dark (ls : List Stmt) (t : State) : runStmt (.ind false false) (before ls t) =
    .next (before ls (emit (.ind false false) { t with outReg := 0 })) := runStmt_ind false false _

theorem runStmt_playNext_step {t : State} {k : Nat} (hk : t.k = some (BitVec.ofNat 5 k)) :
    runStmt (.playNext seq r) (before [] t) =
      .next (before [.playTest seq r] { t with k := some (BitVec.ofNat 5 (k + 1)) }) := by
  rw [runStmt_playNext seq r (s := before [] t) hk, BitVec.ofNat_add]
  rfl

variable {s t : State} {k : Nat}

/-- WATCH of a step. -/
theorem leads_step_watch (hr : r.toNat ≤ 15) (hk : k ≤ r.toNat) (ht : BeforeStep seq s t k) :
    ∃ u, InStep seq s u k [] (if k = 0 then s.outReg else 0) ∧ Leads 14 (before [.playTest seq r] t) 12 14
      (before (.wait s.launch.params.wPlay :: lightLines s.launch.params.wPlay seq r) u) := by
  have htest := leads_silent rfl (runStmt_playTest_go hr hk ht) 13
  obtain ⟨u, hu, hword⟩ := leads_wordShown noNul_literals.1
    (inputFree_of_cons (st := .wait s.launch.params.wPlay) rfl (inputFree_lightLines s.launch.params.wPlay seq r)) t 13
    (l := 14) (by decide)
  refine ⟨u, ⟨hu.launch.trans ht.launch, ?_, hu.k.trans ht.step, hu.outReg.trans ht.outReg, hu.disp⟩, htest.trans hword⟩
  rw [hu.trace, ht.trace, List.append_nil, List.append_assoc]

/-- The indicator of a step. -/
theorem leads_step_light (hk : k ≤ 15) {v : Byte} (ht : InStep seq s t k [] v) (l : Nat) :
    ∃ u, InStep seq s u k [.ind (!seqBit seq k) (seqBit seq k)] (bitByte (seqBit seq k)) ∧
      Leads l (before (lightLines s.launch.params.wPlay seq r) t) 1 settleFuel
        (before (.wait s.launch.params.wPlay :: darkLines seq r) u) := by
  have hact := leads_act (st := .light seq) rfl rfl nofun
    (inputFree_of_cons (st := .wait s.launch.params.wPlay) rfl (inputFree_darkLines seq r)) (runStmt_light_step hk ht _) l
  refine ⟨_, ?_, hact⟩
  have htrace : t.trace ++ [.ind (!seqBit seq k) (seqBit seq k)] = s.trace ++ (playStepsTrace seq k ++
      showWordTrace litWatch ++ [.ind (!seqBit seq k) (seqBit seq k)]) := by
    rw [ht.trace, List.append_nil, List.append_assoc]
  exact ⟨ht.launch, htrace, ht.step, rfl, ht.disp⟩

/-- The end of a step. -/
theorem leads_step_dark {v : Byte} (ht : InStep seq s t k [.ind (!seqBit seq k) (seqBit seq k)] v) (l : Nat) :
    ∃ u, BeforeStep seq s u (k + 1) ∧ Leads l (before (darkLines seq r) t) 1 15 (before [.playTest seq r] u) := by
  have hact := leads_act (st := .ind false false) rfl rfl nofun (inputFree_of_cons (st := .playNext seq r) rfl inputFree_nil)
    (runStmt_dark _ t) l
  have hnext := leads_silent rfl (runStmt_playNext_step (seq := seq) (r := r) (k := k)
    (t := emit (.ind false false) { t with outReg := 0 }) ht.step) 15
  refine ⟨_, ?_, hact.trans hnext⟩
  have htrace : t.trace ++ [.ind false false] = s.trace ++ playStepsTrace seq (k + 1) := by
    rw [ht.trace, playStepsTrace, playStepsTrace, List.range_succ, List.flatMap_append, List.flatMap_singleton, lightTrace]
    simp only [List.append_assoc, List.cons_append, List.nil_append]
  exact ⟨ht.launch, htrace, rfl, rfl, fun _ => ht.disp⟩

/-- A whole step. -/
theorem leads_step (hr : r.toNat ≤ 15) (hk : k ≤ r.toNat) (ht : BeforeStep seq s t k) : ∃ u, BeforeStep seq s u (k + 1) ∧
    Leads 14 (before [.playTest seq r] t) (playRoundActions s.launch.params.wPlay.toNat 0) 14 (before [.playTest seq r] u) := by
  obtain ⟨u, hu, hwatch⟩ := leads_step_watch hr hk ht
  have hwait := leads_wait (inputFree_lightLines s.launch.params.wPlay seq r) s.launch.params.wPlay u (k := 13) (by decide)
  obtain ⟨v, hv, hlight⟩ := leads_step_light (r := r) (by omega) (hu.wait 0) 13
  have hwait' := leads_wait (inputFree_darkLines seq r) s.launch.params.wPlay v (k := 15) (by decide)
  obtain ⟨w, hw, hdark⟩ := leads_step_dark (r := r) (hv.wait 0) 15
  refine ⟨w, hw, ?_⟩
  rw [playRoundActions, Nat.zero_add, Nat.one_mul]
  exact (((hwatch.trans hwait).trans hlight).trans hwait').trans (hdark.weaken (by decide))

/-- The first steps. -/
theorem leads_steps (hr : r.toNat ≤ 15) (ht : BeforeStep seq s t 0) : ∀ k ≤ r.toNat + 1, ∃ u, BeforeStep seq s u k ∧
    Leads 14 (before [.playTest seq r] t) (k * playRoundActions s.launch.params.wPlay.toNat 0) 14 (before [.playTest seq r] u)
  | 0, _ => ⟨t, ht, by rw [Nat.zero_mul]; exact leads_refl 14 _⟩
  | k + 1, hk => by
    obtain ⟨u, hu, hpath⟩ := leads_steps hr ht k (by omega)
    obtain ⟨v, hv, hstep⟩ := leads_step hr (by omega) hu
    refine ⟨v, hv, ?_⟩
    rw [Nat.succ_mul]
    exact hpath.trans hstep

/-- From the entry of PLAY_ROUND through its first steps. -/
theorem leads_playRound (seq : Word16) (hr : r.toNat ≤ 15) (s : State) (hk : k ≤ r.toNat + 1) : ∃ u, BeforeStep seq s u k ∧
    Leads settleFuel (before (bodyPlayRound seq r) s) (k * playRoundActions s.launch.params.wPlay.toNat 0) 14
      (before [.playTest seq r] u) := by
  have hstart := (leads_silent (st := .playStart seq r) (ls := []) rfl (s := s) (t := before [.playTest seq r]
    { s with k := some 0 }) rfl 15).weaken (j := 14) (by decide)
  have hbegun : BeforeStep seq s { s with k := some 0 } 0 := ⟨rfl, (List.append_nil _).symm, rfl, rfl, nofun⟩
  obtain ⟨u, hu, hpath⟩ := leads_steps hr hbegun k hk
  refine ⟨u, hu, ?_⟩
  have hall := hstart.trans hpath
  rwa [Nat.zero_add] at hall

/-- Inside the first WAIT of step `k`. -/
theorem beatsTo_step_watch (seq : Word16) (hr : r.toNat ≤ 15) (s : State) (hk : k ≤ r.toNat) {p : Nat}
    (hp : p ≤ s.launch.params.wPlay.toNat) : ∃ u w, InStep seq s u k [] (if k = 0 then s.outReg else 0) ∧
      Waiting u s.launch.params.wPlay p w ∧ BeatsTo settleFuel (before (bodyPlayRound seq r) s)
        (k * playRoundActions s.launch.params.wPlay.toNat 0 + 12 + p) w := by
  obtain ⟨t, ht, hpath⟩ := leads_playRound seq hr s (Nat.le_succ_of_le hk)
  obtain ⟨u, hu, hwatch⟩ := leads_step_watch hr hk ht
  obtain ⟨w, hw, hwait⟩ := leads_wait_upto (inputFree_lightLines s.launch.params.wPlay seq r) rfl s.launch.params.wPlay hp u
    (k := 13) (l := 0) (by decide)
  exact ⟨u, w, hu, hw, ((hpath.trans hwatch).trans hwait).beatsTo hw.primitive⟩

/-- Inside the second. -/
theorem beatsTo_step_light (seq : Word16) (hr : r.toNat ≤ 15) (s : State) (hk : k ≤ r.toNat) {p : Nat}
    (hp : p ≤ s.launch.params.wPlay.toNat) : ∃ u w,
      InStep seq s u k [.ind (!seqBit seq k) (seqBit seq k)] (bitByte (seqBit seq k)) ∧
      Waiting u s.launch.params.wPlay p w ∧ BeatsTo settleFuel (before (bodyPlayRound seq r) s)
        (k * playRoundActions s.launch.params.wPlay.toNat 0 + 12 + s.launch.params.wPlay.toNat + 1 + p) w := by
  obtain ⟨t, ht, hpath⟩ := leads_playRound seq hr s (Nat.le_succ_of_le hk)
  obtain ⟨u, hu, hwatch⟩ := leads_step_watch hr hk ht
  have hwait := leads_wait (inputFree_lightLines s.launch.params.wPlay seq r) s.launch.params.wPlay u (k := 13) (by decide)
  obtain ⟨v, hv, hlight⟩ := leads_step_light (r := r) (by omega) (hu.wait 0) 13
  obtain ⟨w, hw, hwait'⟩ := leads_wait_upto (inputFree_darkLines seq r) rfl s.launch.params.wPlay hp v
    (k := 15) (l := 0) (by decide)
  exact ⟨v, w, hv, hw, ((((hpath.trans hwatch).trans hwait).trans hlight).trans hwait').beatsTo hw.primitive⟩

/-- The whole round. -/
theorem beatsTo_playRound (seq : Word16) (hr : r.toNat ≤ 15) (s : State) : ∃ w, BeforeStep seq s w (r.toNat + 1) ∧
    BeatsTo settleFuel (before (bodyPlayRound seq r) s) (playRoundActions s.launch.params.wPlay.toNat r.toNat)
      (before [] w) := by
  obtain ⟨w, hw, hpath⟩ := leads_playRound seq hr s le_rfl
  have hend := leads_silent rfl (runStmt_playTest_end hr hw) 13
  refine ⟨w, hw, ?_⟩
  have hall := (hpath.trans hend).beatsTo (atPrimitive_nil rfl)
  rwa [Nat.add_zero, playRoundActions, Nat.zero_add, Nat.one_mul] at hall

end

theorem plain_playRound (seq : Word16) {r : Byte} (hr : r.toNat ≤ 15) (s : State) :
    PlainCommand (.playRound seq r) (bodyPlayRound seq r) s where
  lines := inputFree_playRound seq r
  run := if_pos hr

/-- A round that does not exist is refused. -/
theorem round_of_exec_playRound {seq : Word16} {r : Byte} {s t : State} (h : exec (.playRound seq r) s = .next t) :
    r.toNat ≤ 15 := by
  by_contra hr
  have hrefused : exec (.playRound seq r) s = .refused (.inadmissible .round) := requireRound_refused (Nat.not_le.1 hr) _
  rw [hrefused] at h
  cases h

/-- What a pause in step `k` shows. -/
theorem InStep.paused {seq : Word16} {s t u w : State} {k p : Nat} {es : List Event} {v : Byte} (h : InStep seq s u k es v)
    (hw : Waiting u s.launch.params.wPlay p w) (ht : PausedAt s t w) : t.k = some (BitVec.ofNat 5 k) ∧
      InWait s t s.launch.params.wPlay p (playStepsTrace seq k ++ showWordTrace litWatch ++ es) ∧ t.outReg = v ∧
      ∀ slot < 7, t.disp[slot]? = some (wordSlot litWatch slot) :=
  ⟨(k_of_view ht.view).trans (hw.k.trans h.step), ht.inWait hw.dcnt (hw.trace.trans h.trace),
    (outReg_of_view ht.view).trans (hw.outReg.trans h.outReg), by rw [disp_of_view ht.view, hw.disp]; exact h.disp⟩

/-- Settles O42: the path of PLAY_ROUND step by step. -/
theorem playRoundReplaysThePrefix : Obligations.PlayRoundReplaysThePrefix := by
  unfold Obligations.PlayRoundReplaysThePrefix
  refine ⟨fun s seq r k p hr hs hk hp => ⟨fun hturns => ?watch, fun hturns => ?light⟩, fun s seq r hs =>
    ⟨fun t ht hdone => ?ended, fun rest hr hturns => ?paced⟩⟩
  case watch =>
    obtain ⟨u, w, hu, hw, hbeats⟩ := beatsTo_step_watch seq hr s hk hp
    obtain ⟨t, ht, hpaused⟩ := (plain_playRound seq hr s).paused hs hbeats hw.todo (by omega) hturns
    have hshown := hu.paused hw hpaused
    rw [List.append_nil] at hshown
    exact ⟨t, ht, hshown⟩
  case light =>
    obtain ⟨u, w, hu, hw, hbeats⟩ := beatsTo_step_light seq hr s hk hp
    obtain ⟨t, ht, hpaused⟩ := (plain_playRound seq hr s).paused hs hbeats hw.todo (by omega) hturns
    exact ⟨t, ht, hu.paused hw hpaused⟩
  case ended =>
    have hr := round_of_exec_playRound ht
    obtain ⟨w, hw, hbeats⟩ := beatsTo_playRound seq hr s
    have hended := (plain_playRound seq hr s).ended hs hbeats rfl ht hdone
    exact ⟨hended.cidx, hended.trace.trans hw.trace, hended.outReg.trans hw.outReg, hended.disp ▸ hw.disp (by omega)⟩
  case paced =>
    obtain ⟨w, hw, hbeats⟩ := beatsTo_playRound seq hr s
    have hpos : 0 < playRoundActions s.launch.params.wPlay.toNat r.toNat := Nat.mul_pos (by omega) (by omega)
    obtain ⟨t, ht, hended, hrest⟩ := (plain_playRound seq hr s).paced hs hbeats rfl hpos hturns
    exact ⟨t, ht, hended.todo, hended.cidx, hrest, hended.trace.trans hw.trace, hended.outReg.trans hw.outReg,
      hended.disp ▸ hw.disp (by omega)⟩

end Sys2Proof.Proofs
end

section
/-! The labels that show a message and wait (45_game_controller.md R247, R249, R250, R257), by their paths. -/

namespace Sys2Proof.Proofs

open Sys2Proof.Machine
open Sys2Proof.Safety
open Sys2Proof.Laws

/-! ### The runs of a label from its path -/

/-- A label that begins with these lines at `s` and waits for no input. -/
structure LabelLines (l : Label) (body : List Stmt) (s : State) : Prop where
  steady : Steady (labelBegin l) (labelEnd l)
  begins : labelBegin l s = .next (push body s)
  todo : s.todo = []

/-- The label has ended, its outputs and trace as `w` has them. -/
structure LabelEnded (l : Label) (t w : State) : Prop where
  todo : t.todo = []
  cpc : t.cpc = (labelEnd l w).cpc
  trace : t.trace = w.trace
  disp : t.disp = w.disp
  outReg : t.outReg = w.outReg

theorem labelEnd_trace (l : Label) (s : State) : (labelEnd l s).trace = s.trace := by cases l <;> rfl
theorem labelEnd_disp (l : Label) (s : State) : (labelEnd l s).disp = s.disp := by cases l <;> rfl
theorem labelEnd_outReg (l : Label) (s : State) : (labelEnd l s).outReg = s.outReg := by cases l <;> rfl
theorem labelEnd_todo (l : Label) (s : State) : (labelEnd l s).todo = s.todo := by cases l <;> rfl
theorem labelEnd_turns (l : Label) (s : State) : (labelEnd l s).turns = s.turns := by cases l <;> rfl

theorem labelEnded_of_view {l : Label} {t w : State} (ht : t.todo = []) (hv : view t = view (labelEnd l w)) :
    LabelEnded l t w where
  todo := ht
  cpc := (congrArg State.cpc hv : (view t).cpc = (view (labelEnd l w)).cpc)
  trace := (trace_of_view hv).trans (labelEnd_trace l w)
  disp := (disp_of_view hv).trans (labelEnd_disp l w)
  outReg := (outReg_of_view hv).trans (labelEnd_outReg l w)

section

variable {l : Label} {body : List Stmt} {s w : State} {n : Nat}

theorem LabelLines.start (h : LabelLines l body s) : labelBegin l s = .next (before body s) :=
  h.begins.trans (push_eq_before h.todo body)

theorem LabelLines.paused (h : LabelLines l body s) (hb : BeatsTo settleFuel (before body s) n w) (hw : w.todo ≠ [])
    (hn : 0 < n) (hturns : s.turns = pacedTurns n) : ∃ t, execLabel l s = .next t ∧ PausedAt s t w :=
  runOperation_pausedAt h.steady h.todo h.start hn hb hw hturns

theorem LabelLines.ended (h : LabelLines l body s) (hb : BeatsTo settleFuel (before body s) n w) (hw : w.todo = [])
    {t : State} (ht : execLabel l s = .next t) (hdone : t.todo = []) : LabelEnded l t w :=
  labelEnded_of_view hdone (view_of_ended h.steady h.todo h.start hb hw ht hdone)

theorem LabelLines.paced (h : LabelLines l body s) (hb : BeatsTo settleFuel (before body s) n w) (hw : w.todo = [])
    (hn : 0 < n) {rest : List Config.Turn} (hturns : s.turns = pacedTurns n ++ rest) :
    ∃ t, execLabel l s = .next t ∧ LabelEnded l t w ∧ t.turns = rest := by
  obtain ⟨u, hu, hdone, hrest, hv⟩ := runOperation_paced h.steady h.todo h.start hn hb hw hturns
  exact ⟨_, hu, labelEnded_of_view ((labelEnd_todo l u).trans hdone) hv, (labelEnd_turns l u).trans hrest⟩

/-- At every point of a label an output that no line of it writes is as before. -/
theorem LabelLines.same (h : LabelLines l body s) {t : State} (ht : execLabel l s = .next t) {p : Part}
    (hp : ∀ st ∈ body, p ∉ footprint st) (htick : p ≠ .tickSet) :
    ∃ u, p.same s u ∧ (t = u ∨ t = labelEnd l u) := by
  have hrun : runOperation (labelBegin l) id s = runCommand body id s := by
    rw [runCommand, runOperation, runOperation, if_pos h.todo, if_pos h.todo, beginOperation, beginOperation, h.begins]
  rw [execLabel, runOperation_finish, hrun, andThen_eq_next] at ht
  obtain ⟨u, hu, hend⟩ := ht
  have hwrites := runCommand_writes (P := body.flatMap footprint ++ agentsFootprint s) (finish := id) h.todo
    (fun st hst p hp => List.mem_append_left _ (List.mem_flatMap.2 ⟨st, hst, hp⟩))
    (fun u => writesOnly_position _ u u.todo u.turns u.draws u.cidx)
    (List.subset_append_right _ _) u hu
  refine ⟨u, hwrites.same p fun hmem => ?_, ?_⟩
  · rcases List.mem_append.1 hmem with hmem | hmem
    · obtain ⟨st, hst, hx⟩ := List.mem_flatMap.1 hmem
      exact hp st hst hx
    · exact htick (mem_agentsFootprint hmem).1
  · split at hend
    · exact .inr (Host.Outcome.next.inj hend).symm
    · exact .inl (Host.Outcome.next.inj hend).symm

theorem LabelLines.outReg (h : LabelLines l body s) {t : State} (ht : execLabel l s = .next t)
    (hp : ∀ st ∈ body, .outReg ∉ footprint st) : t.outReg = s.outReg := by
  obtain ⟨u, hu, rfl | rfl⟩ := h.same ht hp nofun
  · exact hu
  · rw [labelEnd_outReg]
    exact hu

theorem LabelLines.disp (h : LabelLines l body s) {t : State} (ht : execLabel l s = .next t)
    (hp : ∀ st ∈ body, .disp ∉ footprint st) : t.disp = s.disp := by
  obtain ⟨u, hu, rfl | rfl⟩ := h.same ht hp nofun
  · exact hu
  · rw [labelEnd_disp]
    exact hu

end

/-! ### A message and its pause -/

/-- A label whose lines come to a last WAIT of `u` after `n` actions, where `m` stands. -/
structure Message (l : Label) (s : State) (u : Word16) (n : Nat) (m : State) : Prop where
  lines : ∃ body, LabelLines l body s ∧ Leads settleFuel (before body s) n 1 (before [.wait u] m)
  acts : 0 < n

section

variable {l : Label} {s m : State} {u : Word16} {n : Nat}

/-- Inside the WAIT the message stands. -/
theorem Message.paused (h : Message l s u n m) {p : Nat} (hp : p < u.toNat) (hturns : s.turns = pacedTurns (n + p))
    {es : List Event} (hm : m.trace = s.trace ++ es) :
    ∃ t, execLabel l s = .next t ∧ InWait s t u p es ∧ t.disp = m.disp ∧ t.outReg = m.outReg := by
  obtain ⟨body, hlines, hpath⟩ := h.lines
  have hact := atPrimitive_before (st := .poll) rfl [] (withDcnt (u - BitVec.ofNat 16 p) m)
  have hbeats := (hpath.trans (leads_wait_part inputFree_nil hp m 0 0)).beatsTo hact
  obtain ⟨t, ht, hpaused⟩ := hlines.paused hbeats (List.cons_ne_nil _ _) (Nat.add_pos_left h.acts p) hturns
  exact ⟨t, ht, hpaused.inWait rfl hm, disp_of_view (t := before [.poll] (withDcnt _ m)) hpaused.view,
    outReg_of_view (t := before [.poll] (withDcnt _ m)) hpaused.view⟩

theorem Message.beatsTo (h : Message l s u n m) : ∃ body, LabelLines l body s ∧
    BeatsTo settleFuel (before body s) (n + u.toNat) (before [] (withDcnt 0 m)) := by
  obtain ⟨body, hlines, hpath⟩ := h.lines
  exact ⟨body, hlines, (hpath.trans (leads_wait inputFree_nil u m (Nat.zero_le _))).beatsTo (atPrimitive_nil rfl)⟩

theorem labelEnded_message {t : State} (h : LabelEnded l t (before [] (withDcnt 0 m))) : LabelEnded l t m where
  todo := h.todo
  cpc := h.cpc.trans (by cases l <;> rfl)
  trace := h.trace
  disp := h.disp
  outReg := h.outReg

theorem Message.ended (h : Message l s u n m) {t : State} (ht : execLabel l s = .next t) (hdone : t.todo = []) :
    LabelEnded l t m := by
  obtain ⟨body, hlines, hbeats⟩ := h.beatsTo
  exact labelEnded_message (hlines.ended hbeats rfl ht hdone)

theorem Message.paced (h : Message l s u n m) {rest : List Config.Turn} (hturns : s.turns = pacedTurns (n + u.toNat) ++ rest) :
    ∃ t, execLabel l s = .next t ∧ LabelEnded l t m ∧ t.turns = rest := by
  obtain ⟨body, hlines, hbeats⟩ := h.beatsTo
  obtain ⟨t, ht, hended, hrest⟩ := hlines.paced hbeats rfl (Nat.add_pos_left h.acts _) hturns
  exact ⟨t, ht, labelEnded_message hended, hrest⟩

end

/-! ### RL2, RL4 and RL5 -/

theorem inputFree_wait (u : Word16) : inputFree [.wait u] := inputFree_of_cons rfl inputFree_nil

section

variable {s : State} (hs : s.todo = [])
include hs

theorem labelLines_rl2 : LabelLines .rl2 [.ind false false, .wait s.launch.params.wRound] s :=
  ⟨steady_label .rl2 (by decide), rfl, hs⟩

theorem labelLines_rl4 : LabelLines .rl4 (bodyShowWord litRound ++ [.wait s.launch.params.wRound]) s :=
  ⟨steady_label .rl4 (by decide), rfl, hs⟩

theorem labelLines_rl5 : LabelLines .rl5
    (bodyShowNumber (BitVec.ofNat 32 (s.round.toNat + 1)) ++ [.wait s.launch.params.wRound]) s :=
  ⟨steady_label .rl5 (by decide), rfl, hs⟩

/-- RL2: both indicators off. -/
theorem message_rl2 : ∃ m, Message .rl2 s s.launch.params.wRound 1 m ∧ m.outReg = 0 ∧
    m.trace = s.trace ++ [.ind false false] :=
  ⟨_, ⟨⟨_, labelLines_rl2 hs, (leads_act (st := .ind false false) rfl rfl nofun (inputFree_wait _)
    (runStmt_dark _ s) settleFuel).weaken (by decide)⟩, by decide⟩, rfl, rfl⟩

/-- RL4: ROUND. -/
theorem message_rl4 : ∃ m, Message .rl4 s s.launch.params.wRound 12 m ∧ WordShown litRound s m := by
  obtain ⟨m, hm, hpath⟩ := leads_wordShown noNul_literals.2.2.1 (inputFree_wait s.launch.params.wRound) s settleFuel
    (l := 1) (by decide)
  exact ⟨m, ⟨⟨_, labelLines_rl4 hs, hpath⟩, by decide⟩, hm⟩

/-- RL5: the number of the round. -/
theorem message_rl5 : ∃ m,
    Message .rl5 s s.launch.params.wRound (showNumberActions (s.round.toNat + 1)) m ∧
      NumberShown (s.round.toNat + 1) s m := by
  have hround := s.round.isLt
  have hnumber : (BitVec.ofNat 32 (s.round.toNat + 1)).toNat = s.round.toNat + 1 := Nat.mod_eq_of_lt (by omega)
  obtain ⟨m, hm, hpath⟩ := leads_showNumber (BitVec.ofNat 32 (s.round.toNat + 1)) (inputFree_wait s.launch.params.wRound) s
    settleFuel (k := 1) (by decide)
  rw [hnumber] at hm hpath
  rw [numberActions_of_small (by omega)] at hpath
  have hpos : 0 < showNumberActions (s.round.toNat + 1) := by
    rw [showNumberActions, showNumberTrace, List.length_append]
    exact Nat.add_pos_left (by decide) _
  exact ⟨m, ⟨⟨_, labelLines_rl5 hs, hpath⟩, hpos⟩, hm⟩

end

theorem step_of_label {s : State} (hmode : s.launch.mode = .game) {l : Label} (hcpc : s.cpc = l) : step s = execLabel l s := by
  rw [step_of_game hmode, hcpc]

/-- Settles O50: each of the three labels is a message and its pause. -/
theorem roundMessages : Obligations.RoundMessages := by
  unfold Obligations.RoundMessages
  intro s hmode hs _
  obtain ⟨m2, h2, hdark, htrace2⟩ := message_rl2 hs
  obtain ⟨m4, h4, hword⟩ := message_rl4 hs
  obtain ⟨m5, h5, hnumber⟩ := message_rl5 hs
  refine ⟨fun t ht => ⟨fun hcpc => ?disp, ?out⟩, fun p hp => ⟨fun hcpc hturns => ?pause2, fun hcpc hturns => ?pause4,
    fun hcpc hturns => ?pause5⟩, fun t ht hdone => ⟨fun hcpc => ?end2, fun hcpc => ?end4, fun hcpc => ?end5⟩,
    fun rest => ⟨fun hcpc hturns => ?paced2, fun hcpc hturns => ?paced4, fun hcpc hturns => ?paced5⟩⟩
  case disp =>
    rw [step_of_label hmode hcpc] at ht
    exact (labelLines_rl2 hs).disp ht (by simp [footprint])
  case out =>
    rintro (hcpc | hcpc)
    · rw [step_of_label hmode hcpc] at ht
      exact (labelLines_rl4 hs).outReg ht (by simp [bodyShowWord, bodyClear, footprint])
    · rw [step_of_label hmode hcpc] at ht
      exact (labelLines_rl5 hs).outReg ht (by simp [bodyShowNumber, bodyClear, footprint])
  case pause2 =>
    obtain ⟨t, ht, hwait, -, hout⟩ := h2.paused hp hturns htrace2
    exact ⟨t, (step_of_label hmode hcpc).trans ht, hwait, hout.trans hdark⟩
  case pause4 =>
    obtain ⟨t, ht, hwait, hdisp, -⟩ := h4.paused hp hturns hword.trace
    exact ⟨t, (step_of_label hmode hcpc).trans ht, hwait, hdisp ▸ hword.disp⟩
  case pause5 =>
    obtain ⟨t, ht, hwait, hdisp, -⟩ := h5.paused hp hturns hnumber.trace
    exact ⟨t, (step_of_label hmode hcpc).trans ht, hwait, hdisp ▸ hnumber.disp⟩
  case end2 =>
    have hended := h2.ended ((step_of_label hmode hcpc).symm.trans ht) hdone
    exact ⟨hended.cpc, hended.outReg.trans hdark, hended.trace.trans htrace2⟩
  case end4 =>
    have hended := h4.ended ((step_of_label hmode hcpc).symm.trans ht) hdone
    exact ⟨hended.cpc, hended.trace.trans hword.trace, hended.disp ▸ hword.disp⟩
  case end5 =>
    have hended := h5.ended ((step_of_label hmode hcpc).symm.trans ht) hdone
    exact ⟨hended.cpc, hended.trace.trans hnumber.trace, hended.disp ▸ hnumber.disp⟩
  case paced2 =>
    obtain ⟨t, ht, hended, hrest⟩ := h2.paced hturns
    exact ⟨t, (step_of_label hmode hcpc).trans ht, hended.cpc, hended.todo, hrest, hended.outReg.trans hdark,
      hended.trace.trans htrace2⟩
  case paced4 =>
    obtain ⟨t, ht, hended, hrest⟩ := h4.paced hturns
    exact ⟨t, (step_of_label hmode hcpc).trans ht, hended.cpc, hended.todo, hrest, hended.trace.trans hword.trace⟩
  case paced5 =>
    obtain ⟨t, ht, hended, hrest⟩ := h5.paced hturns
    exact ⟨t, (step_of_label hmode hcpc).trans ht, hended.cpc, hended.todo, hrest, hended.trace.trans hnumber.trace⟩

/-! ### G1 -/

/-- The lines of G1 after its scroll. -/
def resultLines (s : State) : List Stmt := if s.score = 16 then [] else bodyShowNumber (s.score.setWidth 32)

/-- The text G1 scrolls. -/
def resultText (s : State) : Text := if s.score = 16 then litYouWin else litGameOver

theorem labelLines_g1 {s : State} (hs : s.todo = []) : LabelLines .g1 (bodyScroll (resultText s) ++ resultLines s) s where
  steady := steady_label .g1 (by decide)
  begins := by
    rw [labelBegin, resultText, resultLines]
    split
    · rw [List.append_nil]
    · rfl
  todo := hs

theorem inputFree_resultLines (s : State) : inputFree (resultLines s) := by
  unfold resultLines
  split
  · exact inputFree_nil
  · exact inputFree_showNumber _

theorem noNul_resultText (s : State) : noNul (resultText s) := by
  unfold resultText
  split
  · exact noNul_literals.2.2.2.1
  · exact noNul_literals.2.2.2.2

theorem length_resultText_le (s : State) : (resultText s).length ≤ 255 := by
  unfold resultText
  split <;> decide

/-- What G1 leaves. -/
structure ResultShown (s t : State) : Prop where
  win : s.score = 16 → t.trace = s.trace ++ scrollTrace litYouWin ∧ t.disp = Vector.replicate 7 0x20
  lost : s.score ≠ 16 → t.trace = s.trace ++ scrollTrace litGameOver ++ showNumberTrace s.score.toNat ∧
    ∀ slot < 7, t.disp[slot]? = some (numberSlot s.score.toNat slot)

/-- The whole path of G1. -/
theorem beatsTo_g1 (s : State) : ∃ w, ResultShown s w ∧
    BeatsTo settleFuel (before (bodyScroll (resultText s) ++ resultLines s) s)
      (if s.score = 16 then scrollActions s.launch.params.wScroll.toNat litYouWin
        else scrollActions s.launch.params.wScroll.toNat litGameOver + showNumberActions s.score.toNat) (before [] w) := by
  obtain ⟨t, htrace, hdisp, hscroll⟩ :=
    leads_scroll (inputFree_resultLines s) (noNul_resultText s) (length_resultText_le s) s settleFuel
  by_cases hwin : s.score = 16
  · rw [resultText, if_pos hwin] at htrace hscroll
    rw [resultText, if_pos hwin, resultLines, if_pos hwin, if_pos hwin]
    rw [resultLines, if_pos hwin] at hscroll
    exact ⟨t, ⟨fun _ => ⟨htrace, hdisp⟩, fun h => absurd hwin h⟩, hscroll.beatsTo (atPrimitive_nil rfl)⟩
  · rw [resultText, if_neg hwin] at htrace hscroll
    rw [resultText, if_neg hwin, resultLines, if_neg hwin, if_neg hwin]
    rw [resultLines, if_neg hwin] at hscroll
    have hscore : (s.score.setWidth 32).toNat = s.score.toNat := by
      rw [BitVec.toNat_setWidth]
      exact Nat.mod_eq_of_lt (by omega)
    obtain ⟨u, hu, hnumber⟩ := leads_showNumber (s.score.setWidth 32) inputFree_nil t settleFuel (k := 0) (by decide)
    rw [List.append_nil, hscore, numberActions_of_small (by omega)] at hnumber
    rw [hscore] at hu
    exact ⟨u, ⟨fun h => absurd h hwin, fun _ => ⟨by rw [hu.trace, htrace], hu.disp⟩⟩,
      (hscroll.trans hnumber).beatsTo (atPrimitive_nil rfl)⟩

/-- Settles O52: G1 is SCROLL of its text and, after a loss, SHOW_NUMBER of the score. -/
theorem gameOverShowsTheResult : Obligations.GameOverShowsTheResult := by
  unfold Obligations.GameOverShowsTheResult
  intro s hmode hcpc hs _
  have hlines := labelLines_g1 hs
  obtain ⟨w, hw, hbeats⟩ := beatsTo_g1 s
  rw [step_of_label hmode hcpc]
  refine ⟨fun t ht => hlines.outReg ht ?out, fun x off p hx hoff hp hturns => ?wait, fun t ht hdone => ?ended,
    fun rest hturns => ?paced⟩
  case out =>
    unfold resultLines
    split <;> simp [bodyScroll, bodyShowNumber, bodyClear, footprint]
  case wait =>
    obtain rfl : x = resultText s := hx
    obtain ⟨v, hv, hdcnt, htrace, hslots, hwait⟩ :=
      beatsTo_scroll_wait (inputFree_resultLines s) (noNul_resultText s) (length_resultText_le s) s hoff hp
    have hpos : 0 < scrollWaitActions s.launch.params.wScroll.toNat off + p := by
      rw [scrollWaitActions]
      omega
    obtain ⟨t, ht, hpaused⟩ := hlines.paused hwait hv hpos hturns
    exact ⟨t, ht, hpaused.inWait hdcnt htrace, disp_of_view hpaused.view ▸ hslots⟩
  case ended =>
    have hended := hlines.ended hbeats rfl ht hdone
    have htrace : t.trace = w.trace := hended.trace
    have hdisp : t.disp = w.disp := hended.disp
    exact ⟨hended.cpc, fun h => by rw [htrace, hdisp]; exact hw.win h, fun h => by rw [htrace, hdisp]; exact hw.lost h⟩
  case paced =>
    have hpos : ∀ x, 0 < scrollActions s.launch.params.wScroll.toNat x := fun x => by
      rw [scrollActions]
      omega
    have hacts : 0 < if s.score = 16 then scrollActions s.launch.params.wScroll.toNat litYouWin
        else scrollActions s.launch.params.wScroll.toNat litGameOver + showNumberActions s.score.toNat := by
      split
      · exact hpos litYouWin
      · exact Nat.add_pos_left (hpos litGameOver) _
    obtain ⟨t, ht, hended, hrest⟩ := hlines.paced hbeats rfl hacts hturns
    exact ⟨t, ht, hended.cpc, hended.todo, hrest⟩

end Sys2Proof.Proofs
end

section
/-! WAIT through any interleaving (40_timing_service.md R142, R143): it ends at its last true poll. -/

namespace Sys2Proof.Proofs

open Sys2Proof.Machine
open Sys2Proof.Safety
open Sys2Proof.Laws

theorem truePolls_main (flag : Bool) (ts : List Config.Turn) :
    truePolls flag (.main :: ts) = (if flag then 1 else 0) + truePolls false ts := rfl

/-- A turn of another agent is a poll's tick if PTIMER takes it. -/
theorem truePolls_agent {a : Config.Turn} (ha : a ≠ .main) (flag : Bool) (ts : List Config.Turn) :
    truePolls flag (a :: ts) = truePolls (decide (a = .ptimerTick) || flag) ts := by
  cases a
  case main => exact absurd rfl ha
  all_goals rfl

/-- MAIN stands at the last poll of a WAIT with `d` to go. -/
structure Polling (d : Word16) (s : State) : Prop where
  todo : s.todo = [.poll]
  dcnt : s.dcnt = some d
  units : d ≠ 0

/-- `s` after a poll that leaves `d` to go. -/
def polled (d : Word16) (s : State) : State :=
  { s with tickFlag := false, dcnt := some d, todo := if d = 0 then [] else [.poll] }

theorem mainAct_front {s : State} {st : Stmt} {ls : List Stmt} (h : s.todo = st :: ls) :
    mainAct s = andThen (runStmt st (before ls s)) (settle settleFuel) := by
  simp only [mainAct, h]
  rfl

theorem mainAct_poll {d : Word16} {s : State} (h : Polling d s) :
    mainAct s = .next (polled (if s.tickFlag then d - 1 else d) s) := by
  obtain ⟨htodo, hdcnt, hunits⟩ := h
  rw [mainAct_front htodo]
  cases hflag : s.tickFlag with
  | false =>
    rw [poll_idle (s := before [] s) (d := d) hdcnt hunits hflag, andThen_next, settle_active settleFuel (st := .poll) (ls := []) rfl rfl,
      if_neg Bool.false_ne_true, polled, if_neg hunits, ← hflag, ← hdcnt]
    rfl
  | true =>
    rw [poll_tick (s := before [] s) (d := d) hdcnt hunits hflag, andThen_next, if_pos rfl, polled]
    by_cases hlast : d - 1 = 0
    · rw [if_pos hlast]
      exact settle_nil _ rfl
    · rw [if_neg hlast]
      exact settle_active _ (st := .poll) (ls := []) rfl rfl

theorem polling_polled {d : Word16} {s : State} (hd : d ≠ 0) : Polling d (polled d s) := ⟨if_neg hd, rfl, hd⟩

theorem polling_agentAct {d : Word16} {s : State} (h : Polling d s) (a : Config.Turn) : Polling d (agentAct a s) :=
  ⟨(agentAct_todo a s).trans h.todo, (agentAct_keeps a s).dcnt.trans h.dcnt, h.units⟩

/-- MAIN's turn at a poll that does not end the wait. -/
theorem drive_poll_goesOn {d e : Word16} {s : State} (h : Polling d s) (he : (if s.tickFlag then d - 1 else d) = e)
    (h0 : e ≠ 0) (ts : List Config.Turn) : drive id (.main :: ts) s = drive id ts (polled e s) := by
  have hmain := mainAct_poll h
  rw [he] at hmain
  exact drive_main_of_go hmain (by rw [(polling_polled h0).todo]; exact List.cons_ne_nil _ _) ts

/-- Fewer true polls than units leave what is left in DCNT. -/
theorem drive_wait_goesOn : ∀ (ts : List Config.Turn) {d : Word16} {s : State}, Polling d s → s.turns = [] →
    truePolls s.tickFlag ts < d.toNat →
    ∃ t, drive id ts s = .next t ∧ Polling (d - BitVec.ofNat 16 (truePolls s.tickFlag ts)) t ∧ t.turns = []
  | [], d, s, h, hturns, _ => ⟨s, rfl, by rwa [truePolls, BitVec.sub_zero], hturns⟩
  | a :: ts, d, s, h, hturns, hlt => by
    by_cases ha : a = .main
    · subst ha
      rw [truePolls_main] at hlt ⊢
      cases hflag : s.tickFlag with
      | false =>
        rw [hflag, if_neg Bool.false_ne_true, Nat.zero_add] at hlt
        rw [if_neg Bool.false_ne_true, Nat.zero_add, drive_poll_goesOn h (by rw [hflag]; rfl) h.units]
        exact drive_wait_goesOn ts (polling_polled h.units) hturns hlt
      | true =>
        rw [hflag, if_pos rfl] at hlt
        have hleft : d - 1 ≠ 0 := by bv_omega
        have hsub : d - BitVec.ofNat 16 (1 + truePolls false ts) = d - 1 - BitVec.ofNat 16 (truePolls false ts) := by
          bv_omega
        rw [if_pos rfl, hsub, drive_poll_goesOn h (by rw [hflag]; rfl) hleft]
        exact drive_wait_goesOn ts (polling_polled hleft) hturns (by show truePolls false ts < _; bv_omega)
    · rw [truePolls_agent ha, ← agentAct_tickFlag] at hlt ⊢
      rw [drive_agent id ha]
      exact drive_wait_goesOn ts (polling_agentAct h a) ((agentAct_turns a s).trans hturns) hlt

/-- A WAIT has ended at the turn after `taken`, the units' last true poll. -/
structure WaitEnded (s t : State) (ts : List Config.Turn) (units : Nat) (taken : List Config.Turn) : Prop where
  todo : t.todo = []
  dcnt : t.dcnt = some 0
  tickFlag : t.tickFlag = false
  trace : t.trace = s.trace
  turns : ts = taken ++ .main :: t.turns
  last : truePolls s.tickFlag (taken ++ [.main]) = units
  before : truePolls s.tickFlag taken < units

/-- With as many true polls as units the wait ends at the last of these. -/
theorem drive_wait_ends : ∀ (ts : List Config.Turn) {d : Word16} {s : State}, Polling d s →
    d.toNat ≤ truePolls s.tickFlag ts → ∃ t taken, drive id ts s = .next t ∧ WaitEnded s t ts d.toNat taken
  | [], d, s, h, hle => absurd (BitVec.eq_of_toNat_eq (Nat.le_zero.1 hle)) h.units
  | a :: ts, d, s, h, hle => by
    by_cases ha : a = .main
    · subst ha
      rw [truePolls_main] at hle
      cases hflag : s.tickFlag with
      | false =>
        rw [hflag, if_neg Bool.false_ne_true, Nat.zero_add] at hle
        obtain ⟨t, taken, ht, hend⟩ := drive_wait_ends ts (polling_polled (s := s) h.units) hle
        rw [drive_poll_goesOn h (by rw [hflag]; rfl) h.units]
        refine ⟨t, .main :: taken, ht, hend.todo, hend.dcnt, hend.tickFlag, hend.trace, congrArg (.main :: ·) hend.turns, ?_, ?_⟩
        · rw [hflag, List.cons_append, truePolls_main, if_neg Bool.false_ne_true, Nat.zero_add]
          exact hend.last
        · rw [hflag, truePolls_main, if_neg Bool.false_ne_true, Nat.zero_add]
          exact hend.before
      | true =>
        rw [hflag, if_pos rfl] at hle
        by_cases hlast : d - 1 = 0
        · have hmain := mainAct_poll h
          rw [hflag, if_pos rfl, hlast] at hmain
          have hone : d.toNat = 1 := by bv_omega
          refine ⟨_, [], drive_main_of_end hmain rfl ts, rfl, rfl, rfl, rfl, rfl, ?_, ?_⟩
          · rw [hflag, hone]
            rfl
          · rw [hone]
            exact Nat.one_pos
        · have h0 := h.units
          have hunits : d.toNat = 1 + (d - 1).toNat := by bv_omega
          obtain ⟨t, taken, ht, hend⟩ := drive_wait_ends ts (polling_polled (s := s) hlast)
            (Nat.le_of_add_le_add_left (hunits ▸ hle))
          rw [drive_poll_goesOn h (by rw [hflag]; rfl) hlast]
          refine ⟨t, .main :: taken, ht, hend.todo, hend.dcnt, hend.tickFlag, hend.trace, congrArg (.main :: ·) hend.turns,
            ?_, ?_⟩
          · rw [hflag, List.cons_append, truePolls_main, if_pos rfl, hunits]
            exact congrArg (1 + ·) hend.last
          · rw [hflag, truePolls_main, if_pos rfl, hunits]
            exact Nat.add_lt_add_left hend.before 1
    · rw [truePolls_agent ha, ← agentAct_tickFlag] at hle
      obtain ⟨t, taken, ht, hend⟩ := drive_wait_ends ts (polling_agentAct h a) hle
      rw [drive_agent id ha]
      refine ⟨t, a :: taken, ht, hend.todo, hend.dcnt, hend.tickFlag, hend.trace.trans (agentAct_keeps a s).trace,
        congrArg (a :: ·) hend.turns, ?_, ?_⟩
      · rw [List.cons_append, truePolls_agent ha, ← agentAct_tickFlag]
        exact hend.last
      · rw [truePolls_agent ha, ← agentAct_tickFlag]
        exact hend.before

/-- WAIT of some units is a drive from its first poll on. -/
theorem exec_wait {s : State} {units : Word16} (h0 : units ≠ 0) (hs : s.todo = []) (hturns : s.turns ≠ []) :
    ∃ u, Polling units u ∧ u.turns = [] ∧ u.tickFlag = s.tickFlag ∧ u.trace = s.trace ∧
      exec (.wait units) s =
        andThen (drive id s.turns u) fun t => if t.todo = [] then .next (endCommand t) else .next t := by
  have hbegun : begun (fun s => .next (push [.wait units] s)) s = .next { s with todo := [.poll], dcnt := some units } := by
    rw [begun, if_pos hs, beginOperation, push_eq_before hs, andThen_next, settleFuel,
      settle_silent 15 (before_todo [.wait units] s) rfl]
    have hrun : runStmt (.wait units) (before [] s) = .next { s with todo := [.poll], dcnt := some units } := by
      rw [runStmt_wait, if_neg h0]
      rfl
    exact (congrArg (andThen · _) hrun).trans ((andThen_next _ _).trans (settle_active _ (st := .poll) (ls := []) rfl rfl))
  have hrun := runOperation_turns (turnsBlind_push [.wait units]) endCommand s hturns
  refine ⟨{ s with todo := [.poll], dcnt := some units, turns := [] }, ⟨rfl, rfl, h0⟩, rfl, rfl, rfl, ?_⟩
  rw [hbegun, andThen_next, if_neg (by exact List.cons_ne_nil _ _), drive_finish _ _ _ (by exact List.cons_ne_nil _ _)] at hrun
  exact hrun

theorem exec_wait_zero {s : State} (hs : s.todo = []) : exec (.wait 0) s = .next { s with dcnt := some 0, cidx := s.cidx + 1 } := by
  have hrun : exec (.wait 0) s = runCommand [.wait 0] endCommand s := rfl
  have hbegin : beginOperation (fun s => .next (push [.wait 0] s)) s = .next { s with dcnt := some 0 } := by
    rw [beginOperation, push_eq_before hs, andThen_next, settleFuel, settle_silent 15 (before_todo [.wait 0] s) rfl]
    have hline : runStmt (.wait 0) (before [] s) = .next { s with dcnt := some 0 } := by
      rw [runStmt_wait, if_pos rfl, List.nil_append, before_nil (by exact hs)]
      rfl
    exact (congrArg (andThen · _) hline).trans ((andThen_next _ _).trans (settle_nil _ hs))
  rw [hrun, runCommand, runOperation, if_pos hs, hbegin, andThen_next, if_pos (by exact hs)]
  rfl

/-- Settles O31, by induction on the turns. -/
theorem waitEndsAfterItsTicks : Obligations.WaitEndsAfterItsTicks := by
  unfold Obligations.WaitEndsAfterItsTicks
  refine ⟨fun s hs => exec_wait_zero hs, fun s units h0 hs hturns => ?_⟩
  obtain ⟨u, hu, hnone, hflag, htrace, hexec⟩ := exec_wait h0 hs hturns
  rw [← hflag, ← htrace]
  refine ⟨fun hlt => ?_, fun hle => ?_⟩
  · obtain ⟨t, ht, hpolling, hrest⟩ := drive_wait_goesOn s.turns hu hnone hlt
    have hgo : t.todo ≠ [] := by rw [hpolling.todo]; exact List.cons_ne_nil _ _
    rw [ht, andThen_next, if_neg hgo] at hexec
    have hcidx := exec_cidx hexec
    rw [if_neg hgo] at hcidx
    exact ⟨t, hexec, hpolling.todo, hcidx, hrest, hpolling.dcnt⟩
  · obtain ⟨t, taken, ht, hend⟩ := drive_wait_ends s.turns hu hle
    rw [ht, andThen_next, if_pos hend.todo] at hexec
    have hcidx := exec_cidx hexec
    rw [if_pos (by exact hend.todo)] at hcidx
    exact ⟨endCommand t, hexec, hend.todo, hcidx, hend.dcnt, hend.tickFlag, hend.trace, taken, hend.turns, hend.last,
      hend.before⟩

end Sys2Proof.Proofs
end

section
/-! Every fair interleaving (00_scope.md R20) ends every operation that waits for no player: the commands but GENERATE and
CAPTURE, and the labels but A2, RL7 and G2, each by its path. -/

namespace Sys2Proof.Proofs

open Sys2Proof.Machine
open Sys2Proof.Safety
open Sys2Proof.Laws

/-- The free turns are fair: each of the two duties recurs. -/
theorem fair_freeTurn : Fair Config.freeTurn where
  tick n := by
    obtain ⟨m, hm, hduty⟩ := duty_recurs n true
    exact ⟨m, hm, by rw [Config.freeTurn, hduty]⟩
  main n := by
    obtain ⟨m, hm, hduty⟩ := duty_recurs n false
    exact ⟨m, hm, by rw [Config.freeTurn, hduty]⟩

/-- MAIN has a first turn in a fair interleaving. -/
theorem fair_first_main {f : Nat → Config.Turn} (hf : Fair f) : ∃ n, f n = .main ∧ .main ∉ firstTurns f n := by
  have hex : ∃ n, f n = .main := (hf.main 0).imp fun _ h => h.2
  classical
  refine ⟨Nat.find hex, Nat.find_spec hex, fun hmem => ?_⟩
  obtain ⟨m, hm, hmain⟩ := List.mem_map.1 hmem
  exact Nat.find_min hex (List.mem_range.1 hm) hmain

theorem firstTurns_snoc (f : Nat → Config.Turn) (n : Nat) : firstTurns f (n + 1) = firstTurns f n ++ [f n] := by
  rw [firstTurns, List.range_succ, List.map_append]
  rfl

/-! ### Operations with a path -/

/-- From `t`, the state after its entry, an operation has a path to its end. -/
def HasPath (t : State) : Prop := ∃ n w, w.todo = [] ∧ BeatsTo settleFuel t n w

theorem Leads.hasPath {body : List Stmt} {s t : State} {n l : Nat} (h : Leads settleFuel (before body s) n l (before [] t)) :
    HasPath (before body s) := ⟨n, before [] t, rfl, h.beatsTo (atPrimitive_nil rfl)⟩

/-- An operation with a path ends in every fair interleaving. -/
theorem runOperation_ends_fair {start : State → Result} {finish : State → State} (h : Steady start finish) {s t : State}
    (hs : s.todo = []) (hstart : start s = .next t) (hpath : HasPath t) {f : Nat → Config.Turn} (hf : Fair f) :
    ∃ n u, runOperation start finish { s with turns := firstTurns f n } = .next u ∧ u.todo = [] := by
  obtain ⟨n, w, hw, hb⟩ := hpath
  have hfree : inputFree t.todo := h.free s t hs hstart
  have hended : ∃ u, runOperation start finish { s with turns := pacedTurns n } = .next u ∧ u.todo = [] := by
    have hstart' : start { s with turns := pacedTurns n } = .next { t with turns := pacedTurns n } := by
      rw [h.turns, hstart, andThen_next]
    have hb' : BeatsTo settleFuel { t with turns := pacedTurns n } n w := beatsTo_congr (by rfl) hfree hb
    rcases Nat.eq_zero_or_pos n with rfl | hpos
    · obtain ⟨u, hu, -, hbeats⟩ := hb'
      have hdone : u.todo = [] := by
        generalize hx : view u = x at hbeats
        generalize hy : view w = y at hbeats
        cases hbeats
        exact (todo_eq_of_view_eq (hx.trans hy.symm)).trans hw
      refine ⟨finish u, ?_, (h.ends u).trans hdone⟩
      rw [runOperation, if_pos (by exact hs), beginOperation, hstart', andThen_next, hu, andThen_next, if_pos hdone]
    · obtain ⟨u, hu, hdone, -, -⟩ := runOperation_paced (rest := []) h (by exact hs) hstart' hpos hb' hw
        (List.append_nil _).symm
      exact ⟨finish u, hu, (h.ends u).trans hdone⟩
  obtain ⟨u, hu, hdone⟩ := hended
  obtain ⟨m, v, hv, hvdone, -⟩ := runOperation_fair h (s := { s with turns := pacedTurns n }) hs hu hdone hf
    (s' := s) (by rfl)
  exact ⟨m, v, hv, hvdone⟩

/-! ### Commands -/

/-- Commands of one action that samples an input: it comes at MAIN's first turn. -/
theorem runCommand_ends_fair {st : Stmt} (hst : st.silent = false) {finish : State → State}
    (hfinish : ∀ u, (finish u).todo = u.todo) (hrun : ∀ u : State, ∃ v, runStmt st u = .next v ∧ v.todo = u.todo)
    {f : Nat → Config.Turn} (hf : Fair f) {s : State} (hs : s.todo = []) :
    ∃ n u, runCommand [st] finish { s with turns := firstTurns f n } = .next u ∧ u.todo = [] := by
  obtain ⟨n, hmain, hfirst⟩ := fair_first_main hf
  obtain ⟨v, hv, htodo⟩ := hrun { agents (firstTurns f n) { s with turns := firstTurns f (n + 1) } with turns := [] }
  have hdone : v.todo = [] := htodo.trans ((agents_keeps _ _).todo.trans hs)
  refine ⟨n + 1, _, runCommand_one_ends hst finish hs hfirst (rest := []) ?_ hv hdone, (hfinish _).trans hdone⟩
  rw [firstTurns_snoc, hmain]

theorem hasPath_act {st : Stmt} (hst : st.silent = false) (hin : samplesInput st = false) (hpoll : st ≠ .poll) {s t : State}
    (h : runStmt st (before [] s) = .next (before [] t)) : HasPath (before [st] s) :=
  (leads_act hst hin hpoll inputFree_nil h settleFuel).hasPath

theorem hasPath_scroll {x : Text} (hx : Text.legal x = true) (s : State) : HasPath (before (bodyScroll x) s) := by
  obtain ⟨t, -, -, hpath⟩ := leads_scroll inputFree_nil (noNul_of_legal hx) (legal_iff.1 hx).1 s settleFuel
  rw [List.append_nil] at hpath
  exact hpath.hasPath

theorem hasPath_playRound (seq : Word16) {r : Byte} (hr : r.toNat ≤ 15) (s : State) :
    HasPath (before (bodyPlayRound seq r) s) := by
  obtain ⟨w, -, hb⟩ := beatsTo_playRound seq hr s
  exact ⟨_, _, rfl, hb⟩

theorem round_of_wf {seq : Word16} {r : Byte} (h : (Instr.playRound seq r).wf = true) : r.toNat ≤ 15 := by
  by_contra hr
  have hbad : (Instr.playRound seq r).badField = some .round := if_pos (Nat.not_le.1 hr)
  rw [Instr.wf, hbad] at h
  cases h

/-- A command of which `samplesInput` says so samples no input. -/
theorem inputFree_command {i : Instr} (h : (commandLines i).any samplesInput = false) : inputFree (commandLines i) := by
  simpa [inputFree] using h

/-- The commands that wait for no player and sample no input have a path. -/
theorem hasPath_command {i : Instr} (hi : i.wf = true) (hfree : inputFree (commandLines i)) (s : State) :
    HasPath (before (commandLines i) s) := by
  cases i
  case readBtn | tick | sampleEntropy | generate =>
    exact absurd (hfree _ (List.mem_singleton_self _)) (by decide)
  case capture seq r =>
    have hstart : samplesInput (.capStart seq r) = false :=
      hfree _ (List.mem_append_right (bodyShowWord litGo) (List.mem_singleton_self _))
    cases hstart
  case writeChar slot ch =>
    obtain ⟨hslot, hch⟩ : slot.toNat ≤ 6 ∧ ch ≠ 0 := freshLines_command hi s _ (List.mem_singleton_self _)
    exact hasPath_act (st := .write _ _) rfl rfl nofun (t := written slot.toNat [ch] s) (writeChar_eq_written (by omega) hch _)
  case setInd a b =>
    exact hasPath_act (st := .ind a b) rfl rfl nofun (t := emit (.ind a b) { s with outReg := indByte a b })
      (runStmt_ind a b _)
  case wait u => exact (leads_wait inputFree_nil u s (k := 15) (by decide)).hasPath
  case clear => exact (leads_clear inputFree_nil s settleFuel).hasPath
  case showWord x =>
    obtain ⟨t, -, hpath⟩ := leads_wordShown (noNul_of_legal ((wf_text x).1 ▸ hi)) inputFree_nil s settleFuel (l := 0) (by decide)
    rw [List.append_nil] at hpath
    exact hpath.hasPath
  case showPhrase x =>
    obtain ⟨w, hw, -, hb⟩ := beatsTo_showPhrase x (noNul_of_legal ((wf_text x).2.1 ▸ hi)) s
    exact ⟨_, w, hw, hb⟩
  case scroll x => exact hasPath_scroll ((wf_text x).2.2 ▸ hi) s
  case showNumber n =>
    obtain ⟨t, -, hpath⟩ := leads_showNumber n inputFree_nil s settleFuel (k := 0) (by decide)
    rw [List.append_nil] at hpath
    exact hpath.hasPath
  case playRound seq r => exact hasPath_playRound seq (round_of_wf hi) s

theorem runCommand_plain_ends_fair {i : Instr} (hi : i.wf = true) (hlines : (commandLines i).any samplesInput = false)
    (hresp : responds i = false) {f : Nat → Config.Turn} (hf : Fair f) {s : State} (hs : s.todo = []) :
    ∃ n t, runCommand (commandLines i) (commandEnd i) { s with turns := firstTurns f n } = .next t ∧ t.todo = [] := by
  have hfree := inputFree_command hlines
  rw [commandEnd, hresp, if_neg Bool.false_ne_true]
  exact runOperation_ends_fair (steady_command hfree) hs (push_eq_before hs _) (hasPath_command hi hfree s) hf

/-- Every command but GENERATE and CAPTURE ends in every fair interleaving. -/
theorem exec_ends_fair {f : Nat → Config.Turn} (hf : Fair f) {i : Instr} (hi : i.wf = true) (hgenerate : i ≠ .generate)
    (hcapture : ∀ seq round, i ≠ .capture seq round) {s : State} (hs : s.todo = []) :
    ∃ n t, exec i { s with turns := firstTurns f n } = .next t ∧ t.todo = [] := by
  have hexec : ∀ u, exec i u = runCommand (commandLines i) (commandEnd i) u := exec_of_wf hi
  have hend := keepsPosition_commandEnd i
  simp only [hexec]
  cases i
  case generate => exact absurd rfl hgenerate
  case capture seq round => exact absurd rfl (hcapture seq round)
  case readBtn => exact runCommand_ends_fair rfl hend (fun u => ⟨_, runStmt_readBtn u, rfl⟩) hf hs
  case tick => exact runCommand_ends_fair rfl hend (fun u => ⟨_, runStmt_tick u, rfl⟩) hf hs
  case sampleEntropy => exact runCommand_ends_fair rfl hend (fun u => ⟨_, runStmt_sample u, rfl⟩) hf hs
  all_goals exact runCommand_plain_ends_fair hi rfl rfl hf hs

/-! ### Labels -/

/-- The labels that wait for no player have a path. -/
theorem labelBegin_hasPath {l : Label} (hl : l ∉ ([.a2, .rl7, .g2] : List Label)) {s : State} (hwf : s.launch.wf = true)
    (hrl6 : l = .rl6 → s.seq ≠ none ∧ s.round.toNat ≤ 15) (hs : s.todo = []) :
    ∃ t, labelBegin l s = .next t ∧ HasPath t := by
  have hdone : ∀ t : State, t.todo = [] → HasPath t := fun t ht => ⟨0, t, ht, beatsTo_self _ (atPrimitive_nil ht)⟩
  have hlines : ∀ {body}, labelBegin l s = .next (push body s) → HasPath (before body s) →
      ∃ t, labelBegin l s = .next t ∧ HasPath t := fun hbegin h => ⟨_, hbegin.trans (push_eq_before hs _), h⟩
  have hmessage : ∀ {u n m}, Message l s u n m → ∃ t, labelBegin l s = .next t ∧ HasPath t := fun h =>
    let ⟨_, hbody, hb⟩ := h.beatsTo
    ⟨_, hbody.start, _, _, rfl, hb⟩
  cases l
  case a2 | rl7 | g2 => exact absurd hl (by decide)
  case s0 | rl0 | rl1 | rl3 | rl8 | rl9 | rl10 | g0 | g3 => exact ⟨_, rfl, hdone _ hs⟩
  case a0 =>
    have hbegin : labelBegin .a0 s = .next (before [.ind true true] (discardGame s)) :=
      push_eq_before (s := discardGame s) hs [.ind true true]
    exact ⟨_, hbegin, hasPath_act (st := .ind true true) rfl rfl nofun
      (t := emit (.ind true true) { discardGame s with outReg := indByte true true }) (runStmt_ind true true _)⟩
  case a1 => exact hlines (body := bodyScroll s.launch.params.promptText) (if_pos hwf) (hasPath_scroll hwf s)
  case rl2 =>
    obtain ⟨m, hm, -⟩ := message_rl2 hs
    exact hmessage hm
  case rl4 =>
    obtain ⟨m, hm, -⟩ := message_rl4 hs
    exact hmessage hm
  case rl5 =>
    obtain ⟨m, hm, -⟩ := message_rl5 hs
    exact hmessage hm
  case rl6 =>
    obtain ⟨hseq, hround⟩ := hrl6 rfl
    obtain ⟨q, hq⟩ := Option.ne_none_iff_exists'.1 hseq
    have hr : (s.round.setWidth 8).toNat ≤ 15 := by
      rw [BitVec.toNat_setWidth]
      exact (Nat.mod_le _ _).trans hround
    refine hlines (body := bodyPlayRound q (s.round.setWidth 8)) ?_ (hasPath_playRound q hr s)
    rw [labelBegin, hq, readReg_some]
    exact if_pos hr
  case g1 =>
    obtain ⟨w, -, hb⟩ := beatsTo_g1 s
    exact ⟨_, (labelLines_g1 hs).start, _, _, rfl, hb⟩

/-- No label ends at itself. -/
theorem labelEnd_cpc_ne (l : Label) (s : State) : (labelEnd l s).cpc ≠ l := by
  cases l
  case rl1 | rl3 | rl8 =>
    simp only [labelEnd]
    split <;> decide
  all_goals exact nofun

theorem execLabel_ended_cpc {l : Label} {s t : State} (h : execLabel l s = .next t) (ht : t.todo = []) : t.cpc ≠ l := by
  rw [execLabel, runOperation_finish, andThen_eq_next] at h
  obtain ⟨u, -, hend⟩ := h
  split at hend
  · cases hend
    exact labelEnd_cpc_ne l u
  · rename_i hgo
    cases hend
    exact absurd ht hgo

/-- Every label that waits for no player ends in every fair interleaving. -/
theorem execLabel_ends_fair {f : Nat → Config.Turn} (hf : Fair f) {l : Label} (hl : l ∉ ([.a2, .rl7, .g2] : List Label))
    {s : State} (hwf : s.launch.wf = true) (hrl6 : l = .rl6 → s.seq ≠ none ∧ s.round.toNat ≤ 15) (hs : s.todo = []) :
    ∃ n t, execLabel l { s with turns := firstTurns f n } = .next t ∧ t.todo = [] := by
  obtain ⟨t, ht, hpath⟩ := labelBegin_hasPath hl hwf hrl6 hs
  exact runOperation_ends_fair (steady_label l hl) hs ht hpath hf

end Sys2Proof.Proofs
end

section
/-! A WAIT in progress under a fair interleaving, and the runs whose turns are free: one step takes one free turn, so the steps
of an operation take the first turns of the fair free interleaving. -/

namespace Sys2Proof.Proofs

open Sys2Proof.Machine
open Sys2Proof.Safety
open Sys2Proof.Laws

/-! ### A WAIT in progress -/

/-- After the turns up to one at which MAIN's act answers, the turn itself. -/
theorem drive_snoc_main {ts : List Config.Turn} {s u v : State} (h : drive id ts s = .next u) (hu : u.todo ≠ [])
    (hmain : mainAct u = .next v) :
    drive id (ts ++ [.main]) s = .next (if v.todo = [] then { v with turns := [] } else v) := by
  rw [drive_append_go [.main] _ _ _ h hu]
  by_cases hdone : v.todo = []
  · rw [if_pos hdone, drive_main_of_end hmain hdone]
    rfl
  · rw [if_neg hdone, drive_main_of_go hmain hdone]
    rfl

/-- `s` after the poll that leaves `d` to go. -/
def ticked (d : Word16) (ls : List Stmt) (s : State) : State := { s with todo := ls, dcnt := some d, tickFlag := false }

theorem runStmt_poll_ticked {ls : List Stmt} {d : Word16} {s : State} (hdcnt : s.dcnt = some d) (h0 : d ≠ 0)
    (hflag : s.tickFlag = true) : runStmt .poll { s with todo := ls } =
      .next (ticked (d - 1) ((if d - 1 = 0 then [] else [.poll]) ++ ls) s) :=
  poll_tick (s := { s with todo := ls }) hdcnt h0 hflag

/-- In a fair interleaving a WAIT comes to the poll that ends it, and to that one only. -/
theorem drive_fair_last_poll {ls : List Stmt} : ∀ (n : Nat) (f : Nat → Config.Turn) (d : Word16) (s : State), Fair f →
    d.toNat = n + 1 → s.todo = .poll :: ls → s.dcnt = some d →
    ∃ m u, f m = .main ∧ drive id (firstTurns f m) s = .next u ∧ u.todo = .poll :: ls ∧ u.trace = s.trace ∧
      u.dcnt = some 1 ∧ u.tickFlag = true
  | n, f, d, s, hf, hd, hs, hdcnt => by
    have h0 : d ≠ 0 := by
      rintro rfl
      simp at hd
    obtain ⟨q, -, hq⟩ := hf.tick 0
    obtain ⟨m, u, hmain, hu, hflag, hpoll⟩ := drive_fair_poll h0 q f s hf hq hs hdcnt
    have htodo : u.todo = .poll :: ls := hpoll.todo.trans hs
    have hudcnt : u.dcnt = some d := hpoll.dcnt.trans hdcnt
    cases n with
    | zero =>
      have hone : d = 1 := BitVec.eq_of_toNat_eq hd
      exact ⟨m, u, hmain, hu, htodo, hpoll.trace, hone ▸ hudcnt, hflag⟩
    | succ n =>
      have hleft : d - 1 ≠ 0 := by bv_omega
      have hact : mainAct u = .next (ticked (d - 1) (.poll :: ls) u) := by
        have hrun := runStmt_poll_ticked (ls := ls) hudcnt h0 hflag
        rw [if_neg hleft] at hrun
        exact (mainAct_front htodo).trans ((congrArg (andThen · _) hrun).trans
          ((andThen_next _ _).trans (settle_active _ (st := .poll) (ls := ls) rfl rfl)))
      have hnext := drive_snoc_main hu (by rw [htodo]; exact List.cons_ne_nil _ _) hact
      rw [if_neg (by exact List.cons_ne_nil _ _), ← hmain, ← firstTurns_snoc] at hnext
      obtain ⟨k, v, hkmain, hv, hvtodo, hvtrace, hvdcnt, hvflag⟩ := drive_fair_last_poll n (fun k => f (m + 1 + k)) (d - 1)
        (ticked (d - 1) (.poll :: ls) u) (fair_shift hf (m + 1)) (by bv_omega) rfl rfl
      refine ⟨m + 1 + k, v, hkmain, ?_, hvtodo, hvtrace.trans hpoll.trace, hvdcnt, hvflag⟩
      rw [firstTurns_add, drive_append_go _ _ _ _ hnext (by exact List.cons_ne_nil _ _)]
      exact hv

/-- Every WAIT in progress ends in a fair interleaving. -/
theorem wait_in_progress_ends {f : Nat → Config.Turn} {s : State} {d : Word16} {ls : List Stmt} (hf : Fair f)
    (hs : s.todo = .poll :: ls) (hdcnt : s.dcnt = some d) (h0 : d ≠ 0) :
    (∃ n u, drive id (firstTurns f n) s = .next u ∧ f n = .main ∧ u.todo = .poll :: ls ∧ u.trace = s.trace ∧
      runStmt .poll { u with todo := ls } = .next { u with todo := ls, dcnt := some 0, tickFlag := false }) ∧
    ((∀ st ∈ ls.head?, st.silent = false) →
      ∃ n t, drive id (firstTurns f n) s = .next t ∧ t.todo = ls ∧ t.dcnt = some 0 ∧ t.trace = s.trace) := by
  obtain ⟨n, hn⟩ := Nat.exists_eq_succ_of_ne_zero fun h => h0 (BitVec.eq_of_toNat_eq h)
  obtain ⟨m, u, hmain, hu, htodo, htrace, hudcnt, hflag⟩ := drive_fair_last_poll n f d s hf hn hs hdcnt
  have hpoll := runStmt_poll_ticked (ls := ls) hudcnt (by decide) hflag
  refine ⟨⟨m, u, hu, hmain, htodo, htrace, hpoll⟩, fun hnext => ?_⟩
  have hact : mainAct u = .next (ticked 0 ls u) := (mainAct_front htodo).trans ((congrArg (andThen · _) hpoll).trans
    ((andThen_next _ _).trans (settle_atPrimitive _ hnext)))
  have hturn := drive_snoc_main hu (by rw [htodo]; exact List.cons_ne_nil _ _) hact
  rw [← hmain, ← firstTurns_snoc] at hturn
  refine ⟨m + 1, _, hturn, ?_⟩
  split
  · exact ⟨rfl, rfl, htrace⟩
  · exact ⟨rfl, rfl, htrace⟩

/-! ### Free turns -/

/-- `s` with this many free turns taken. -/
def withDraws (n : Nat) (s : State) : State := { s with draws := n }

/-- MAIN does not see how many free turns were taken. -/
theorem mainAct_withDraws (n : Nat) (s : State) :
    mainAct (withDraws n s) = andThen (mainAct s) fun t => .next (withDraws n t) := by
  refine (mainAct_withHidden s.freeOvf s.turns n s).trans ?_
  cases h : mainAct s with
  | next t =>
    have hkeep := mainAct_keeps s t h
    rw [andThen_next, andThen_next, ← hkeep.freeOvf, ← hkeep.turns]
    rfl
  | refused e => rfl
  | fault f => rfl

theorem agentAct_withDraws (n : Nat) (a : Config.Turn) (s : State) : agentAct a (withDraws n s) = withDraws n (agentAct a s) := by
  cases a
  case ftimer => rw [agentAct_ftimer, agentAct_ftimer]; rfl
  case isr => simp only [agentAct, takeInterrupt_eq, withDraws]
  all_goals rfl

theorem drive_withDraws (n : Nat) : ∀ (ts : List Config.Turn) (s : State),
    drive id ts (withDraws n s) = andThen (drive id ts s) fun t => .next (withDraws n t)
  | [], s => rfl
  | a :: ts, s => by
    by_cases ha : a = .main
    · subst ha
      rw [drive_main, drive_main, mainAct_withDraws]
      cases hmain : mainAct s with
      | next t =>
        simp only [andThen_next]
        by_cases hdone : t.todo = []
        · rw [if_pos (by exact hdone), if_pos hdone]
          rfl
        · rw [if_neg (by exact hdone), if_neg hdone]
          exact drive_withDraws n ts t
      | refused e => rfl
      | fault f => rfl
    · rw [drive_agent id ha, drive_agent id ha, agentAct_withDraws]
      exact drive_withDraws n ts (agentAct a s)

/-- A run through some turns takes the first of them. -/
theorem drive_first {a : Config.Turn} {ts : List Config.Turn} {s t : State} (h : drive id (a :: ts) s = .next t) :
    ∃ u, drive id [a] s = .next u ∧ u.draws = s.draws ∧ (s.turns = [] → u.turns = []) := by
  by_cases ha : a = .main
  · subst ha
    rw [drive_main, andThen_eq_next] at h
    obtain ⟨u, hu, -⟩ := h
    have hkeep := mainAct_keeps s u hu
    by_cases hdone : u.todo = []
    · exact ⟨_, drive_main_of_end hu hdone [], hkeep.draws, fun _ => rfl⟩
    · exact ⟨u, drive_main_of_go hu hdone [], hkeep.draws, fun hs => hkeep.turns.trans hs⟩
  · have hkeep := agentAct_keeps a s
    exact ⟨_, drive_agent id ha [] s, hkeep.draws, fun hs => hkeep.turns.trans hs⟩

/-- The free turns ahead of `s`. -/
def freeAhead (s : State) (k : Nat) : Config.Turn := Config.freeTurn (s.draws + k)

section

variable {start : State → Result} {finish : State → State}

/-- Where no turn is prescribed an operation in progress takes one free turn. -/
theorem runOperation_free {s u : State} (hs : s.todo ≠ []) (hturns : s.turns = [])
    (h : drive id [freeAhead s 0] s = .next u) :
    runOperation start finish s =
      .next (if u.todo = [] then finish (withDraws (s.draws + 1) u) else withDraws (s.draws + 1) u) := by
  have hdrive := drive_withDraws (s.draws + 1) [freeAhead s 0] s
  rw [h, andThen_next] at hdrive
  rw [runOperation, if_neg hs, andThen_next, if_neg hs, interleave, if_pos hturns, drive_finish finish _ _ (by exact hs)]
  rw [freeAhead, Nat.add_zero] at hdrive
  rw [show ({ s with draws := s.draws + 1 } : State) = withDraws (s.draws + 1) s from rfl, hdrive, andThen_next]
  by_cases hdone : u.todo = []
  · rw [if_pos (by exact hdone), if_pos hdone]
  · rw [if_neg (by exact hdone), if_neg hdone]

variable {P : State → Prop} (hstep : ∀ u, P u → step u = runOperation start finish u)
  (hkeep : ∀ u v, P u → runOperation start finish u = .next v → v.todo ≠ [] → P v)
include hstep hkeep

/-- An operation in progress that ends within the first free turns ends within as many steps. -/
theorem steps_of_drive_free (hends : ∀ u, (finish u).todo = u.todo) : ∀ (n : Nat) (s t : State), P s → s.todo ≠ [] →
    s.turns = [] → drive id (firstTurns (freeAhead s) n) s = .next t → t.todo = [] →
    ∃ m u v, andThen (runOperation start finish s) (steps m) = .next u ∧ u.todo = [] ∧ P v ∧
      runOperation start finish v = .next u
  | 0, s, t, _, hs, _, h, ht => by
    cases h
    exact absurd ht hs
  | n + 1, s, t, hP, hs, hturns, h, ht => by
    rw [firstTurns_succ] at h
    obtain ⟨u, hu, hdraws, hnone⟩ := drive_first h
    have hrun := runOperation_free (start := start) (finish := finish) hs hturns hu
    by_cases hdone : u.todo = []
    · rw [if_pos hdone] at hrun
      exact ⟨0, finish (withDraws (s.draws + 1) u), s, by rw [hrun, andThen_next]; rfl, (hends _).trans hdone, hP, hrun⟩
    · rw [if_neg hdone] at hrun
      have hP' := hkeep s _ hP hrun hdone
      rw [← List.singleton_append, drive_append_go _ _ _ _ hu hdone] at h
      have hahead : (fun k => freeAhead s (1 + k)) = freeAhead (withDraws (s.draws + 1) u) := by
        funext k
        rw [freeAhead, ← Nat.add_assoc]
        rfl
      have hdrive := drive_withDraws (s.draws + 1) (firstTurns (freeAhead (withDraws (s.draws + 1) u)) n) u
      rw [← hahead, h, andThen_next, hahead] at hdrive
      obtain ⟨m, w, v, hsteps, hw, hPv, hv⟩ := steps_of_drive_free hends n (withDraws (s.draws + 1) u) _ hP' hdone
        (hnone hturns) hdrive ht
      refine ⟨m + 1, w, v, ?_, hw, hPv, hv⟩
      rw [hrun, andThen_next, steps, hstep _ hP', hsteps]

/-- So does one that begins. -/
theorem steps_of_run_free (hblind : TurnsBlind start) (hfin : KeepsPosition finish) {s t : State} {n : Nat} (hP : P s)
    (hbegun : ∀ u, begun start s = .next u → P u ∧ u.turns = s.turns ∧ u.draws = s.draws) (hturns : s.turns = [])
    (h : runOperation start finish { s with turns := firstTurns (freeAhead s) n } = .next t) (ht : t.todo = []) :
    ∃ m u v, steps m s = .next u ∧ u.todo = [] ∧ P v ∧ runOperation start finish v = .next u := by
  have hone : ∀ {u}, runOperation start finish s = .next u → u.todo = [] →
      ∃ m u v, steps m s = .next u ∧ u.todo = [] ∧ P v ∧ runOperation start finish v = .next u := fun {u} hu hdone =>
    ⟨1, u, s, by rw [steps, hstep s hP, hu, andThen_next]; rfl, hdone, hP, hu⟩
  cases n with
  | zero =>
    have hsame : { s with turns := firstTurns (freeAhead s) 0 } = s := by
      rw [firstTurns, List.range_zero, List.map_nil, ← hturns]
    rw [hsame] at h
    exact hone h ht
  | succ n =>
    have hne : firstTurns (freeAhead s) (n + 1) ≠ [] := by
      rw [firstTurns_succ]
      exact List.cons_ne_nil _ _
    rw [runOperation_turns hblind finish s hne, andThen_eq_next] at h
    obtain ⟨u, hu, h⟩ := h
    obtain ⟨hPu, huturns, hudraws⟩ := hbegun u hu
    have hrun : runOperation start finish s = if u.todo = [] then .next (finish u) else interleave finish u := by
      change andThen (begun start s) _ = _
      rw [hu, andThen_next]
    by_cases hdone : u.todo = []
    · rw [if_pos hdone] at hrun
      exact hone hrun ((hfin u).trans hdone)
    · rw [if_neg hdone] at h hrun
      have hself : { u with turns := [] } = u := by rw [← hturns, ← huturns]
      have hahead : freeAhead s = freeAhead u := by
        funext k
        rw [freeAhead, freeAhead, hudraws]
      rw [hself, hahead, drive_finish finish _ _ hdone, andThen_eq_next] at h
      obtain ⟨x, hx, hend⟩ := h
      have hxdone : x.todo = [] := by
        by_contra hgo
        rw [if_neg hgo] at hend
        cases hend
        exact hgo ht
      obtain ⟨m, w, v, hsteps, hw, hPv, hv⟩ := steps_of_drive_free hstep hkeep hfin (n + 1) u x hPu hdone
        (huturns.trans hturns) hx hxdone
      refine ⟨m + 1, w, v, ?_, hw, hPv, hv⟩
      have hgoesOn : runOperation start finish u = interleave finish u := by
        rw [runOperation, if_neg hdone, andThen_next, if_neg hdone]
      rw [steps, hstep s hP, hrun, ← hgoesOn, hsteps]

end

/-! ### Where an operation stands -/

/-- The launch, CIDX and CPC are those of `s`. -/
structure SamePlace (s t : State) : Prop where
  launch : t.launch = s.launch
  cidx : t.cidx = s.cidx
  cpc : t.cpc = s.cpc

theorem samePlace_refl (s : State) : SamePlace s s := ⟨rfl, rfl, rfl⟩

theorem samePlace_trans {s t u : State} (h : SamePlace s t) (g : SamePlace t u) : SamePlace s u :=
  ⟨g.launch.trans h.launch, g.cidx.trans h.cidx, g.cpc.trans h.cpc⟩

theorem samePlace_of_mainKeeps {s t : State} (h : MainKeeps s t) : SamePlace s t := ⟨h.launch, h.cidx, h.cpc⟩

theorem samePlace_of_agentKeeps {s t : State} (h : AgentKeeps s t) : SamePlace s t := ⟨h.launch, h.cidx, h.cpc⟩

/-- The entry of an operation leaves the place, and the turns to come. -/
def EntryKeeps (start : State → Result) : Prop :=
  ∀ s, onNext (start s) fun t => SamePlace s t ∧ t.turns = s.turns ∧ t.draws = s.draws

theorem entryKeeps_push (body : List Stmt) : EntryKeeps fun s => .next (push body s) :=
  fun _ => (onNext_next _ _).2 ⟨⟨rfl, rfl, rfl⟩, rfl, rfl⟩

theorem entryKeeps_label (l : Label) : EntryKeeps (labelBegin l) := by
  intro s
  have hpush := fun ls => entryKeeps_push ls s
  cases l
  case a1 => exact fun t ht => hpush _ t (requireText_eq_next ht)
  case rl6 | rl7 =>
    simp only [labelBegin, onNext_readReg]
    exact fun q _ t ht => hpush _ t (requireRound_eq_next ht)
  case a2 | rl2 | rl4 | rl5 | g1 | g2 => exact hpush _
  all_goals
    rw [labelBegin, onNext_next]
    exact ⟨⟨rfl, rfl, rfl⟩, rfl, rfl⟩

section

variable {start : State → Result} (h : EntryKeeps start)
include h

theorem begun_keeps (s : State) :
    onNext (begun start s) fun t => SamePlace s t ∧ t.turns = s.turns ∧ t.draws = s.draws := by
  unfold begun
  split
  · rw [beginOperation, onNext_andThen]
    refine onNext_mono (h s) fun u ⟨hplace, hturns, hdraws⟩ => onNext_mono (settle_keeps settleFuel u) fun t ht => ?_
    exact ⟨samePlace_trans hplace (samePlace_of_mainKeeps ht), ht.turns.trans hturns, ht.draws.trans hdraws⟩
  · exact (onNext_next _ _).2 ⟨samePlace_refl s, rfl, rfl⟩

/-- A pause leaves the place. -/
theorem runOperation_pause_place {finish : State → State} (hfin : KeepsPosition finish) {s t : State}
    (hrun : runOperation start finish s = .next t) (ht : t.todo ≠ []) : SamePlace s t := by
  refine runOperation_onNext (I := SamePlace s) (Q := fun t => t.todo ≠ [] → SamePlace s t) (fun hs => ?begin)
    (fun _ => samePlace_refl s)
    (fun u hu => onNext_mono (mainAct_keeps u) fun _ hv => samePlace_trans hu (samePlace_of_mainKeeps hv))
    (fun a u hu => samePlace_trans hu (samePlace_of_agentKeeps (agentAct_keeps a u)))
    (fun u ts n hu => ⟨hu.launch, hu.cidx, hu.cpc⟩) (fun _ hu _ _ => hu)
    (fun u _ hdone hgo => absurd ((hfin u).trans hdone) hgo) t hrun ht
  have hbegin := begun_keeps h s
  rw [begun, if_pos hs] at hbegin
  exact onNext_mono hbegin fun u hu => hu.1

end

/-! ### Free runs of commands and labels -/

theorem fair_freeAhead (s : State) : Fair (freeAhead s) := fair_shift fair_freeTurn s.draws

/-- A command of an admitted list ends within some free steps. -/
theorem command_ends_free {s : State} {is : List Instr} {i : Instr} (hmode : s.launch.mode = .direct)
    (hdecode : decodeProgram s.launch.commands = .ok is) (hi : is[s.cidx]? = some i) (hgenerate : i ≠ .generate)
    (hcapture : ∀ seq round, i ≠ .capture seq round) (hs : s.todo = []) (hturns : s.turns = []) :
    ∃ n t, steps n s = .next t ∧ t.todo = [] ∧ t.cidx = s.cidx + 1 := by
  have hwf : i.wf = true := decodeFrom_wf hdecode i (List.mem_of_getElem? hi)
  obtain ⟨n, t, ht, hdone⟩ := exec_ends_fair (fair_freeAhead s) hwf hgenerate hcapture hs
  have hstep : ∀ u, SamePlace s u →
      step u = runOperation (fun s => .next (push (commandLines i) s)) (commandEnd i) u := fun u hu => by
    rw [step_of_command (is := is) (i := i) (hu.launch ▸ hmode) (hu.launch ▸ hdecode) (hu.cidx ▸ hi), exec_of_wf hwf]
    rfl
  rw [exec_of_wf hwf] at ht
  obtain ⟨m, u, v, hsteps, hu, hv, hlast⟩ := steps_of_run_free (P := SamePlace s) hstep
    (fun u v hu hrun hgo => samePlace_trans hu
      (runOperation_pause_place (entryKeeps_push _) (keepsPosition_commandEnd i) hrun hgo))
    (turnsBlind_push _) (keepsPosition_commandEnd i) (samePlace_refl s) (begun_keeps (entryKeeps_push _) s) hturns ht hdone
  have hexec : exec i v = .next u := (exec_of_wf hwf v).trans hlast
  have hcidx := exec_cidx hexec
  rw [if_pos hu, hv.cidx] at hcidx
  exact ⟨m, u, hsteps, hu, hcidx⟩

/-- A label that waits for no player ends within some free steps. -/
theorem label_ends_free {s : State} (hmode : s.launch.mode = .game) (hwf : s.launch.wf = true)
    (hl : s.cpc ∉ ([.a2, .rl7, .g2] : List Label)) (hrl6 : s.cpc = .rl6 → s.seq ≠ none ∧ s.round.toNat ≤ 15)
    (hs : s.todo = []) (hturns : s.turns = []) : ∃ n t, steps n s = .next t ∧ t.todo = [] ∧ t.cpc ≠ s.cpc := by
  obtain ⟨n, t, ht, hdone⟩ := execLabel_ends_fair (fair_freeAhead s) hl hwf hrl6 hs
  have hstep : ∀ u, SamePlace s u → step u = runOperation (labelBegin s.cpc) (labelEnd s.cpc) u := fun u hu =>
    step_of_label (hu.launch ▸ hmode) hu.cpc
  obtain ⟨m, u, v, hsteps, hu, -, hlast⟩ := steps_of_run_free (P := SamePlace s) hstep
    (fun u v hu hrun hgo => samePlace_trans hu
      (runOperation_pause_place (entryKeeps_label _) (keepsPosition_labelEnd s.cpc) hrun hgo))
    (turnsBlind_label _) (keepsPosition_labelEnd s.cpc) (samePlace_refl s) (begun_keeps (entryKeeps_label _) s) hturns ht hdone
  exact ⟨m, u, hsteps, hu, execLabel_ended_cpc hlast hu⟩

/-- Settles O32: what has a path ends in every fair interleaving, and the free turns are one. -/
theorem fairInterleavingsEndEveryWait : Obligations.FairInterleavingsEndEveryWait := by
  unfold Obligations.FairInterleavingsEndEveryWait
  refine ⟨fair_freeTurn, fun f i s hf hi hgenerate hcapture hs => ?command,
    fun f s d ls hf hs hdcnt h0 => wait_in_progress_ends hf hs hdcnt h0,
    fun s is i hmode hdecode hi hgenerate hcapture hs hturns =>
      command_ends_free hmode hdecode hi hgenerate hcapture hs hturns,
    fun s hmode hwf hl hrl6 hs => ⟨fun f hf => ?label, label_ends_free hmode hwf hl hrl6 hs⟩⟩
  case command =>
    obtain ⟨n, t, ht, hdone⟩ := exec_ends_fair hf hi hgenerate hcapture hs
    have hcidx := exec_cidx ht
    rw [if_pos hdone] at hcidx
    exact ⟨n, t, ht, hdone, hcidx⟩
  case label =>
    obtain ⟨n, t, ht, hdone⟩ := execLabel_ends_fair hf hl hwf hrl6 hs
    exact ⟨n, t, (step_of_label (s := { s with turns := firstTurns f n }) hmode rfl).trans ht, hdone,
      execLabel_ended_cpc ht hdone⟩

end Sys2Proof.Proofs
end

section
/-! CAPTURE (44_input_capture.md R220 to R224): where it stands between two actions of MAIN, and what each action makes of
that. Its lines sample the buttons, so it has no path of beats. -/

namespace Sys2Proof.Proofs

open Sys2Proof.Machine
open Sys2Proof.Safety
open Sys2Proof.Laws

/-! ### Actions -/

/-- A line of silent code that comes to a primitive. -/
theorem settle_step {n : Nat} {t u v : State} {st : Stmt} {ls : List Stmt} (ht : t.todo = st :: ls) (hst : st.silent = true)
    (hrun : runStmt st (before ls t) = .next u) (h : settle n u = .next v) : settle (n + 1) t = .next v := by
  rw [settle_silent n ht hst]
  exact (congrArg (andThen · _) hrun).trans ((andThen_next _ _).trans h)

theorem settle_front {n : Nat} {t : State} {st : Stmt} {ls : List Stmt} (ht : t.todo = st :: ls) (hst : st.silent = false) :
    settle n t = .next t := settle_active n ht hst

theorem mainAct_next {t u v : State} {st : Stmt} {ls : List Stmt} (ht : t.todo = st :: ls)
    (hrun : runStmt st (before ls t) = .next u) (h : settle settleFuel u = .next v) : mainAct t = .next v := by
  rw [mainAct_front ht]
  exact (congrArg (andThen · _) hrun).trans ((andThen_next _ _).trans h)

theorem push_before (ls ls' : List Stmt) (t : State) : push ls (before ls' t) = before (ls ++ ls') t := rfl

theorem before_self {t : State} {ls : List Stmt} (h : t.todo = ls) : before ls t = t := by rw [before, ← h]

/-! ### Where CAPTURE stands -/

/-- The lines of a press from its re-poll on. -/
def heldLines (seq : Word16) (r : Byte) (x : Config.Button) : List Stmt :=
  [.hold x, .ind false false, .compare seq x, .capTest seq r]

/-- The lines of a press from its release on. -/
def releasedLines (seq : Word16) (r : Byte) (x : Config.Button) : List Stmt :=
  [.ind false false, .compare seq x, .capTest seq r]

/-- The lines of a press from its indicator on. -/
def pressedLines (u seq : Word16) (r : Byte) (x : Config.Button) : List Stmt :=
  .ind (x = .a) (x = .b) :: .wait u :: heldLines seq r x

/-- CAPTURE begun at `s` stands before these lines, with these events since GO and `p` presses accepted. -/
structure CapAt (s : State) (ls : List Stmt) (es : List Event) (p : Nat) (t : State) : Prop where
  launch : t.launch = s.launch
  todo : t.todo = ls
  trace : t.trace = s.trace ++ (showWordTrace litGo ++ es)
  pcntPress : t.pcntPress = some (BitVec.ofNat 5 p)
  capOver : t.capOver = some false
  disp : ∀ slot < 7, t.disp[slot]? = some (wordSlot litGo slot)

/-- It stands in a WAIT of `d` more ticks before these lines. -/
structure CapWaits (s : State) (ls : List Stmt) (es : List Event) (p : Nat) (d : Word16) (t : State) : Prop where
  stands : CapAt s ((if d = 0 then [] else [.poll]) ++ ls) es p t
  dcnt : t.dcnt = some d

/-- It has come to its end, with this result and `n` presses accepted. -/
structure CapDone (s : State) (es : List Event) (over_ : Bool) (n : Nat) (t : State) : Prop where
  todo : t.todo = []
  ret : t.ret = if over_ then 1 else 0
  pcntPress : t.pcntPress = some (BitVec.ofNat 5 n)
  outReg : t.outReg = 0
  trace : t.trace = s.trace ++ (showWordTrace litGo ++ es)
  disp : ∀ slot < 7, t.disp[slot]? = some (wordSlot litGo slot)

/-- It has the characters `cs` of GO to write, from `slot` on, before these lines. -/
structure GoLeft (s : State) (ls : List Stmt) (slot : Nat) (cs more : Text) (t : State) : Prop where
  launch : t.launch = s.launch
  todo : t.todo = ls
  trace : t.trace ++ writesFrom slot cs ++ writesFrom 1 more = s.trace ++ showWordTrace litGo
  disp : ∀ j < 7, (setChars 1 more (setChars slot cs t.disp))[j]? = some (wordSlot litGo j)

/-- In the CLEAR of GO, before the write to slot `k`. -/
def Clearing (s : State) (seq : Word16) (r : Byte) (k : Nat) (t : State) : Prop :=
  k < 7 ∧ GoLeft s [.clear k, .putWord litGo, .capStart seq r] k (List.replicate (7 - k) Config.blank) litGo t

/-- In the word GO, before its character `k`. -/
def Spelling (s : State) (seq : Word16) (r : Byte) (k : Nat) (t : State) : Prop :=
  k < 2 ∧ t.i = some (BitVec.ofNat 3 k) ∧ GoLeft s [.putChars litGo, .capStart seq r] (1 + k) (litGo.drop k) [] t

/-! MAIN's part of the state is what these speak of. -/

section

variable {t u : State} (h : view t = view u)
include h

theorem launch_of_view : t.launch = u.launch := (congrArg State.launch h : (view t).launch = (view u).launch)
theorem pcntPress_of_view : t.pcntPress = u.pcntPress := (congrArg State.pcntPress h : (view t).pcntPress = (view u).pcntPress)
theorem capOver_of_view : t.capOver = u.capOver := (congrArg State.capOver h : (view t).capOver = (view u).capOver)
theorem ret_of_view : t.ret = u.ret := (congrArg State.ret h : (view t).ret = (view u).ret)

variable {s : State} {ls : List Stmt} {es : List Event} {p : Nat}

theorem CapAt.congr (hu : CapAt s ls es p u) : CapAt s ls es p t where
  launch := (launch_of_view h).trans hu.launch
  todo := (todo_eq_of_view_eq h).trans hu.todo
  trace := (trace_of_view h).trans hu.trace
  pcntPress := (pcntPress_of_view h).trans hu.pcntPress
  capOver := (capOver_of_view h).trans hu.capOver
  disp := disp_of_view h ▸ hu.disp

theorem CapWaits.congr {d : Word16} (hu : CapWaits s ls es p d u) : CapWaits s ls es p d t :=
  ⟨hu.stands.congr h, (dcnt_of_view h).trans hu.dcnt⟩

theorem CapDone.congr {over_ : Bool} {n : Nat} (hu : CapDone s es over_ n u) : CapDone s es over_ n t where
  todo := (todo_eq_of_view_eq h).trans hu.todo
  ret := (ret_of_view h).trans hu.ret
  pcntPress := (pcntPress_of_view h).trans hu.pcntPress
  outReg := (outReg_of_view h).trans hu.outReg
  trace := (trace_of_view h).trans hu.trace
  disp := disp_of_view h ▸ hu.disp

theorem GoLeft.congr {slot : Nat} {cs more : Text} (hu : GoLeft s ls slot cs more u) : GoLeft s ls slot cs more t where
  launch := (launch_of_view h).trans hu.launch
  todo := (todo_eq_of_view_eq h).trans hu.todo
  trace := (trace_of_view h) ▸ hu.trace
  disp := disp_of_view h ▸ hu.disp

theorem Clearing.congr {seq : Word16} {r : Byte} {k : Nat} (hu : Clearing s seq r k u) : Clearing s seq r k t :=
  ⟨hu.1, hu.2.congr h⟩

theorem Spelling.congr {seq : Word16} {r : Byte} {k : Nat} (hu : Spelling s seq r k u) : Spelling s seq r k t :=
  ⟨hu.1, (i_of_view h).trans hu.2.1, hu.2.2.congr h⟩

end

/-! ### GO -/

/-- A write takes the first character off what is left. -/
theorem GoLeft.written {s t : State} {ls : List Stmt} {slot : Nat} {c : Byte} {cs more : Text}
    (h : GoLeft s ls slot (c :: cs) more t) (ls' : List Stmt) :
    GoLeft s ls' (slot + 1) cs more (before ls' (written slot [c] t)) where
  launch := h.launch
  todo := rfl
  trace := by
    rw [← h.trace, before_trace, written_trace]
    simp [writesFrom]
  disp := h.disp

theorem GoLeft.atIndex {s t : State} {ls : List Stmt} {slot : Nat} {cs more : Text} (h : GoLeft s ls slot cs more t)
    (i : Option (BitVec 3)) : GoLeft s ls slot cs more (withI i t) := ⟨h.launch, h.todo, h.trace, h.disp⟩

/-- With nothing left to clear, the word is left. -/
theorem GoLeft.word {s t : State} {ls : List Stmt} {slot : Nat} {more : Text} (h : GoLeft s ls slot [] more t)
    (ls' : List Stmt) (i : Option (BitVec 3)) : GoLeft s ls' 1 more [] (before ls' (withI i t)) where
  launch := h.launch
  todo := rfl
  trace := by
    rw [← h.trace]
    simp [writesFrom, before, withI]
  disp := h.disp

section

variable {s : State} {seq : Word16} {r : Byte} {k : Nat} {t : State}

/-- A write of CLEAR that is not its last. -/
theorem Clearing.act (h : Clearing s seq r k t) (hk : k + 1 < 7) : ∃ u, mainAct t = .next u ∧ Clearing s seq r (k + 1) u := by
  obtain ⟨hlt, hleft⟩ := h
  have hchars : List.replicate (7 - k) Config.blank = Config.blank :: List.replicate (7 - (k + 1)) Config.blank := by
    rw [show 7 - k = 7 - (k + 1) + 1 by omega, List.replicate_succ]
  rw [hchars] at hleft
  have hrun : runStmt (.clear k) (before [.putWord litGo, .capStart seq r] t) =
      .next (before [.clear (k + 1), .putWord litGo, .capStart seq r] (written k [Config.blank] t)) := by
    rw [runStmt, lineClear, writeChar_eq_written (by omega) (by decide), andThen_next, if_pos (by omega)]
    rfl
  exact ⟨_, mainAct_next hleft.todo hrun (settle_front (before_todo _ _) rfl), hk, hleft.written _⟩

/-- CLEAR's last write, and put_word up to its first. -/
theorem Clearing.last (h : Clearing s seq r 6 t) : ∃ u, mainAct t = .next u ∧ Spelling s seq r 0 u := by
  obtain ⟨-, hleft⟩ := h
  have hchars : List.replicate (7 - 6) Config.blank = [Config.blank] := rfl
  rw [hchars] at hleft
  have hrun : runStmt (.clear 6) (before [.putWord litGo, .capStart seq r] t) =
      .next (before [.putWord litGo, .capStart seq r] (written 6 [Config.blank] t)) := by
    rw [runStmt, lineClear, writeChar_eq_written (by omega) (by decide), andThen_next, if_neg (by omega)]
    rfl
  have hword := runStmt_putWord_fits (w := litGo) (by decide) (by decide) [.capStart seq r] (written 6 [Config.blank] t)
  exact ⟨_, mainAct_next hleft.todo hrun (settle_step (before_todo _ _) rfl hword (settle_front (before_todo _ _) rfl)),
    by decide, rfl, (hleft.written []).word _ _⟩

/-- A character of GO. -/
theorem runStmt_putGo {c : Byte} (hc : litGo[k]? = some c) (hne : c ≠ 0) (hk : k < 2) (hi : t.i = some (BitVec.ofNat 3 k))
    (ls : List Stmt) : runStmt (.putChars litGo) (before ls t) =
      .next (before ((if k + 1 < 2 then [.putChars litGo] else []) ++ ls)
        (withI (some (BitVec.ofNat 3 (k + 1))) (written (k + 1) [c] t))) := by
  have hval : (BitVec.ofNat 3 k).toNat = k := Nat.mod_eq_of_lt (by omega)
  have hi' : (before ls t).i = some (BitVec.ofNat 3 k) := hi
  rw [runStmt, linePutChars, hi', readReg_some, hval, hc]
  simp only
  rw [writeChar_eq_written (by omega) hne, andThen_next, BitVec.ofNat_add]
  rfl

/-- `G`. -/
theorem Spelling.first (h : Spelling s seq r 0 t) : ∃ u, mainAct t = .next u ∧ Spelling s seq r 1 u := by
  obtain ⟨-, hi, hleft⟩ := h
  have hrun := runStmt_putGo (k := 0) rfl (by decide) (by decide) hi [.capStart seq r]
  have hnext := GoLeft.written (c := 0x47) (cs := litGo.drop 1) hleft [.putChars litGo, .capStart seq r]
  exact ⟨_, mainAct_next hleft.todo hrun (settle_front (before_todo _ _) rfl), by decide, rfl, hnext.atIndex _⟩

theorem runStmt_capTest {p : BitVec 5} {o : Bool} (hp : t.pcntPress = some p) (hover : t.capOver = some o) :
    runStmt (.capTest seq r) t = if p.toNat ≤ r.toNat ∧ o = false then .next (push [.capPoll seq r] t)
      else .next { t with ret := if o then 1 else 0 } := by
  rw [runStmt, lineCapTest, hp, readReg_some, hover, readReg_some]

theorem settle_capTest_go {n p : Nat} (ht : t.todo = [.capTest seq r]) (hp : t.pcntPress = some (BitVec.ofNat 5 p))
    (hover : t.capOver = some false) (hpr : p ≤ r.toNat) (hr : r.toNat ≤ 15) :
    settle (n + 1) t = .next (before [.capPoll seq r] t) := by
  have hval : (BitVec.ofNat 5 p).toNat = p := Nat.mod_eq_of_lt (by omega)
  refine settle_step ht rfl (u := before [.capPoll seq r] t) ?_ (settle_front (before_todo _ _) rfl)
  rw [runStmt_capTest (t := before [] t) hp hover, hval, if_pos ⟨hpr, rfl⟩]
  rfl

/-- `s` with this result, and no line left. -/
def withResult (over_ : Bool) (s : State) : State := { before [] s with ret := if over_ then 1 else 0 }

theorem settle_capTest_end {n p : Nat} {o : Bool} (ht : t.todo = [.capTest seq r])
    (hp : t.pcntPress = some (BitVec.ofNat 5 p)) (hover : t.capOver = some o) (hp5 : p < 32)
    (hend : o = false → r.toNat < p) : settle (n + 1) t = .next (withResult o t) := by
  have hval : (BitVec.ofNat 5 p).toNat = p := Nat.mod_eq_of_lt hp5
  refine settle_step ht rfl (u := withResult o t) ?_ (settle_nil _ rfl)
  rw [runStmt_capTest (t := before [] t) hp hover, hval, if_neg fun h => absurd (hend h.2) (Nat.not_lt.2 h.1)]
  rfl

/-- `t` with no press counted. -/
def noPress (t : State) : State := { t with pcntPress := some 0, capOver := some false }

theorem runStmt_capStart (ls : List Stmt) (t : State) :
    runStmt (.capStart seq r) (before ls t) = .next (before (.capTest seq r :: ls) (noPress t)) := rfl

theorem settle_capStart {n : Nat} (ht : t.todo = [.capStart seq r]) (hr : r.toNat ≤ 15) :
    settle (n + 2) t = .next (before [.capPoll seq r] (noPress t)) := by
  have htest : settle (n + 1) (before [.capTest seq r] (noPress t)) = .next (before [.capPoll seq r] (noPress t)) :=
    settle_capTest_go (p := 0) (t := before [.capTest seq r] (noPress t)) rfl rfl rfl (Nat.zero_le _) hr
  exact settle_step ht rfl (runStmt_capStart [] t) htest

/-- `O`, and the loop up to its first poll. -/
theorem Spelling.last (hr : r.toNat ≤ 15) (h : Spelling s seq r 1 t) :
    ∃ u, mainAct t = .next u ∧ CapAt s [.capPoll seq r] [] 0 u := by
  obtain ⟨-, hi, hleft⟩ := h
  have hrun := runStmt_putGo (k := 1) (c := 0x4F) rfl (by decide) (by decide) hi [.capStart seq r]
  rw [if_neg (by decide), List.nil_append] at hrun
  have hdone := (GoLeft.written (c := 0x4F) (cs := []) hleft []).atIndex (some (BitVec.ofNat 3 (1 + 1)))
  generalize hv : withI (some (BitVec.ofNat 3 (1 + 1))) (written (1 + 1) [0x4F] t) = v at hrun
  have hdone' : GoLeft s [] 3 [] [] (before [] v) := hv ▸ hdone
  have htrace : v.trace = s.trace ++ (showWordTrace litGo ++ []) := by
    rw [List.append_nil, ← hdone'.trace, before_trace]
    exact ((List.append_nil _).trans (List.append_nil _)).symm
  exact ⟨_, mainAct_next hleft.todo hrun (settle_capStart (before_todo _ _) hr),
    hdone'.launch, rfl, htrace, rfl, rfl, hdone'.disp⟩

/-! ### The loop -/

variable {es : List Event} {p : Nat}

/-- The press a poll takes (R224). -/
def pressAt (levels : Byte) : Option Config.Button :=
  if levelsPress .a levels then some .a else if levelsPress .b levels then some .b else none

theorem runStmt_capPoll (seq : Word16) (r : Byte) (t : State) : runStmt (.capPoll seq r) (before [] t) =
    .next (before ((pressAt t.inReg).elim [.capTest seq r] (pressedLines t.launch.params.wDebounce seq r)) t) := by
  have hlines : ∀ pa pb : Bool, (if pa then pressLines seq .a t else if pb then pressLines seq .b t else []) ++ [.capTest seq r] =
      (if pa then some Config.Button.a else if pb then some .b else none).elim [.capTest seq r]
        (pressedLines t.launch.params.wDebounce seq r) := by
    intro pa pb
    cases pa
    · cases pb <;> rfl
    · rfl
  rw [runStmt, lineCapPoll, readButtons_eq, push_before, List.append_nil, pressAt, levelsPress, levelsPress, ← hlines]
  rfl

/-- A poll that finds a press comes to its indicator. -/
theorem CapAt.poll_press (h : CapAt s [.capPoll seq r] es p t) {x : Config.Button} (hx : pressAt t.inReg = some x) :
    ∃ u, mainAct t = .next u ∧ CapAt s (pressedLines s.launch.params.wDebounce seq r x) es p u := by
  have hrun := runStmt_capPoll seq r t
  rw [hx, h.launch] at hrun
  exact ⟨_, mainAct_next h.todo hrun (settle_front (before_todo _ _) rfl), h.launch, rfl, h.trace, h.pcntPress, h.capOver,
    h.disp⟩

/-- A poll that finds none comes to the next. -/
theorem CapAt.poll_idle (hr : r.toNat ≤ 15) (hp : p ≤ r.toNat) (h : CapAt s [.capPoll seq r] es p t)
    (hx : pressAt t.inReg = none) : ∃ u, mainAct t = .next u ∧ CapAt s [.capPoll seq r] es p u := by
  have hrun := runStmt_capPoll seq r t
  rw [hx] at hrun
  exact ⟨_, mainAct_next h.todo hrun (settle_capTest_go (before_todo _ _) h.pcntPress h.capOver hp hr), h.launch, rfl,
    h.trace, h.pcntPress, h.capOver, h.disp⟩

/-- Silent code at a WAIT before a primitive. -/
theorem settle_wait {n : Nat} {st : Stmt} {ls : List Stmt} (hst : st.silent = false) (d : Word16)
    (ht : t.todo = .wait d :: st :: ls) :
    settle (n + 1) t = .next (before ((if d = 0 then [] else [.poll]) ++ st :: ls) (withDcnt d t)) := by
  refine settle_step ht rfl (runStmt_wait d (st :: ls) t) ?_
  by_cases h0 : d = 0
  · rw [if_pos h0]
    exact settle_front (before_todo _ _) hst
  · rw [if_neg h0]
    exact settle_front (before_todo _ _) rfl

theorem capWaits_before {ls : List Stmt} (h : CapAt s ls es p t) (d : Word16) (ls' : List Stmt) :
    CapWaits s ls' es p d (before ((if d = 0 then [] else [.poll]) ++ ls') (withDcnt d t)) :=
  ⟨⟨h.launch, rfl, h.trace, h.pcntPress, h.capOver, h.disp⟩, rfl⟩

/-- The indicator of a press, and its first WAIT. -/
theorem CapAt.light {x : Config.Button} (h : CapAt s (pressedLines s.launch.params.wDebounce seq r x) es p t) :
    ∃ u, mainAct t = .next u ∧
      CapWaits s (heldLines seq r x) (es ++ [.ind (x = .a) (x = .b)]) p s.launch.params.wDebounce u := by
  have hrun : runStmt (.ind (x = .a) (x = .b)) (before (.wait s.launch.params.wDebounce :: heldLines seq r x) t) =
      .next (before (.wait s.launch.params.wDebounce :: heldLines seq r x)
        (emit (.ind (x = .a) (x = .b)) { t with outReg := indByte (x = .a) (x = .b) })) := runStmt_ind _ _ _
  have hlit : CapAt s [] (es ++ [.ind (x = .a) (x = .b)]) p (before []
      (emit (.ind (x = .a) (x = .b)) { t with outReg := indByte (x = .a) (x = .b) })) := by
    refine ⟨h.launch, rfl, ?_, h.pcntPress, h.capOver, h.disp⟩
    rw [before_trace, emit_trace, h.trace]
    simp only [List.append_assoc]
  exact ⟨_, mainAct_next h.todo hrun (settle_wait (st := .hold x) rfl _ rfl), capWaits_before hlit _ _⟩

/-- A poll of the WAIT. -/
theorem CapWaits.poll {st : Stmt} {ls : List Stmt} (hst : st.silent = false) {d : Word16}
    (h : CapWaits s (st :: ls) es p d t) (h0 : d ≠ 0) :
    ∃ u, mainAct t = .next u ∧ CapWaits s (st :: ls) es p (if t.tickFlag then d - 1 else d) u := by
  obtain ⟨hat, hdcnt⟩ := h
  have htodo : t.todo = .poll :: st :: ls := by rw [hat.todo, if_neg h0]; rfl
  have hdcnt' : (before (st :: ls) t).dcnt = some d := hdcnt
  cases hflag : t.tickFlag with
  | false =>
    have hrun : runStmt .poll (before (st :: ls) t) = .next t :=
      (poll_idle hdcnt' h0 hflag).trans (congrArg Host.Outcome.next (before_self htodo))
    exact ⟨t, mainAct_next htodo hrun (settle_front htodo rfl), hat, hdcnt⟩
  | true =>
    have hrun := poll_tick hdcnt' h0 (by exact hflag)
    refine ⟨before ((if d - 1 = 0 then [] else [.poll]) ++ st :: ls) (withDcnt (d - 1) { t with tickFlag := false }),
      mainAct_next htodo hrun ?_, ⟨hat.launch, rfl, hat.trace, hat.pcntPress, hat.capOver, hat.disp⟩, rfl⟩
    by_cases hlast : d - 1 = 0
    · rw [if_pos hlast]
      exact settle_front rfl hst
    · rw [if_neg hlast]
      exact settle_front rfl rfl

theorem runStmt_hold (x : Config.Button) (ls : List Stmt) (t : State) : runStmt (.hold x) (before ls t) =
    .next (before ((if levelsPress x t.inReg then [.wait t.launch.params.wDebounce, .hold x] else []) ++ ls) t) := by
  rw [runStmt, lineHold, readButtons_eq]
  cases x <;> rfl

/-- A re-poll that finds the button held waits again. -/
theorem CapAt.hold {x : Config.Button} (h : CapAt s (heldLines seq r x) es p t) (hx : levelsPress x t.inReg = true) :
    ∃ u, mainAct t = .next u ∧ CapWaits s (heldLines seq r x) es p s.launch.params.wDebounce u := by
  have hrun := runStmt_hold x (releasedLines seq r x) t
  rw [if_pos hx, h.launch] at hrun
  exact ⟨_, mainAct_next h.todo hrun (settle_wait (st := .hold x) rfl _ rfl), capWaits_before h _ _⟩

/-- One that finds it released comes to the end of the press. -/
theorem CapAt.release {x : Config.Button} (h : CapAt s (heldLines seq r x) es p t) (hx : levelsPress x t.inReg = false) :
    ∃ u, mainAct t = .next u ∧ CapAt s (releasedLines seq r x) es p u := by
  have hrun := runStmt_hold x (releasedLines seq r x) t
  rw [hx, if_neg Bool.false_ne_true] at hrun
  exact ⟨_, mainAct_next h.todo hrun (settle_front (before_todo _ _) rfl), h.launch, rfl, h.trace, h.pcntPress, h.capOver,
    h.disp⟩

/-- `t` after the last SetInd of a press. -/
def darkened (t : State) : State := emit (.ind false false) { t with outReg := 0 }

theorem CapAt.darkened_trace {ls : List Stmt} (h : CapAt s ls es p t) :
    (darkened t).trace = s.trace ++ (showWordTrace litGo ++ (es ++ [.ind false false])) := by
  rw [darkened, emit_trace, h.trace]
  simp only [List.append_assoc]

/-- A press that does not match ends CAPTURE. -/
theorem CapAt.mismatch (hp : p ≤ r.toNat) (hr : r.toNat ≤ 15) {x : Config.Button}
    (h : CapAt s (releasedLines seq r x) es p t) (hx : seqBit seq p ≠ bitOf x) :
    ∃ u, mainAct t = .next u ∧ CapDone s (es ++ [.ind false false]) true p u := by
  have hval : (BitVec.ofNat 5 p).toNat = p := Nat.mod_eq_of_lt (by omega)
  have hcompare : runStmt (.compare seq x) (before [.capTest seq r] (darkened t)) =
      .next (before [.capTest seq r] { darkened t with capOver := some true }) := by
    rw [runStmt_compare seq x (s := before [.capTest seq r] (darkened t)) h.pcntPress, hval, if_neg hx]
    rfl
  have hend := settle_capTest_end (n := 14) (t := before [.capTest seq r] { darkened t with capOver := some true })
    rfl h.pcntPress rfl (by omega) nofun
  exact ⟨_, mainAct_next h.todo (runStmt_dark _ t) (settle_step (before_todo _ _) rfl hcompare hend),
    rfl, rfl, h.pcntPress, rfl, h.darkened_trace, h.disp⟩

theorem runStmt_compare_match (hp : p ≤ 15) {x : Config.Button} {ls : List Stmt} (h : CapAt s ls es p t)
    (hx : seqBit seq p = bitOf x) (ls' : List Stmt) : runStmt (.compare seq x) (before ls' (darkened t)) =
      .next (before ls' { darkened t with pcntPress := some (BitVec.ofNat 5 (p + 1)) }) := by
  have hval : (BitVec.ofNat 5 p).toNat = p := Nat.mod_eq_of_lt (by omega)
  rw [runStmt_compare seq x (s := before ls' (darkened t)) h.pcntPress, hval, if_pos hx, BitVec.ofNat_add]
  rfl

/-- The last press that matches ends it too. -/
theorem CapAt.complete (hr : r.toNat ≤ 15) {x : Config.Button} (h : CapAt s (releasedLines seq r x) es r.toNat t)
    (hx : seqBit seq r.toNat = bitOf x) :
    ∃ u, mainAct t = .next u ∧ CapDone s (es ++ [.ind false false]) false (r.toNat + 1) u := by
  have hcompare := runStmt_compare_match hr h hx [.capTest seq r]
  have hend := settle_capTest_end (n := 14) (o := false)
    (t := before [.capTest seq r] { darkened t with pcntPress := some (BitVec.ofNat 5 (r.toNat + 1)) })
    rfl rfl h.capOver (by omega) fun _ => Nat.lt_succ_self _
  exact ⟨_, mainAct_next h.todo (runStmt_dark _ t) (settle_step (before_todo _ _) rfl hcompare hend),
    rfl, rfl, rfl, rfl, h.darkened_trace, h.disp⟩

/-- Any other that matches is accepted, and CAPTURE polls for the next. -/
theorem CapAt.accept (hp : p < r.toNat) (hr : r.toNat ≤ 15) {x : Config.Button}
    (h : CapAt s (releasedLines seq r x) es p t) (hx : seqBit seq p = bitOf x) :
    ∃ u, mainAct t = .next u ∧ CapAt s [.capPoll seq r] (es ++ [.ind false false]) (p + 1) u := by
  have hcompare := runStmt_compare_match (by omega) h hx [.capTest seq r]
  have hgo := settle_capTest_go (n := 14) (p := p + 1)
    (t := before [.capTest seq r] { darkened t with pcntPress := some (BitVec.ofNat 5 (p + 1)) })
    rfl rfl h.capOver hp hr
  exact ⟨_, mainAct_next h.todo (runStmt_dark _ t) (settle_step (before_todo _ _) rfl hcompare hgo),
    h.launch, rfl, h.darkened_trace, rfl, h.capOver, h.disp⟩

end

end Sys2Proof.Proofs
end

section
/-! The runs of CAPTURE: the one the presses of a script prescribe, and what every run that ends has judged. -/

namespace Sys2Proof.Proofs

open Sys2Proof.Machine
open Sys2Proof.Safety
open Sys2Proof.Laws

/-! ### Prescribed turns -/

/-- Through these turns the operation goes on from `s` to `t`. -/
def Runs (ts : List Config.Turn) (s t : State) : Prop := ∀ us, drive id (ts ++ us) s = drive id us t

theorem runs_nil (s : State) : Runs [] s s := fun _ => rfl

theorem Runs.trans {ts us : List Config.Turn} {s t u : State} (h : Runs ts s t) (g : Runs us t u) : Runs (ts ++ us) s u :=
  fun vs => by rw [List.append_assoc, h, g]

theorem runs_main {s t : State} (h : mainAct s = .next t) (ht : t.todo ≠ []) : Runs [.main] s t :=
  fun us => drive_main_of_go h ht us

theorem runs_agent {a : Config.Turn} (ha : a ≠ .main) (s : State) : Runs [a] s (agentAct a s) :=
  fun us => drive_agent id ha us s

/-- MAIN's turn after one of another agent. -/
theorem runs_agent_main {a : Config.Turn} (ha : a ≠ .main) {s t : State} (h : mainAct (agentAct a s) = .next t)
    (ht : t.todo ≠ []) : Runs [a, .main] s t := (runs_agent ha s).trans (runs_main h ht)

theorem runs_paced_succ {n : Nat} {s t u : State} (h : mainAct (agentAct .ptimerTick s) = .next t) (ht : t.todo ≠ [])
    (g : Runs (pacedTurns n) t u) : Runs (pacedTurns (n + 1)) s u :=
  (runs_agent_main (by decide) h ht).trans g

section

variable {s t : State} {seq : Word16} {r : Byte} {es : List Event} {p : Nat}

theorem CapAt.todo_ne {st : Stmt} {ls : List Stmt} (h : CapAt s (st :: ls) es p t) : t.todo ≠ [] := by
  rw [h.todo]
  exact List.cons_ne_nil _ _

theorem GoLeft.todo_ne {st : Stmt} {ls : List Stmt} {slot : Nat} {cs more : Text} (h : GoLeft s (st :: ls) slot cs more t) :
    t.todo ≠ [] := by
  rw [h.todo]
  exact List.cons_ne_nil _ _

theorem CapWaits.todo_ne {st : Stmt} {ls : List Stmt} {d : Word16} (h : CapWaits s (st :: ls) es p d t) : t.todo ≠ [] := by
  rw [h.stands.todo]
  exact List.append_ne_nil_of_right_ne_nil _ (List.cons_ne_nil _ _)

theorem runs_clearing : ∀ {m k : Nat} {t : State}, k + m = 6 → Clearing s seq r k t →
    ∃ u, Runs (pacedTurns (m + 1)) t u ∧ Spelling s seq r 0 u
  | 0, k, t, hk, h => by
    obtain rfl : k = 6 := hk
    obtain ⟨u, hu, hspell⟩ := (h.congr (view_agentAct .ptimerTick t)).last
    exact ⟨u, runs_paced_succ hu hspell.2.2.todo_ne (runs_nil u), hspell⟩
  | m + 1, k, t, hk, h => by
    obtain ⟨u, hu, hclear⟩ := (h.congr (view_agentAct .ptimerTick t)).act (by omega)
    obtain ⟨v, hv, hspell⟩ := runs_clearing (m := m) (by omega) hclear
    exact ⟨v, runs_paced_succ hu hclear.2.todo_ne hv, hspell⟩

/-- The nine writes of GO. -/
theorem runs_go (hr : r.toNat ≤ 15) (h : Clearing s seq r 0 t) :
    ∃ u, Runs (pacedTurns 9) t u ∧ CapAt s [.capPoll seq r] [] 0 u := by
  obtain ⟨u, hu, hfirst⟩ := runs_clearing (m := 6) rfl h
  obtain ⟨v, hv, hlast⟩ := (hfirst.congr (view_agentAct .ptimerTick u)).first
  obtain ⟨w, hw, hpoll⟩ := (hlast.congr (view_agentAct .ptimerTick v)).last hr
  exact ⟨w, hu.trans (runs_paced_succ (n := 1) hv hlast.2.2.todo_ne
    (runs_paced_succ (n := 0) hw hpoll.todo_ne (runs_nil w))), hpoll⟩

/-- A WAIT with a tick before each poll. -/
theorem runs_capWaits {st : Stmt} {ls : List Stmt} (hst : st.silent = false) : ∀ {n : Nat} {d : Word16} {t : State},
    d.toNat = n → CapWaits s (st :: ls) es p d t → ∃ u, Runs (pacedTurns n) t u ∧ CapAt s (st :: ls) es p u
  | 0, d, t, hd, h => by
    have hstands := h.stands
    rw [if_pos (BitVec.eq_of_toNat_eq hd), List.nil_append] at hstands
    exact ⟨t, runs_nil t, hstands⟩
  | n + 1, d, t, hd, h => by
    have h0 : d ≠ 0 := by
      rintro rfl
      simp at hd
    obtain ⟨u, hu, hwait⟩ := (h.congr (view_agentAct .ptimerTick t)).poll hst h0
    rw [if_pos (by rfl)] at hwait
    obtain ⟨v, hv, hdone⟩ := runs_capWaits hst (n := n) (by bv_omega) hwait
    exact ⟨v, runs_paced_succ hu hwait.todo_ne hv, hdone⟩

/-- Polls that find no button pressed. -/
theorem runs_idle (hr : r.toNat ≤ 15) (hp : p ≤ r.toNat) : ∀ {ls : List Byte} {t : State},
    (∀ l ∈ ls, pressAt l = none) → CapAt s [.capPoll seq r] es p t →
    ∃ u, Runs (ls.flatMap fun l => [.player l, .main]) t u ∧ CapAt s [.capPoll seq r] es p u
  | [], t, _, h => ⟨t, runs_nil t, h⟩
  | l :: ls, t, hls, h => by
    obtain ⟨hl, hls⟩ := List.forall_mem_cons.1 hls
    obtain ⟨u, hu, hpoll⟩ := (h.congr (view_agentAct (.player l) t)).poll_idle hr hp hl
    obtain ⟨v, hv, hpolls⟩ := runs_idle hr hp hls hpoll
    exact ⟨v, (runs_agent_main (a := .player _) nofun hu hpoll.todo_ne).trans hv, hpolls⟩

/-- Re-polls that find the button held, each after its WAIT. -/
theorem runs_held {x : Config.Button} : ∀ {ls : List Byte} {t : State}, (∀ l ∈ ls, levelsPress x l = true) →
    CapAt s (heldLines seq r x) es p t →
    ∃ u, Runs (ls.flatMap fun l => [.player l, .main] ++ pacedTurns s.launch.params.wDebounce.toNat) t u ∧
      CapAt s (heldLines seq r x) es p u
  | [], t, _, h => ⟨t, runs_nil t, h⟩
  | l :: ls, t, hls, h => by
    obtain ⟨hl, hls⟩ := List.forall_mem_cons.1 hls
    obtain ⟨u, hu, hwait⟩ := (h.congr (view_agentAct (.player l) t)).hold hl
    obtain ⟨v, hv, hheld⟩ := runs_capWaits (st := .hold x) rfl rfl hwait
    obtain ⟨w, hw, hrest⟩ := runs_held hls hheld
    exact ⟨w, ((runs_agent_main (a := .player _) nofun hu hwait.todo_ne).trans hv).trans hw, hrest⟩

/-- The levels of a press, as CAPTURE reads them. -/
theorem Press.ok_iff (x : Press) : x.ok = true ↔ (∀ l ∈ x.idle, pressAt l = none) ∧ pressAt x.down = some x.button ∧
    (∀ l ∈ x.held, levelsPress x.button l = true) ∧ levelsPress x.button x.up = false := by
  have hnone : ∀ l, pressAt l = none ↔ (!levelsPress .a l && !levelsPress .b l) = true := by
    intro l
    unfold pressAt
    cases levelsPress .a l
    · cases levelsPress .b l <;> simp
    · simp
  have hsome : pressAt x.down = some x.button ↔
      (levelsPress x.button x.down && (x.button = .a || !levelsPress .a x.down)) = true := by
    unfold pressAt
    cases x.button
    · cases levelsPress .a x.down
      · cases levelsPress .b x.down <;> simp
      · simp
    · cases levelsPress .a x.down
      · cases levelsPress .b x.down <;> simp
      · simp
  simp only [Press.ok, hnone, hsome, Bool.and_eq_true, List.all_eq_true, Bool.not_eq_true', and_assoc]

/-- The turns of a press up to its last, at which both indicators go off. -/
def heldTurns (debounce : Nat) (x : Press) : List Config.Turn :=
  x.idle.flatMap (fun l => [Config.Turn.player l, .main]) ++ [Config.Turn.player x.down, .main, .main] ++
    pacedTurns debounce ++ x.held.flatMap (fun l => [Config.Turn.player l, .main] ++ pacedTurns debounce) ++
    [Config.Turn.player x.up, .main]

theorem pressTurns_eq (debounce : Nat) (x : Press) : pressTurns debounce x = heldTurns debounce x ++ [.main] := by
  rw [pressTurns, heldTurns, List.append_assoc _ [_, _] [_]]
  rfl

/-- A press up to its release. -/
theorem runs_press (hr : r.toNat ≤ 15) (hp : p ≤ r.toNat) {x : Press} (hx : x.ok = true)
    (h : CapAt s [.capPoll seq r] es p t) : ∃ u, Runs (heldTurns s.launch.params.wDebounce.toNat x) t u ∧
      CapAt s (releasedLines seq r x.button) (es ++ [.ind (x.button = .a) (x.button = .b)]) p u := by
  obtain ⟨hidle, hdown, hheld, hup⟩ := (Press.ok_iff x).1 hx
  obtain ⟨t1, h1, hpoll⟩ := runs_idle hr hp hidle h
  obtain ⟨t2, h2, hpressed⟩ := (hpoll.congr (view_agentAct (.player x.down) t1)).poll_press hdown
  obtain ⟨t3, h3, hlit⟩ := hpressed.light
  obtain ⟨t4, h4, hwaited⟩ := runs_capWaits (st := .hold x.button) rfl rfl hlit
  obtain ⟨t5, h5, hrepolled⟩ := runs_held hheld hwaited
  obtain ⟨t6, h6, hreleased⟩ := (hrepolled.congr (view_agentAct (.player x.up) t5)).release hup
  have hpress : Runs [.player x.down, .main, .main] t1 t3 :=
    (runs_agent_main (a := .player _) nofun h2 hpressed.todo_ne).trans (runs_main h3 hlit.todo_ne)
  exact ⟨t6, (((h1.trans hpress).trans h4).trans h5).trans (runs_agent_main (a := .player _) nofun h6 hreleased.todo_ne), hreleased⟩

end

/-! ### The verdict on the presses -/

/-- What CAPTURE does not take is less than there was. -/
theorem length_left_lt {seq : Word16} {r : Nat} : ∀ {xs left : List Config.Button} {p n : Nat} {o : Bool},
    captureVerdict seq r p xs = some (o, n, left) → left.length < xs.length
  | [], _, _, _, _, h => by cases h
  | x :: xs, left, p, n, o, h => by
    rw [captureVerdict] at h
    split at h
    · cases h
      exact Nat.lt_succ_self _
    · split at h
      · cases h
        exact Nat.lt_succ_self _
      · exact (length_left_lt h).trans (Nat.lt_succ_self _)

/-- The presses CAPTURE does not take, from their number. -/
theorem left_eq_tail {x : Press} {xs left : List Press} (h : left <:+ x :: xs)
    (hmap : xs.map (·.button) = left.map (·.button)) : left = xs := by
  have hlen : xs.length = left.length := by simpa using congrArg List.length hmap
  rcases List.suffix_cons_iff.1 h with rfl | hsuffix
  · simp at hlen
  · exact hsuffix.eq_of_length hlen.symm

section

variable {s : State} {seq : Word16} {r : Byte} {over_ : Bool} {n : Nat}

/-- The last press CAPTURE takes. -/
theorem drive_last_press {t u : State} {x : Press} {xs : List Press} {es : List Event} {rest : List Config.Turn}
    {debounce : Nat} (hruns : Runs (heldTurns debounce x) t u) {v : State} (hv : mainAct u = .next v)
    (hdone : CapDone s (es ++ pressTrace [x.button]) over_ n v) :
    ∃ w, drive id ((x :: xs).flatMap (pressTurns debounce) ++ rest) t = .next w ∧
      CapDone s (es ++ pressTrace [x.button]) over_ n w ∧ w.turns = xs.flatMap (pressTurns debounce) ++ rest := by
  refine ⟨{ v with turns := xs.flatMap (pressTurns debounce) ++ rest }, ?_, hdone.congr (by rfl), rfl⟩
  rw [List.flatMap_cons, pressTurns_eq, List.append_assoc, List.append_assoc, hruns, List.singleton_append,
    drive_main_of_end hv hdone.todo]
  rfl

/-- CAPTURE takes presses until its verdict. -/
theorem drive_presses (hr : r.toNat ≤ 15) (left : List Press) (rest : List Config.Turn) :
    ∀ {xs : List Press} {p : Nat} {es : List Event} {t : State}, p ≤ r.toNat → (∀ x ∈ xs, x.ok = true) →
      CapAt s [.capPoll seq r] es p t →
      captureVerdict seq r.toNat p (xs.map (·.button)) = some (over_, n, left.map (·.button)) → left <:+ xs →
      ∃ u taken, drive id (xs.flatMap (pressTurns s.launch.params.wDebounce.toNat) ++ rest) t = .next u ∧
        xs = taken ++ left ∧ CapDone s (es ++ pressTrace (taken.map (·.button))) over_ n u ∧
        u.turns = left.flatMap (pressTurns s.launch.params.wDebounce.toNat) ++ rest
  | [], p, es, t, _, _, _, hverdict, _ => by cases hverdict
  | x :: xs, p, es, t, hp, hok, ht, hverdict, hsuffix => by
    obtain ⟨hx, hok⟩ := List.forall_mem_cons.1 hok
    obtain ⟨u, hruns, hu⟩ := runs_press hr hp hx ht
    have hes : es ++ [.ind (x.button = .a) (x.button = .b)] ++ [.ind false false] = es ++ pressTrace [x.button] := by
      rw [List.append_assoc]
      rfl
    rw [List.map_cons, captureVerdict] at hverdict
    by_cases hmatch : seqBit seq p = bitOf x.button
    · rw [if_neg (not_not_intro hmatch)] at hverdict
      by_cases hlast : p = r.toNat
      · rw [if_pos hlast, Option.some.injEq, Prod.mk.injEq, Prod.mk.injEq] at hverdict
        obtain ⟨rfl, rfl, hleft⟩ := hverdict
        obtain rfl := left_eq_tail hsuffix hleft
        subst hlast
        obtain ⟨v, hv, hdone⟩ := hu.complete hr hmatch
        rw [hes] at hdone
        obtain ⟨w, hw, hdone, hturns⟩ := drive_last_press (xs := left) (rest := rest) hruns hv hdone
        exact ⟨w, [x], hw, rfl, hdone, hturns⟩
      · rw [if_neg hlast] at hverdict
        obtain ⟨v, hv, hpoll⟩ := hu.accept (by omega) hr hmatch
        rw [hes] at hpoll
        have hlen := length_left_lt hverdict
        have hsuffix : left <:+ xs := (List.suffix_cons_iff.1 hsuffix).resolve_left fun h => by
          rw [h] at hlen
          simp at hlen
        obtain ⟨w, taken, hw, hsplit, hdone, hturns⟩ := drive_presses hr left rest (by omega) hok hpoll hverdict hsuffix
        refine ⟨w, x :: taken, ?_, by rw [hsplit]; rfl, ?_, hturns⟩
        · rw [List.flatMap_cons, pressTurns_eq, List.append_assoc, List.append_assoc, hruns, runs_main hv hpoll.todo_ne]
          exact hw
        · rw [List.append_assoc] at hdone
          exact hdone
    · rw [if_pos hmatch, Option.some.injEq, Prod.mk.injEq, Prod.mk.injEq] at hverdict
      obtain ⟨rfl, rfl, hleft⟩ := hverdict
      obtain rfl := left_eq_tail hsuffix hleft
      obtain ⟨v, hv, hdone⟩ := hu.mismatch hp hr hmatch
      rw [hes] at hdone
      obtain ⟨w, hw, hdone, hturns⟩ := drive_last_press (xs := left) (rest := rest) hruns hv hdone
      exact ⟨w, [x], hw, rfl, hdone, hturns⟩

end

end Sys2Proof.Proofs
end

section
/-! CAPTURE's verdict, on the presses of a script and in every run that ends. -/

namespace Sys2Proof.Proofs

open Sys2Proof.Machine
open Sys2Proof.Safety
open Sys2Proof.Laws

/-! ### The entry -/

/-- Before the first write of GO. -/
theorem clearing_before (seq : Word16) (r : Byte) (s : State) : Clearing s seq r 0 (before (bodyCapture seq r) s) := by
  have hshown := wordShown_of_wordShown litGo s
  have hword : wordShown litGo s = written 1 litGo (written 0 (List.replicate 7 Config.blank) s) := by
    rw [wordShown, wordPut, if_neg (by decide)]
  refine ⟨by decide, rfl, rfl, ?_, ?_⟩
  · rw [← hshown.trace, hword, written_trace, written_trace]
    rfl
  · intro j hj
    rw [← hshown.disp j hj, hword, written_disp, written_disp]
    rfl

theorem exec_capture {r : Byte} (hr : r.toNat ≤ 15) (seq : Word16) (s : State) :
    exec (.capture seq r) s = runCommand (bodyCapture seq r) endWithResponse s := if_pos hr

theorem round_of_exec_capture {seq : Word16} {r : Byte} {s t : State} (h : exec (.capture seq r) s = .next t) :
    r.toNat ≤ 15 := by
  by_contra hr
  have hrefused : exec (.capture seq r) s = .refused (.inadmissible .round) := requireRound_refused (Nat.not_le.1 hr) _
  rw [hrefused] at h
  cases h

theorem settle_bodyCapture (n : Nat) (seq : Word16) (r : Byte) (s : State) :
    settle n (before (bodyCapture seq r) s) = .next (before (bodyCapture seq r) s) :=
  settle_front (st := .clear 0) (ls := [.putWord litGo, .capStart seq r]) rfl rfl

/-- CAPTURE through prescribed turns. -/
theorem exec_capture_turns {r : Byte} (hr : r.toNat ≤ 15) (seq : Word16) {s : State} (hs : s.todo = []) (hturns : s.turns ≠ []) :
    exec (.capture seq r) s = andThen (drive id s.turns { before (bodyCapture seq r) s with turns := [] }) fun t =>
      if t.todo = [] then .next (endWithResponse t) else .next t := by
  have hbegun : begun (fun s => .next (push (bodyCapture seq r) s)) s = .next (before (bodyCapture seq r) s) := by
    rw [begun, if_pos hs, beginOperation, push_eq_before hs, andThen_next, settle_bodyCapture]
  have hne : bodyCapture seq r ≠ [] := List.cons_ne_nil _ _
  have hrun := runOperation_turns (turnsBlind_push (bodyCapture seq r)) endWithResponse s hturns
  rw [hbegun, andThen_next, if_neg (by exact hne), drive_finish _ _ _ (by exact hne)] at hrun
  rw [exec_capture hr]
  exact hrun

/-- CAPTURE's end, from where its loop came to. -/
theorem capture_ended {s u : State} {seq : Word16} {r : Byte} {es : List Event} {over_ : Bool} {n : Nat}
    (hexec : exec (.capture seq r) s = .next (endWithResponse u)) (h : CapDone s es over_ n u) :
    (endWithResponse u).cidx = s.cidx + 1 ∧ (endWithResponse u).ret = (if over_ then 1 else 0) ∧
      (endWithResponse u).pcntPress = some (BitVec.ofNat 5 n) ∧ (endWithResponse u).outReg = 0 ∧
      (endWithResponse u).trace = s.trace ++ showWordTrace litGo ++ es ++ [.resp (if over_ then 1 else 0)] ∧
      ∀ slot < 7, (endWithResponse u).disp[slot]? = some (wordSlot litGo slot) := by
  have hcidx := exec_cidx hexec
  rw [if_pos (by exact h.todo)] at hcidx
  refine ⟨hcidx, h.ret, h.pcntPress, h.outReg, ?_, h.disp⟩
  have htrace : (endWithResponse u).trace = u.trace ++ [.resp u.ret] := rfl
  rw [htrace, h.trace, h.ret]
  simp only [List.append_assoc]

/-! ### Every run -/

/-- These presses have all matched, so the verdict is that on the presses to come. -/
def Accepted (seq : Word16) (r : Byte) (xs : List Config.Button) : Prop :=
  xs.length ≤ r.toNat ∧ ∀ ys, captureVerdict seq r.toNat 0 (xs ++ ys) = captureVerdict seq r.toNat xs.length ys

theorem accepted_nil (seq : Word16) (r : Byte) : Accepted seq r [] := ⟨Nat.zero_le _, fun _ => rfl⟩

theorem captureVerdict_accept {seq : Word16} {r p : Nat} {x : Config.Button} (hx : seqBit seq p = bitOf x) (hp : p ≠ r)
    (ys : List Config.Button) : captureVerdict seq r p (x :: ys) = captureVerdict seq r (p + 1) ys := by
  rw [captureVerdict, if_neg (not_not_intro hx), if_neg hp]

theorem Accepted.snoc {seq : Word16} {r : Byte} {xs : List Config.Button} (h : Accepted seq r xs) {x : Config.Button}
    (hx : seqBit seq xs.length = bitOf x) (hlt : xs.length < r.toNat) : Accepted seq r (xs ++ [x]) := by
  refine ⟨by simpa using hlt, fun ys => ?_⟩
  rw [List.append_assoc, List.singleton_append, h.2, captureVerdict_accept hx hlt.ne, List.length_append,
    List.length_singleton]

/-- Where a press in progress stands. -/
inductive InPress (s : State) (seq : Word16) (r : Byte) (es : List Event) (p : Nat) (x : Config.Button) (t : State) : Prop
  | pressed (h : CapAt s (pressedLines s.launch.params.wDebounce seq r x) es p t)
  | waiting (d : Word16) (h : CapWaits s (heldLines seq r x) (es ++ [.ind (x = .a) (x = .b)]) p d t)
  | released (h : CapAt s (releasedLines seq r x) (es ++ [.ind (x = .a) (x = .b)]) p t)

/-- Where CAPTURE stands, in any run. -/
inductive InCapture (s : State) (seq : Word16) (r : Byte) (t : State) : Prop
  | clearing (k : Nat) (h : Clearing s seq r k t)
  | spelling (k : Nat) (h : Spelling s seq r k t)
  | polling (xs : List Config.Button) (hxs : Accepted seq r xs)
      (h : CapAt s [.capPoll seq r] (pressTrace xs) xs.length t)
  | press (xs : List Config.Button) (x : Config.Button) (hxs : Accepted seq r xs)
      (h : InPress s seq r (pressTrace xs) xs.length x t)
  | done (xs : List Config.Button) (over_ : Bool) (n : Nat) (hxs : captureVerdict seq r.toNat 0 xs = some (over_, n, []))
      (h : CapDone s (pressTrace xs) over_ n t)

section

variable {s t : State} {seq : Word16} {r : Byte}

theorem InPress.congr {u : State} {es : List Event} {p : Nat} {x : Config.Button} (hv : view t = view u)
    (h : InPress s seq r es p x u) : InPress s seq r es p x t := by
  cases h with
  | pressed h => exact .pressed (h.congr hv)
  | waiting d h => exact .waiting d (h.congr hv)
  | released h => exact .released (h.congr hv)

theorem InCapture.congr {u : State} (hv : view t = view u) (h : InCapture s seq r u) : InCapture s seq r t := by
  cases h with
  | clearing k h => exact .clearing k (h.congr hv)
  | spelling k h => exact .spelling k (h.congr hv)
  | polling xs hxs h => exact .polling xs hxs (h.congr hv)
  | press xs x hxs h => exact .press xs x hxs (h.congr hv)
  | done xs o n hxs h => exact .done xs o n hxs (h.congr hv)

theorem pressTrace_snoc (xs : List Config.Button) (x : Config.Button) : pressTrace (xs ++ [x]) =
    pressTrace xs ++ [.ind (x = .a) (x = .b)] ++ [.ind false false] := by
  rw [pressTrace, List.flatMap_append, List.append_assoc]
  rfl

/-- The end of a press: another poll, or the verdict. -/
theorem released_acts (hr : r.toNat ≤ 15) {xs : List Config.Button} (hxs : Accepted seq r xs) {x : Config.Button}
    (h : CapAt s (releasedLines seq r x) (pressTrace xs ++ [.ind (x = .a) (x = .b)]) xs.length t) :
    ∃ u, mainAct t = .next u ∧ InCapture s seq r u := by
  obtain ⟨hlen, hverdict⟩ := hxs
  by_cases hx : seqBit seq xs.length = bitOf x
  · by_cases hlast : xs.length = r.toNat
    · rw [hlast] at h hx hverdict
      obtain ⟨u, hu, hdone⟩ := h.complete hr hx
      rw [← pressTrace_snoc] at hdone
      refine ⟨u, hu, .done (xs ++ [x]) false (r.toNat + 1) ?_ hdone⟩
      rw [hverdict, captureVerdict, if_neg (not_not_intro hx), if_pos rfl]
    · have hlt : xs.length < r.toNat := lt_of_le_of_ne hlen hlast
      obtain ⟨u, hu, hpoll⟩ := h.accept hlt hr hx
      rw [← pressTrace_snoc] at hpoll
      refine ⟨u, hu, .polling (xs ++ [x]) (Accepted.snoc ⟨hlen, hverdict⟩ hx hlt) ?_⟩
      rwa [List.length_append, List.length_singleton]
  · obtain ⟨u, hu, hdone⟩ := h.mismatch hlen hr hx
    rw [← pressTrace_snoc] at hdone
    refine ⟨u, hu, .done (xs ++ [x]) true xs.length ?_ hdone⟩
    rw [hverdict, captureVerdict, if_pos hx]

/-- MAIN's turn in a press. -/
theorem inPress_acts (hr : r.toNat ≤ 15) {xs : List Config.Button} (hxs : Accepted seq r xs) {x : Config.Button}
    (h : InPress s seq r (pressTrace xs) xs.length x t) : ∃ u, mainAct t = .next u ∧ InCapture s seq r u := by
  cases h with
  | pressed h =>
    obtain ⟨u, hu, hlit⟩ := h.light
    exact ⟨u, hu, .press xs x hxs (.waiting _ hlit)⟩
  | waiting d h =>
    by_cases h0 : d = 0
    · have hstands := h.stands
      rw [if_pos h0, List.nil_append] at hstands
      cases hx : levelsPress x t.inReg with
      | true =>
        obtain ⟨u, hu, hwait⟩ := hstands.hold hx
        exact ⟨u, hu, .press xs x hxs (.waiting _ hwait)⟩
      | false =>
        obtain ⟨u, hu, hreleased⟩ := hstands.release hx
        exact ⟨u, hu, .press xs x hxs (.released hreleased)⟩
    · obtain ⟨u, hu, hwait⟩ := h.poll (st := .hold x) rfl h0
      exact ⟨u, hu, .press xs x hxs (.waiting _ hwait)⟩
  | released h => exact released_acts hr hxs h

/-- MAIN's turn in CAPTURE. -/
theorem inCapture_acts (hr : r.toNat ≤ 15) (h : InCapture s seq r t) : ∃ u, mainAct t = .next u ∧ InCapture s seq r u := by
  cases h with
  | clearing k h =>
    by_cases hk : k + 1 < 7
    · obtain ⟨u, hu, hnext⟩ := h.act hk
      exact ⟨u, hu, .clearing _ hnext⟩
    · obtain rfl : k = 6 := by have := h.1; omega
      obtain ⟨u, hu, hspell⟩ := h.last
      exact ⟨u, hu, .spelling _ hspell⟩
  | spelling k h =>
    obtain rfl | rfl : k = 0 ∨ k = 1 := by have := h.1; omega
    · obtain ⟨u, hu, hnext⟩ := h.first
      exact ⟨u, hu, .spelling _ hnext⟩
    · obtain ⟨u, hu, hpoll⟩ := h.last hr
      exact ⟨u, hu, .polling [] (accepted_nil seq r) hpoll⟩
  | polling xs hxs h =>
    cases hx : pressAt t.inReg with
    | none =>
      obtain ⟨u, hu, hpoll⟩ := h.poll_idle hr hxs.1 hx
      exact ⟨u, hu, .polling xs hxs hpoll⟩
    | some x =>
      obtain ⟨u, hu, hpressed⟩ := h.poll_press hx
      exact ⟨u, hu, .press xs x hxs (.pressed hpressed)⟩
  | press xs x hxs h => exact inPress_acts hr hxs h
  | done xs o n hxs h =>
    refine ⟨t, ?_, .done xs o n hxs h⟩
    unfold mainAct
    rw [h.todo]

/-- Where no line is left CAPTURE has come to its verdict. -/
theorem inCapture_ended (h : InCapture s seq r t) (ht : t.todo = []) : ∃ (xs : List Config.Button) (over_ : Bool) (n : Nat),
    captureVerdict seq r.toNat 0 xs = some (over_, n, []) ∧ CapDone s (pressTrace xs) over_ n t := by
  cases h with
  | clearing k h => exact absurd ht h.2.todo_ne
  | spelling k h => exact absurd ht h.2.2.todo_ne
  | polling xs hxs h => exact absurd ht h.todo_ne
  | press xs x hxs h =>
    cases h with
    | pressed h => exact absurd ht h.todo_ne
    | waiting d h => exact absurd ht h.todo_ne
    | released h => exact absurd ht h.todo_ne
  | done xs o n hxs h => exact ⟨xs, o, n, hxs, h⟩

/-- CAPTURE stands there throughout its run. -/
theorem runCommand_inCapture (hr : r.toNat ≤ 15) (hs : s.todo = []) :
    onNext (runCommand (bodyCapture seq r) id s) (InCapture s seq r) := by
  refine runOperation_onNext (I := InCapture s seq r) (fun _ => ?begin) (fun h => absurd hs h)
    (fun u hu v hv => ?act) (fun a u hu => hu.congr (view_agentAct a u)) (fun u ts n hu => hu.congr (by rfl))
    (fun _ hu _ => hu) (fun _ hu _ => hu)
  case begin =>
    rw [beginOperation, push_eq_before hs, andThen_next, settle_bodyCapture, onNext_next]
    exact .clearing 0 (clearing_before seq r s)
  case act =>
    obtain ⟨w, hw, hin⟩ := inCapture_acts hr hu
    rw [hw] at hv
    cases hv
    exact hin

end

/-- Settles O45: the script's presses one by one, and for every run the invariant of where CAPTURE stands. -/
theorem captureJudgesThePresses : Obligations.CaptureJudgesThePresses := by
  unfold Obligations.CaptureJudgesThePresses
  refine fun s seq r hs => ⟨fun xs left over_ n rest hr hok hverdict hsuffix hturns => ?script, fun t ht hdone => ?ended⟩
  case script =>
    have hne : s.turns ≠ [] := by
      rw [hturns]
      exact List.cons_ne_nil _ _
    have hexec := exec_capture_turns hr seq hs hne
    obtain ⟨u, hruns, hpoll⟩ := runs_go (t := { before (bodyCapture seq r) s with turns := [] }) hr
      ((clearing_before seq r s).congr (by rfl))
    obtain ⟨v, taken, hv, hsplit, hended, hleft⟩ := drive_presses hr left rest (Nat.zero_le _) hok hpoll hverdict hsuffix
    have hdrive : drive id s.turns { before (bodyCapture seq r) s with turns := [] } = .next v := by
      rw [hturns, captureTurns, List.append_assoc, hruns]
      exact hv
    rw [hdrive, andThen_next, if_pos hended.todo] at hexec
    obtain ⟨hcidx, hret, hpcnt, hout, htrace, hdisp⟩ := capture_ended hexec hended
    exact ⟨endWithResponse v, taken, hexec, hsplit, hended.todo, hcidx, hret, hpcnt, hout, htrace, hleft, hdisp⟩
  case ended =>
    have hr := round_of_exec_capture ht
    have hrun := ht
    rw [exec_capture hr, runCommand, runOperation_finish, andThen_eq_next] at hrun
    obtain ⟨u, hu, hend⟩ := hrun
    have hin := runCommand_inCapture hr hs u hu
    have hudone : u.todo = [] := by
      by_contra hgo
      rw [if_neg hgo] at hend
      cases hend
      exact hgo hdone
    rw [if_pos hudone] at hend
    obtain rfl := Host.Outcome.next.inj hend
    obtain ⟨xs, o, n, hverdict, hcapDone⟩ := inCapture_ended hin hudone
    exact ⟨xs, o, n, hverdict, capture_ended ht hcapDone⟩

end Sys2Proof.Proofs
end
